-- ==== Sys2Proof/Word.lean ====
section
/-! DEFINITION. Bytes, words and the two readings of a word (rule R8 of 00_scope.md). -/

namespace Sys2Proof

/-- A byte is 8 bits (R8). -/
abbrev Byte := BitVec 8

/-- A word is 16 bits (R8). -/
abbrev Word := BitVec 16

/-- `s16(v)`: the signed reading of a word (R8). -/
def s16 (v : Word) : Int := v.toInt

/-- `u16(v)`: an exact integer reduced modulo 65536 to a word (R8). -/
def u16 (v : Int) : Word := BitVec.ofInt 16 v

end Sys2Proof
end

