-- ==== Sys2Proof/Frame.lean ====
section
/-! DEFINITION. The plain data the machine's state is made of: frames (R21 of 10_state.md), text tokens
(R260 of 45_text.md), the saved state (R327 of 47_host_io.md) and the host requests (R311). -/

namespace Sys2Proof

/-- One frame of the call stack (R21). -/
structure Frame where
  /-- The frame's program counter, `PC_BITS` = 32 bits. -/
  pc : BitVec 32
  /-- "caller expects a stored result". -/
  storeResult : Bool
  /-- How many arguments the call that made the frame supplied (0 to 7). -/
  argc : Nat
  /-- `locals[1..15]`; local `n` is entry `n - 1`. -/
  locals : Vector Word 15
  /-- The private operand stack. R21 writes it with the top last; here the top is the FIRST entry. -/
  stack : List Word
deriving DecidableEq, Repr

/-- An output token (R260). -/
inductive Token where
  | char (code : Word)
  | newline
deriving DecidableEq, Repr

/-- The saved state (R327). `frames` is bottom first. -/
structure Snapshot where
  readParse : Word
  readText : Word
  dyn : List Byte
  frames : List Frame
deriving DecidableEq, Repr

/-- The host requests, each with its reply where the request is answered at once (R310, R311). -/
inductive Request where
  | print (text : List Token)
  | readLine (maxLength : Byte)
  | readChar (reply : Word)
  | setCursor (line column window : Word)
  | setActiveWindow (window : Word)
  | eraseWindow (window : Word)
  | splitWindow (lines : Word)
  | showStatusLine
  | setTextStyle (style : Word)
  | setColor (foreground background : Word)
  | setBufferMode (enabled : Bool)
  | playSound (effectNumber : Word)
  | save (snapshot : Snapshot) (reply : Bool)
  | restore (reply : Option Snapshot)
  | quit
deriving DecidableEq, Repr

end Sys2Proof
end

