-- ==== Sys2Proof/Config.lean ====
section
/-! DEFINITION. What is fixed for one machine: the open parameters of rule R6 of 00_scope.md, and the free
values of the model (opaque constants with no body; log entries 3 and 4). -/

namespace Sys2Proof

/-- The order of the branch field and the store byte in an instruction that has both (R109). -/
inductive FieldOrder where
  | branchThenStore
  | storeThenBranch
deriving DecidableEq, Repr

/-- The OPEN parameters of R6 other than `STORY`; each default is the one R6 gives. `none` is "unbounded". -/
structure Params where
  /-- `FRAME_DEPTH` -/
  frameDepth : Option Nat := none
  /-- `STACK_DEPTH` -/
  stackDepth : Option Nat := none
  /-- `ABBREV_DEPTH` -/
  abbrevDepth : Option Nat := none
  /-- `FIELD_ORDER` -/
  fieldOrder : FieldOrder := .branchThenStore
  /-- `TEXT_POS_BASE` -/
  textPosBase : Nat := 0
deriving DecidableEq, Repr

/-- A value is within an optional limit. -/
def withinLimit (n : Nat) : Option Nat → Bool
  | none => true
  | some limit => decide (n ≤ limit)

namespace Config

/-- The reply to `readChar()` for the n-th draw: any word (R312). -/
opaque hostKey : Nat → Word

/-- The reply to `save(stream)` for the n-th draw: either boolean (R312). -/
opaque hostSaveOk : Nat → Bool

/-- The reply to `restore()` for the n-th draw: none or any snapshot (R312). -/
opaque hostRestore : Nat → Option Snapshot

/-- The number behind a random result, from the generator's state and the draw count (R335, R37). -/
opaque randomDraw : Nat → Nat → Nat

/-- The generator's state after a result (R335: "RNG advances"). -/
opaque rngAdvanced : Nat → Nat → Nat

/-- The generator's state after a reseed, from its state, the draw count and the operand (R335). -/
opaque rngReseeded : Nat → Nat → Int → Nat

end Config

end Sys2Proof
end

