-- ==== Sys2Proof/Operand.lean ====
section
/-! DEFINITION. Operands and the ways an encoding gives them (rules R92 to R101 of 30_encoding.md). -/

namespace Sys2Proof

/-- One operand as the instruction stream gives it (R100). -/
inductive Operand where
  /-- Type code 00: a two-byte constant. -/
  | large (w : Word)
  /-- Type code 01: a one-byte constant, zero-extended when read. -/
  | small (b : Byte)
  /-- Type code 10: the number of a variable, read when the operand is fetched. -/
  | var (n : Byte)
deriving DecidableEq, Repr

/-- The three operand types that are present in the stream (R100); code 11 is "omitted" and ends a list. -/
inductive OperandType where
  | large
  | small
  | var
deriving DecidableEq, Repr

/-- An operand of the long form, whose one type bit allows a small constant or a variable (R94). -/
inductive LongArg where
  | small (b : Byte)
  | var (n : Byte)
deriving DecidableEq, Repr

/-- The operands of a two-operand-table instruction: the long form gives two (R94), the variable form as
many as its type byte says (R97). -/
inductive Args2 where
  | long (a b : LongArg)
  | typed (ops : List Operand)
deriving DecidableEq, Repr

/-- The two encodings of `SAVE` and of `RESTORE`: a no-operand slot, or an extended slot whose operands are
fetched and ignored (R119, R328, R330). -/
inductive SaveForm where
  | short
  | extended (ops : List Operand)
deriving DecidableEq, Repr

/-- An encoding whose dispatch slot is unpopulated, by form (R114; the last row of opcode_table.json).
`slot` is the table index; the extended form keeps the whole second opcode byte, which R114 records. -/
inductive Unpopulated where
  | long (slot : BitVec 5) (a b : LongArg)
  | typed2 (slot : BitVec 5) (ops : List Operand)
  | zero (slot : BitVec 4)
  | typedVar (slot : BitVec 5) (ops : List Operand)
  | extended (e : Byte) (ops : List Operand)
deriving DecidableEq, Repr

end Sys2Proof
end

