-- ==== Sys2Proof/Syntax.lean ====
section
/-! DEFINITION. The instructions: one constructor for each mnemonic of spec/opcode_table.json.
A term holds what the decoder reads up to the last operand (parts 1 to 5 of rule R90 of 30_encoding.md).
The store byte, the branch field and the inline text (parts 6 and 7) are read from memory while the
instruction runs, as the rules write it (R104, R107, R110, R283): `Sys2Proof.Tail` describes them. -/

namespace Sys2Proof

inductive Instr where
  -- table 2OP (R115)
  | je (args : Args2)
  | jl (args : Args2)
  | jg (args : Args2)
  | decChk (args : Args2)
  | incChk (args : Args2)
  | jin (args : Args2)
  | test (args : Args2)
  | or (args : Args2)
  | and (args : Args2)
  | testAttr (args : Args2)
  | setAttr (args : Args2)
  | clearAttr (args : Args2)
  | store (args : Args2)
  | insertObj (args : Args2)
  | loadw (args : Args2)
  | loadb (args : Args2)
  | getProp (args : Args2)
  | getPropAddr (args : Args2)
  | getNextProp (args : Args2)
  | add (args : Args2)
  | sub (args : Args2)
  | mul (args : Args2)
  | div (args : Args2)
  | mod (args : Args2)
  | call2s (args : Args2)
  | call2n (args : Args2)
  | setColour (args : Args2)
  -- table 1OP (R116)
  | jz (a : Operand)
  | getSibling (a : Operand)
  | getChild (a : Operand)
  | getParent (a : Operand)
  | getPropLen (a : Operand)
  | inc (a : Operand)
  | dec (a : Operand)
  | printAddr (a : Operand)
  | call1s (a : Operand)
  | removeObj (a : Operand)
  | printObj (a : Operand)
  | ret (a : Operand)
  | jump (a : Operand)
  | printPaddr (a : Operand)
  | load (a : Operand)
  | not (a : Operand)
  | call1n (a : Operand)
  -- table 0OP (R117)
  | rtrue
  | rfalse
  | print
  | printRet
  | nop
  | save (form : SaveForm)
  | restore (form : SaveForm)
  | restart
  | retPopped
  | pop
  | quit
  | newLine
  | showStatus
  -- table VAR (R118)
  | call (ops : List Operand)
  | storew (ops : List Operand)
  | storeb (ops : List Operand)
  | putProp (ops : List Operand)
  | read (ops : List Operand)
  | printChar (ops : List Operand)
  | printNum (ops : List Operand)
  | random (ops : List Operand)
  | push (ops : List Operand)
  | pull (ops : List Operand)
  | splitWindow (ops : List Operand)
  | setWindow (ops : List Operand)
  | callVs2 (ops1 ops2 : List Operand)
  | eraseWindow (ops : List Operand)
  | setCursor (ops : List Operand)
  | setTextStyle (ops : List Operand)
  | bufferMode (ops : List Operand)
  | soundEffect (ops : List Operand)
  | readChar (ops : List Operand)
  | callVn (ops : List Operand)
  | callVn2 (ops1 ops2 : List Operand)
  | checkArgCount (ops : List Operand)
  -- every slot the tables leave empty (R114)
  | unpopulatedSlot (u : Unpopulated)
deriving DecidableEq, Repr

end Sys2Proof
end

