-- ==== Sys2Proof/WellFormed.lean ====
section
/-! DEFINITION. Which terms of `Instr` are encodings: the limits an operand list and a slot number must
keep so that the bytes of rules R92 to R101 of 30_encoding.md can carry them. -/

namespace Sys2Proof

/-- One type byte has four fields, so it gives at most four operands (R101). -/
def typeByteFits (ops : List Operand) : Bool := decide (ops.length ≤ 4)

/-- The operands of the 2OP table fit their form. -/
def Args2.wellFormed : Args2 → Bool
  | .long _ _ => true
  | .typed ops => typeByteFits ops

/-- The operands of the extended form fit its type byte. -/
def SaveForm.wellFormed : SaveForm → Bool
  | .short => true
  | .extended ops => typeByteFits ops

/-- The slots R115 leaves empty in the 2OP table: 0x00 and 0x1C to 0x1F. -/
def emptySlot2 (slot : Nat) : Bool := slot == 0x00 || decide (0x1C ≤ slot)

/-- The slots R117 leaves empty in the 0OP table: 0xD and 0xF (0xE is never reached, R92). -/
def emptySlot0 (slot : Nat) : Bool := slot == 0xD || slot == 0xF

/-- The slots R118 leaves empty in the VAR table. -/
def emptySlotVar (slot : Nat) : Bool :=
  [0x0E, 0x10, 0x13, 0x14, 0x17, 0x18, 0x1B, 0x1C, 0x1D, 0x1E].contains slot

/-- The slots R119 leaves empty in the EXT table: 0x02 to 0x1F. -/
def emptySlotExt (slot : Nat) : Bool := decide (0x02 ≤ slot)

/-- An unpopulated-slot term names a slot its table leaves empty (R114 to R119). -/
def Unpopulated.wellFormed : Unpopulated → Bool
  | .long slot _ _ => emptySlot2 slot.toNat
  | .typed2 slot ops => emptySlot2 slot.toNat && typeByteFits ops
  | .zero slot => emptySlot0 slot.toNat
  | .typedVar slot ops => emptySlotVar slot.toNat && typeByteFits ops
  | .extended e ops => emptySlotExt (e.toNat % 32) && typeByteFits ops

/-- The term is the reading of some bytes. -/
def Instr.wellFormed : Instr → Bool
  | .je a | .jl a | .jg a | .decChk a | .incChk a | .jin a | .test a | .or a | .and a | .testAttr a
  | .setAttr a | .clearAttr a | .store a | .insertObj a | .loadw a | .loadb a | .getProp a
  | .getPropAddr a | .getNextProp a | .add a | .sub a | .mul a | .div a | .mod a | .call2s a
  | .call2n a | .setColour a => a.wellFormed
  | .jz _ | .getSibling _ | .getChild _ | .getParent _ | .getPropLen _ | .inc _ | .dec _
  | .printAddr _ | .call1s _ | .removeObj _ | .printObj _ | .ret _ | .jump _ | .printPaddr _
  | .load _ | .not _ | .call1n _ => true
  | .rtrue | .rfalse | .print | .printRet | .nop | .restart | .retPopped | .pop | .quit | .newLine
  | .showStatus => true
  | .save f | .restore f => f.wellFormed
  | .call ops | .storew ops | .storeb ops | .putProp ops | .read ops | .printChar ops
  | .printNum ops | .random ops | .push ops | .pull ops | .splitWindow ops | .setWindow ops
  | .eraseWindow ops | .setCursor ops | .setTextStyle ops | .bufferMode ops | .soundEffect ops
  | .readChar ops | .callVn ops | .checkArgCount ops => typeByteFits ops
  | .callVs2 ops1 ops2 | .callVn2 ops1 ops2 => typeByteFits ops1 && typeByteFits ops2
  | .unpopulatedSlot u => u.wellFormed

end Sys2Proof
end

