-- ==== Sys2Proof/Decode.lean ====
section
/-! DEFINITION. The decoder of rules R90 to R121 of 30_encoding.md as a total function on any bytes, and after
it the encoder written from the same tables. The decoder reads parts 1 to 5 of an instruction; the result
fields and the inline text (parts 6 and 7) are `Tail`, with a decoder and an encoder of their own. -/

namespace Sys2Proof

/-- `SLOT_1OP_0F`: which instruction the version-dependent 1OP slot 0x0F names (R34 of 10_state.md, R113). -/
inductive Slot1Op0F where
  | not
  | call1n
deriving DecidableEq, Repr

/-- The one way the decoder rejects bytes: they end inside the instruction. `head` is how many bytes before
the operands were there, `ops` the operands that were complete; the fetch after them found no byte. -/
structure Truncated where
  head : Nat
  ops : List Operand
deriving DecidableEq, Repr

/-! ### Decoder -/

/-- The operand type codes (R100); 11 is "omitted". -/
def operandType : BitVec 2 → Option OperandType
  | 0b00#2 => some .large
  | 0b01#2 => some .small
  | 0b10#2 => some .var
  | _ => none

/-- The four fields of a type byte, field 0 in bits 7:6 (R101). -/
def typeFields (t : Byte) : List (BitVec 2) :=
  [t.extractLsb' 6 2, t.extractLsb' 4 2, t.extractLsb' 2 2, t.extractLsb' 0 2]

/-- The scan of R101: it stops at the first omitted code and does not look at later fields. -/
def scanTypes : List (BitVec 2) → List OperandType
  | [] => []
  | c :: cs =>
    match operandType c with
    | none => []
    | some ty => ty :: scanTypes cs

/-- The operand types a type byte gives. -/
def typesOf (t : Byte) : List OperandType := scanTypes (typeFields t)

/-- The stream bytes of one operand of a given type (R100); a large constant is big-endian. -/
def takeOperand : OperandType → List Byte → Option (Operand × List Byte)
  | .large, hi :: lo :: bs => some (.large (hi ++ lo), bs)
  | .small, b :: bs => some (.small b, bs)
  | .var, n :: bs => some (.var n, bs)
  | _, _ => none

/-- Operands left to right (R102). Where the bytes end, the error carries the operands before. -/
def takeOperands : List OperandType → List Byte → Except (List Operand) (List Operand × List Byte)
  | [], bs => .ok ([], bs)
  | ty :: tys, bs =>
    match takeOperand ty bs with
    | none => .error []
    | some (op, bs') =>
      match takeOperands tys bs' with
      | .ok (ops, rest) => .ok (op :: ops, rest)
      | .error ops => .error (op :: ops)

/-- The 2OP table (R115). -/
def table2 (slot : Nat) (args : Args2) : Option Instr :=
  match slot with
  | 0x01 => some (.je args)
  | 0x02 => some (.jl args)
  | 0x03 => some (.jg args)
  | 0x04 => some (.decChk args)
  | 0x05 => some (.incChk args)
  | 0x06 => some (.jin args)
  | 0x07 => some (.test args)
  | 0x08 => some (.or args)
  | 0x09 => some (.and args)
  | 0x0A => some (.testAttr args)
  | 0x0B => some (.setAttr args)
  | 0x0C => some (.clearAttr args)
  | 0x0D => some (.store args)
  | 0x0E => some (.insertObj args)
  | 0x0F => some (.loadw args)
  | 0x10 => some (.loadb args)
  | 0x11 => some (.getProp args)
  | 0x12 => some (.getPropAddr args)
  | 0x13 => some (.getNextProp args)
  | 0x14 => some (.add args)
  | 0x15 => some (.sub args)
  | 0x16 => some (.mul args)
  | 0x17 => some (.div args)
  | 0x18 => some (.mod args)
  | 0x19 => some (.call2s args)
  | 0x1A => some (.call2n args)
  | 0x1B => some (.setColour args)
  | _ => none

/-- The 1OP table (R116); slot 0xF is `SLOT_1OP_0F` (R113). -/
def table1 (sl : Slot1Op0F) (slot : Nat) (a : Operand) : Instr :=
  match slot with
  | 0x0 => .jz a
  | 0x1 => .getSibling a
  | 0x2 => .getChild a
  | 0x3 => .getParent a
  | 0x4 => .getPropLen a
  | 0x5 => .inc a
  | 0x6 => .dec a
  | 0x7 => .printAddr a
  | 0x8 => .call1s a
  | 0x9 => .removeObj a
  | 0xA => .printObj a
  | 0xB => .ret a
  | 0xC => .jump a
  | 0xD => .printPaddr a
  | 0xE => .load a
  | _ =>
    match sl with
    | .not => .not a
    | .call1n => .call1n a

/-- The 0OP table (R117); 0xBE is never dispatched here (R92). -/
def table0 (slot : Nat) : Option Instr :=
  match slot with
  | 0x0 => some .rtrue
  | 0x1 => some .rfalse
  | 0x2 => some .print
  | 0x3 => some .printRet
  | 0x4 => some .nop
  | 0x5 => some (.save .short)
  | 0x6 => some (.restore .short)
  | 0x7 => some .restart
  | 0x8 => some .retPopped
  | 0x9 => some .pop
  | 0xA => some .quit
  | 0xB => some .newLine
  | 0xC => some .showStatus
  | _ => none

/-- The VAR table (R118), less the two slots with a second type byte. -/
def tableVar (slot : Nat) (ops : List Operand) : Option Instr :=
  match slot with
  | 0x00 => some (.call ops)
  | 0x01 => some (.storew ops)
  | 0x02 => some (.storeb ops)
  | 0x03 => some (.putProp ops)
  | 0x04 => some (.read ops)
  | 0x05 => some (.printChar ops)
  | 0x06 => some (.printNum ops)
  | 0x07 => some (.random ops)
  | 0x08 => some (.push ops)
  | 0x09 => some (.pull ops)
  | 0x0A => some (.splitWindow ops)
  | 0x0B => some (.setWindow ops)
  | 0x0D => some (.eraseWindow ops)
  | 0x0F => some (.setCursor ops)
  | 0x11 => some (.setTextStyle ops)
  | 0x12 => some (.bufferMode ops)
  | 0x15 => some (.soundEffect ops)
  | 0x16 => some (.readChar ops)
  | 0x19 => some (.callVn ops)
  | 0x1F => some (.checkArgCount ops)
  | _ => none

/-- The two VAR slots that take a second type byte (R99). -/
def tableVar2 (slot : Nat) (ops1 ops2 : List Operand) : Option Instr :=
  match slot with
  | 0x0C => some (.callVs2 ops1 ops2)
  | 0x1A => some (.callVn2 ops1 ops2)
  | _ => none

/-- The EXT table (R119). -/
def tableExt (slot : Nat) (ops : List Operand) : Option Instr :=
  match slot with
  | 0x00 => some (.save (.extended ops))
  | 0x01 => some (.restore (.extended ops))
  | _ => none

/-- One operand of the long form: type bit 1 is a variable (R94). -/
def longArg (isVar : Bool) (b : Byte) : LongArg := if isVar then .var b else .small b

/-- A long-form operand as an operand. -/
def LongArg.operand : LongArg → Operand
  | .small b => .small b
  | .var n => .var n

/-- The operands of a 2OP-table instruction as one list. -/
def Args2.operands : Args2 → List Operand
  | .long a b => [a.operand, b.operand]
  | .typed ops => ops

/-- The long form (R94): bit 6 types the first operand, bit 5 the second. -/
def decodeLong (o : Byte) : List Byte → Except Truncated (Instr × List Byte)
  | [] => .error ⟨1, []⟩
  | [x] => .error ⟨1, [(longArg (o.getLsbD 6) x).operand]⟩
  | x :: y :: rest =>
    let a := longArg (o.getLsbD 6) x
    let b := longArg (o.getLsbD 5) y
    .ok ((table2 (o.toNat % 32) (.long a b)).getD (.unpopulatedSlot (.long (o.setWidth 5) a b)), rest)

/-- The short form with one operand (R95): its type is in bits 5:4. -/
def decodeShort1 (sl : Slot1Op0F) (o : Byte) (bs : List Byte) : Except Truncated (Instr × List Byte) :=
  match operandType (o.extractLsb' 4 2) with
  | none => .error ⟨1, []⟩
  | some ty =>
    match takeOperand ty bs with
    | none => .error ⟨1, []⟩
    | some (a, rest) => .ok (table1 sl (o.toNat % 16) a, rest)

/-- The short form with no operand (R96). -/
def decodeShort0 (o : Byte) (bs : List Byte) : Except Truncated (Instr × List Byte) :=
  .ok ((table0 (o.toNat % 16)).getD (.unpopulatedSlot (.zero (o.setWidth 4))), bs)

/-- One type byte and its operands, after `head` bytes, made into an instruction by `mk`. -/
def decodeTyped (head : Nat) (mk : List Operand → Instr) : List Byte → Except Truncated (Instr × List Byte)
  | [] => .error ⟨head, []⟩
  | t :: bs =>
    match takeOperands (typesOf t) bs with
    | .ok (ops, rest) => .ok (mk ops, rest)
    | .error ops => .error ⟨head + 1, ops⟩

/-- Two type bytes, each scanned on its own, then the operands of the first and of the second (R99). -/
def decodeTyped2 (mk : List Operand → List Operand → Instr) :
    List Byte → Except Truncated (Instr × List Byte)
  | [] => .error ⟨1, []⟩
  | [_] => .error ⟨2, []⟩
  | t1 :: t2 :: bs =>
    match takeOperands (typesOf t1) bs with
    | .error ops => .error ⟨3, ops⟩
    | .ok (ops1, bs') =>
      match takeOperands (typesOf t2) bs' with
      | .error ops => .error ⟨3, ops1 ++ ops⟩
      | .ok (ops2, rest) => .ok (mk ops1 ops2, rest)

/-- The variable form over the 2OP table (R97). -/
def decodeVar2 (o : Byte) : List Byte → Except Truncated (Instr × List Byte) :=
  decodeTyped 1 fun ops =>
    (table2 (o.toNat % 32) (.typed ops)).getD (.unpopulatedSlot (.typed2 (o.setWidth 5) ops))

/-- The variable form over the VAR table (R98, R99). -/
def decodeVar (o : Byte) (bs : List Byte) : Except Truncated (Instr × List Byte) :=
  let slot := o.toNat % 32
  if slot = 0x0C ∨ slot = 0x1A then
    decodeTyped2 (fun ops1 ops2 =>
      (tableVar2 slot ops1 ops2).getD (.unpopulatedSlot (.typedVar (o.setWidth 5) (ops1 ++ ops2)))) bs
  else
    decodeTyped 1 (fun ops =>
      (tableVar slot ops).getD (.unpopulatedSlot (.typedVar (o.setWidth 5) ops))) bs

/-- The extended form (R93): the slot is the low five bits of the second byte. -/
def decodeExt : List Byte → Except Truncated (Instr × List Byte)
  | [] => .error ⟨1, []⟩
  | e :: bs =>
    decodeTyped 2 (fun ops =>
      (tableExt (e.toNat % 32) ops).getD (.unpopulatedSlot (.extended e ops))) bs

/-- The decoder: the form tests of R92 in their order. -/
def decode (sl : Slot1Op0F) : List Byte → Except Truncated (Instr × List Byte)
  | [] => .error ⟨0, []⟩
  | o :: bs =>
    if o = 0xBE#8 then decodeExt bs
    else if o.toNat < 0x80 then decodeLong o bs
    else if o.toNat < 0xB0 then decodeShort1 sl o bs
    else if o.toNat < 0xC0 then decodeShort0 o bs
    else if o.toNat < 0xE0 then decodeVar2 o bs
    else decodeVar o bs

/-- The longest run of bytes parts 1 to 5 can take: opcode, two type bytes, eight two-byte operands (R90). -/
def maxHeadBytes : Nat := 19

/-! ### Encoder -/

/-- The type code of an operand (R100). -/
def typeCode : Operand → BitVec 2
  | .large _ => 0b00#2
  | .small _ => 0b01#2
  | .var _ => 0b10#2

/-- The stream bytes of an operand (R100). -/
def encodeOperand : Operand → List Byte
  | .large w => [w.extractLsb' 8 8, w.extractLsb' 0 8]
  | .small b => [b]
  | .var n => [n]

/-- The stream bytes of an operand list, in order (R102). -/
def encodeOperands (ops : List Operand) : List Byte := ops.flatMap encodeOperand

/-- The code of field `k` of a type byte: 11 where there is no operand (R101). -/
def fieldCode (ops : List Operand) (k : Nat) : BitVec 2 := (ops[k]?.map typeCode).getD 0b11#2

/-- The type byte of an operand list (R101). -/
def typeByte (ops : List Operand) : Byte :=
  fieldCode ops 0 ++ fieldCode ops 1 ++ fieldCode ops 2 ++ fieldCode ops 3

/-- The type bit of a long-form operand (R94). -/
def LongArg.typeBit : LongArg → BitVec 1
  | .small _ => 0#1
  | .var _ => 1#1

/-- The one byte of a long-form operand (R94). -/
def LongArg.byte : LongArg → Byte
  | .small b => b
  | .var n => n

/-- A 2OP-table instruction: long form (R94) or variable form (R97). -/
def encode2 (slot : BitVec 5) : Args2 → List Byte
  | .long a b => (0#1 ++ a.typeBit ++ b.typeBit ++ slot) :: a.byte :: [b.byte]
  | .typed ops => (0b110#3 ++ slot) :: typeByte ops :: encodeOperands ops

/-- A short one-operand instruction (R95). -/
def encode1 (slot : BitVec 4) (a : Operand) : List Byte := (0b10#2 ++ typeCode a ++ slot) :: encodeOperand a

/-- A short no-operand instruction (R96). -/
def encode0 (slot : BitVec 4) : List Byte := [0b1011#4 ++ slot]

/-- A VAR-table instruction with one type byte (R98). -/
def encodeVar (slot : BitVec 5) (ops : List Operand) : List Byte :=
  (0b111#3 ++ slot) :: typeByte ops :: encodeOperands ops

/-- A VAR-table instruction with two type bytes (R99). -/
def encodeVar2 (slot : BitVec 5) (ops1 ops2 : List Operand) : List Byte :=
  (0b111#3 ++ slot) :: typeByte ops1 :: typeByte ops2 :: (encodeOperands ops1 ++ encodeOperands ops2)

/-- An extended instruction (R93). -/
def encodeExt (e : Byte) (ops : List Operand) : List Byte :=
  0xBE#8 :: e :: typeByte ops :: encodeOperands ops

/-- The bytes of an instruction up to its last operand. -/
def encode : Instr → List Byte
  | .je args => encode2 0x01 args
  | .jl args => encode2 0x02 args
  | .jg args => encode2 0x03 args
  | .decChk args => encode2 0x04 args
  | .incChk args => encode2 0x05 args
  | .jin args => encode2 0x06 args
  | .test args => encode2 0x07 args
  | .or args => encode2 0x08 args
  | .and args => encode2 0x09 args
  | .testAttr args => encode2 0x0A args
  | .setAttr args => encode2 0x0B args
  | .clearAttr args => encode2 0x0C args
  | .store args => encode2 0x0D args
  | .insertObj args => encode2 0x0E args
  | .loadw args => encode2 0x0F args
  | .loadb args => encode2 0x10 args
  | .getProp args => encode2 0x11 args
  | .getPropAddr args => encode2 0x12 args
  | .getNextProp args => encode2 0x13 args
  | .add args => encode2 0x14 args
  | .sub args => encode2 0x15 args
  | .mul args => encode2 0x16 args
  | .div args => encode2 0x17 args
  | .mod args => encode2 0x18 args
  | .call2s args => encode2 0x19 args
  | .call2n args => encode2 0x1A args
  | .setColour args => encode2 0x1B args
  | .jz a => encode1 0x0 a
  | .getSibling a => encode1 0x1 a
  | .getChild a => encode1 0x2 a
  | .getParent a => encode1 0x3 a
  | .getPropLen a => encode1 0x4 a
  | .inc a => encode1 0x5 a
  | .dec a => encode1 0x6 a
  | .printAddr a => encode1 0x7 a
  | .call1s a => encode1 0x8 a
  | .removeObj a => encode1 0x9 a
  | .printObj a => encode1 0xA a
  | .ret a => encode1 0xB a
  | .jump a => encode1 0xC a
  | .printPaddr a => encode1 0xD a
  | .load a => encode1 0xE a
  | .not a => encode1 0xF a
  | .call1n a => encode1 0xF a
  | .rtrue => encode0 0x0
  | .rfalse => encode0 0x1
  | .print => encode0 0x2
  | .printRet => encode0 0x3
  | .nop => encode0 0x4
  | .save .short => encode0 0x5
  | .save (.extended ops) => encodeExt 0x00 ops
  | .restore .short => encode0 0x6
  | .restore (.extended ops) => encodeExt 0x01 ops
  | .restart => encode0 0x7
  | .retPopped => encode0 0x8
  | .pop => encode0 0x9
  | .quit => encode0 0xA
  | .newLine => encode0 0xB
  | .showStatus => encode0 0xC
  | .call ops => encodeVar 0x00 ops
  | .storew ops => encodeVar 0x01 ops
  | .storeb ops => encodeVar 0x02 ops
  | .putProp ops => encodeVar 0x03 ops
  | .read ops => encodeVar 0x04 ops
  | .printChar ops => encodeVar 0x05 ops
  | .printNum ops => encodeVar 0x06 ops
  | .random ops => encodeVar 0x07 ops
  | .push ops => encodeVar 0x08 ops
  | .pull ops => encodeVar 0x09 ops
  | .splitWindow ops => encodeVar 0x0A ops
  | .setWindow ops => encodeVar 0x0B ops
  | .callVs2 ops1 ops2 => encodeVar2 0x0C ops1 ops2
  | .eraseWindow ops => encodeVar 0x0D ops
  | .setCursor ops => encodeVar 0x0F ops
  | .setTextStyle ops => encodeVar 0x11 ops
  | .bufferMode ops => encodeVar 0x12 ops
  | .soundEffect ops => encodeVar 0x15 ops
  | .readChar ops => encodeVar 0x16 ops
  | .callVn ops => encodeVar 0x19 ops
  | .callVn2 ops1 ops2 => encodeVar2 0x1A ops1 ops2
  | .checkArgCount ops => encodeVar 0x1F ops
  | .unpopulatedSlot (.long slot a b) => encode2 slot (.long a b)
  | .unpopulatedSlot (.typed2 slot ops) => encode2 slot (.typed ops)
  | .unpopulatedSlot (.zero slot) => encode0 slot
  | .unpopulatedSlot (.typedVar slot ops) => encodeVar slot ops
  | .unpopulatedSlot (.extended e ops) => encodeExt e ops

/-- Which instructions a machine has: `NOT` and `CALL_1N` share 1OP slot 0x0F (R113). -/
def Instr.presentIn : Instr → Slot1Op0F → Bool
  | .not _, .call1n => false
  | .call1n _, .not => false
  | _, _ => true

/-! ### Result fields and inline text (parts 6 and 7 of R90) -/

/-- A branch field as it stands in the stream (R105). -/
inductive BranchField where
  | short (sense : Bool) (offset : BitVec 6)
  | long (sense : Bool) (offset : BitVec 14)
deriving DecidableEq, Repr

/-- Bit 7: branch on true (1) or on false (0) (R105). -/
def BranchField.sense : BranchField → Bool
  | .short sense _ => sense
  | .long sense _ => sense

/-- The offset: 0 to 63 in the short field, 14-bit two's complement in the long one (R105). -/
def BranchField.offset : BranchField → Int
  | .short _ offset => offset.toNat
  | .long _ offset => offset.toInt

/-- Bit 6 of the first byte set: the field is one byte (R105). -/
def branchIsShort (b1 : Byte) : Bool := b1.getLsbD 6

/-- The one-byte field. -/
def shortBranch (b1 : Byte) : BranchField := .short (b1.getLsbD 7) (b1.extractLsb' 0 6)

/-- The two-byte field. -/
def longBranch (b1 b2 : Byte) : BranchField := .long (b1.getLsbD 7) (b1.extractLsb' 0 6 ++ b2)

/-- A branch field from the front of a byte list (R105). -/
def takeBranch : List Byte → Option (BranchField × List Byte)
  | [] => none
  | b1 :: bs =>
    if branchIsShort b1 then some (shortBranch b1, bs)
    else
      match bs with
      | [] => none
      | b2 :: rest => some (longBranch b1 b2, rest)

/-- The bytes of a branch field (R105). -/
def encodeBranch : BranchField → List Byte
  | .short sense offset => [BitVec.ofBool sense ++ 1#1 ++ offset]
  | .long sense offset =>
    [BitVec.ofBool sense ++ 0#1 ++ offset.extractLsb' 8 6, offset.extractLsb' 0 8]

/-- Words up to and including the first with bit 15 set (R110, R121). -/
def takeText : List Byte → Option (List Word × List Byte)
  | hi :: lo :: bs =>
    if hi.getLsbD 7 then some ([hi ++ lo], bs)
    else (takeText bs).map fun (ws, rest) => ((hi ++ lo : Word) :: ws, rest)
  | _ => none

/-- The bytes of packed words, big-endian. -/
def encodeText (ws : List Word) : List Byte :=
  ws.flatMap fun w => [w.extractLsb' 8 8, w.extractLsb' 0 8]

/-- What follows the operands of an instruction (the columns St and Br of R115 to R119, and R110). -/
inductive TailShape where
  | none
  | store
  | branch
  | storeAndBranch
  | text
deriving DecidableEq, Repr

/-- The tail of each instruction; `late` is `VERSION >= 5`, on which `READ`, `SAVE` and `RESTORE` depend. -/
def Instr.tailShape (late : Bool) : Instr → TailShape
  | .je _ | .jl _ | .jg _ | .decChk _ | .incChk _ | .jin _ | .test _ | .testAttr _ | .jz _
  | .checkArgCount _ => .branch
  | .or _ | .and _ | .loadw _ | .loadb _ | .getProp _ | .getPropAddr _ | .getNextProp _ | .add _
  | .sub _ | .mul _ | .div _ | .mod _ | .call2s _ | .getParent _ | .getPropLen _ | .call1s _
  | .load _ | .not _ | .call _ | .random _ | .callVs2 _ _ | .readChar _ => .store
  | .getSibling _ | .getChild _ => .storeAndBranch
  | .print | .printRet => .text
  | .read _ => if late then .store else .none
  | .save _ | .restore _ => if late then .store else .branch
  | .setAttr _ | .clearAttr _ | .store _ | .insertObj _ | .call2n _ | .setColour _ | .inc _ | .dec _
  | .printAddr _ | .removeObj _ | .printObj _ | .ret _ | .jump _ | .printPaddr _ | .call1n _ | .rtrue
  | .rfalse | .nop | .restart | .retPopped | .pop | .quit | .newLine | .showStatus | .storew _
  | .storeb _ | .putProp _ | .printChar _ | .printNum _ | .push _ | .pull _ | .splitWindow _
  | .setWindow _ | .eraseWindow _ | .setCursor _ | .setTextStyle _ | .bufferMode _
  | .soundEffect _ | .callVn _ | .callVn2 _ _ | .unpopulatedSlot _ => .none

/-- The tail's contents. -/
inductive Tail where
  | none
  | store (variable_ : Byte)
  | branch (field : BranchField)
  | storeAndBranch (variable_ : Byte) (field : BranchField)
  | text (words : List Word)
deriving DecidableEq, Repr

/-- A tail of the given shape from the front of a byte list; two fields stand in the order `FIELD_ORDER`
(R109). -/
def takeTail (order : FieldOrder) (shape : TailShape) (bs : List Byte) : Option (Tail × List Byte) :=
  match shape with
  | .none => some (.none, bs)
  | .store =>
    match bs with
    | [] => Option.none
    | v :: rest => some (.store v, rest)
  | .branch => (takeBranch bs).map fun (f, rest) => (.branch f, rest)
  | .storeAndBranch =>
    match order with
    | .branchThenStore =>
      match takeBranch bs with
      | some (f, v :: rest) => some (.storeAndBranch v f, rest)
      | _ => Option.none
    | .storeThenBranch =>
      match bs with
      | [] => Option.none
      | v :: bs' => (takeBranch bs').map fun (f, rest) => (.storeAndBranch v f, rest)
  | .text => (takeText bs).map fun (ws, rest) => (.text ws, rest)

/-- The bytes of a tail. -/
def encodeTail (order : FieldOrder) : Tail → List Byte
  | .none => []
  | .store v => [v]
  | .branch f => encodeBranch f
  | .storeAndBranch v f =>
    match order with
    | .branchThenStore => encodeBranch f ++ [v]
    | .storeThenBranch => v :: encodeBranch f
  | .text ws => encodeText ws

/-- Packed text is a non-empty run of words of which exactly the last has bit 15 set (R251). -/
def textWellFormed : List Word → Bool
  | [] => false
  | [w] => w.getLsbD 15
  | w :: ws => !w.getLsbD 15 && textWellFormed ws

/-- A tail is one the shape allows. -/
def Tail.fits : Tail → TailShape → Bool
  | .none, .none => true
  | .store _, .store => true
  | .branch _, .branch => true
  | .storeAndBranch _ _, .storeAndBranch => true
  | .text ws, .text => textWellFormed ws
  | _, _ => false

/-- A whole instruction, with its length decided as R121 says: by its head, then by the instruction reached. -/
def decodeWhole (sl : Slot1Op0F) (late : Bool) (order : FieldOrder) (bs : List Byte) :
    Option (Instr × Tail × List Byte) :=
  match decode sl bs with
  | .error _ => none
  | .ok (i, rest) => (takeTail order (i.tailShape late) rest).map fun (t, rest') => (i, t, rest')

/-- The bytes of a whole instruction. -/
def encodeWhole (order : FieldOrder) (i : Instr) (t : Tail) : List Byte := encode i ++ encodeTail order t

/-! ### The words of opcode_table.json -/

/-- The bytes of a table word: a row of more than 8 bits has its first byte in the highest bits, as
opcode_table.json's `match_width` says of its two-byte rows (log entry 12). Zeros follow. -/
def tableBytes (nbits w : Nat) : List Byte :=
  let n := (nbits + 7) / 8
  (List.range n).map (fun k => BitVec.ofNat 8 (w / 256 ^ (n - 1 - k))) ++ List.replicate (24 - n) 0#8

/-- The instruction the decoder reads from a table word, on the machine of `State.reset` (log entry 12). -/
def decodeTableWord (nbits w : Nat) : Option Instr :=
  match decode .call1n (tableBytes nbits w) with
  | .ok (i, _) => some i
  | .error _ => none

end Sys2Proof
end

