-- ==== Sys2Proof/Machine/Memory.lean ====
section
/-! DEFINITION. The Memory Image as plain data (rules R20, R60 to R64 of 10_state.md and 20_memory.md): a list
of (address, byte) pairs, addresses rising, that lists exactly the bytes that are not 0. -/

namespace Sys2Proof.Machine

/-- The bytes of a memory image. Which addresses exist is said by `MEM_SIZE`, not here. -/
abbrev Memory := List Host.Cell

namespace Memory

/-- What an address with no entry reads as. Reset gives every byte a content (R20), so this is only how a
zero byte is written down (log entry 1). -/
def unlisted : Byte := 0#8

/-- One byte (R60). -/
def byte : Memory → Nat → Byte
  | [], _ => unlisted
  | (a, b) :: m, x => if x < a then unlisted else if x = a then b else byte m x

/-- One byte replaced. Writing what an unlisted address reads as removes the entry. -/
def setByte : Memory → Nat → Byte → Memory
  | [], x, v => if v = unlisted then [] else [(x, v)]
  | (a, b) :: m, x, v =>
    if x < a then (if v = unlisted then (a, b) :: m else (x, v) :: (a, b) :: m)
    else if x = a then (if v = unlisted then m.dropWhile (fun c => decide (c.1 ≤ x)) else (x, v) :: m)
    else (a, b) :: setByte m x v

/-- The canonical form: addresses strictly rising, no entry equal to what an unlisted address reads as. -/
abbrev wf (m : Memory) : Prop :=
  m.Pairwise (fun c d => c.1 < d.1) ∧ ∀ c ∈ m, c.2 ≠ unlisted

/-- The big-endian value of the `n` bytes at `a` (R62, R64). -/
def readBE (m : Memory) (a : Nat) : Nat → Nat
  | 0 => 0
  | n + 1 => readBE m a n * 256 + (m.byte (a + n)).toNat

/-- The low `8n` bits of `v` written big-endian at `a`: the most significant byte at the lowest address
(R63, R64). -/
def writeBE (m : Memory) (a : Nat) : Nat → Nat → Memory
  | 0, _ => m
  | n + 1, v => (writeBE m a n (v / 256)).setByte (a + n) (BitVec.ofNat 8 v)

/-- The `n` bytes at `a`, in address order. -/
def bytes (m : Memory) (a : Nat) : Nat → List Byte
  | 0 => []
  | n + 1 => m.byte a :: bytes m (a + 1) n

/-- Consecutive bytes replaced. -/
def setBytes (m : Memory) (a : Nat) : List Byte → Memory
  | [] => m
  | b :: bs => setBytes (m.setByte a b) (a + 1) bs

/-- At most `n` bytes from `a` on, as many as lie below `size`. -/
def window (m : Memory) (size a : Nat) : Nat → List Byte
  | 0 => []
  | n + 1 => if a < size then m.byte a :: window m size (a + 1) n else []

end Memory

end Sys2Proof.Machine
end

