-- ==== Sys2Proof/Machine/Header.lean ====
section
/-! DEFINITION. The configuration registers latched from the story header (rules R30 to R35 of 10_state.md) and
the geometry derived from the version (R6 of 00_scope.md). -/

namespace Sys2Proof.Machine

/-- The geometry registers (R33). -/
structure Geometry where
  /-- `EARLIER` -/
  earlier : Bool
  /-- `PROP_DEFAULTS_SIZE` -/
  propDefaultsSize : Nat
  /-- `OBJ_REC_SIZE` -/
  objRecSize : Nat
  /-- `ATTR_BITS` -/
  attrBits : Nat
  /-- `LINK_BYTES` -/
  linkBytes : Nat
  /-- `OFF_PARENT` -/
  offParent : Nat
  /-- `OFF_SIBLING` -/
  offSibling : Nat
  /-- `OFF_CHILD` -/
  offChild : Nat
  /-- `OFF_PROPS` -/
  offProps : Nat
  /-- `MAX_PROP` -/
  maxProp : Nat
  /-- `PACK_SCALE` -/
  packScale : Nat
deriving DecidableEq, Repr

/-- The configuration registers: the seven header fields of R30, the geometry of R33, the slot of R34. -/
structure ConfigRegs where
  /-- `VERSION` -/
  version : Byte
  /-- `PC0` -/
  pc0 : Word
  /-- `DICT` -/
  dict : Word
  /-- `OBJTAB` -/
  objTab : Word
  /-- `GLOBALS` -/
  globals : Word
  /-- `STATIC_BASE` -/
  staticBase : Word
  /-- `ABBREV` -/
  abbrevTab : Word
  geom : Geometry
  /-- `SLOT_1OP_0F` -/
  slot1Op0F : Slot1Op0F
deriving DecidableEq, Repr

/-! Header field offsets (R32). -/

def hdrVersion : Nat := 0x00
def hdrPc0 : Nat := 0x06
def hdrDict : Nat := 0x08
def hdrObjTab : Nat := 0x0A
def hdrGlobals : Nat := 0x0C
def hdrStatic : Nat := 0x0E
def hdrAbbrev : Nat := 0x18

/-- The header occupies bytes 0x00 to 0x3F (R32); a shorter story is refused (R380). -/
def headerSize : Nat := 64

/-- The admitted versions (R31). -/
def versionAdmitted (version : Byte) : Bool := version == 3#8 || version == 5#8

/-- `EARLIER`: `VERSION <= 3` (R6). -/
def isEarlier (version : Byte) : Bool := decide (version.toNat ≤ 3)

/-- `VERSION >= 5`, which is `not (VERSION <= 4)` (R7). -/
def isLate (version : Byte) : Bool := decide (5 ≤ version.toNat)

/-- The geometry of a version (R6, R33). -/
def geometryOf (version : Byte) : Geometry :=
  if isEarlier version then
    { earlier := true, propDefaultsSize := 62, objRecSize := 9, attrBits := 32, linkBytes := 1,
      offParent := 4, offSibling := 5, offChild := 6, offProps := 7, maxProp := 31, packScale := 2 }
  else
    { earlier := false, propDefaultsSize := 126, objRecSize := 14, attrBits := 48, linkBytes := 2,
      offParent := 6, offSibling := 8, offChild := 10, offProps := 12, maxProp := 63, packScale := 4 }

/-- `SLOT_1OP_0F` is `NOT` when `VERSION <= 4`, `CALL_1N` otherwise (R34). -/
def slot1Op0FOf (version : Byte) : Slot1Op0F := if isLate version then .call1n else .not

/-- The registers from the seven header values (R381). -/
def configOf (version : Byte) (pc0 dict objTab globals staticBase abbrevTab : Word) : ConfigRegs :=
  { version, pc0, dict, objTab, globals, staticBase, abbrevTab,
    geom := geometryOf version, slot1Op0F := slot1Op0FOf version }

/-- A word of a memory image. -/
def headerWord (m : Memory) (offset : Nat) : Word := BitVec.ofNat 16 (m.readBE offset 2)

/-- The registers latched from a memory image that has a header (R381). -/
def latchedFrom (m : Memory) : ConfigRegs :=
  configOf (m.byte hdrVersion) (headerWord m hdrPc0) (headerWord m hdrDict) (headerWord m hdrObjTab)
    (headerWord m hdrGlobals) (headerWord m hdrStatic) (headerWord m hdrAbbrev)

end Sys2Proof.Machine
end

