-- ==== Sys2Proof/Machine/State.lean ====
section
/-! DEFINITION. The state of the machine (10_state.md), why a step can stop, and the state after reset. -/

namespace Sys2Proof.Machine

/-- The causes of `Fatal`, each with the `info` it records (R354 of 60_exceptions.md). -/
inductive Cause where
  | unknownOpcode (opcode : Byte) (second : Option Byte)
  | invalidSoundEffect (number : Word)
  | memRange (address : Nat)
  | missingOperand (opcode : Byte)
  | stackUnderflow
  | stackOverflow
  | returnFromMain
  | invalidObject (id : Word)
  | invalidAttribute (number : Word)
  | treeCorrupt (id : Word)
  | invalidProperty (number : Word)
  | propertyNotFound (number : Word)
  | badPropertyLength (length : Nat)
  | badText
  | badRoutine (count : Byte)
deriving DecidableEq, Repr

/-- `RUN`, the run-state register (R40). -/
inductive RunState where
  | running
  | halted
  | waitInput
  | fatal (cause : Cause)
deriving DecidableEq, Repr

/-- What the outside has already supplied and the machine has not yet taken (log entry 3): lines for
`InputDone`, replies to `readChar`, `save` and `restore`, each oldest first. -/
structure Inbox where
  lines : List (List Byte) := []
  keys : List Word := []
  saves : List Bool := []
  restores : List (Option Snapshot) := []
deriving DecidableEq, Repr

/-- Every piece of state the spec gives the machine, and at the end the model's own fields. -/
structure State where
  /-- `mem` (R20). -/
  mem : Memory
  /-- `MEM_SIZE` (R6): the length of `STORY` and of `mem`. -/
  memSize : Nat
  /-- `STORY`, kept for the life of the machine (R38). -/
  story : Memory
  /-- The configuration registers (R30, R33, R34). -/
  cfg : ConfigRegs
  /-- The top frame (R21). -/
  top : Frame
  /-- The frames under the top, nearest first, so that `frames` is never empty (R46). -/
  below : List Frame
  /-- `READ_TEXT` (R36). -/
  readText : Word
  /-- `READ_PARSE` (R36). -/
  readParse : Word
  /-- `RNG` (R37): opaque; only free functions make its values. -/
  rng : Nat
  /-- `TRACE` (R39), oldest request first. -/
  trace : List Request
  /-- `RUN` (R40). -/
  run : RunState
  /-- The OPEN parameters (R6); no step writes them. -/
  params : Params
  /-- The model's own: what the outside has supplied (log entry 3). -/
  inbox : Inbox
  /-- The model's own: how many free values have been drawn (log entry 4). -/
  draws : Nat
deriving DecidableEq, Repr

/-- Why no step exists. -/
inductive Fault where
  /-- Raised by `step` when `RUN = Halted`: "no further step" (R40). Safe: the machine has no step there. -/
  | halted
  /-- Raised by `step` when `RUN = Fatal(..)`: "A machine in `Fatal` has no step" (R351). Safe. -/
  | fatal
  /-- Raised by `step` when `RUN = WaitInput` and no line has been supplied: "no step happens in it" (R367).
  Safe. -/
  | waitingForInput
  /-- Raised where a text decode follows a cycle of abbreviations with `ABBREV_DEPTH` unbounded: "the decode
  does not terminate and the step has no result" (U19 of 93_implementation_defined.md, R254). Safe. -/
  | endlessDecode
deriving DecidableEq, Repr

/-- What the model does not construct or does not accept. -/
inductive Refusal where
  /-- Raised by an arm of `exec` that has no meaning. Safe. No arm of this model is left so. -/
  | notModelled (mnemonic : String)
  /-- Raised by `resetWith` on a `STORY` of fewer than 64 bytes (R380). Safe. -/
  | storyTooShort
  /-- Raised by `resetWith` on a `VERSION` other than 3 or 5 (R31, R380). Safe. -/
  | versionNotAdmitted
  /-- Raised by `inputDone` in a run state other than `WaitInput` (R315). Safe. -/
  | inputNotAwaited
deriving DecidableEq, Repr

/-- The initial frame (R382). -/
def initialFrame (pc0 : Word) : Frame :=
  { pc := pc0.setWidth 32, storeResult := false, argc := 0, locals := Vector.replicate 15 0#16, stack := [] }

/-- The state after `RESET(STORY)` for a story of `size` bytes whose image is `story` (R42, R380). -/
def resetState (params : Params) (inbox : Inbox) (story : Memory) (size : Nat) : State :=
  let cfg := latchedFrom story
  { mem := story, memSize := size, story := story, cfg := cfg, top := initialFrame cfg.pc0, below := [],
    readText := 0#16, readParse := 0#16, rng := 0, trace := [], run := .running, params := params,
    inbox := inbox, draws := 0 }

namespace State

/-- The image behind `State.reset`: the shortest story `RESET` accepts, every byte 0 but the version byte
(log entry 2). -/
def blankStory : Memory := [(hdrVersion, 5#8)]

/-- The machine right after reset (R42), with the blank story of 64 bytes, the default parameters and nothing
supplied by the outside (log entries 2, 3, 4). -/
def reset : State := resetState {} {} blankStory headerSize

end State

end Sys2Proof.Machine
end

