-- ==== Sys2Proof/Machine/Ops.lean ====
section
/-! DEFINITION. The named operations of rule R9 of 00_scope.md over memory, frames and the host port, and the
one way a fatal is taken (R351 of 60_exceptions.md). An operation runs top to bottom on a state; a `raise` ends
it and keeps the effects made before (R10, R351). -/

namespace Sys2Proof.Machine

/-- How an operation ends before its last statement. -/
inductive Stop where
  /-- `raise Fatal(cause, info)` (R351). -/
  | fatal (cause : Cause)
  /-- The operation has no result at all (U19). -/
  | noResult (fault : Fault)
deriving DecidableEq, Repr

/-- An operation: a value and the state after, or how it stopped and the state there. -/
abbrev M (α : Type) := EStateM Stop State α

/-- What one run of an instruction or of an external event answers. -/
abbrev Answer := Host.Outcome State Fault Refusal

/-! ### Taking a fatal -/

/-- `raise Fatal(cause, info)`: the operation ends here (R10, R351). -/
def raise {α : Type} (cause : Cause) : M α := fun s => .error (.fatal cause) s

/-- The code of a cause, 1 to 15, in the numbering of R354; what a cause holds is its `info`. -/
def Cause.code : Cause → Nat
  | .unknownOpcode _ _ => 1
  | .invalidSoundEffect _ => 2
  | .memRange _ => 3
  | .missingOperand _ => 4
  | .stackUnderflow => 5
  | .stackOverflow => 6
  | .returnFromMain => 7
  | .invalidObject _ => 8
  | .invalidAttribute _ => 9
  | .treeCorrupt _ => 10
  | .invalidProperty _ => 11
  | .propertyNotFound _ => 12
  | .badPropertyLength _ => 13
  | .badText => 14
  | .badRoutine _ => 15

/-- Entering `Fatal`: `RUN <- Fatal(cause, info)` and nothing else (R351, R356). -/
def takeFatal (cause : Cause) (s : State) : State := { s with run := .fatal cause }

/-- The answer of an operation: its effects, then the fatal where one was raised. No return from a fatal exists:
only `RESET` leaves it (R357). -/
def finish (m : M Unit) (s : State) : Answer :=
  match m s with
  | .ok _ s' => .next s'
  | .error (.fatal cause) s' => .next (takeFatal cause s')
  | .error (.noResult fault) _ => .fault fault

/-- A run that has no result (R254 with unbounded nesting, U19). -/
def noResult {α : Type} (fault : Fault) : M α := fun s => .error (.noResult fault) s

/-! ### The state read and written -/

/-- A value computed from the state. -/
def gets {α : Type} (f : State → α) : M α := fun s => .ok (f s) s

/-- The state changed. -/
def update (f : State → State) : M Unit := fun s => .ok () (f s)

/-! ### Memory -/

/-- `n` bytes at `a` lie inside memory, or the fatal (R61). -/
def checkRange (a n : Nat) : M Unit := fun s =>
  if a + n ≤ s.memSize then .ok () s else .error (.fatal (.memRange a)) s

/-- `MemRead(a, n)` (R62): the unsigned big-endian value. -/
def memRead (a n : Nat) : M Nat := do
  checkRange a n
  gets fun s => s.mem.readBE a n

/-- `MemRead(a, 1)` as a byte. -/
def memByte (a : Nat) : M Byte := return BitVec.ofNat 8 (← memRead a 1)

/-- `MemRead(a, 2)` as a word. -/
def memWord (a : Nat) : M Word := return BitVec.ofNat 16 (← memRead a 2)

/-- A state with bytes of memory replaced. -/
def State.writeMem (s : State) (a n v : Nat) : State := { s with mem := s.mem.writeBE a n v }

/-- `MemWrite(a, n, v)` (R63): the low `8n` bits of `v`; out of range, no byte moves (R61). -/
def memWrite (a n v : Nat) : M Unit := do
  checkRange a n
  update fun s => s.writeMem a n v

/-! ### The program counter and the instruction stream -/

/-- `PC` (R26). -/
def State.pc (s : State) : BitVec 32 := s.top.pc

/-- `pc <- t` (R26). -/
def State.setPc (s : State) (t : BitVec 32) : State := { s with top := { s.top with pc := t } }

/-- `PC` moved past `n` bytes of the stream. -/
def State.advance (s : State) (n : Nat) : State := s.setPc (s.pc + BitVec.ofNat 32 n)

/-- The bytes of an instruction's head are consumed: the decoder has read them at `PC` (R90, R91). -/
def advance (n : Nat) : M Unit := update (·.advance n)

/-- `fetch8()` (R91). -/
def fetch8 : M Byte := do
  let b ← memByte (← gets (·.pc.toNat))
  advance 1
  return b

/-! ### The operand stack and the variables -/

/-- The top frame's operand stack. -/
def State.stack (s : State) : List Word := s.top.stack

/-- The top frame's operand stack replaced. -/
def State.setStack (s : State) (stack : List Word) : State := { s with top := { s.top with stack := stack } }

/-- `push(v)` (R22). -/
def push (v : Word) : M Unit := fun s =>
  if withinLimit (s.stack.length + 1) s.params.stackDepth then .ok () (s.setStack (v :: s.stack))
  else .error (.fatal .stackOverflow) s

/-- `pop()` (R22). -/
def pop : M Word := fun s =>
  match s.stack with
  | [] => .error (.fatal .stackUnderflow) s
  | v :: rest => .ok v (s.setStack rest)

/-- The last word of the stack without removing it (R25). -/
def peekTop : M Word := fun s =>
  match s.stack with
  | [] => .error (.fatal .stackUnderflow) s
  | v :: _ => .ok v s

/-- The last word of the stack replaced, depth unchanged (R25). -/
def replaceTop (v : Word) : M Unit := fun s =>
  match s.stack with
  | [] => .error (.fatal .stackUnderflow) s
  | _ :: rest => .ok () (s.setStack (v :: rest))

/-- Local `n` (1 to 15) of a frame (R21, R29). -/
def localVar (f : Frame) (n : Nat) : Word := f.locals[n - 1]?.getD 0#16

/-- Local `n` of the top frame replaced (R24). -/
def State.setLocal (s : State) (n : Nat) (v : Word) : State :=
  { s with top := { s.top with locals := s.top.locals.setIfInBounds (n - 1) v } }

/-- The address of the global with variable number `n`, 16 to 255 (R28). -/
def State.globalAddr (s : State) (n : Nat) : Nat := s.cfg.globals.toNat + 2 * (n - 16)

/-- `x[n]` (R23). -/
def readVar (n : Byte) : M Word := do
  if n.toNat = 0 then pop
  else if n.toNat ≤ 15 then gets fun s => localVar s.top n.toNat
  else memWord (← gets (·.globalAddr n.toNat))

/-- `x[n] <- v` (R24). -/
def writeVar (n : Byte) (v : Word) : M Unit := do
  if n.toNat = 0 then push v
  else if n.toNat ≤ 15 then update (·.setLocal n.toNat v)
  else memWrite (← gets (·.globalAddr n.toNat)) 2 v.toNat

/-- `x_ip[n]` (R25). -/
def readVarInPlace (n : Byte) : M Word := if n.toNat = 0 then peekTop else readVar n

/-- `x_ip[n] <- v` (R25). -/
def writeVarInPlace (n : Byte) (v : Word) : M Unit := if n.toNat = 0 then replaceTop v else writeVar n v

/-- `store(v)`: the store byte names the variable that receives the result (R104). -/
def store (v : Word) : M Unit := do
  let n ← fetch8
  writeVar n v

/-- The variable number in an operand: its low 8 bits (R180 of 42_variables_loadstore.md). -/
def varNumber (v : Word) : Byte := v.setWidth 8

/-! ### The stack-frame engine (46_calls_stack.md) -/

/-- `Unpack(p) = PACK_SCALE * p` (R76 of 20_memory.md). -/
def State.unpack (s : State) (p : Word) : Nat := s.cfg.geom.packScale * p.toNat

/-- `VERSION >= 5` on the latched version (R7). -/
def State.late (s : State) : Bool := isLate s.cfg.version

/-- The default values of the first `n` locals, read in order from the routine header at `a` (R281, R282). -/
def readDefaults (a : Nat) : Nat → M (List Word)
  | 0 => return []
  | n + 1 => do
    let v ← memWord a
    let vs ← readDefaults (a + 2) n
    return v :: vs

/-- Words written to locals 1, 2, ... of a local file. -/
def setLocals (locals : Vector Word 15) (i : Nat) : List Word → Vector Word 15
  | [] => locals
  | v :: vs => setLocals (locals.setIfInBounds i v) (i + 1) vs

/-- `frames.push(f)`. -/
def State.pushFrame (s : State) (f : Frame) : State := { s with top := f, below := s.top :: s.below }

/-- The call operation on a routine and its arguments (R281). -/
def call (routine : Word) (args : List Word) (wantResult : Bool) : M Unit := do
  if routine = 0#16 then
    if wantResult then store 0#16
  else
    if !(← gets fun s => withinLimit (s.below.length + 2) s.params.frameDepth) then raise .stackOverflow
    let r ← gets (·.unpack routine)
    let n ← memByte r
    if 15 < n.toNat then raise (.badRoutine n)
    let late ← gets (·.late)
    let defaults ← if late then pure [] else readDefaults (r + 1) n.toNat
    let entry := if late then r + 1 else r + 1 + 2 * n.toNat
    let locals := setLocals (setLocals (Vector.replicate 15 0#16) 0 defaults) 0 args
    update (·.pushFrame
      { pc := BitVec.ofNat 32 entry, storeResult := wantResult, argc := args.length, locals := locals, stack := [] })

/-- `frames.pop()`: the callee's frame is discarded and the caller's is the top (R283). -/
def popFrame : M Frame := fun s =>
  match s.below with
  | [] => .error (.fatal .returnFromMain) s
  | caller :: rest => .ok s.top { s with top := caller, below := rest }

/-- The return operation (R283): the store byte, where one is wanted, is read in the resuming frame. -/
def ret (v : Word) : M Unit := do
  let callee ← popFrame
  if callee.storeResult then store v

/-! ### The host port (R310 to R312 of 47_host_io.md) -/

/-- A request appended to `TRACE`. -/
def State.emit (s : State) (r : Request) : State := { s with trace := s.trace ++ [r] }

/-- `Host.name(args)` (R310). -/
def request (r : Request) : M Unit := update (·.emit r)

/-- The next reply to `readChar`: supplied by the outside, or else a free value (R312, log entries 3 and 4). -/
def takeKey : M Word := fun s =>
  match s.inbox.keys with
  | k :: rest => .ok k { s with inbox := { s.inbox with keys := rest } }
  | [] => .ok (Config.hostKey s.draws) { s with draws := s.draws + 1 }

/-- The next reply to `save` (R312). -/
def takeSaveReply : M Bool := fun s =>
  match s.inbox.saves with
  | ok :: rest => .ok ok { s with inbox := { s.inbox with saves := rest } }
  | [] => .ok (Config.hostSaveOk s.draws) { s with draws := s.draws + 1 }

/-- The next reply to `restore` (R312). -/
def takeRestoreReply : M (Option Snapshot) := fun s =>
  match s.inbox.restores with
  | r :: rest => .ok r { s with inbox := { s.inbox with restores := rest } }
  | [] => .ok (Config.hostRestore s.draws) { s with draws := s.draws + 1 }

/-- `draw from 1 .. r`, for `r > 0`; `RNG` advances (R335). -/
def drawRandom (r : Nat) : M Word := fun s =>
  .ok (BitVec.ofNat 16 (1 + Config.randomDraw s.rng s.draws % r))
    { s with rng := Config.rngAdvanced s.rng s.draws, draws := s.draws + 1 }

/-- `RNG <- reseeded` (R335). -/
def State.reseed (s : State) (seed : Int) : State :=
  { s with rng := Config.rngReseeded s.rng s.draws seed, draws := s.draws + 1 }

/-- `RUN <- r`. -/
def State.setRun (s : State) (r : RunState) : State := { s with run := r }

end Sys2Proof.Machine
end

