-- ==== Sys2Proof/Machine/Operands.lean ====
section
/-! DEFINITION. Operand fetch and resolution (R100 to R103 of 30_encoding.md), and the common start of every
meaning: the head is consumed, the operands are resolved left to right, the count is checked. -/

namespace Sys2Proof.Machine

/-- One operand fetched and resolved (R100, R102): `PC` passes its bytes, then a variable is read. -/
def fetchOperand : Operand → M Word
  | .large w => do
    advance 2
    return w
  | .small b => do
    advance 1
    return b.setWidth 16
  | .var n => do
    advance 1
    readVar n

/-- The operands left to right, each resolved before the next is fetched (R102). -/
def fetchOperands : List Operand → M (List Word)
  | [] => return []
  | op :: ops => do
    let v ← fetchOperand op
    let vs ← fetchOperands ops
    return v :: vs

/-- The operands of a 2OP-table instruction: one head byte in the long form, two in the variable form. -/
def fetchArgs2 : Args2 → M (List Word)
  | .long a b => do
    advance 1
    fetchOperands [a.operand, b.operand]
  | .typed ops => do
    advance 2
    fetchOperands ops

/-- The bytes ended inside the instruction: what was there is consumed and resolved in order, and the fetch that
finds no byte is the fatal (R91, R102, R355). -/
def runTruncated (t : Truncated) : M Unit := do
  advance t.head
  let _ ← fetchOperands t.ops
  raise (.memRange (← gets (·.pc.toNat)))

/-- The opcode byte of the variable form over the 2OP table (R97); the long form never lacks an operand. -/
def opcodeTyped2 (slot : Nat) : Byte := BitVec.ofNat 8 (0xC0 + slot)

/-- The opcode byte of the variable form over the VAR table (R98). -/
def opcodeVar (slot : Nat) : Byte := BitVec.ofNat 8 (0xE0 + slot)

/-- At least one operand (R103). -/
def need1 (opcode : Byte) (ops : List Word) (body : Word → List Word → M Unit) : M Unit :=
  match ops with
  | a :: more => body a more
  | [] => raise (.missingOperand opcode)

/-- At least two operands (R103). -/
def need2 (opcode : Byte) (ops : List Word) (body : Word → Word → List Word → M Unit) : M Unit :=
  match ops with
  | a :: b :: more => body a b more
  | _ => raise (.missingOperand opcode)

/-- At least three operands (R103). -/
def need3 (opcode : Byte) (ops : List Word) (body : Word → Word → Word → M Unit) : M Unit :=
  match ops with
  | a :: b :: c :: _ => body a b c
  | _ => raise (.missingOperand opcode)

/-- A 2OP-table instruction that uses every operand it is given. -/
def run2More (slot : Nat) (args : Args2) (body : Word → Word → List Word → M Unit) (s : State) : Answer :=
  finish (do need2 (opcodeTyped2 slot) (← fetchArgs2 args) body) s

/-- A 2OP-table instruction; operands beyond the second are resolved and ignored (R103). -/
def run2 (slot : Nat) (args : Args2) (body : Word → Word → M Unit) (s : State) : Answer :=
  run2More slot args (fun a b _ => body a b) s

/-- A 1OP-table instruction (R95). -/
def run1 (a : Operand) (body : Word → M Unit) (s : State) : Answer :=
  finish (do
    advance 1
    body (← fetchOperand a)) s

/-- A 0OP-table instruction (R96). -/
def run0 (body : M Unit) (s : State) : Answer :=
  finish (do
    advance 1
    body) s

/-- A VAR-table instruction with one type byte, on its resolved operands (R98). -/
def runVar (ops : List Operand) (body : List Word → M Unit) (s : State) : Answer :=
  finish (do
    advance 2
    body (← fetchOperands ops)) s

/-- A VAR-table instruction with two type bytes: both are consumed before any operand (R99). -/
def runVar2 (ops1 ops2 : List Operand) (body : List Word → M Unit) (s : State) : Answer :=
  finish (do
    advance 3
    body (← fetchOperands (ops1 ++ ops2))) s

/-- An extended instruction (R93). -/
def runExt (ops : List Operand) (body : List Word → M Unit) (s : State) : Answer :=
  finish (do
    advance 3
    body (← fetchOperands ops)) s

end Sys2Proof.Machine
end

