-- ==== Sys2Proof/Machine/Arith.lean ====
section
/-! DEFINITION. Arithmetic and logic (40_arithmetic_logic.md). -/

namespace Sys2Proof.Machine

/-- The exact quotient rounded toward zero (R144). -/
def truncQuotient (a b : Word) : Int := (s16 a).tdiv (s16 b)

/-- The remainder of that quotient (R145). -/
def truncRemainder (a b : Word) : Int := s16 a - s16 b * truncQuotient a b

/-- `ADD` (R140, R141). -/
def execAdd (args : Args2) (s : State) : Answer :=
  run2 0x14 args (fun a b => store (u16 (s16 a + s16 b))) s

/-- `SUB` (R142). -/
def execSub (args : Args2) (s : State) : Answer :=
  run2 0x15 args (fun a b => store (u16 (s16 a - s16 b))) s

/-- `MUL` (R143). -/
def execMul (args : Args2) (s : State) : Answer :=
  run2 0x16 args (fun a b => store (u16 (s16 a * s16 b))) s

/-- A quotient or remainder stored; with a zero divisor the store byte is consumed and nothing is written
(R144, R145). -/
def storeUnlessZero (divisor : Word) (result : Int) : M Unit := do
  let n ← fetch8
  if divisor = 0#16 then return ()
  writeVar n (u16 result)

/-- `DIV` (R144). -/
def execDiv (args : Args2) (s : State) : Answer :=
  run2 0x17 args (fun a b => storeUnlessZero b (truncQuotient a b)) s

/-- `MOD` (R145). -/
def execMod (args : Args2) (s : State) : Answer :=
  run2 0x18 args (fun a b => storeUnlessZero b (truncRemainder a b)) s

/-- `OR` (R146). -/
def execOr (args : Args2) (s : State) : Answer :=
  run2 0x08 args (fun a b => store (a ||| b)) s

/-- `AND` (R147). -/
def execAnd (args : Args2) (s : State) : Answer :=
  run2 0x09 args (fun a b => store (a &&& b)) s

/-- `NOT` (R148). -/
def execNot (a : Operand) (s : State) : Answer :=
  run1 a (fun v => store (v ^^^ 0xFFFF#16)) s

end Sys2Proof.Machine
end

