-- ==== Sys2Proof/Machine/Flags.lean ====
section
/-! DEFINITION. Conditions and branches. The machine has no flags (R27 of 10_state.md): a testing instruction
computes its condition and consumes it at once through the branch field (R105 to R109 of 30_encoding.md). -/

namespace Sys2Proof.Machine

/-- `s16(a) < s16(b)` (R161). -/
def signedLess (a b : Word) : Bool := decide (s16 a < s16 b)

/-- Every bit of `flags` is set in `bitmap` (R164). -/
def hasAllBits (bitmap flags : Word) : Bool := decide (bitmap &&& flags = flags)

/-- `PC + offset - 2` modulo 2^32 (R107, R165). -/
def jumpTarget (pc : BitVec 32) (offset : Int) : BitVec 32 := BitVec.ofInt 32 (pc.toNat + offset - 2)

/-- `read_branch_field()` (R105): the second byte is fetched only for the long field. -/
def readBranchField : M BranchField := do
  let b1 ← fetch8
  if branchIsShort b1 then return shortBranch b1
  else return longBranch b1 (← fetch8)

/-- `do_branch(c, sense, off)` (R107): offsets 0 and 1 return false and true (R106). -/
def doBranch (c : Bool) (field : BranchField) : M Unit := do
  if c = field.sense then
    if field.offset = 0 then ret 0#16
    else if field.offset = 1 then ret 1#16
    else update fun s => s.setPc (jumpTarget s.pc field.offset)

/-- `branch(c)` (R107). -/
def branch (c : Bool) : M Unit := do
  doBranch c (← readBranchField)

/-- `store_branch(v, c)` in the order `FIELD_ORDER` (R109). -/
def storeBranch (v : Word) (c : Bool) : M Unit := do
  match (← gets (·.params.fieldOrder)) with
  | .branchThenStore =>
    let field ← readBranchField
    store v
    doBranch c field
  | .storeThenBranch =>
    store v
    branch c

end Sys2Proof.Machine
end

