-- ==== Sys2Proof/Machine/Calls.lean ====
section
/-! DEFINITION. Calls, returns, the operand stack and the unpopulated slots (46_calls_stack.md; R114 of
30_encoding.md). -/

namespace Sys2Proof.Machine

/-- `CALL` (R280). -/
def execCall (ops : List Operand) (s : State) : Answer :=
  runVar ops (fun vals => need1 (opcodeVar 0x00) vals fun routine args => call routine args true) s

/-- `CALL_1S` (R284). -/
def execCall1s (a : Operand) (s : State) : Answer :=
  run1 a (fun routine => call routine [] true) s

/-- `CALL_1N` (R285). -/
def execCall1n (a : Operand) (s : State) : Answer :=
  run1 a (fun routine => call routine [] false) s

/-- `CALL_2S` (R286). -/
def execCall2s (args : Args2) (s : State) : Answer :=
  run2 0x19 args (fun routine a1 => call routine [a1] true) s

/-- `CALL_2N` (R287). -/
def execCall2n (args : Args2) (s : State) : Answer :=
  run2 0x1A args (fun routine a1 => call routine [a1] false) s

/-- `CALL_VS2` (R288). -/
def execCallVs2 (ops1 ops2 : List Operand) (s : State) : Answer :=
  runVar2 ops1 ops2 (fun vals => need1 (opcodeVar 0x0C) vals fun routine args => call routine args true) s

/-- `CALL_VN` (R289). -/
def execCallVn (ops : List Operand) (s : State) : Answer :=
  runVar ops (fun vals => need1 (opcodeVar 0x19) vals fun routine args => call routine args false) s

/-- `CALL_VN2` (R297). -/
def execCallVn2 (ops1 ops2 : List Operand) (s : State) : Answer :=
  runVar2 ops1 ops2 (fun vals => need1 (opcodeVar 0x1A) vals fun routine args => call routine args false) s

/-- `RET` (R290). -/
def execRet (a : Operand) (s : State) : Answer := run1 a (fun v => ret v) s

/-- `RTRUE` (R291). -/
def execRtrue (s : State) : Answer := run0 (ret 1#16) s

/-- `RFALSE` (R292). -/
def execRfalse (s : State) : Answer := run0 (ret 0#16) s

/-- `RET_POPPED` (R293). -/
def execRetPopped (s : State) : Answer := run0 (do ret (← pop)) s

/-- `PUSH` (R294). -/
def execPush (ops : List Operand) (s : State) : Answer :=
  runVar ops (fun vals => need1 (opcodeVar 0x08) vals fun v _ => push v) s

/-- `PULL` (R295): the pop comes first, then the variable is written in place. -/
def execPull (ops : List Operand) (s : State) : Answer :=
  runVar ops (fun vals => need1 (opcodeVar 0x09) vals fun variable_ _ => do
    writeVarInPlace (varNumber variable_) (← pop)) s

/-- `POP` (R296). -/
def execPop (s : State) : Answer := run0 (do let _ ← pop) s

/-- `NOP` (R298). -/
def execNop (s : State) : Answer := run0 (return ()) s

/-- `CHECK_ARG_COUNT` (R299). -/
def execCheckArgCount (ops : List Operand) (s : State) : Answer :=
  runVar ops (fun vals => need1 (opcodeVar 0x1F) vals fun n _ => do
    branch (decide (n.toNat ≤ (← gets (·.top.argc))))) s

/-- The opcode bytes an unpopulated slot records (R114, R354). -/
def unknownCause : Unpopulated → Cause
  | .long slot a b => .unknownOpcode (0#1 ++ a.typeBit ++ b.typeBit ++ slot) none
  | .typed2 slot _ => .unknownOpcode (0b110#3 ++ slot) none
  | .zero slot => .unknownOpcode (0b1011#4 ++ slot) none
  | .typedVar slot _ => .unknownOpcode (0b111#3 ++ slot) none
  | .extended e _ => .unknownOpcode 0xBE#8 (some e)

/-- Dispatch to an unpopulated slot (R114): the fatal comes after the operands are resolved (R102). -/
def execUnpopulatedSlot (u : Unpopulated) (s : State) : Answer :=
  match u with
  | .long _ a b => finish (do let _ ← fetchArgs2 (.long a b); raise (unknownCause u)) s
  | .typed2 _ ops => finish (do let _ ← fetchArgs2 (.typed ops); raise (unknownCause u)) s
  | .zero _ => run0 (raise (unknownCause u)) s
  | .typedVar _ ops => runVar ops (fun _ => raise (unknownCause u)) s
  | .extended _ ops => runExt ops (fun _ => raise (unknownCause u)) s

end Sys2Proof.Machine
end

