-- ==== Sys2Proof/Machine/Compare.lean ====
section
/-! DEFINITION. Compare, test and jump (41_compare_branch.md). -/

namespace Sys2Proof.Machine

/-- `JE`: the first operand equals one of those after it, of which an encoding gives one to three (R160). -/
def execJe (args : Args2) (s : State) : Answer :=
  run2More 0x01 args (fun a b more => branch (decide (a ∈ b :: more))) s

/-- `JL` (R161). -/
def execJl (args : Args2) (s : State) : Answer :=
  run2 0x02 args (fun a b => branch (signedLess a b)) s

/-- `JG` (R162). -/
def execJg (args : Args2) (s : State) : Answer :=
  run2 0x03 args (fun a b => branch (signedLess b a)) s

/-- `JZ` (R163). -/
def execJz (a : Operand) (s : State) : Answer :=
  run1 a (fun v => branch (decide (v = 0#16))) s

/-- `TEST` (R164). -/
def execTest (args : Args2) (s : State) : Answer :=
  run2 0x07 args (fun bitmap flags => branch (hasAllBits bitmap flags)) s

/-- `JUMP` (R165): offsets 0 and 1 are ordinary here. -/
def execJump (a : Operand) (s : State) : Answer :=
  run1 a (fun offset => update fun s => s.setPc (jumpTarget s.pc (s16 offset))) s

/-- A variable changed in place by a signed amount, and the new word (R166, R167, R183, R184). -/
def addInPlace (n : Byte) (d : Int) : M Word := do
  let w := u16 (s16 (← readVarInPlace n) + d)
  writeVarInPlace n w
  return w

/-- `DEC_CHK` (R166). -/
def execDecChk (args : Args2) (s : State) : Answer :=
  run2 0x04 args (fun variable_ v => do
    let w ← addInPlace (varNumber variable_) (-1)
    branch (signedLess w v)) s

/-- `INC_CHK` (R167). -/
def execIncChk (args : Args2) (s : State) : Answer :=
  run2 0x05 args (fun variable_ v => do
    let w ← addInPlace (varNumber variable_) 1
    branch (signedLess v w)) s

end Sys2Proof.Machine
end

