-- ==== Sys2Proof/Machine/HostIo.lean ====
section
/-! DEFINITION. The instructions of the host port: input, screen, save and restore, quit, restart, random
(47_host_io.md). -/

namespace Sys2Proof.Machine

/-! ### Input -/

/-- `READ` (R314): it suspends; the store byte of a late version is left for `InputDone`. -/
def execRead (ops : List Operand) (s : State) : Answer :=
  runVar ops (fun vals => need2 (opcodeVar 0x04) vals fun text parse _ => do
    update fun s => { s with readText := text, readParse := parse }
    let max ← memByte text.toNat
    request (.readLine max)
    update (·.setRun .waitInput)) s

/-- `READ_CHAR` (R316). -/
def execReadChar (ops : List Operand) (s : State) : Answer :=
  runVar ops (fun _ => do
    let c ← takeKey
    request (.readChar c)
    store c) s

/-! ### Screen, style and sound -/

/-- `SPLIT_WINDOW` (R318). -/
def execSplitWindow (ops : List Operand) (s : State) : Answer :=
  runVar ops (fun vals => need1 (opcodeVar 0x0A) vals fun lines _ => request (.splitWindow lines)) s

/-- `SET_WINDOW` (R319). -/
def execSetWindow (ops : List Operand) (s : State) : Answer :=
  runVar ops (fun vals => need1 (opcodeVar 0x0B) vals fun window _ => request (.setActiveWindow window)) s

/-- `SHOW_STATUS` (R320). -/
def execShowStatus (s : State) : Answer := run0 (request .showStatusLine) s

/-- `ERASE_WINDOW` (R321). -/
def execEraseWindow (ops : List Operand) (s : State) : Answer :=
  runVar ops (fun vals => need1 (opcodeVar 0x0D) vals fun window _ => request (.eraseWindow window)) s

/-- `SET_CURSOR` (R322): the window is 0 when there is no third operand. -/
def execSetCursor (ops : List Operand) (s : State) : Answer :=
  runVar ops (fun vals => need2 (opcodeVar 0x0F) vals fun line column more =>
    request (.setCursor line column (more.headD 0#16))) s

/-- `SET_COLOUR` (R323). -/
def execSetColour (args : Args2) (s : State) : Answer :=
  run2 0x1B args (fun fg bg => request (.setColor fg bg)) s

/-- `SET_TEXT_STYLE` (R324). -/
def execSetTextStyle (ops : List Operand) (s : State) : Answer :=
  runVar ops (fun vals => need1 (opcodeVar 0x11) vals fun style _ => request (.setTextStyle style)) s

/-- `BUFFER_MODE` (R325). -/
def execBufferMode (ops : List Operand) (s : State) : Answer :=
  runVar ops (fun vals => need1 (opcodeVar 0x12) vals fun flag _ =>
    request (.setBufferMode (decide (flag = 1#16)))) s

/-- `SOUND_EFFECT` (R326). -/
def execSoundEffect (ops : List Operand) (s : State) : Answer :=
  runVar ops (fun vals => need1 (opcodeVar 0x15) vals fun number _ =>
    if number = 1#16 ∨ number = 2#16 then request (.playSound number)
    else raise (.invalidSoundEffect number)) s

/-! ### Save and restore -/

/-- Dynamic memory lies inside memory, or the fatal of an access at 0 (R61, U9; log entry 9). -/
def checkDynamic : M Unit := do checkRange 0 (← gets (·.cfg.staticBase.toNat))

/-- `frames`, bottom first (R21). -/
def State.frames (s : State) : List Frame := s.below.reverse ++ [s.top]

/-- `Snapshot()` (R327). -/
def State.snapshot (s : State) : Snapshot :=
  { readParse := s.readParse, readText := s.readText, dyn := s.mem.bytes 0 s.cfg.staticBase.toNat,
    frames := s.frames }

/-- A snapshot is well-formed for this machine (R327). -/
def State.accepts (s : State) (r : Snapshot) : Bool :=
  decide (r.dyn.length = s.cfg.staticBase.toNat) && !r.frames.isEmpty
    && withinLimit r.frames.length s.params.frameDepth
    && r.frames.all fun f => decide (f.argc ≤ 7) && withinLimit f.stack.length s.params.stackDepth

/-- The frames replaced by a sequence given bottom first; an empty one changes nothing. -/
def State.setFrames (s : State) (frames : List Frame) : State :=
  match frames.reverse with
  | [] => s
  | top :: below => { s with top := top, below := below }

/-- Dynamic memory, frames and read addresses replaced from a snapshot (R330). -/
def State.restoreFrom (s : State) (r : Snapshot) : State :=
  { (s.setFrames r.frames) with
    mem := s.mem.setBytes 0 r.dyn, readParse := r.readParse, readText := r.readText }

/-- The result field of `SAVE` and `RESTORE`: a branch when `VERSION <= 4`, else a store (R328, R330). -/
def signalSuccess (ok : Bool) : M Unit := do
  if (← gets (·.late)) then store (if ok then 1#16 else 0#16) else branch ok

/-- `SAVE` after its operands (R328); the snapshot is taken before the result field is read (R329). -/
def saveBody : M Unit := do
  checkDynamic
  let snap ← gets (·.snapshot)
  let ok ← takeSaveReply
  request (.save snap ok)
  signalSuccess ok

/-- `RESTORE` after its operands (R330); success is signalled at the restored `PC`. -/
def restoreBody : M Unit := do
  let reply ← takeRestoreReply
  request (.restore reply)
  match reply with
  | none => signalSuccess false
  | some r =>
    if (← gets (·.accepts r)) then
      checkDynamic
      update (·.restoreFrom r)
      signalSuccess true
    else signalSuccess false

/-- `SAVE` (R328). -/
def execSave (form : SaveForm) (s : State) : Answer :=
  match form with
  | .short => run0 saveBody s
  | .extended ops => runExt ops (fun _ => saveBody) s

/-- `RESTORE` (R330). -/
def execRestore (form : SaveForm) (s : State) : Answer :=
  match form with
  | .short => run0 restoreBody s
  | .extended ops => runExt ops (fun _ => restoreBody) s

/-! ### Quit, restart, random -/

/-- `QUIT` (R332). -/
def execQuit (s : State) : Answer :=
  run0 (do
    request .quit
    update (·.setRun .halted)) s

/-- The configuration registers latched again from memory (R333, R381). -/
def relatch : M Unit := do
  let version ← memByte hdrVersion
  let pc0 ← memWord hdrPc0
  let dict ← memWord hdrDict
  let objTab ← memWord hdrObjTab
  let globals ← memWord hdrGlobals
  let staticBase ← memWord hdrStatic
  let abbrevTab ← memWord hdrAbbrev
  update fun s => { s with cfg := configOf version pc0 dict objTab globals staticBase abbrevTab }

/-- `RESTART` (R333): `RUN`, `TRACE` and `RNG` are kept. -/
def execRestart (s : State) : Answer :=
  run0 (do
    update fun s => { s with mem := s.story }
    relatch
    update fun s => { s with top := initialFrame s.cfg.pc0, below := [], readText := 0#16, readParse := 0#16 }) s

/-- `RANDOM` (R335). -/
def execRandom (ops : List Operand) (s : State) : Answer :=
  runVar ops (fun vals => need1 (opcodeVar 0x07) vals fun range _ => do
    if 0 < s16 range then store (← drawRandom range.toNat)
    else
      update (·.reseed (-(s16 range)))
      store 0#16) s

end Sys2Proof.Machine
end

