-- ==== Sys2Proof/Machine/Navigator.lean ====
section
/-! DEFINITION. The object-table navigator: records, links, attributes and the tree (R200 to R209 of
43_objects.md), and the property lists (R230 to R236 of 44_properties.md). -/

namespace Sys2Proof.Machine

/-! ### Records and links -/

/-- `ObjAddr(id)`, for `id >= 1` (R200). -/
def State.objAddr (s : State) (id : Word) : Nat :=
  s.cfg.objTab.toNat + s.cfg.geom.propDefaultsSize + (id.toNat - 1) * s.cfg.geom.objRecSize

/-- Id 0 names no record (R201). -/
def checkObject (id : Word) : M Unit := if id = 0#16 then raise (.invalidObject id) else return ()

/-- `Link(id, off)` (R202). -/
def link (id : Word) (off : Geometry → Nat) : M Word := do
  checkObject id
  let a ← gets fun s => s.objAddr id + off s.cfg.geom
  return BitVec.ofNat 16 (← memRead a (← gets (·.cfg.geom.linkBytes)))

/-- `SetLink(id, off, v)`: a one-byte field does not take an id above 255 (R203). -/
def setLink (id : Word) (off : Geometry → Nat) (v : Word) : M Unit := do
  checkObject id
  if (← gets (·.cfg.geom.earlier)) && decide (255 < v.toNat) then raise (.invalidObject v)
  let a ← gets fun s => s.objAddr id + off s.cfg.geom
  memWrite a (← gets (·.cfg.geom.linkBytes)) v.toNat

/-! ### Attributes -/

/-- `Attr(id)`: 32 bits, or 48 bits by an access of 32 and one of 16 (R204). The 32 are the low ones here. -/
def attrs (id : Word) : M (BitVec 48) := do
  checkObject id
  let a ← gets (·.objAddr id)
  let first ← memRead a 4
  if (← gets (·.cfg.geom.earlier)) then return BitVec.ofNat 48 first
  else return BitVec.ofNat 48 (first * 65536 + (← memRead (a + 4) 2))

/-- `AttrMask(n)`: numbering starts at the most significant bit (R205). -/
def attrMask (n : Word) : M (BitVec 48) := do
  let bits ← gets (·.cfg.geom.attrBits)
  if bits ≤ n.toNat then raise (.invalidAttribute n)
  return 1#48 <<< (bits - 1 - n.toNat)

/-- `SetAttrWord(id, v)`: both accesses are checked before the first writes (R206). -/
def setAttrs (id : Word) (v : BitVec 48) : M Unit := do
  let a ← gets (·.objAddr id)
  if (← gets (·.cfg.geom.earlier)) then memWrite a 4 v.toNat
  else
    checkRange a 4
    checkRange (a + 4) 2
    memWrite a 4 (v.toNat / 65536)
    memWrite (a + 4) 2 (v.toNat % 65536)

/-! ### The tree -/

/-- `WALK_LIMIT` (R208). -/
def State.walkLimit (s : State) : Nat := if s.cfg.geom.earlier then 255 else 65535

/-- The walk of `Unlink` from sibling `s`, with so many further links allowed: `obj`'s elder sibling takes
`obj`'s sibling (R207). -/
def walkChain (obj sib : Word) : Nat → Word → M Unit
  | allowed, s => do
    if s = 0#16 then raise (.treeCorrupt obj)
    let nxt ← link s Geometry.offSibling
    if nxt = obj then setLink s Geometry.offSibling sib
    else
      match allowed with
      | 0 => raise (.treeCorrupt obj)
      | more + 1 => walkChain obj sib more nxt

/-- `Unlink(obj)` (R207). -/
def unlink (obj : Word) : M Unit := do
  let p ← link obj Geometry.offParent
  if p = 0#16 then return ()
  let sib ← link obj Geometry.offSibling
  let c ← link p Geometry.offChild
  if c = obj then setLink p Geometry.offChild sib
  else walkChain obj sib (← gets (·.walkLimit)) c

/-! ### Property lists -/

/-- One entry of a property list (R231, R232). -/
structure PropEntry where
  num : Nat
  len : Nat
  data : Nat
  next : Nat
deriving DecidableEq, Repr

/-- `PropTable(id)` (R230). -/
def propTable (id : Word) : M Nat := do
  checkObject id
  let a ← gets fun s => s.objAddr id + s.cfg.geom.offProps
  memRead a 2

/-- `PropFirst(id)`: the list stands after the short name (R230, R234). -/
def propFirst (id : Word) : M Nat := do
  let t ← propTable id
  return t + 1 + 2 * (← memRead t 1)

/-- The length in a one-byte EARLIER header (R231). -/
def lengthEarlier (b : Byte) : Nat := b.toNat / 32 + 1

/-- The length in a LATER continuation byte: 0 means 64 (R232). -/
def lengthContinued (c : Byte) : Nat := if c.toNat % 64 = 0 then 64 else c.toNat % 64

/-- The length in a LATER one-byte header (R232). -/
def lengthLater (b : Byte) : Nat := if b.getLsbD 6 then 2 else 1

/-- `PropEntry(e)`; `none` is `End` (R231, R232). -/
def propEntry (e : Nat) : M (Option PropEntry) := do
  let b ← memByte e
  if b = 0#8 then return none
  if (← gets (·.cfg.geom.earlier)) then
    let len := lengthEarlier b
    return some { num := b.toNat % 32, len, data := e + 1, next := e + 1 + len }
  else if b.getLsbD 7 then
    let len := lengthContinued (← memByte (e + 1))
    return some { num := b.toNat % 64, len, data := e + 2, next := e + 2 + len }
  else
    let len := lengthLater b
    return some { num := b.toNat % 64, len, data := e + 1, next := e + 1 + len }

/-- The search of R233 from entry `e`. Every entry moves on by at least 2, so `MEM_SIZE` entries leave memory:
the case 0 is the fatal that the next read would be. -/
def propSearch (p : Nat) : Nat → Nat → M (Option PropEntry)
  | 0, e => raise (.memRange e)
  | more + 1, e => do
    match (← propEntry e) with
    | none => return none
    | some r => if r.num = p then return some r else propSearch p more r.next

/-- `PropFind(id, p)` (R233). -/
def propFind (id p : Word) : M (Option PropEntry) := do
  let e ← propFirst id
  propSearch p.toNat ((← gets (·.memSize)) + 1) e

/-- A property number is 1 to `MAX_PROP` (R236). -/
def checkProperty (p : Word) : M Unit := do
  if p = 0#16 ∨ (← gets (·.cfg.geom.maxProp)) < p.toNat then raise (.invalidProperty p)

/-- `PropDefault(p)` (R236). -/
def propDefault (p : Word) : M Word := do
  let a ← gets fun s => s.cfg.objTab.toNat + 2 * (p.toNat - 1)
  memWord a

end Sys2Proof.Machine
end

