-- ==== Sys2Proof/Machine/Objects.lean ====
section
/-! DEFINITION. The object and attribute instructions (43_objects.md). -/

namespace Sys2Proof.Machine

/-- `TEST_ATTR` (R210). -/
def execTestAttr (args : Args2) (s : State) : Answer :=
  run2 0x0A args (fun obj attr => do
    let set ← attrs obj
    let mask ← attrMask attr
    branch (decide (set &&& mask ≠ 0#48))) s

/-- `SET_ATTR` (R211). -/
def execSetAttr (args : Args2) (s : State) : Answer :=
  run2 0x0B args (fun obj attr => do
    let set ← attrs obj
    let mask ← attrMask attr
    setAttrs obj (set ||| mask)) s

/-- `CLEAR_ATTR` (R212). -/
def execClearAttr (args : Args2) (s : State) : Answer :=
  run2 0x0C args (fun obj attr => do
    let set ← attrs obj
    let mask ← attrMask attr
    setAttrs obj (set &&& ~~~mask)) s

/-- `REMOVE_OBJ` (R213). -/
def execRemoveObj (a : Operand) (s : State) : Answer :=
  run1 a (fun obj => do
    if obj = 0#16 then return ()
    unlink obj
    setLink obj Geometry.offParent 0#16
    setLink obj Geometry.offSibling 0#16) s

/-- The guard of `INSERT_OBJ`: `obj` is already the first child of `dest` (R214, R215). R214 writes it with an `and`
and does not say whether the second link is read where the first test fails: that it is not read is the model's
choice (DESIGN CHOICE, log entry 28). -/
def alreadyFirstChild (obj dest : Word) : M Bool := do
  if (← link obj Geometry.offParent) = dest then return decide ((← link dest Geometry.offChild) = obj)
  else return false

/-- `INSERT_OBJ` (R214, R215). -/
def execInsertObj (args : Args2) (s : State) : Answer :=
  run2 0x0E args (fun obj dest => do
    if obj = 0#16 ∨ dest = 0#16 then return ()
    if (← alreadyFirstChild obj dest) then return ()
    unlink obj
    setLink obj Geometry.offSibling (← link dest Geometry.offChild)
    setLink dest Geometry.offChild obj
    setLink obj Geometry.offParent dest) s

/-- `GET_PARENT` (R216). -/
def execGetParent (a : Operand) (s : State) : Answer :=
  run1 a (fun obj => do store (← link obj Geometry.offParent)) s

/-- `GET_SIBLING` (R217). -/
def execGetSibling (a : Operand) (s : State) : Answer :=
  run1 a (fun obj => do
    let v ← link obj Geometry.offSibling
    storeBranch v (decide (v ≠ 0#16))) s

/-- `GET_CHILD` (R218). -/
def execGetChild (a : Operand) (s : State) : Answer :=
  run1 a (fun obj => do
    let v ← link obj Geometry.offChild
    storeBranch v (decide (v ≠ 0#16))) s

/-- `JIN` (R219). -/
def execJin (args : Args2) (s : State) : Answer :=
  run2 0x06 args (fun a b => do branch (decide ((← link a Geometry.offParent) = b))) s

end Sys2Proof.Machine
end

