-- ==== Sys2Proof/Machine/Text.lean ====
section
/-! DEFINITION. The 5-bit text decompressor (R250 to R259 of 45_text.md). -/

namespace Sys2Proof.Machine

/-- A Z-character (R12). -/
abbrev Code := BitVec 5

/-- The three codes of a packed word, the first in bits 14:10 (R251). -/
def codesOf (w : Word) : List Code := [w.extractLsb' 10 5, w.extractLsb' 5 5, w.extractLsb' 0 5]

/-- `ZChars(addr)` (R250): the codes, and the address after the last word. Every word moves on by 2, so
`MEM_SIZE` words leave memory: the case 0 is the fatal that the next read would be. -/
def zcharsFrom : Nat → Nat → M (List Code × Nat)
  | 0, a => raise (.memRange a)
  | more + 1, a => do
    let w ← memWord a
    if w.getLsbD 15 then return (codesOf w, a + 2)
    let (cs, after) ← zcharsFrom more (a + 2)
    return (codesOf w ++ cs, after)

/-- `ZChars(addr)` (R250). -/
def zchars (a : Nat) : M (List Code × Nat) := do
  zcharsFrom ((← gets (·.memSize)) + 1) a

/-- The punctuation and digit table (R257), as ASCII codes. -/
def punctTable : List Word :=
  [0x20, 0x5E, 0x30, 0x31, 0x32, 0x33, 0x34, 0x35, 0x36, 0x37, 0x38, 0x39, 0x2E,
   0x2C, 0x21, 0x3F, 0x5F, 0x23, 0x27, 0x22, 0x2F, 0x5C, 0x2D, 0x3A, 0x28, 0x29]

/-- `PUNCT[n - 6]` (R257). -/
def punct (n : Code) : Word := punctTable.getD (n.toNat - 6) 0#16

/-- `Char(base + n - 6)`: a letter, or for `n < 6` the formula as written (R255, R258). -/
def letter (base : Nat) (n : Code) : Token := .char (BitVec.ofNat 16 (base + n.toNat - 6))

/-- The value of the 10-bit escape (R256). -/
def escape (hi lo : Code) : Word := (hi ++ lo).setWidth 16

/-- The abbreviation a code 1 to 3 and its follower name: `32 * (c - 1) + n` (R254). -/
def abbrevIndex (c n : Code) : Nat := 32 * (c.toNat - 1) + n.toNat

/-- `ZDecode(cs)` (R252 to R259), given how an abbreviation is expanded. -/
def zdecodeWith (expand : Nat → M (List Token)) : List Code → M (List Token)
  | [] => return []
  | c :: cs =>
    if c = 0#5 then do
      let out ← zdecodeWith expand cs
      return .char 0x20#16 :: out
    else if c.toNat ≤ 3 then
      match cs with
      | [] => raise .badText
      | n :: cs' => do
        let sub ← expand (abbrevIndex c n)
        let out ← zdecodeWith expand cs'
        return sub ++ out
    else if c = 4#5 then
      match cs with
      | [] => raise .badText
      | n :: cs' => do
        let out ← zdecodeWith expand cs'
        return letter 0x41 n :: out
    else if c = 5#5 then
      match cs with
      | [] => return []
      | n :: cs' =>
        if n = 5#5 then return []
        else if n = 6#5 then
          match cs' with
          | hi :: lo :: cs'' => do
            let out ← zdecodeWith expand cs''
            return .char (escape hi lo) :: out
          | _ => raise .badText
        else if n = 7#5 then do
          let out ← zdecodeWith expand cs'
          return .newline :: out
        else if 8 ≤ n.toNat then do
          let out ← zdecodeWith expand cs'
          return .char (punct n) :: out
        else raise .badText
    else do
      let out ← zdecodeWith expand cs
      return letter 0x61 c :: out

/-- The codes of abbreviation `idx`: the table entry is a word address (R254). -/
def abbrevCodes (idx : Nat) : M (List Code) := do
  let entry ← memWord (← gets fun s => s.cfg.abbrevTab.toNat + 2 * idx)
  let (cs, _) ← zchars (2 * entry.toNat)
  return cs

/-- How many levels of abbreviations one decode may nest: `ABBREV_DEPTH`, or with that unbounded the number of
abbreviations, beyond which a decode repeats one inside itself and never ends (log entry 5). -/
def State.abbrevLevels (s : State) : Nat := s.params.abbrevDepth.getD 96

/-- A decode nested deeper than allowed (R259): `BadText`, or no result where no limit is set (U19). -/
def tooDeep : M (List Token) := fun s =>
  if s.params.abbrevDepth.isSome then .error (.fatal .badText) s else .error (.noResult .endlessDecode) s

/-- The nested decode of abbreviation `idx`, with so many levels allowed (R254). -/
def expandAbbrev : Nat → Nat → M (List Token)
  | levels, idx => do
    let cs ← abbrevCodes idx
    match levels with
    | 0 => tooDeep
    | more + 1 => zdecodeWith (expandAbbrev more) cs

/-- `ZDecode(cs)` at depth 0. -/
def zdecode (cs : List Code) : M (List Token) := do
  zdecodeWith (expandAbbrev (← gets (·.abbrevLevels))) cs

/-- `DecodeAt(addr)` (R259): the tokens, and the address after the text. -/
def decodeAt (a : Nat) : M (List Token × Nat) := do
  let (cs, after) ← zchars a
  return (← zdecode cs, after)

/-- The digits of a number, most significant first, given a bound on their count. -/
def digits : Nat → Nat → List Token
  | 0, _ => []
  | more + 1, n =>
    (if n / 10 = 0 then [] else digits more (n / 10)) ++ [.char (BitVec.ofNat 16 (0x30 + n % 10))]

/-- `decimal(k)` of a signed word (R267); a word has at most five digits. -/
def decimal (k : Int) : List Token :=
  if k < 0 then .char 0x2D#16 :: digits 5 k.natAbs else digits 5 k.natAbs

end Sys2Proof.Machine
end

