-- ==== Sys2Proof/Machine/Print.lean ====
section
/-! DEFINITION. The print instructions (45_text.md): each makes one `print` request, after its whole text is
decoded (R260, R351). -/

namespace Sys2Proof.Machine

/-- The inline text at `PC`; `PC` moves past its last word (R261). -/
def inlineText : M (List Token) := do
  let (text, after) ← decodeAt (← gets (·.pc.toNat))
  update (·.setPc (BitVec.ofNat 32 after))
  return text

/-- The text at an address, printed. -/
def printAt (a : Nat) : M Unit := do
  let (text, _) ← decodeAt a
  request (.print text)

/-- `PRINT` (R261). -/
def execPrint (s : State) : Answer :=
  run0 (do request (.print (← inlineText))) s

/-- `PRINT_RET` (R262). -/
def execPrintRet (s : State) : Answer :=
  run0 (do
    let text ← inlineText
    request (.print (text ++ [.newline]))
    ret 1#16) s

/-- `PRINT_ADDR` (R263). -/
def execPrintAddr (a : Operand) (s : State) : Answer :=
  run1 a (fun addr => printAt addr.toNat) s

/-- `PRINT_PADDR` (R264). -/
def execPrintPaddr (a : Operand) (s : State) : Answer :=
  run1 a (fun paddr => do printAt (← gets (·.unpack paddr))) s

/-- `PRINT_OBJ` (R265). -/
def execPrintObj (a : Operand) (s : State) : Answer :=
  run1 a (fun obj => do
    let t ← propTable obj
    if (← memRead t 1) = 0 then request (.print [])
    else printAt (t + 1)) s

/-- `PRINT_CHAR` (R266). -/
def execPrintChar (ops : List Operand) (s : State) : Answer :=
  runVar ops (fun vals => need1 (opcodeVar 0x05) vals fun c _ => request (.print [.char c])) s

/-- `PRINT_NUM` (R267). -/
def execPrintNum (ops : List Operand) (s : State) : Answer :=
  runVar ops (fun vals => need1 (opcodeVar 0x06) vals fun v _ => request (.print (decimal (s16 v)))) s

/-- `NEW_LINE` (R268). -/
def execNewLine (s : State) : Answer :=
  run0 (request (.print [.newline])) s

end Sys2Proof.Machine
end

