-- ==== Sys2Proof/Machine/Properties.lean ====
section
/-! DEFINITION. The property instructions (44_properties.md). -/

namespace Sys2Proof.Machine

/-- `GET_PROP` (R235). -/
def execGetProp (args : Args2) (s : State) : Answer :=
  run2 0x11 args (fun obj p => do
    checkProperty p
    match (← propFind obj p) with
    | none => store (← propDefault p)
    | some r =>
      if r.len = 1 then store ((← memByte r.data).setWidth 16)
      else if r.len = 2 then store (← memWord r.data)
      else raise (.badPropertyLength r.len)) s

/-- `GET_PROP_ADDR` (R237). -/
def execGetPropAddr (args : Args2) (s : State) : Answer :=
  run2 0x12 args (fun obj p => do
    checkProperty p
    match (← propFind obj p) with
    | none => store 0#16
    | some r => store (BitVec.ofNat 16 r.data)) s

/-- The number of the entry at `e`, 0 at the end of the list (R238). -/
def entryNumber (e : Nat) : M Word := do
  match (← propEntry e) with
  | none => return 0#16
  | some r => return BitVec.ofNat 16 r.num

/-- `GET_NEXT_PROP` (R238). -/
def execGetNextProp (args : Args2) (s : State) : Answer :=
  run2 0x13 args (fun obj p => do
    if p = 0#16 then store (← entryNumber (← propFirst obj))
    else
      checkProperty p
      match (← propFind obj p) with
      | none => raise (.propertyNotFound p)
      | some r => store (← entryNumber r.next)) s

/-- The length of the property whose data starts after byte `b` (R239). -/
def lengthBefore (earlier : Bool) (b : Byte) : Nat :=
  if earlier then lengthEarlier b else if b.getLsbD 7 then lengthContinued b else lengthLater b

/-- `GET_PROP_LEN` (R239). -/
def execGetPropLen (a : Operand) (s : State) : Answer :=
  run1 a (fun addr => do
    if addr = 0#16 then store 0#16
    else
      let b ← memByte (addr.toNat - 1)
      store (BitVec.ofNat 16 (lengthBefore (← gets (·.cfg.geom.earlier)) b))) s

/-- `PUT_PROP` (R240). -/
def execPutProp (ops : List Operand) (s : State) : Answer :=
  runVar ops (fun vals => need3 (opcodeVar 0x03) vals fun obj p v => do
    checkProperty p
    match (← propFind obj p) with
    | none => raise (.propertyNotFound p)
    | some r =>
      if r.len = 1 then memWrite r.data 1 v.toNat
      else if r.len = 2 then memWrite r.data 2 v.toNat
      else raise (.badPropertyLength r.len)) s

end Sys2Proof.Machine
end

