-- ==== Sys2Proof/Machine/Variables.lean ====
section
/-! DEFINITION. Variable access by number, loads and stores (42_variables_loadstore.md). -/

namespace Sys2Proof.Machine

/-- `STORE` (R181). -/
def execStore (args : Args2) (s : State) : Answer :=
  run2 0x0D args (fun variable_ v => writeVarInPlace (varNumber variable_) v) s

/-- `LOAD` (R182). -/
def execLoad (a : Operand) (s : State) : Answer :=
  run1 a (fun variable_ => do store (← readVarInPlace (varNumber variable_))) s

/-- `INC` (R183). -/
def execInc (a : Operand) (s : State) : Answer :=
  run1 a (fun variable_ => do let _ ← addInPlace (varNumber variable_) 1) s

/-- `DEC` (R184). -/
def execDec (a : Operand) (s : State) : Answer :=
  run1 a (fun variable_ => do let _ ← addInPlace (varNumber variable_) (-1)) s

/-- Base plus twice index, both unsigned, with no wrap (R185, R75 of 20_memory.md). -/
def wordAddr (array index : Word) : Nat := array.toNat + 2 * index.toNat

/-- Base plus index, both unsigned, with no wrap (R186, R75). -/
def byteAddr (array index : Word) : Nat := array.toNat + index.toNat

/-- `LOADW` (R185). -/
def execLoadw (args : Args2) (s : State) : Answer :=
  run2 0x0F args (fun array index => do store (← memWord (wordAddr array index))) s

/-- `LOADB` (R186): zero-extended. -/
def execLoadb (args : Args2) (s : State) : Answer :=
  run2 0x10 args (fun array index => do store ((← memByte (byteAddr array index)).setWidth 16)) s

/-- `STOREW` (R187). -/
def execStorew (ops : List Operand) (s : State) : Answer :=
  runVar ops (fun vals => need3 (opcodeVar 0x01) vals fun array index v =>
    memWrite (wordAddr array index) 2 v.toNat) s

/-- `STOREB` (R188): the low 8 bits of the value. -/
def execStoreb (ops : List Operand) (s : State) : Answer :=
  runVar ops (fun vals => need3 (opcodeVar 0x02) vals fun array index v =>
    memWrite (byteAddr array index) 1 v.toNat) s

end Sys2Proof.Machine
end

