-- ==== Sys2Proof/Machine/Dispatch.lean ====
section
/-! DEFINITION. One arm per instruction. -/

namespace Sys2Proof.Machine

def exec (i : Instr) (s : State) : Host.Outcome State Fault Refusal :=
  match i with
  | .je args => Sys2Proof.Machine.execJe args s
  | .jl args => Sys2Proof.Machine.execJl args s
  | .jg args => Sys2Proof.Machine.execJg args s
  | .decChk args => Sys2Proof.Machine.execDecChk args s
  | .incChk args => Sys2Proof.Machine.execIncChk args s
  | .jin args => Sys2Proof.Machine.execJin args s
  | .test args => Sys2Proof.Machine.execTest args s
  | .or args => Sys2Proof.Machine.execOr args s
  | .and args => Sys2Proof.Machine.execAnd args s
  | .testAttr args => Sys2Proof.Machine.execTestAttr args s
  | .setAttr args => Sys2Proof.Machine.execSetAttr args s
  | .clearAttr args => Sys2Proof.Machine.execClearAttr args s
  | .store args => Sys2Proof.Machine.execStore args s
  | .insertObj args => Sys2Proof.Machine.execInsertObj args s
  | .loadw args => Sys2Proof.Machine.execLoadw args s
  | .loadb args => Sys2Proof.Machine.execLoadb args s
  | .getProp args => Sys2Proof.Machine.execGetProp args s
  | .getPropAddr args => Sys2Proof.Machine.execGetPropAddr args s
  | .getNextProp args => Sys2Proof.Machine.execGetNextProp args s
  | .add args => Sys2Proof.Machine.execAdd args s
  | .sub args => Sys2Proof.Machine.execSub args s
  | .mul args => Sys2Proof.Machine.execMul args s
  | .div args => Sys2Proof.Machine.execDiv args s
  | .mod args => Sys2Proof.Machine.execMod args s
  | .call2s args => Sys2Proof.Machine.execCall2s args s
  | .call2n args => Sys2Proof.Machine.execCall2n args s
  | .setColour args => Sys2Proof.Machine.execSetColour args s
  | .jz a => Sys2Proof.Machine.execJz a s
  | .getSibling a => Sys2Proof.Machine.execGetSibling a s
  | .getChild a => Sys2Proof.Machine.execGetChild a s
  | .getParent a => Sys2Proof.Machine.execGetParent a s
  | .getPropLen a => Sys2Proof.Machine.execGetPropLen a s
  | .inc a => Sys2Proof.Machine.execInc a s
  | .dec a => Sys2Proof.Machine.execDec a s
  | .printAddr a => Sys2Proof.Machine.execPrintAddr a s
  | .call1s a => Sys2Proof.Machine.execCall1s a s
  | .removeObj a => Sys2Proof.Machine.execRemoveObj a s
  | .printObj a => Sys2Proof.Machine.execPrintObj a s
  | .ret a => Sys2Proof.Machine.execRet a s
  | .jump a => Sys2Proof.Machine.execJump a s
  | .printPaddr a => Sys2Proof.Machine.execPrintPaddr a s
  | .load a => Sys2Proof.Machine.execLoad a s
  | .not a => Sys2Proof.Machine.execNot a s
  | .call1n a => Sys2Proof.Machine.execCall1n a s
  | .rtrue => Sys2Proof.Machine.execRtrue s
  | .rfalse => Sys2Proof.Machine.execRfalse s
  | .print => Sys2Proof.Machine.execPrint s
  | .printRet => Sys2Proof.Machine.execPrintRet s
  | .nop => Sys2Proof.Machine.execNop s
  | .save form => Sys2Proof.Machine.execSave form s
  | .restore form => Sys2Proof.Machine.execRestore form s
  | .restart => Sys2Proof.Machine.execRestart s
  | .retPopped => Sys2Proof.Machine.execRetPopped s
  | .pop => Sys2Proof.Machine.execPop s
  | .quit => Sys2Proof.Machine.execQuit s
  | .newLine => Sys2Proof.Machine.execNewLine s
  | .showStatus => Sys2Proof.Machine.execShowStatus s
  | .call ops => Sys2Proof.Machine.execCall ops s
  | .storew ops => Sys2Proof.Machine.execStorew ops s
  | .storeb ops => Sys2Proof.Machine.execStoreb ops s
  | .putProp ops => Sys2Proof.Machine.execPutProp ops s
  | .read ops => Sys2Proof.Machine.execRead ops s
  | .printChar ops => Sys2Proof.Machine.execPrintChar ops s
  | .printNum ops => Sys2Proof.Machine.execPrintNum ops s
  | .random ops => Sys2Proof.Machine.execRandom ops s
  | .push ops => Sys2Proof.Machine.execPush ops s
  | .pull ops => Sys2Proof.Machine.execPull ops s
  | .splitWindow ops => Sys2Proof.Machine.execSplitWindow ops s
  | .setWindow ops => Sys2Proof.Machine.execSetWindow ops s
  | .callVs2 ops1 ops2 => Sys2Proof.Machine.execCallVs2 ops1 ops2 s
  | .eraseWindow ops => Sys2Proof.Machine.execEraseWindow ops s
  | .setCursor ops => Sys2Proof.Machine.execSetCursor ops s
  | .setTextStyle ops => Sys2Proof.Machine.execSetTextStyle ops s
  | .bufferMode ops => Sys2Proof.Machine.execBufferMode ops s
  | .soundEffect ops => Sys2Proof.Machine.execSoundEffect ops s
  | .readChar ops => Sys2Proof.Machine.execReadChar ops s
  | .callVn ops => Sys2Proof.Machine.execCallVn ops s
  | .callVn2 ops1 ops2 => Sys2Proof.Machine.execCallVn2 ops1 ops2 s
  | .checkArgCount ops => Sys2Proof.Machine.execCheckArgCount ops s
  | .unpopulatedSlot u => Sys2Proof.Machine.execUnpopulatedSlot u s

end Sys2Proof.Machine
end

