-- ==== Sys2Proof/Machine/Input.lean ====
section
/-! DEFINITION. Input completion, the external event `InputDone(line)` (R315, R317, R334 of 47_host_io.md). -/

namespace Sys2Proof.Machine

/-- `lower(c)` (R315). -/
def lowerCase (c : Byte) : Byte := if 0x41 ≤ c.toNat ∧ c.toNat ≤ 0x5A then c + 32#8 else c

/-- A token of the line: its characters and its offset (R315). -/
structure LineToken where
  chars : List Byte
  offset : Nat
deriving DecidableEq, Repr

/-- The maximal runs of characters other than space, in order; `run` is the run being read, which started at
`start`, and the next character has offset `k` (R315). -/
def tokensFrom (run : List Byte) (start k : Nat) : List Byte → List LineToken
  | [] => if run.isEmpty then [] else [⟨run, start⟩]
  | c :: cs =>
    if c = 0x20#8 then
      (if run.isEmpty then [] else [⟨run, start⟩]) ++ tokensFrom [] (k + 1) (k + 1) cs
    else tokensFrom (run ++ [c]) start (k + 1) cs

/-- The tokens of a line. -/
def tokensOf (line : List Byte) : List LineToken := tokensFrom [] 0 0 line

/-- Bytes written one after the other from `a` on. -/
def writeBytes (a : Nat) : List Byte → M Unit
  | [] => return ()
  | b :: bs => do
    memWrite a 1 b.toNat
    writeBytes (a + 1) bs

/-- The line written into the text buffer at `t`: with a terminator when `VERSION <= 4`, with a length prefix
otherwise (R334). -/
def writeLine (t : Nat) (line : List Byte) : M Unit := do
  if (← gets (·.late)) then
    memWrite (t + 1) 1 line.length
    writeBytes (t + 2) line
  else
    writeBytes (t + 1) (line ++ [0#8])

/-- `DICT_WORD_CHARS` (R6, R317). -/
def State.dictWordChars (s : State) : Nat := if s.cfg.geom.earlier then 6 else 9

/-- The search of the entries from address `e`, each `stride` bytes, so many left (R317). -/
def dictSearch (word : List Token) (stride : Nat) : Nat → Nat → M Nat
  | 0, _ => return 0
  | more + 1, e => do
    let (text, _) ← decodeAt e
    if text = word then return e else dictSearch word stride more (e + stride)

/-- `DictLookup(tok)` (R317): the address of the entry, or 0. -/
def dictLookup (tok : List Byte) : M Nat := do
  let word := (tok.take (← gets (·.dictWordChars))).map fun c => Token.char (c.setWidth 16)
  let dict ← gets (·.cfg.dict.toNat)
  let n ← memRead dict 1
  let stride ← memRead (dict + n + 1) 1
  let count ← memRead (dict + n + 2) 2
  dictSearch word stride count (dict + n + 4)

/-- The parse-buffer entries of the tokens, from address `a` on (R315). -/
def writeTokens (a : Nat) : List LineToken → M Unit
  | [] => return ()
  | tok :: toks => do
    let entry ← dictLookup tok.chars
    memWrite a 2 entry
    memWrite (a + 2) 1 tok.chars.length
    memWrite (a + 3) 1 (tok.offset + (← gets (·.params.textPosBase)))
    writeTokens (a + 4) toks

/-- The effect of `InputDone(line)` on a machine that waits for it (R315). -/
def completeInput (line : List Byte) : M Unit := do
  let t ← gets (·.readText.toNat)
  let p ← gets (·.readParse.toNat)
  let max ← memRead t 1
  let text := (line.map lowerCase).take max
  writeLine t text
  let toks := tokensOf text
  let m := min toks.length (← memRead p 1)
  memWrite (p + 1) 1 m
  writeTokens (p + 2) (toks.take m)
  if (← gets (·.late)) then store 13#16
  update (·.setRun .running)

/-- `InputDone(line)`: refused in any run state but `WaitInput` (R315). -/
def inputDone (line : List Byte) (s : State) : Answer :=
  if s.run = .waitInput then finish (completeInput line) s else .refused .inputNotAwaited

end Sys2Proof.Machine
end

