-- ==== Sys2Proof/Machine/Step.lean ====
section
/-! DEFINITION. One step of the machine (R90 of 30_encoding.md, R40 of 10_state.md), and where the host of the
pipeline stores an instruction so that the next step runs it. -/

namespace Sys2Proof.Machine

/-- The bytes the decoder is given: those at `PC`, as many as lie inside memory (R73, R91). -/
def State.fetchBytes (s : State) : List Byte := s.mem.window s.memSize s.pc.toNat maxHeadBytes

/-- One step. Running: the instruction at `PC` is decoded and executed (R90). Waiting: the next line the outside
has supplied completes the input (R313, R315). Halted or fatal: there is no step (R40, R351). -/
def step (s : State) : Host.Outcome State Fault Refusal :=
  match s.run with
  | .running =>
    match decode s.cfg.slot1Op0F s.fetchBytes with
    | .ok (i, _) => exec i s
    | .error t => finish (runTruncated t) s
  | .waitInput =>
    match s.inbox.lines with
    | [] => .fault .waitingForInput
    | line :: rest => inputDone line { s with inbox := { s.inbox with lines := rest } }
  | .halted => .fault .halted
  | .fatal _ => .fault .fatal

/-- The table word's bytes stored at `PC` of a running machine, memory long enough to hold them (log entry 12). -/
def State.withFetchWord (s : State) (nbits w : Nat) : State :=
  let bs := tableBytes nbits w
  { s with
    mem := s.mem.setBytes s.pc.toNat bs
    memSize := max s.memSize (s.pc.toNat + bs.length)
    run := .running }

end Sys2Proof.Machine
end

