-- ==== Sys2Proof/Machine/Reset.lean ====
section
/-! DEFINITION. `RESET(STORY)` for any story (R380 to R383 of 70_reset_and_hazards.md). -/

namespace Sys2Proof.Machine

/-- The image of the bytes of a story from address `a` on: every byte that is not 0 is listed. -/
def imageFrom (a : Nat) : List Byte → Memory
  | [] => []
  | b :: bs => if b = Memory.unlisted then imageFrom (a + 1) bs else (a, b) :: imageFrom (a + 1) bs

/-- `RESET(STORY)`: refused for a story shorter than its header or of another version; otherwise the state of
R42. -/
def resetWith (params : Params) (inbox : Inbox) (story : List Byte) : Host.Outcome State Fault Refusal :=
  if story.length < headerSize then .refused .storyTooShort
  else
    let image := imageFrom 0 story
    if versionAdmitted (image.byte hdrVersion) then .next (resetState params inbox image story.length)
    else .refused .versionNotAdmitted

end Sys2Proof.Machine
end

