-- ==== Sys2Proof/Safety.lean ====
section
/-! DEFINITION. The terms claims are stated in: what an instruction finds once its operands are resolved, the
state changes of the shared operations as plain functions (with no answer where the operation would be fatal),
and the invariants of the machine. Nothing here is used by the machine. -/

namespace Sys2Proof

/-- How many bytes stand before the operands (R90 of 30_encoding.md, parts 1 to 4). -/
def Instr.headBytes : Instr → Nat
  | .je a | .jl a | .jg a | .decChk a | .incChk a | .jin a | .test a | .or a | .and a | .testAttr a
  | .setAttr a | .clearAttr a | .store a | .insertObj a | .loadw a | .loadb a | .getProp a
  | .getPropAddr a | .getNextProp a | .add a | .sub a | .mul a | .div a | .mod a | .call2s a
  | .call2n a | .setColour a =>
    match a with
    | .long _ _ => 1
    | .typed _ => 2
  | .jz _ | .getSibling _ | .getChild _ | .getParent _ | .getPropLen _ | .inc _ | .dec _
  | .printAddr _ | .call1s _ | .removeObj _ | .printObj _ | .ret _ | .jump _ | .printPaddr _
  | .load _ | .not _ | .call1n _ => 1
  | .rtrue | .rfalse | .print | .printRet | .nop | .restart | .retPopped | .pop | .quit | .newLine
  | .showStatus => 1
  | .save f | .restore f =>
    match f with
    | .short => 1
    | .extended _ => 3
  | .call _ | .storew _ | .storeb _ | .putProp _ | .read _ | .printChar _ | .printNum _ | .random _
  | .push _ | .pull _ | .splitWindow _ | .setWindow _ | .eraseWindow _ | .setCursor _
  | .setTextStyle _ | .bufferMode _ | .soundEffect _ | .readChar _ | .callVn _ | .checkArgCount _ => 2
  | .callVs2 _ _ | .callVn2 _ _ => 3
  | .unpopulatedSlot u =>
    match u with
    | .long _ _ _ | .zero _ => 1
    | .typed2 _ _ | .typedVar _ _ => 2
    | .extended _ _ => 3

/-- The operands of an instruction, in stream order. -/
def Instr.operands : Instr → List Operand
  | .je a | .jl a | .jg a | .decChk a | .incChk a | .jin a | .test a | .or a | .and a | .testAttr a
  | .setAttr a | .clearAttr a | .store a | .insertObj a | .loadw a | .loadb a | .getProp a
  | .getPropAddr a | .getNextProp a | .add a | .sub a | .mul a | .div a | .mod a | .call2s a
  | .call2n a | .setColour a => a.operands
  | .jz a | .getSibling a | .getChild a | .getParent a | .getPropLen a | .inc a | .dec a
  | .printAddr a | .call1s a | .removeObj a | .printObj a | .ret a | .jump a | .printPaddr a
  | .load a | .not a | .call1n a => [a]
  | .rtrue | .rfalse | .print | .printRet | .nop | .restart | .retPopped | .pop | .quit | .newLine
  | .showStatus => []
  | .save f | .restore f =>
    match f with
    | .short => []
    | .extended ops => ops
  | .call ops | .storew ops | .storeb ops | .putProp ops | .read ops | .printChar ops
  | .printNum ops | .random ops | .push ops | .pull ops | .splitWindow ops | .setWindow ops
  | .eraseWindow ops | .setCursor ops | .setTextStyle ops | .bufferMode ops | .soundEffect ops
  | .readChar ops | .callVn ops | .checkArgCount ops => ops
  | .callVs2 ops1 ops2 | .callVn2 ops1 ops2 => ops1 ++ ops2
  | .unpopulatedSlot u =>
    match u with
    | .long _ a b => [a.operand, b.operand]
    | .zero _ => []
    | .typed2 _ ops | .typedVar _ ops | .extended _ ops => ops

/-- The least operand count of an instruction (R103; `operands_min` of opcode_table.json). -/
def Instr.minOperands : Instr → Nat
  | .je _ | .jl _ | .jg _ | .decChk _ | .incChk _ | .jin _ | .test _ | .or _ | .and _ | .testAttr _
  | .setAttr _ | .clearAttr _ | .store _ | .insertObj _ | .loadw _ | .loadb _ | .getProp _
  | .getPropAddr _ | .getNextProp _ | .add _ | .sub _ | .mul _ | .div _ | .mod _ | .call2s _
  | .call2n _ | .setColour _ | .read _ | .setCursor _ => 2
  | .jz _ | .getSibling _ | .getChild _ | .getParent _ | .getPropLen _ | .inc _ | .dec _
  | .printAddr _ | .call1s _ | .removeObj _ | .printObj _ | .ret _ | .jump _ | .printPaddr _
  | .load _ | .not _ | .call1n _ | .call _ | .printChar _ | .printNum _ | .random _ | .push _
  | .pull _ | .splitWindow _ | .setWindow _ | .eraseWindow _ | .setTextStyle _ | .bufferMode _
  | .soundEffect _ | .callVn _ | .callVs2 _ _ | .callVn2 _ _ | .checkArgCount _ => 1
  | .storew _ | .storeb _ | .putProp _ => 3
  | .rtrue | .rfalse | .print | .printRet | .nop | .restart | .retPopped | .pop | .quit | .newLine
  | .showStatus | .save _ | .restore _ | .readChar _ | .unpopulatedSlot _ => 0

namespace Machine

/-! ### Operands -/

/-- `n` bytes at `a` exist (R61 of 20_memory.md). -/
abbrev State.inRange (s : State) (a n : Nat) : Prop := a + n ≤ s.memSize

/-- The big-endian word at `a` (R62). -/
def State.wordAt (s : State) (a : Nat) : Word := BitVec.ofNat 16 (s.mem.readBE a 2)

/-- The value of one operand with the operand stack as given, and the stack after (R100, R23). -/
def State.operandValue (s : State) (stack : List Word) : Operand → Option (Word × List Word)
  | .large w => some (w, stack)
  | .small b => some (b.setWidth 16, stack)
  | .var n =>
    if n.toNat = 0 then
      match stack with
      | [] => none
      | v :: rest => some (v, rest)
    else if n.toNat ≤ 15 then some (localVar s.top n.toNat, stack)
    else if s.inRange (s.globalAddr n.toNat) 2 then some (s.wordAt (s.globalAddr n.toNat), stack)
    else none

/-- The values of an operand list, left to right, and the stack after (R102). -/
def State.operandValues (s : State) : List Word → List Operand → Option (List Word × List Word)
  | stack, [] => some ([], stack)
  | stack, op :: ops =>
    match s.operandValue stack op with
    | none => none
    | some (v, stack') =>
      match s.operandValues stack' ops with
      | none => none
      | some (vs, stack'') => some (v :: vs, stack'')

/-- The operand values of an instruction at `PC`, and the state when its own work begins: `PC` past the last
operand, the stack popped for each operand that names variable 0. No answer where an operand is fatal. -/
def State.entered (s : State) (i : Instr) : Option (List Word × State) :=
  match s.operandValues s.stack i.operands with
  | none => none
  | some (vs, stack) =>
    some (vs, (s.advance (i.headBytes + (encodeOperands i.operands).length)).setStack stack)

/-! ### Variables, the store byte, returns and branches -/

/-- `x[n] <- v` (R24). -/
def State.put (s : State) (n : Byte) (v : Word) : Option State :=
  if n.toNat = 0 then
    if withinLimit (s.stack.length + 1) s.params.stackDepth then some (s.setStack (v :: s.stack)) else none
  else if n.toNat ≤ 15 then some (s.setLocal n.toNat v)
  else if s.inRange (s.globalAddr n.toNat) 2 then some (s.writeMem (s.globalAddr n.toNat) 2 v.toNat)
  else none

/-- `x_ip[n]` (R25). -/
def State.getInPlace (s : State) (n : Byte) : Option Word :=
  if n.toNat = 0 then s.stack.head?
  else if n.toNat ≤ 15 then some (localVar s.top n.toNat)
  else if s.inRange (s.globalAddr n.toNat) 2 then some (s.wordAt (s.globalAddr n.toNat))
  else none

/-- `x_ip[n] <- v` (R25). -/
def State.putInPlace (s : State) (n : Byte) (v : Word) : Option State :=
  if n.toNat = 0 then
    match s.stack with
    | [] => none
    | _ :: rest => some (s.setStack (v :: rest))
  else s.put n v

/-- `fetch8()` (R91). -/
def State.fetched (s : State) : Option (Byte × State) :=
  if s.inRange s.pc.toNat 1 then some (s.mem.byte s.pc.toNat, s.advance 1) else none

/-- `store(v)` (R104). -/
def State.stored (s : State) (v : Word) : Option State :=
  match s.fetched with
  | none => none
  | some (n, s') => s'.put n v

/-- `ret(v)` (R283 of 46_calls_stack.md). -/
def State.returned (s : State) (v : Word) : Option State :=
  match s.below with
  | [] => none
  | caller :: rest =>
    let resumed := { s with top := caller, below := rest }
    if s.top.storeResult then resumed.stored v else some resumed

/-- `read_branch_field()` (R105). -/
def State.fieldFetched (s : State) : Option (BranchField × State) :=
  match s.fetched with
  | none => none
  | some (b1, s1) =>
    if branchIsShort b1 then some (shortBranch b1, s1)
    else
      match s1.fetched with
      | none => none
      | some (b2, s2) => some (longBranch b1 b2, s2)

/-- `do_branch(c, sense, off)` (R106, R107). -/
def State.branchedBy (s : State) (c : Bool) (f : BranchField) : Option State :=
  if c ≠ f.sense then some s
  else if f.offset = 0 then s.returned 0#16
  else if f.offset = 1 then s.returned 1#16
  else some (s.setPc (s.pc + BitVec.ofInt 32 (f.offset - 2)))

/-- `branch(c)` (R107). -/
def State.branched (s : State) (c : Bool) : Option State :=
  match s.fieldFetched with
  | none => none
  | some (f, s') => s'.branchedBy c f

/-- `store_branch(v, c)` (R109). -/
def State.storeBranched (s : State) (v : Word) (c : Bool) : Option State :=
  match s.params.fieldOrder with
  | .branchThenStore =>
    match s.fieldFetched with
    | none => none
    | some (f, s1) =>
      match s1.stored v with
      | none => none
      | some s2 => s2.branchedBy c f
  | .storeThenBranch =>
    match s.stored v with
    | none => none
    | some s1 => s1.branched c

/-! ### Objects and properties -/

/-- The address of a link field (R200, R221 of 43_objects.md). -/
def State.linkAddr (s : State) (id : Word) (off : Geometry → Nat) : Nat := s.objAddr id + off s.cfg.geom

/-- A record's link field exists (R201, R202). -/
def State.hasLink (s : State) (id : Word) (off : Geometry → Nat) : Prop :=
  id ≠ 0#16 ∧ s.inRange (s.linkAddr id off) s.cfg.geom.linkBytes

/-- The value of a link field (R202). -/
def State.linkOf (s : State) (id : Word) (off : Geometry → Nat) : Word :=
  BitVec.ofNat 16 (s.mem.readBE (s.linkAddr id off) s.cfg.geom.linkBytes)

/-- A link field can take a value (R203). -/
def State.takesLink (s : State) (id : Word) (off : Geometry → Nat) (v : Word) : Prop :=
  s.hasLink id off ∧ (s.cfg.geom.earlier = true → v.toNat ≤ 255)

/-- A link field written (R203). -/
def State.linked (s : State) (id : Word) (off : Geometry → Nat) (v : Word) : State :=
  s.writeMem (s.linkAddr id off) s.cfg.geom.linkBytes v.toNat

/-- `path` is a run of siblings from `first`, each with its link fields, whose last has `obj` as its sibling and
no other does (R207). -/
def State.ElderPath (s : State) (obj : Word) : Word → List Word → Word → Prop
  | first, [], last => first = last ∧ s.hasLink last Geometry.offSibling ∧ s.linkOf last Geometry.offSibling = obj
  | first, nxt :: path, last =>
    s.hasLink first Geometry.offSibling ∧ s.linkOf first Geometry.offSibling = nxt ∧ nxt ≠ obj ∧
      s.ElderPath obj nxt path last

/-- `path` is a run of siblings from `first`, each with its sibling field and none of them `obj`, and `last` is the
sibling of its end (R207). -/
def State.WalkedPast (s : State) (obj : Word) : Word → List Word → Word → Prop
  | first, [], last => first = last
  | first, id :: path, last =>
    first = id ∧ id ≠ obj ∧ s.hasLink id Geometry.offSibling ∧
      s.WalkedPast obj (s.linkOf id Geometry.offSibling) path last

/-- `kids` is the sibling chain that starts at `first` and ends with 0 (R45 of 10_state.md). -/
def State.SiblingChain (s : State) : Word → List Word → Prop
  | first, [] => first = 0#16
  | first, id :: kids =>
    first = id ∧ id ≠ 0#16 ∧ s.SiblingChain (s.linkOf id Geometry.offSibling) kids

/-- The links of the objects `ids` agree (R45): each has its link fields and at most one parent, which is one of
them, and stands in that parent's child chain exactly once and in no other. -/
structure State.LinksAgree (s : State) (ids : List Word) : Prop where
  fields : ∀ id ∈ ids, s.hasLink id Geometry.offParent ∧ s.hasLink id Geometry.offSibling ∧
    s.hasLink id Geometry.offChild
  parents : ∀ id ∈ ids, s.linkOf id Geometry.offParent = 0#16 ∨ s.linkOf id Geometry.offParent ∈ ids
  chains : ∀ p ∈ ids, ∃ kids, s.SiblingChain (s.linkOf p Geometry.offChild) kids ∧ kids.Nodup ∧
    ∀ k, k ∈ kids ↔ k ∈ ids ∧ s.linkOf k Geometry.offParent = p

/-- The objects `ids` form a forest (R45): their links agree, and parents lead to a root. -/
structure State.Forest (s : State) (ids : List Word) : Prop extends s.LinksAgree ids where
  rooted : ∃ depth : Word → Nat, ∀ id ∈ ids, s.linkOf id Geometry.offParent ≠ 0#16 →
    depth (s.linkOf id Geometry.offParent) < depth id

/-- `root` and the objects whose parents lead to it. -/
inductive State.InSubtree (s : State) (root : Word) : Word → Prop where
  | root : s.InSubtree root root
  | child (id : Word) : id ≠ 0#16 → s.InSubtree root (s.linkOf id Geometry.offParent) → s.InSubtree root id

/-- One property entry (R231, R232 of 44_properties.md): no answer where a byte is missing, `some none` at the
end of the list. -/
def State.entryAt (s : State) (e : Nat) : Option (Option PropEntry) :=
  if s.inRange e 1 then
    let b := s.mem.byte e
    if b = 0#8 then some none
    else if s.cfg.geom.earlier then
      some (some ⟨b.toNat % 32, b.toNat / 32 + 1, e + 1, e + 1 + (b.toNat / 32 + 1)⟩)
    else if b.getLsbD 7 then
      if s.inRange (e + 1) 1 then
        let c := (s.mem.byte (e + 1)).toNat % 64
        let len := if c = 0 then 64 else c
        some (some ⟨b.toNat % 64, len, e + 2, e + 2 + len⟩)
      else none
    else
      let len := if b.getLsbD 6 then 2 else 1
      some (some ⟨b.toNat % 64, len, e + 1, e + 1 + len⟩)
  else none

/-- The first entry numbered `p` from `e` on, within so many entries (R233): no answer where a byte is missing,
`some none` where the list ends first. -/
def State.findFrom (s : State) (p : Nat) : Nat → Nat → Option (Option PropEntry)
  | 0, _ => none
  | more + 1, e =>
    match s.entryAt e with
    | none => none
    | some none => some none
    | some (some r) => if r.num = p then some (some r) else s.findFrom p more r.next

/-- The address of the first entry of an object's list (R230, R234): no answer for id 0 or a missing byte. -/
def State.propStart (s : State) (id : Word) : Option Nat :=
  let a := s.objAddr id + s.cfg.geom.offProps
  let t := (s.wordAt a).toNat
  if id ≠ 0#16 ∧ s.inRange a 2 ∧ s.inRange t 1 then some (t + 1 + 2 * (s.mem.byte t).toNat) else none

/-- Property `p` of an object (R233). Every entry takes at least two bytes, so `MEM_SIZE` bounds their count. -/
def State.findProp (s : State) (id p : Word) : Option (Option PropEntry) :=
  match s.propStart id with
  | none => none
  | some e => s.findFrom p.toNat (s.memSize + 1) e

/-- A property number the instructions admit (R236). -/
def State.propNumber (s : State) (p : Word) : Prop := p ≠ 0#16 ∧ p.toNat ≤ s.cfg.geom.maxProp

/-- The record of an object holds its attribute bytes (R204, R221). -/
def State.hasAttrs (s : State) (id : Word) : Prop :=
  id ≠ 0#16 ∧ s.inRange (s.objAddr id) (s.cfg.geom.attrBits / 8)

/-- Attribute `n` of an object: bit `7 - n mod 8` of the byte at offset `n div 8` (R205). -/
def State.attrOf (s : State) (id : Word) (n : Nat) : Bool :=
  (s.mem.byte (s.objAddr id + n / 8)).getLsbD (7 - n % 8)

/-! ### Packed text -/

/-- The codes of the packed words at `a`, up to the one with bit 15 set, and the address after it (R250, R251 of
45_text.md). -/
inductive State.CodesAt (s : State) : Nat → List Code → Nat → Prop where
  | last (a : Nat) : s.inRange a 2 → (s.wordAt a).getLsbD 15 = true → s.CodesAt a (codesOf (s.wordAt a)) (a + 2)
  | more (a : Nat) (cs : List Code) (after : Nat) : s.inRange a 2 → (s.wordAt a).getLsbD 15 = false →
      s.CodesAt (a + 2) cs after → s.CodesAt a (codesOf (s.wordAt a) ++ cs) after

/-- The tokens a code list stands for, with abbreviations nested at most so deep (R252 to R259). -/
inductive State.Decodes (s : State) : Nat → List Code → List Token → Prop where
  | empty (d : Nat) : s.Decodes d [] []
  | space (d : Nat) (cs : List Code) (out : List Token) : s.Decodes d cs out →
      s.Decodes d (0#5 :: cs) (.char 0x20#16 :: out)
  | abbreviation (d : Nat) (c n : Code) (cs sub : List Code) (after : Nat) (inner out : List Token) :
      1 ≤ c.toNat → c.toNat ≤ 3 →
      s.inRange (s.cfg.abbrevTab.toNat + 2 * (32 * (c.toNat - 1) + n.toNat)) 2 →
      s.CodesAt (2 * (s.wordAt (s.cfg.abbrevTab.toNat + 2 * (32 * (c.toNat - 1) + n.toNat))).toNat) sub after →
      s.Decodes d sub inner → s.Decodes (d + 1) cs out → s.Decodes (d + 1) (c :: n :: cs) (inner ++ out)
  | upper (d : Nat) (n : Code) (cs : List Code) (out : List Token) : s.Decodes d cs out →
      s.Decodes d (4#5 :: n :: cs) (.char (BitVec.ofNat 16 (0x3B + n.toNat)) :: out)
  | padding (d : Nat) : s.Decodes d [5#5] []
  | terminator (d : Nat) (cs : List Code) : s.Decodes d (5#5 :: 5#5 :: cs) []
  | escape (d : Nat) (hi lo : Code) (cs : List Code) (out : List Token) : s.Decodes d cs out →
      s.Decodes d (5#5 :: 6#5 :: hi :: lo :: cs) (.char (BitVec.ofNat 16 (32 * hi.toNat + lo.toNat)) :: out)
  | newline (d : Nat) (cs : List Code) (out : List Token) : s.Decodes d cs out →
      s.Decodes d (5#5 :: 7#5 :: cs) (.newline :: out)
  | punctuation (d : Nat) (n : Code) (cs : List Code) (out : List Token) : 8 ≤ n.toNat → s.Decodes d cs out →
      s.Decodes d (5#5 :: n :: cs) (.char (punct n) :: out)
  | lower (d : Nat) (c : Code) (cs : List Code) (out : List Token) : 6 ≤ c.toNat → s.Decodes d cs out →
      s.Decodes d (c :: cs) (.char (BitVec.ofNat 16 (0x5B + c.toNat)) :: out)

/-- The packed text at `a` stands for `text` and ends before `after` (R259). -/
def State.TextAt (s : State) (a : Nat) (text : List Token) (after : Nat) : Prop :=
  ∃ cs, s.CodesAt a cs after ∧ s.Decodes s.abbrevLevels cs text

/-! ### Calls -/

/-- The local count in the header of a routine (R282 of 46_calls_stack.md). -/
def State.localCount (s : State) (routine : Word) : Nat := (s.mem.byte (s.unpack routine)).toNat

/-- A routine can be entered: a frame is free, the header exists and declares at most 15 locals (R281). -/
def State.callable (s : State) (routine : Word) : Prop :=
  withinLimit (s.below.length + 2) s.params.frameDepth = true ∧ s.inRange (s.unpack routine) 1 ∧
    s.localCount routine ≤ 15 ∧ (s.late = false → s.inRange (s.unpack routine + 1) (2 * s.localCount routine))

/-- The locals a callee starts with: its arguments, then its defaults, then 0 (R281). -/
def State.calleeLocals (s : State) (routine : Word) (args : List Word) : Vector Word 15 :=
  Vector.ofFn fun i =>
    if i.val < args.length then args.getD i 0#16
    else if s.late = false ∧ i.val < s.localCount routine then s.wordAt (s.unpack routine + 1 + 2 * i)
    else 0#16

/-- A routine entered (R281). -/
def State.called (s : State) (routine : Word) (args : List Word) (wantResult : Bool) : State :=
  s.pushFrame
    { pc := BitVec.ofNat 32 (s.unpack routine + 1 + (if s.late then 0 else 2 * s.localCount routine))
      storeResult := wantResult, argc := args.length, locals := s.calleeLocals routine args, stack := [] }

/-! ### What stays as it was -/

/-- The state no instruction but `RESTART` writes: the size, the story, the configuration registers and the
parameters. -/
structure State.FixedKept (s t : State) : Prop where
  memSize : t.memSize = s.memSize
  story : t.story = s.story
  cfg : t.cfg = s.cfg
  params : t.params = s.params

/-- The special registers kept: the fixed ones, the read addresses, the generator and what the outside
supplied. -/
structure State.SpecialsKept (s t : State) : Prop where
  fixed : s.FixedKept t
  readText : t.readText = s.readText
  readParse : t.readParse = s.readParse
  rng : t.rng = s.rng
  inbox : t.inbox = s.inbox
  draws : t.draws = s.draws

/-- Every byte of memory, the locals and the other fields of the top frame and all frames below it kept; of the
operand stack only words on top may be gone. -/
structure State.FrameKept (s t : State) : Prop where
  mem : ∀ a, t.mem.byte a = s.mem.byte a
  below : t.below = s.below
  locals : t.top.locals = s.top.locals
  argc : t.top.argc = s.top.argc
  storeResult : t.top.storeResult = s.top.storeResult
  stack : ∃ k, t.stack = s.stack.drop k

/-- The bytes of the global a variable number names (R28 of 10_state.md); none for 0 to 15. -/
def State.globalBytes (s : State) (n : Byte) (a : Nat) : Prop :=
  16 ≤ n.toNat ∧ s.globalAddr n.toNat ≤ a ∧ a < s.globalAddr n.toNat + 2

/-- What writing variable `n` keeps: every other byte, local and stack word, and the frames below. Words on top of
the stack may be gone, and for variable 0 one word may stand on those that are left. -/
structure State.AllButVariable (s : State) (n : Byte) (t : State) : Prop where
  mem : ∀ a, ¬ s.globalBytes n a → t.mem.byte a = s.mem.byte a
  below : t.below = s.below
  locals : ∀ k, 1 ≤ k → k ≤ 15 → k ≠ n.toNat → localVar t.top k = localVar s.top k
  argc : t.top.argc = s.top.argc
  storeResult : t.top.storeResult = s.top.storeResult
  stack : ∃ k, t.stack = s.stack.drop k ∨ n = 0#8 ∧ ∃ v, t.stack = v :: s.stack.drop k

/-- What a return keeps: the frames under the caller's, and of the caller's frame and of memory all but the
variable its store byte names. -/
def State.ReturnKeeps (s t : State) : Prop :=
  ∃ caller rest, s.below = caller :: rest ∧ t.below = rest ∧
    if s.top.storeResult then
      ({ s with top := caller, below := rest }).AllButVariable (s.mem.byte caller.pc.toNat) t
    else
      (∀ a, t.mem.byte a = s.mem.byte a) ∧ t.top = caller

/-- The instructions that change no memory and no frame but the top one's program counter and operand stack: the
requests that take no reply, `PUSH`, `POP`, `NOP` and `JUMP`. -/
def requestGroup : Instr → Bool
  | .print | .printAddr _ | .printPaddr _ | .printObj _ | .printChar _ | .printNum _ | .newLine | .showStatus
  | .splitWindow _ | .setWindow _ | .eraseWindow _ | .setCursor _ | .setColour _ | .setTextStyle _
  | .bufferMode _ | .soundEffect _ | .push _ | .pop | .nop | .jump _ => true
  | _ => false

/-- The instructions whose only effect is a result for their store byte. -/
def resultGroup : Instr → Bool
  | .add _ | .sub _ | .mul _ | .div _ | .mod _ | .or _ | .and _ | .not _ | .load _ | .loadw _ | .loadb _
  | .getParent _ | .getProp _ | .getPropAddr _ | .getNextProp _ | .getPropLen _ | .readChar _
  | .random _ => true
  | _ => false

/-- The instructions whose only effect is a branch or a return. -/
def branchGroup : Instr → Bool
  | .je _ | .jl _ | .jg _ | .jz _ | .jin _ | .test _ | .testAttr _ | .checkArgCount _ | .ret _ | .rtrue
  | .rfalse | .retPopped => true
  | _ => false

/-- The instructions that change one variable in place and do not branch. -/
def inPlaceGroup : Instr → Bool
  | .store _ | .inc _ | .dec _ => true
  | _ => false

/-- The call instructions. -/
def callGroup : Instr → Bool
  | .call _ | .call1s _ | .call1n _ | .call2s _ | .call2n _ | .callVs2 _ _ | .callVn _ | .callVn2 _ _ => true
  | _ => false

/-- The call instructions that want a result (R280 to R289, R297). -/
def wantsResult : Instr → Bool
  | .call _ | .call1s _ | .call2s _ | .callVs2 _ _ => true
  | _ => false

/-- How many of the operands after the routine a call passes on: `CALL_1S` and `CALL_1N` none, `CALL_2S` and
`CALL_2N` one, the others all they are given. -/
def passedArgs : Instr → List Word → List Word
  | .call2s _, args | .call2n _, args => args.take 1
  | _, args => args

/-! ### Invariants -/

/-- Memory and the story are in canonical form and list no byte at or above `MEM_SIZE` (R20, R38). -/
def State.MemoryLegal (s : State) : Prop :=
  (s.mem.wf ∧ ∀ c ∈ s.mem, c.1 < s.memSize) ∧ s.story.wf ∧ ∀ c ∈ s.story, c.1 < s.memSize

/-- The configuration registers hold what the story's header says, of an admitted version (R30 to R35). -/
def State.ConfigLatched (s : State) : Prop :=
  headerSize ≤ s.memSize ∧ versionAdmitted (s.story.byte hdrVersion) = true ∧ s.cfg = latchedFrom s.story

/-- Every frame has at most 7 arguments and a stack within `STACK_DEPTH`, and the frames are within
`FRAME_DEPTH` (R21, R22, R281). -/
def State.FramesLegal (s : State) : Prop :=
  (∀ f ∈ s.top :: s.below, f.argc ≤ 7 ∧ withinLimit f.stack.length s.params.stackDepth = true) ∧
    withinLimit (s.below.length + 1) s.params.frameDepth = true

/-- A run of the machine from a state, of some number of steps. -/
def StepsTo (s t : State) : Prop := ∃ n, core.run n s = .next t

end Machine

end Sys2Proof
end

