-- ==== Sys2Proof/Certificates/Slice0/Obligations.lean ====
section
/-! DEFINITION. The statements about the model, for the provers. `entered`, `stored`, `branched` and the other
functions of `Sys2Proof/Safety.lean` say on the state alone what the machine finds; a statement that an
instruction completes has `exec i s = .next t` as its conclusion. -/

open Sys2Proof Sys2Proof.Machine

/-! ### Encoding -/

/-- Decoding what `encode` writes gives the instruction back, whatever follows: every operand of every instruction
at every value (R92 to R101, R115 to R119 of 30_encoding.md). Spec decisions: D10, D11, D12. -/
def Obligations.DecodeInvertsEncode : Prop :=
  ∀ (i : Instr) (slot : Slot1Op0F) (rest : List Byte), i.wellFormed = true → i.presentIn slot = true →
    decode slot (encode i ++ rest) = .ok (i, rest)

/-- The same with the store byte, the branch field and the inline text (R104 to R110, R121). Spec decisions: D14. -/
def Obligations.WholeInstructionsRoundTrip : Prop :=
  ∀ (i : Instr) (tail : Tail) (slot : Slot1Op0F) (late : Bool) (order : FieldOrder) (rest : List Byte),
    i.wellFormed = true → i.presentIn slot = true → tail.fits (i.tailShape late) = true →
    decodeWhole slot late order (encodeWhole order i tail ++ rest) = some (i, tail, rest)

/-- What the decoder answers is a well-formed instruction of this machine that takes the bytes R121 counts, at most
19; and it rejects only bytes that end inside an instruction: more bytes after them make the whole an instruction
(R120: there is no other illegal encoding). -/
def Obligations.DecodedInstructionsFitTheirBytes : Prop :=
  ∀ (slot : Slot1Op0F) (bs : List Byte),
    (∀ i rest, decode slot bs = .ok (i, rest) →
      i.wellFormed = true ∧ i.presentIn slot = true ∧
        ∃ used, bs = used ++ rest ∧ used.length = i.headBytes + (encodeOperands i.operands).length ∧
          used.length ≤ 19) ∧
    (∀ t, decode slot bs = .error t →
      bs.length < 19 ∧ t.head + (encodeOperands t.ops).length ≤ bs.length ∧
        ∃ more i, more ≠ [] ∧ decode slot (bs ++ more) = .ok (i, []))

/-- Nine words of R124 decode to the instructions it names. -/
def Obligations.WordsOfTheSpecDecode : Prop :=
  decode .not [0x14#8, 0x05#8, 0x03#8, 0x10#8] = .ok (.add (.long (.small 5#8) (.small 3#8)), [0x10#8]) ∧
  decode .not [0x74#8, 0x02#8, 0x01#8, 0x02#8] = .ok (.add (.long (.var 2#8) (.var 1#8)), [0x02#8]) ∧
  decode .not [0xD4#8, 0x1F#8, 0x12#8, 0x34#8, 0x05#8, 0x00#8] =
    .ok (.add (.typed [.large 0x1234#16, .small 5#8]), [0x00#8]) ∧
  decode .not [0x8F#8, 0x12#8, 0x34#8] = .ok (.not (.large 0x1234#16), []) ∧
  decode .call1n [0x8F#8, 0x12#8, 0x34#8] = .ok (.call1n (.large 0x1234#16), []) ∧
  decode .not [0xA0#8, 0x01#8, 0xC1#8] = .ok (.jz (.var 1#8), [0xC1#8]) ∧
  decode .call1n [0xBE#8, 0x01#8, 0xFF#8, 0x00#8] = .ok (.restore (.extended []), [0x00#8]) ∧
  decode .not [0xEC#8, 0x15#8, 0x7F#8, 0x01#8, 0x00#8, 0x10#8, 0x02#8, 0x03#8, 0x04#8, 0x00#8] =
    .ok (.callVs2 [.large 0x0100#16, .small 0x10#8, .small 2#8, .small 3#8] [.small 4#8], [0x00#8]) ∧
  decode .not [0x00#8, 0x01#8, 0x02#8] =
    .ok (.unpopulatedSlot (.long 0#5 (.small 1#8) (.small 2#8)), [])

/-! ### The step -/

/-- A running machine executes the instruction its bytes at the program counter decode to; and where the bytes there
are the encoding of an instruction of this machine, it executes that instruction (R90, R92). -/
def Obligations.StepRunsTheInstructionAtThePc : Prop :=
  ∀ (s : State) (i : Instr), s.run = .running →
    (∀ rest, decode s.cfg.slot1Op0F s.fetchBytes = .ok (i, rest) → step s = exec i s) ∧
    (i.wellFormed = true → i.presentIn s.cfg.slot1Op0F = true →
      s.pc.toNat + (encode i).length ≤ s.memSize →
      s.mem.bytes s.pc.toNat (encode i).length = encode i → step s = exec i s)

/-- Which run states step (R40, R351): none in `Halted` and `Fatal`. In `WaitInput` it is the model's choice (log
entries 3 and 23) that a step takes the oldest line the outside has supplied and completes the input with it, and is
the fault `waitingForInput` where there is none; the spec says that `InputDone` alone leaves that state and no step
happens in it (R367). A running machine whose program counter is outside memory takes the
fatal `MemRange`, and one whose instruction ends outside memory some decoder fault (R91, R353). Spec decisions: D36,
D39. -/
def Obligations.RunStateDecidesTheStep : Prop :=
  ∀ s : State,
    (s.run = .halted → step s = .fault .halted) ∧
    (∀ c, s.run = .fatal c → step s = .fault .fatal) ∧
    (s.run = .waitInput → s.inbox.lines = [] → step s = .fault .waitingForInput) ∧
    (∀ line rest, s.run = .waitInput → s.inbox.lines = line :: rest →
      step s = inputDone line { s with inbox := { s.inbox with lines := rest } }) ∧
    (s.run = .running → s.memSize ≤ s.pc.toNat → step s = .next (takeFatal (.memRange s.pc.toNat) s)) ∧
    (∀ t, s.run = .running → decode s.cfg.slot1Op0F s.fetchBytes = .error t →
      ∃ u c, step s = .next u ∧ u.run = .fatal c ∧ (c = .stackUnderflow ∨ ∃ a, c = .memRange a))

/-! ### Memory -/

/-- R62, R63: an access of 1, 2 or 4 bytes is big-endian: a read is their value and changes nothing; a write puts
the most significant byte at the lowest address, discards the bits of the value above them and changes no other byte
and nothing else. Out of range either is the fatal `MemRange` with the first address and moves no byte. -/
def Obligations.MemoryAccessIsBigEndianAndBounded : Prop :=
  ∀ (s : State) (a n v : Nat), n = 1 ∨ n = 2 ∨ n = 4 →
    (s.memSize < a + n →
      memRead a n s = .error (.fatal (.memRange a)) s ∧ memWrite a n v s = .error (.fatal (.memRange a)) s) ∧
    (a + n ≤ s.memSize →
      memRead a n s = .ok
        (if n = 1 then (s.mem.byte a).toNat
         else if n = 2 then (s.mem.byte a ++ s.mem.byte (a + 1)).toNat
         else (s.mem.byte a ++ s.mem.byte (a + 1) ++ s.mem.byte (a + 2) ++ s.mem.byte (a + 3)).toNat) s ∧
      ∃ m, memWrite a n v s = .ok () { s with mem := m } ∧
        (∀ i, i < n → (m.byte (a + i)).toNat = v / 2 ^ (8 * (n - i - 1)) % 256) ∧
        (∀ x, x < a ∨ a + n ≤ x → m.byte x = s.mem.byte x))

/-- The written form of a memory is determined by its bytes: canonical memories with equal bytes are equal, and a
write keeps the form. The form is the model's choice (log entry 1). -/
def Obligations.CanonicalMemoriesAreDeterminedByTheirBytes : Prop :=
  (∀ m m' : Memory, m.wf → m'.wf → (∀ a, m.byte a = m'.byte a) → m = m') ∧
  (∀ (m : Memory) (a n v : Nat), m.wf → (m.writeBE a n v).wf)

/-! ### Variables and the operand stack -/

/-- R22, R23, R24: variable 0 pops and pushes the top frame's stack, 1 to 15 are its locals, 16 to 255 the words of
the globals table; a pop of nothing and a push beyond `STACK_DEPTH` are fatal. Spec decisions: D16. -/
def Obligations.VariablesAreStackLocalsAndGlobals : Prop :=
  ∀ (s : State) (n : Byte) (v : Word),
    (n.toNat = 0 → s.stack = [] → readVar n s = .error (.fatal .stackUnderflow) s) ∧
    (∀ w rest, n.toNat = 0 → s.stack = w :: rest →
      readVar n s = .ok w { s with top := { s.top with stack := rest } }) ∧
    (∀ k : Fin 15, n.toNat = k.val + 1 → readVar n s = .ok s.top.locals[k] s) ∧
    (16 ≤ n.toNat → readVar n s =
      if s.cfg.globals.toNat + 2 * (n.toNat - 16) + 2 ≤ s.memSize then
        .ok (s.mem.byte (s.cfg.globals.toNat + 2 * (n.toNat - 16)) ++
          s.mem.byte (s.cfg.globals.toNat + 2 * (n.toNat - 16) + 1)) s
      else .error (.fatal (.memRange (s.cfg.globals.toNat + 2 * (n.toNat - 16)))) s) ∧
    (n.toNat = 0 → withinLimit (s.top.stack.length + 1) s.params.stackDepth = true →
      writeVar n v s = .ok () { s with top := { s.top with stack := v :: s.top.stack } }) ∧
    (n.toNat = 0 → withinLimit (s.top.stack.length + 1) s.params.stackDepth = false →
      writeVar n v s = .error (.fatal .stackOverflow) s) ∧
    (∀ k : Fin 15, n.toNat = k.val + 1 →
      writeVar n v s = .ok () { s with top := { s.top with locals := s.top.locals.set k v } }) ∧
    (16 ≤ n.toNat → writeVar n v s = memWrite (s.cfg.globals.toNat + 2 * (n.toNat - 16)) 2 v.toNat s)

/-- R25: in place, variable 0 is the last word of the stack, read without removing it and replaced without a change
of depth, and an empty stack is the fatal `StackUnderflow`; every other variable is as in R23 and R24. Spec
decisions: D15. -/
def Obligations.InPlaceAccessKeepsTheDepth : Prop :=
  ∀ (s : State) (n : Byte) (v : Word),
    (n.toNat ≠ 0 → readVarInPlace n s = readVar n s ∧ writeVarInPlace n v s = writeVar n v s) ∧
    (n.toNat = 0 → s.stack = [] →
      readVarInPlace n s = .error (.fatal .stackUnderflow) s ∧
        writeVarInPlace n v s = .error (.fatal .stackUnderflow) s) ∧
    (∀ w rest, n.toNat = 0 → s.stack = w :: rest →
      readVarInPlace n s = .ok w s ∧
        writeVarInPlace n v s = .ok () { s with top := { s.top with stack := v :: rest } })

/-! ### Operands -/

/-- With fewer operands than its minimum an instruction takes the fatal `MissingOperand` with its opcode byte, after
the operands it has are resolved (R103, R355). Spec decisions: D13, D37. -/
def Obligations.MissingOperandIsFatal : Prop :=
  ∀ (i : Instr) (s t : State) (vs : List Word), s.entered i = some (vs, t) → vs.length < i.minOperands →
    ∃ o, (encode i).head? = some o ∧ exec i s = .next (takeFatal (.missingOperand o) t)

/-- A fault of an operand comes before anything else the instruction does: it is `StackUnderflow` or `MemRange`, and
no byte of memory, no frame below and no request has changed (R102, R355). Spec decisions: D37, D50. -/
def Obligations.OperandFaultsComeFirst : Prop :=
  ∀ (i : Instr) (s : State), s.entered i = none →
    ∃ u c, exec i s = .next u ∧ u.run = .fatal c ∧ (c = .stackUnderflow ∨ ∃ a, c = .memRange a) ∧
      s.FrameKept u ∧ s.SpecialsKept u ∧ u.trace = s.trace

/-! ### Arithmetic and logic -/

/-- `ADD`, `SUB` and `MUL` complete with the result reduced modulo 2^16, and so with the same word whether the
operands are read as signed or as unsigned (R140 to R143). -/
def Obligations.AddSubMulWrap : Prop :=
  ∀ (args : Args2) (s t u : State) (a b : Word) (more : List Word),
    (s.entered (.add args) = some (a :: b :: more, t) → t.stored (a + b) = some u →
      exec (.add args) s = .next u) ∧
    (s.entered (.sub args) = some (a :: b :: more, t) → t.stored (a - b) = some u →
      exec (.sub args) s = .next u) ∧
    (s.entered (.mul args) = some (a :: b :: more, t) → t.stored (a * b) = some u →
      exec (.mul args) s = .next u)

/-- `DIV` and `MOD` complete with the quotient `q` and the remainder `r` of signed division rounded toward zero,
reduced modulo 2^16: `a = b q + r`, `|r| < |b|`, and `r` has the sign of `a`. With divisor 0 the store byte is
consumed and nothing is written (R144, R145, R358). Spec decisions: D19. -/
def Obligations.DivModRoundTowardZero : Prop :=
  ∀ (args : Args2) (s t u : State) (a b : Word) (more : List Word),
    (∀ q r : Int, s16 a = s16 b * q + r → r.natAbs < (s16 b).natAbs → 0 ≤ r * s16 a →
      (s.entered (.div args) = some (a :: b :: more, t) → t.stored (BitVec.ofInt 16 q) = some u →
        exec (.div args) s = .next u) ∧
      (s.entered (.mod args) = some (a :: b :: more, t) → t.stored (BitVec.ofInt 16 r) = some u →
        exec (.mod args) s = .next u)) ∧
    (∀ n, b = 0#16 → t.fetched = some (n, u) →
      (s.entered (.div args) = some (a :: b :: more, t) → exec (.div args) s = .next u) ∧
      (s.entered (.mod args) = some (a :: b :: more, t) → exec (.mod args) s = .next u))

/-- `OR`, `AND` and `NOT` complete with the bitwise result (R146 to R148). Spec decisions: D48. -/
def Obligations.LogicIsBitwise : Prop :=
  ∀ (args : Args2) (x : Operand) (s t u : State) (a b c : Word) (more : List Word),
    ((∀ i, i < 16 → c.getLsbD i = (a.getLsbD i || b.getLsbD i)) →
      s.entered (.or args) = some (a :: b :: more, t) → t.stored c = some u → exec (.or args) s = .next u) ∧
    ((∀ i, i < 16 → c.getLsbD i = (a.getLsbD i && b.getLsbD i)) →
      s.entered (.and args) = some (a :: b :: more, t) → t.stored c = some u → exec (.and args) s = .next u) ∧
    ((∀ i, i < 16 → c.getLsbD i = !a.getLsbD i) →
      s.entered (.not x) = some ([a], t) → t.stored c = some u → exec (.not x) s = .next u)

/-! ### Compare, test, jump, branch -/

/-- `JE`, `JL`, `JG`, `JZ`, `TEST` and `CHECK_ARG_COUNT` complete by branching on their condition: equality with one
of the later operands, signed order, zero, all bits set, enough arguments (R160 to R164, R299). Spec decisions: D48.
-/
def Obligations.TestsBranchOnTheirCondition : Prop :=
  ∀ (args : Args2) (x : Operand) (ops : List Operand) (s t u : State) (a b : Word) (more : List Word) (c : Bool),
    t.branched c = some u →
    ((c = true ↔ ∃ w, w ∈ b :: more ∧ a = w) → s.entered (.je args) = some (a :: b :: more, t) →
      exec (.je args) s = .next u) ∧
    ((c = true ↔ a.toInt < b.toInt) → s.entered (.jl args) = some (a :: b :: more, t) →
      exec (.jl args) s = .next u) ∧
    ((c = true ↔ b.toInt < a.toInt) → s.entered (.jg args) = some (a :: b :: more, t) →
      exec (.jg args) s = .next u) ∧
    ((c = true ↔ a = 0#16) → s.entered (.jz x) = some ([a], t) → exec (.jz x) s = .next u) ∧
    ((c = true ↔ ∀ i, b.getLsbD i = true → a.getLsbD i = true) →
      s.entered (.test args) = some (a :: b :: more, t) → exec (.test args) s = .next u) ∧
    ((c = true ↔ a.toNat ≤ s.top.argc) → s.entered (.checkArgCount ops) = some (a :: more, t) →
      exec (.checkArgCount ops) s = .next u)

/-- R105, R106, R107: where the branch field stands at the program counter, short and long; not taken, execution
goes on after it; taken, the offsets 0 and 1 return false and true, and any other sets the program counter to itself
plus the offset less 2, modulo 2^32. -/
def Obligations.BranchFieldsAreFollowed : Prop :=
  ∀ (s : State) (c sense : Bool) (off : Int) (length : Nat),
    s.inRange s.pc.toNat length →
    sense = (s.mem.byte s.pc.toNat).getLsbD 7 →
    ((s.mem.byte s.pc.toNat).getLsbD 6 = true ∧ length = 1 ∧
        off = ((s.mem.byte s.pc.toNat).toNat % 64 : Nat) ∨
      (s.mem.byte s.pc.toNat).getLsbD 6 = false ∧ length = 2 ∧ s.pc.toNat + 1 < 2 ^ 32 ∧
        off = (((s.mem.byte s.pc.toNat).toNat % 64 * 256 +
          (s.mem.byte (s.pc.toNat + 1)).toNat : Nat) : Int) -
          (if (s.mem.byte s.pc.toNat).getLsbD 5 then 16384 else 0)) →
    (c ≠ sense → branch c s = .ok () (s.advance length)) ∧
    (c = sense → off = 0 → branch c s = ret 0#16 (s.advance length)) ∧
    (c = sense → off = 1 → branch c s = ret 1#16 (s.advance length)) ∧
    (c = sense → off ≠ 0 → off ≠ 1 →
      branch c s = .ok ()
        (s.setPc (BitVec.ofInt 32 (((s.advance length).pc.toNat : Int) + off - 2))))

/-- `JUMP` adds its signed operand less 2 to the address after it, modulo 2^32; the offsets 0 and 1 are ordinary
(R165). -/
def Obligations.JumpIsRelative : Prop :=
  ∀ (x : Operand) (s t : State) (offset : Word), s.entered (.jump x) = some ([offset], t) →
    exec (.jump x) s = .next (t.setPc (t.pc + offset.signExtend 32 - 2#32))

/-! ### Variables, loads and stores -/

/-- `STORE`, `LOAD`, `INC`, `DEC`, `INC_CHK` and `DEC_CHK` complete on the variable whose number is the low 8 bits
of their first operand, reached in place; the counts wrap, and the checks compare signed words (R166, R167, R180 to
R184). Spec decisions: D15, D48. -/
def Obligations.VariableNumbersAreReachedInPlace : Prop :=
  ∀ (args : Args2) (x : Operand) (s t u w : State) (v b old : Word) (more : List Word) (c : Bool),
    (s.entered (.store args) = some (v :: b :: more, t) → t.putInPlace (v.setWidth 8) b = some u →
      exec (.store args) s = .next u) ∧
    (s.entered (.load x) = some ([v], t) → t.getInPlace (v.setWidth 8) = some old → t.stored old = some u →
      exec (.load x) s = .next u) ∧
    (s.entered (.inc x) = some ([v], t) → t.getInPlace (v.setWidth 8) = some old →
      t.putInPlace (v.setWidth 8) (old + 1#16) = some u → exec (.inc x) s = .next u) ∧
    (s.entered (.dec x) = some ([v], t) → t.getInPlace (v.setWidth 8) = some old →
      t.putInPlace (v.setWidth 8) (old - 1#16) = some u → exec (.dec x) s = .next u) ∧
    (s.entered (.incChk args) = some (v :: b :: more, t) → t.getInPlace (v.setWidth 8) = some old →
      t.putInPlace (v.setWidth 8) (old + 1#16) = some w → (c = true ↔ b.toInt < (old + 1#16).toInt) →
      w.branched c = some u → exec (.incChk args) s = .next u) ∧
    (s.entered (.decChk args) = some (v :: b :: more, t) → t.getInPlace (v.setWidth 8) = some old →
      t.putInPlace (v.setWidth 8) (old - 1#16) = some w → (c = true ↔ (old - 1#16).toInt < b.toInt) →
      w.branched c = some u → exec (.decChk args) s = .next u)

/-- `LOADW` and `LOADB` complete with the word at base plus twice index and the byte at base plus index, both
unsigned and without wrap, the byte zero-extended (R185, R186, R75). Spec decisions: D8, D48. -/
def Obligations.LoadsReadMemory : Prop :=
  ∀ (args : Args2) (s t u : State) (array index : Word) (more : List Word),
    (s.entered (.loadw args) = some (array :: index :: more, t) →
      s.inRange (array.toNat + 2 * index.toNat) 2 →
      t.stored (s.mem.byte (array.toNat + 2 * index.toNat) ++
        s.mem.byte (array.toNat + 2 * index.toNat + 1)) = some u →
      exec (.loadw args) s = .next u) ∧
    (s.entered (.loadb args) = some (array :: index :: more, t) → s.inRange (array.toNat + index.toNat) 1 →
      t.stored (0#8 ++ s.mem.byte (array.toNat + index.toNat)) = some u → exec (.loadb args) s = .next u)

/-- `STOREW` and `STOREB` complete with the word, or its low byte, written at base plus twice index, or at base plus
index; every other byte and everything else is kept, and out of range the fatal `MemRange` writes nothing (R187,
R188, R61). Spec decisions: D9, D48. -/
def Obligations.StoresWriteMemory : Prop :=
  ∀ (ops : List Operand) (s t : State) (array index v : Word) (more : List Word),
    (s.entered (.storew ops) = some (array :: index :: v :: more, t) →
      (¬ s.inRange (array.toNat + 2 * index.toNat) 2 →
        exec (.storew ops) s = .next (takeFatal (.memRange (array.toNat + 2 * index.toNat)) t)) ∧
      (s.inRange (array.toNat + 2 * index.toNat) 2 → ∃ m, exec (.storew ops) s = .next { t with mem := m } ∧
        m.byte (array.toNat + 2 * index.toNat) = v.extractLsb' 8 8 ∧
        m.byte (array.toNat + 2 * index.toNat + 1) = v.extractLsb' 0 8 ∧
        ∀ a, a < array.toNat + 2 * index.toNat ∨ array.toNat + 2 * index.toNat + 2 ≤ a →
          m.byte a = s.mem.byte a)) ∧
    (s.entered (.storeb ops) = some (array :: index :: v :: more, t) →
      (¬ s.inRange (array.toNat + index.toNat) 1 →
        exec (.storeb ops) s = .next (takeFatal (.memRange (array.toNat + index.toNat)) t)) ∧
      (s.inRange (array.toNat + index.toNat) 1 → ∃ m, exec (.storeb ops) s = .next { t with mem := m } ∧
        m.byte (array.toNat + index.toNat) = v.extractLsb' 0 8 ∧
        ∀ a, a ≠ array.toNat + index.toNat → m.byte a = s.mem.byte a))

/-! ### Objects -/

/-- `TEST_ATTR` branches on one attribute bit; `SET_ATTR` and `CLEAR_ATTR` complete with that bit set or cleared,
every other attribute of the object and every byte outside its attribute bytes kept, and nothing else changed (R204
to R206, R210 to R212). Spec decisions: D9, D23, D24. -/
def Obligations.AttributesAreBitsOfTheRecord : Prop :=
  ∀ (args : Args2) (s t : State) (obj attr : Word) (more : List Word),
    s.hasAttrs obj → attr.toNat < s.cfg.geom.attrBits → s.cfg.geom = geometryOf s.cfg.version →
    (∀ u, s.entered (.testAttr args) = some (obj :: attr :: more, t) →
      t.branched (s.attrOf obj attr.toNat) = some u → exec (.testAttr args) s = .next u) ∧
    (∀ (i : Instr) (b : Bool), i = .setAttr args ∧ b = true ∨ i = .clearAttr args ∧ b = false →
      s.entered i = some (obj :: attr :: more, t) →
      ∃ m, exec i s = .next { t with mem := m } ∧
        ({ t with mem := m }).attrOf obj attr.toNat = b ∧
        (∀ k, k < s.cfg.geom.attrBits → k ≠ attr.toNat → ({ t with mem := m }).attrOf obj k = s.attrOf obj k) ∧
        (∀ a, a < s.objAddr obj ∨ s.objAddr obj + s.cfg.geom.attrBits / 8 ≤ a → m.byte a = s.mem.byte a))

/-- `GET_PARENT` stores a link; `GET_SIBLING` and `GET_CHILD` store one and branch when it is not 0; `JIN` branches
when the parent of its first operand is its second (R202, R216 to R219). Spec decisions: D48. -/
def Obligations.LinksAreReadAndTested : Prop :=
  ∀ (args : Args2) (x : Operand) (s t u : State) (obj b : Word) (more : List Word),
    (s.entered (.getParent x) = some ([obj], t) → s.hasLink obj Geometry.offParent →
      t.stored (s.linkOf obj Geometry.offParent) = some u → exec (.getParent x) s = .next u) ∧
    (s.entered (.getSibling x) = some ([obj], t) → s.hasLink obj Geometry.offSibling →
      t.storeBranched (s.linkOf obj Geometry.offSibling) (decide (s.linkOf obj Geometry.offSibling ≠ 0#16)) =
        some u →
      exec (.getSibling x) s = .next u) ∧
    (s.entered (.getChild x) = some ([obj], t) → s.hasLink obj Geometry.offChild →
      t.storeBranched (s.linkOf obj Geometry.offChild) (decide (s.linkOf obj Geometry.offChild ≠ 0#16)) =
        some u →
      exec (.getChild x) s = .next u) ∧
    (s.entered (.jin args) = some (obj :: b :: more, t) → s.hasLink obj Geometry.offParent →
      t.branched (decide (s.linkOf obj Geometry.offParent = b)) = some u → exec (.jin args) s = .next u)

/-- `REMOVE_OBJ` completes: of object 0 nothing; of an object with no parent both its links are written with 0; of a
first child, its sibling becomes its parent's child; of a later one, its elder sibling takes its sibling; then its
own parent and sibling links are 0 (R207, R213). Spec decisions: D25. -/
def Obligations.RemoveObjUnlinks : Prop :=
  ∀ (x : Operand) (s t : State) (obj : Word), s.entered (.removeObj x) = some ([obj], t) →
    (obj = 0#16 → exec (.removeObj x) s = .next t) ∧
    (t.hasLink obj Geometry.offParent → t.hasLink obj Geometry.offSibling →
      (t.linkOf obj Geometry.offParent = 0#16 →
        exec (.removeObj x) s =
          .next ((t.linked obj Geometry.offParent 0#16).linked obj Geometry.offSibling 0#16)) ∧
      (∀ p sib, t.linkOf obj Geometry.offParent = p → p ≠ 0#16 → t.linkOf obj Geometry.offSibling = sib →
        (t.takesLink p Geometry.offChild sib → t.linkOf p Geometry.offChild = obj →
          exec (.removeObj x) s =
            .next (((t.linked p Geometry.offChild sib).linked obj Geometry.offParent 0#16).linked obj
              Geometry.offSibling 0#16)) ∧
        (∀ first path elder, t.hasLink p Geometry.offChild → t.linkOf p Geometry.offChild = first →
          first ≠ obj → t.ElderPath obj first path elder → path.length ≤ t.walkLimit →
          t.takesLink elder Geometry.offSibling sib →
          exec (.removeObj x) s =
            .next (((t.linked elder Geometry.offSibling sib).linked obj Geometry.offParent 0#16).linked obj
              Geometry.offSibling 0#16))))

/-- `INSERT_OBJ` completes: with an object 0 it does nothing; of an object that is already the destination's first
child it changes nothing; otherwise it leaves its parent as by `REMOVE_OBJ` (`w`), and then takes the destination's
child as its sibling and becomes the destination's child (R214, R215). Spec decisions: D25. -/
def Obligations.InsertObjLinksFirst : Prop :=
  ∀ (args : Args2) (s t : State) (obj dest : Word) (more : List Word),
    s.entered (.insertObj args) = some (obj :: dest :: more, t) →
    (obj = 0#16 ∨ dest = 0#16 → exec (.insertObj args) s = .next t) ∧
    (t.hasLink obj Geometry.offParent → t.hasLink obj Geometry.offSibling → t.hasLink dest Geometry.offChild →
      (t.linkOf obj Geometry.offParent = dest → t.linkOf dest Geometry.offChild = obj → dest ≠ 0#16 →
        exec (.insertObj args) s = .next t) ∧
      (∀ p sib w, t.linkOf obj Geometry.offParent = p → ¬ (p = dest ∧ t.linkOf dest Geometry.offChild = obj) →
        t.linkOf obj Geometry.offSibling = sib →
        (p = 0#16 ∧ w = t ∨
          p ≠ 0#16 ∧ t.takesLink p Geometry.offChild sib ∧ t.linkOf p Geometry.offChild = obj ∧
            w = t.linked p Geometry.offChild sib ∨
          p ≠ 0#16 ∧ t.hasLink p Geometry.offChild ∧
            ∃ first path elder, t.linkOf p Geometry.offChild = first ∧ first ≠ obj ∧
              t.ElderPath obj first path elder ∧ path.length ≤ t.walkLimit ∧
              t.takesLink elder Geometry.offSibling sib ∧ w = t.linked elder Geometry.offSibling sib) →
        (w.cfg.geom.earlier = true →
          obj.toNat ≤ 255 ∧ dest.toNat ≤ 255 ∧ (w.linkOf dest Geometry.offChild).toNat ≤ 255) →
        exec (.insertObj args) s =
          .next (((w.linked obj Geometry.offSibling (w.linkOf dest Geometry.offChild)).linked dest
            Geometry.offChild obj).linked obj Geometry.offParent dest)))

/-- If the instruction raised no fatal: on any memory, after `REMOVE_OBJ` of an object its parent and sibling are 0,
and after `INSERT_OBJ` the destination is the object's parent and the object its first child. Where the links of a
set of objects agree as R45 says, both instructions keep it so; a removed object is in no child chain, and an inserted
one is in the destination's exactly once. `REMOVE_OBJ` keeps a forest, and so does `INSERT_OBJ` where the destination
is not the object or one of its descendants (R45, R213, R214, R220). Spec decisions: D25. -/
def Obligations.TreeAfterRemoveAndInsert : Prop :=
  ∀ (args : Args2) (x : Operand) (s t u : State) (obj dest : Word) (more ids : List Word),
    s.cfg.geom = geometryOf s.cfg.version → s.run = .running → u.run = .running → obj ≠ 0#16 →
    (s.entered (.removeObj x) = some ([obj], t) → exec (.removeObj x) s = .next u →
      u.linkOf obj Geometry.offParent = 0#16 ∧ u.linkOf obj Geometry.offSibling = 0#16 ∧
      (s.LinksAgree ids → obj ∈ ids →
        u.LinksAgree ids ∧
          ∀ p ∈ ids, ∃ kids, u.SiblingChain (u.linkOf p Geometry.offChild) kids ∧ obj ∉ kids) ∧
      (s.Forest ids → obj ∈ ids → u.Forest ids)) ∧
    (s.entered (.insertObj args) = some (obj :: dest :: more, t) → dest ≠ 0#16 →
      exec (.insertObj args) s = .next u →
      u.linkOf obj Geometry.offParent = dest ∧ u.linkOf dest Geometry.offChild = obj ∧
      (s.LinksAgree ids → obj ∈ ids → dest ∈ ids →
        u.LinksAgree ids ∧
          ∃ kids, u.SiblingChain (u.linkOf dest Geometry.offChild) kids ∧ kids.count obj = 1) ∧
      (s.Forest ids → obj ∈ ids → dest ∈ ids → ¬ s.InSubtree obj dest → u.Forest ids))

/-! ### Properties -/

/-- `GET_PROP` completes with the property's byte zero-extended or its word, or, where the object lacks the
property, with the word of the default table (R235, R236). Spec decisions: D27, D28. -/
def Obligations.GetPropReadsOrDefaults : Prop :=
  ∀ (args : Args2) (s t u : State) (obj p v : Word) (more : List Word),
    s.entered (.getProp args) = some (obj :: p :: more, t) → t.propNumber p → t.stored v = some u →
    (∀ r, t.findProp obj p = some (some r) →
      (r.len = 1 → t.inRange r.data 1 → v = 0#8 ++ t.mem.byte r.data → exec (.getProp args) s = .next u) ∧
      (r.len = 2 → t.inRange r.data 2 → v = t.mem.byte r.data ++ t.mem.byte (r.data + 1) →
        exec (.getProp args) s = .next u)) ∧
    (t.findProp obj p = some none → t.inRange (t.cfg.objTab.toNat + 2 * (p.toNat - 1)) 2 →
      v = t.wordAt (t.cfg.objTab.toNat + 2 * (p.toNat - 1)) → exec (.getProp args) s = .next u)

/-- `GET_PROP_ADDR` completes with the address of the data or 0; `GET_NEXT_PROP` with the number of the entry after
the property, or of the first entry, or 0 at the end; `GET_PROP_LEN` with the length the byte before an address
gives, 0 for address 0 (R237 to R239). Spec decisions: D28, D48. -/
def Obligations.PropertyAddressesSuccessorsLengths : Prop :=
  ∀ (args : Args2) (x : Operand) (s t u : State) (obj p v addr : Word) (more : List Word),
    t.stored v = some u →
    (s.entered (.getPropAddr args) = some (obj :: p :: more, t) → t.propNumber p →
      (∃ r, t.findProp obj p = some (some r) ∧ v = BitVec.ofNat 16 r.data) ∨
        (t.findProp obj p = some none ∧ v = 0#16) →
      exec (.getPropAddr args) s = .next u) ∧
    (s.entered (.getNextProp args) = some (obj :: p :: more, t) →
      (∃ e, (p = 0#16 ∧ t.propStart obj = some e ∨
          t.propNumber p ∧ ∃ r, t.findProp obj p = some (some r) ∧ e = r.next) ∧
        (t.entryAt e = some none ∧ v = 0#16 ∨
          ∃ r, t.entryAt e = some (some r) ∧ v = BitVec.ofNat 16 r.num)) →
      exec (.getNextProp args) s = .next u) ∧
    (s.entered (.getPropLen x) = some ([addr], t) →
      (addr = 0#16 ∧ v = 0#16 ∨
        addr ≠ 0#16 ∧ t.inRange (addr.toNat - 1) 1 ∧
          ∃ b, b = t.mem.byte (addr.toNat - 1) ∧
            v = BitVec.ofNat 16
              (if t.cfg.geom.earlier then b.toNat / 32 + 1
               else if b.getLsbD 7 then (if b.toNat % 64 = 0 then 64 else b.toNat % 64)
               else if b.getLsbD 6 then 2 else 1)) →
      exec (.getPropLen x) s = .next u)

/-- `PUT_PROP` completes with the low byte, or the word, written over the property's data; nothing else changes
(R240). Spec decisions: D28. -/
def Obligations.PutPropOverwritesTheEntry : Prop :=
  ∀ (ops : List Operand) (s t : State) (obj p v : Word) (more : List Word) (r : PropEntry),
    s.entered (.putProp ops) = some (obj :: p :: v :: more, t) → t.propNumber p →
    t.findProp obj p = some (some r) → t.inRange r.data r.len →
    (r.len = 1 → exec (.putProp ops) s = .next (t.writeMem r.data 1 (v.extractLsb' 0 8).toNat)) ∧
    (r.len = 2 → exec (.putProp ops) s = .next (t.writeMem r.data 2 v.toNat))

/-- Faults that come before any write. Attributes: `InvalidObject` for object 0, `InvalidAttribute` from `ATTR_BITS`
on. Properties: `InvalidProperty` for a number outside 1 to `MAX_PROP` (0 is allowed by `GET_NEXT_PROP` only),
`InvalidObject` for object 0, `PropertyNotFound` where `PUT_PROP` or `GET_NEXT_PROP` names a property the object
lacks, `BadPropertyLength` where `GET_PROP` or `PUT_PROP` meets a length other than 1 and 2. `GET_PARENT`,
`GET_SIBLING`, `GET_CHILD`, `JIN` and `PRINT_OBJ`: `InvalidObject` for object 0. `REMOVE_OBJ` and `INSERT_OBJ`:
`TreeCorrupt` where the chain of the object's parent ends without it, or `WALK_LIMIT` links past the first have been
followed without it (R201, R205, R207, R208, R235 to R240, R354). Of `INSERT_OBJ` nothing is said here of the
`InvalidObject` of a link that does not fit, which can follow a write (R203, R214). Spec decisions: D21, D24, D25,
D27, D28, D35, D48. -/
def Obligations.ObjectTableFaults : Prop :=
  ∀ (args : Args2) (x : Operand) (ops : List Operand) (i : Instr) (s t : State) (obj p : Word) (more : List Word),
    (s.entered i = some (obj :: p :: more, t) →
      (i = .testAttr args ∨ i = .setAttr args ∨ i = .clearAttr args →
        (obj = 0#16 → exec i s = .next (takeFatal (.invalidObject 0#16) t)) ∧
        (s.hasAttrs obj → s.cfg.geom = geometryOf s.cfg.version → s.cfg.geom.attrBits ≤ p.toNat →
          exec i s = .next (takeFatal (.invalidAttribute p) t))) ∧
      (i = .getProp args ∨ i = .getPropAddr args ∨ i = .getNextProp args ∨ i = .putProp ops ∧ more ≠ [] →
        (¬ t.propNumber p → (i = .getNextProp args → p ≠ 0#16) →
          exec i s = .next (takeFatal (.invalidProperty p) t)) ∧
        (t.propNumber p ∨ i = .getNextProp args ∧ p = 0#16 → obj = 0#16 →
          exec i s = .next (takeFatal (.invalidObject 0#16) t)) ∧
        (t.propNumber p → t.findProp obj p = some none → i = .getNextProp args ∨ i = .putProp ops →
          exec i s = .next (takeFatal (.propertyNotFound p) t)) ∧
        (∀ r, t.propNumber p → t.findProp obj p = some (some r) → r.len ≠ 1 → r.len ≠ 2 →
          i = .getProp args ∨ i = .putProp ops → exec i s = .next (takeFatal (.badPropertyLength r.len) t)))) ∧
    (s.entered i = some (0#16 :: more, t) →
      i = .getParent x ∨ i = .getSibling x ∨ i = .getChild x ∨ i = .printObj x ∨ i = .jin args ∧ more ≠ [] →
      exec i s = .next (takeFatal (.invalidObject 0#16) t)) ∧
    (s.entered i = some (obj :: more, t) →
      i = .removeObj x ∨ i = .insertObj args ∧ (∃ dest rest, more = dest :: rest ∧ dest ≠ 0#16 ∧
        (t.linkOf obj Geometry.offParent = dest → t.linkOf dest Geometry.offChild ≠ obj)) →
      t.hasLink obj Geometry.offParent → t.hasLink obj Geometry.offSibling →
      t.linkOf obj Geometry.offParent ≠ 0#16 → t.hasLink (t.linkOf obj Geometry.offParent) Geometry.offChild →
      ∀ path last, t.WalkedPast obj (t.linkOf (t.linkOf obj Geometry.offParent) Geometry.offChild) path last →
        last = 0#16 ∨ last ≠ obj ∧ path.length = t.walkLimit + 1 →
        exec i s = .next (takeFatal (.treeCorrupt obj) t))

/-! ### Text -/

/-- The text decoder computes exactly the relation the code rules define, and changes nothing (R250 to R259). With
`ABBREV_DEPTH` unbounded the relation nests abbreviations at most 96 deep, which is the model's inference (log entry
5). Spec decisions: D30, D31. -/
def Obligations.TextDecodesByTheCodeRules : Prop :=
  ∀ (s u : State) (a after : Nat) (text : List Token),
    decodeAt a s = .ok (text, after) u ↔ u = s ∧ s.TextAt a text after

/-- Abbreviations with `ABBREV_DEPTH` unbounded: a text that decodes at any nesting depth decodes at depth 96, so
what the model answers as endless has no decode at all (R254, U19; log entry 5). Spec decisions: D30, D31. -/
def Obligations.AbbreviationNestingIsExact : Prop :=
  ∀ (s : State) (d : Nat) (cs : List Code) (text : List Token), s.Decodes d cs text → s.Decodes 96 cs text

/-- Lower-case letters, spaces and digits: the codes R259 names for each decode to it alone, one after the other,
whatever memory holds. -/
def Obligations.LettersSpacesDigitsRoundTrip : Prop :=
  ∀ (s : State) (d : Nat) (word : List (List Code × Nat)),
    (∀ p ∈ word,
      (∃ k : Fin 26, p = ([BitVec.ofNat 5 (6 + k.val)], 0x61 + k.val)) ∨ p = ([0#5], 0x20) ∨
        ∃ k : Fin 10, p = ([5#5, BitVec.ofNat 5 (8 + k.val)], 0x30 + k.val)) →
    s.Decodes d (word.flatMap Prod.fst) (word.map fun p => .char (BitVec.ofNat 16 p.2))

/-- The five printing instructions of packed text complete with one request that carries the whole text: `PRINT` and
`PRINT_RET` the text at the program counter, which moves after it (`PRINT_RET` adds a new line and returns true);
`PRINT_ADDR` at a byte address, `PRINT_PADDR` at a packed one, `PRINT_OBJ` the short name, empty where its length is
0 (R261 to R265). Spec decisions: D48, D49. -/
def Obligations.PrintsMakeOneRequest : Prop :=
  ∀ (x : Operand) (s t u : State) (v : Word) (text : List Token) (after : Nat),
    (s.entered .print = some ([], t) → t.TextAt t.pc.toNat text after →
      exec .print s = .next ((t.setPc (BitVec.ofNat 32 after)).emit (.print text))) ∧
    (s.entered .printRet = some ([], t) → t.TextAt t.pc.toNat text after →
      ((t.setPc (BitVec.ofNat 32 after)).emit (.print (text ++ [.newline]))).returned 1#16 = some u →
      exec .printRet s = .next u) ∧
    (s.entered (.printAddr x) = some ([v], t) → t.TextAt v.toNat text after →
      exec (.printAddr x) s = .next (t.emit (.print text))) ∧
    (s.entered (.printPaddr x) = some ([v], t) → t.TextAt (t.cfg.geom.packScale * v.toNat) text after →
      exec (.printPaddr x) s = .next (t.emit (.print text))) ∧
    (∀ p, s.entered (.printObj x) = some ([v], t) → v ≠ 0#16 →
      t.inRange (t.objAddr v + t.cfg.geom.offProps) 2 → p = (t.wordAt (t.objAddr v + t.cfg.geom.offProps)).toNat →
      t.inRange p 1 →
      (t.mem.byte p = 0#8 → exec (.printObj x) s = .next (t.emit (.print []))) ∧
      (t.mem.byte p ≠ 0#8 → t.TextAt (p + 1) text after →
        exec (.printObj x) s = .next (t.emit (.print text))))

/-- `PRINT_CHAR` passes its word on raw, `NEW_LINE` is one token, `PRINT_NUM` prints the shortest decimal numeral of
its signed operand, most significant digit first (R266 to R268). Spec decisions: D48, D49. -/
def Obligations.CharactersNumbersNewLines : Prop :=
  ∀ (ops : List Operand) (s t : State) (v : Word) (more : List Word),
    (s.entered (.printChar ops) = some (v :: more, t) →
      exec (.printChar ops) s = .next (t.emit (.print [.char v]))) ∧
    (s.entered .newLine = some ([], t) → exec .newLine s = .next (t.emit (.print [.newline]))) ∧
    (s.entered (.printNum ops) = some (v :: more, t) →
      exec (.printNum ops) s = .next (t.emit (.print
        ((if v.toInt < 0 then [Token.char 0x2D#16] else []) ++
          (if v = 0#16 then [Token.char 0x30#16]
           else (Nat.digits 10 v.toInt.natAbs).reverse.map fun d => Token.char (BitVec.ofNat 16 (0x30 + d)))))))

/-! ### Calls, returns, the operand stack -/

/-- The eight call instructions complete. A routine at address 0 is not entered: where a result is wanted 0 is
stored at once, else nothing happens. Any other is entered in a new frame: the program counter after its header, the
arguments counted and put in the first locals, then the defaults of an early version, 0 in the rest, and an empty
stack; the caller's frame stays with its program counter after the operands (R280 to R289, R297). Spec decisions:
D17, D33, D34. -/
def Obligations.CallsEnterTheRoutine : Prop :=
  ∀ (i : Instr) (s t : State) (routine : Word) (args : List Word), callGroup i = true →
    s.entered i = some (routine :: args, t) → i.minOperands ≤ args.length + 1 →
    (routine = 0#16 → wantsResult i = false → exec i s = .next t) ∧
    (∀ u, routine = 0#16 → wantsResult i = true → t.stored 0#16 = some u → exec i s = .next u) ∧
    (routine ≠ 0#16 → t.callable routine →
      exec i s = .next (t.called routine (passedArgs i args) (wantsResult i)))

/-- `RET`, `RTRUE`, `RFALSE` and `RET_POPPED` complete by discarding the frame and giving their value to the
caller's store byte where a result is wanted; from the bottom frame they take the fatal `ReturnFromMain` (R283, R290
to R293). Spec decisions: D17. -/
def Obligations.ReturnsResumeTheCaller : Prop :=
  ∀ (x : Operand) (s t u : State) (v : Word) (rest : List Word),
    (s.entered (.ret x) = some ([v], t) →
      (t.returned v = some u → exec (.ret x) s = .next u) ∧
      (t.below = [] → exec (.ret x) s = .next (takeFatal .returnFromMain t))) ∧
    (s.entered .rtrue = some ([], t) →
      (t.returned 1#16 = some u → exec .rtrue s = .next u) ∧
      (t.below = [] → exec .rtrue s = .next (takeFatal .returnFromMain t))) ∧
    (s.entered .rfalse = some ([], t) →
      (t.returned 0#16 = some u → exec .rfalse s = .next u) ∧
      (t.below = [] → exec .rfalse s = .next (takeFatal .returnFromMain t))) ∧
    (s.entered .retPopped = some ([], t) → t.stack = v :: rest →
      ((t.setStack rest).returned v = some u → exec .retPopped s = .next u) ∧
      (t.below = [] → exec .retPopped s = .next (takeFatal .returnFromMain (t.setStack rest))))

/-- `PUSH`, `PULL`, `POP` and `NOP` complete: a push within `STACK_DEPTH`, a pop into a variable reached in place
after the pop, a pop, nothing (R294 to R296, R298). Spec decisions: D20, D48. -/
def Obligations.StackInstructions : Prop :=
  ∀ (ops : List Operand) (s t u : State) (v w : Word) (more rest : List Word),
    (s.entered (.push ops) = some (v :: more, t) →
      withinLimit (t.stack.length + 1) t.params.stackDepth = true →
      exec (.push ops) s = .next (t.setStack (v :: t.stack))) ∧
    (s.entered (.pull ops) = some (v :: more, t) → t.stack = w :: rest →
      (t.setStack rest).putInPlace (v.setWidth 8) w = some u → exec (.pull ops) s = .next u) ∧
    (s.entered .pop = some ([], t) → t.stack = w :: rest → exec .pop s = .next (t.setStack rest)) ∧
    (s.entered .nop = some ([], t) → exec .nop s = .next t)

/-! ### The host port -/

/-- The screen, style and sound instructions complete with one request that carries their operands unchanged;
`SET_CURSOR` without a third operand names window 0, `BUFFER_MODE` compares with 1, and `SOUND_EFFECT` of another
number than 1 or 2 is the fatal `InvalidSoundEffect` (R318 to R326). Spec decisions: D44. -/
def Obligations.ScreenRequestsPassTheirOperands : Prop :=
  ∀ (args : Args2) (ops : List Operand) (s t : State) (v w x : Word) (more : List Word),
    (s.entered (.splitWindow ops) = some (v :: more, t) →
      exec (.splitWindow ops) s = .next (t.emit (.splitWindow v))) ∧
    (s.entered (.setWindow ops) = some (v :: more, t) →
      exec (.setWindow ops) s = .next (t.emit (.setActiveWindow v))) ∧
    (s.entered .showStatus = some ([], t) → exec .showStatus s = .next (t.emit .showStatusLine)) ∧
    (s.entered (.eraseWindow ops) = some (v :: more, t) →
      exec (.eraseWindow ops) s = .next (t.emit (.eraseWindow v))) ∧
    (s.entered (.setCursor ops) = some ([v, w], t) →
      exec (.setCursor ops) s = .next (t.emit (.setCursor v w 0#16))) ∧
    (s.entered (.setCursor ops) = some (v :: w :: x :: more, t) →
      exec (.setCursor ops) s = .next (t.emit (.setCursor v w x))) ∧
    (s.entered (.setColour args) = some (v :: w :: more, t) →
      exec (.setColour args) s = .next (t.emit (.setColor v w))) ∧
    (s.entered (.setTextStyle ops) = some (v :: more, t) →
      exec (.setTextStyle ops) s = .next (t.emit (.setTextStyle v))) ∧
    (s.entered (.bufferMode ops) = some (v :: more, t) →
      exec (.bufferMode ops) s = .next (t.emit (.setBufferMode (v == 1#16)))) ∧
    (s.entered (.soundEffect ops) = some (v :: more, t) → v = 1#16 ∨ v = 2#16 →
      exec (.soundEffect ops) s = .next (t.emit (.playSound v))) ∧
    (s.entered (.soundEffect ops) = some (v :: more, t) → v ≠ 1#16 → v ≠ 2#16 →
      exec (.soundEffect ops) s = .next (takeFatal (.invalidSoundEffect v) t))

/-- `READ_CHAR` completes with the reply to its request, some word, stored: the first the outside has supplied, or a
free one (log entries 3 and 4). `RANDOM` of a positive range completes with some value from 1 to it stored, for every
value the free draw may take; of any other operand it reseeds and stores 0. The generator's state stays free (R312,
R316, R335). Spec decisions: D45. -/
def Obligations.DrawnResultsAreStored : Prop :=
  ∀ (ops : List Operand) (s t : State) (vs more : List Word) (range : Word),
    (s.entered (.readChar ops) = some (vs, t) →
      ∃ (k : Word) (t' : State),
        ((∃ rest, t.inbox.keys = k :: rest ∧ t' = { t with inbox := { t.inbox with keys := rest } }) ∨
          t.inbox.keys = [] ∧ t' = { t with draws := t.draws + 1 }) ∧
        ∀ u, (t'.emit (.readChar k)).stored k = some u → exec (.readChar ops) s = .next u) ∧
    (s.entered (.random ops) = some (range :: more, t) → 0 < range.toInt →
      ∃ (v : Word) (g : Nat), 1 ≤ v.toInt ∧ v.toInt ≤ range.toInt ∧
        ∀ u, ({ t with rng := g, draws := t.draws + 1 }).stored v = some u → exec (.random ops) s = .next u) ∧
    (s.entered (.random ops) = some (range :: more, t) → range.toInt ≤ 0 →
      ∃ g : Nat, ∀ u, ({ t with rng := g, draws := t.draws + 1 }).stored 0#16 = some u →
        exec (.random ops) s = .next u)

/-- `READ` completes by recording its two addresses, requesting a line of at most the text buffer's maximum and
waiting for it, the program counter after the operands; it changes nothing else (R314). Spec decisions: D42. -/
def Obligations.ReadSuspends : Prop :=
  ∀ (ops : List Operand) (s t : State) (text parse : Word) (more : List Word),
    s.entered (.read ops) = some (text :: parse :: more, t) → t.inRange text.toNat 1 →
    exec (.read ops) s =
      .next ((({ t with readText := text, readParse := parse }).emit
        (.readLine (t.mem.byte text.toNat))).setRun .waitInput)

/-- `InputDone` is refused in every run state but `WaitInput` (R315). There, where it raises no fatal, the machine
runs again; the text buffer holds the line, lower case and cut to the maximum, in the convention of the version
(R334), but for bytes the parse buffer or a global overlays; and every byte outside the two buffers and the globals
is kept. Spec decisions: D43. -/
def Obligations.InputDoneCompletesTheRead : Prop :=
  ∀ (line : List Byte) (s : State),
    (s.run ≠ .waitInput → inputDone line s = .refused .inputNotAwaited) ∧
    (∀ u text a, s.run = .waitInput → inputDone line s = .next u → (∀ c, u.run ≠ .fatal c) →
      text = (line.map fun c => if 0x41 ≤ c.toNat ∧ c.toNat ≤ 0x5A then c + 32#8 else c).take
        (s.mem.byte s.readText.toNat).toNat →
      ¬ (s.readParse.toNat + 1 ≤ a ∧ a < s.readParse.toNat + 2 + 4 * 255) →
      ¬ (s.late = true ∧ s.cfg.globals.toNat ≤ a ∧ a < s.cfg.globals.toNat + 480) →
      u.run = .running ∧
      u.mem.byte a =
        ((if s.late then
            s.mem.setBytes (s.readText.toNat + 1) (BitVec.ofNat 8 text.length :: text)
          else s.mem.setBytes (s.readText.toNat + 1) (text ++ [0#8])).byte a))

/-- `SAVE` completes with one request that carries the snapshot taken at the result field, and signals the host's
reply there: a branch in an early version, a stored 1 or 0 in a late one. The reply is the first the outside has
supplied, or free: the model's choice (log entries 3 and 4) for any value of its type (R327 to R329, R312). Spec
decisions: D41. -/
def Obligations.SaveHandsOverTheSnapshot : Prop :=
  ∀ (form : SaveForm) (s t : State) (vs : List Word), s.entered (.save form) = some (vs, t) →
    t.inRange 0 t.cfg.staticBase.toNat →
    ∃ (ok : Bool) (t' : State),
      ((∃ rest, t.inbox.saves = ok :: rest ∧ t' = { t with inbox := { t.inbox with saves := rest } }) ∨
        t.inbox.saves = [] ∧ t' = { t with draws := t.draws + 1 }) ∧
      ∀ snap w u,
        snap = { readParse := t.readParse, readText := t.readText, dyn := t.mem.bytes 0 t.cfg.staticBase.toNat,
                 frames := t.below.reverse ++ [t.top] } →
        w = t'.emit (.save snap ok) →
        (t.late = false → w.branched ok = some u → exec (.save form) s = .next u) ∧
        (t.late = true → w.stored (if ok then 1#16 else 0#16) = some u → exec (.save form) s = .next u)

/-- `RESTORE` completes. With no snapshot, or one that is not well-formed for this machine, it signals failure at
its own result field. Otherwise dynamic memory, the frames and the read addresses become the snapshot's, the rest is
kept, and success is signalled at the restored program counter: a branch in an early version, a stored 1 in a late
one. The reply is any value of its type (R312); that it is the first the outside has supplied, or else a free one, is
the model's choice (log entries 3 and 4) (R327, R330). Spec decisions: D41. -/
def Obligations.RestoreReplacesOrReports : Prop :=
  ∀ (form : SaveForm) (s t : State) (vs : List Word), s.entered (.restore form) = some (vs, t) →
    ∃ (reply : Option Snapshot) (t' : State),
      ((∃ rest, t.inbox.restores = reply :: rest ∧
          t' = { t with inbox := { t.inbox with restores := rest } }) ∨
        t.inbox.restores = [] ∧ t' = { t with draws := t.draws + 1 }) ∧
      ∀ w u, w = t'.emit (.restore reply) →
        ((∀ r, reply = some r → w.accepts r = false) →
          (t.late = false → w.branched false = some u → exec (.restore form) s = .next u) ∧
          (t.late = true → w.stored 0#16 = some u → exec (.restore form) s = .next u)) ∧
        (∀ r top below m, reply = some r → r.dyn.length = t.cfg.staticBase.toNat →
          t.inRange 0 t.cfg.staticBase.toNat → r.frames.reverse = top :: below →
          withinLimit r.frames.length t.params.frameDepth = true →
          (∀ f ∈ r.frames, f.argc ≤ 7 ∧ withinLimit f.stack.length t.params.stackDepth = true) →
          t.mem.wf → m.wf → (∀ a, m.byte a = if a < r.dyn.length then r.dyn.getD a 0#8 else t.mem.byte a) →
          (t.late = false →
            ({ w with mem := m, top := top, below := below, readParse := r.readParse,
                      readText := r.readText }).branched true = some u → exec (.restore form) s = .next u) ∧
          (t.late = true →
            ({ w with mem := m, top := top, below := below, readParse := r.readParse,
                      readText := r.readText }).stored 1#16 = some u → exec (.restore form) s = .next u))

/-- R331: replacing dynamic memory, the frames and the read addresses by the fields of the snapshot taken in a state
gives that state again. -/
def Obligations.RestoringItsOwnSnapshotIsTheIdentity : Prop :=
  ∀ s : State, s.mem.wf → s.restoreFrom s.snapshot = s

/-- `QUIT` completes with its request and `Halted`, the program counter after the opcode byte. `RESTART` completes
with the story's bytes, the registers latched from them and the initial frame; the requests made, the generator and
the run state are kept (R332, R333, R381, R382). Spec decisions: D39, D46. -/
def Obligations.QuitHaltsAndRestartReloads : Prop :=
  ∀ s t : State,
    (s.entered .quit = some ([], t) → exec .quit s = .next ((t.emit .quit).setRun .halted)) ∧
    (s.entered .restart = some ([], t) → 64 ≤ s.memSize →
      exec .restart s = .next
        { s with
          mem := s.story, cfg := latchedFrom s.story,
          top := { pc := (latchedFrom s.story).pc0.setWidth 32, storeResult := false, argc := 0,
                   locals := Vector.replicate 15 0#16, stack := [] },
          below := [], readText := 0#16, readParse := 0#16 })

/-- R114: an encoding whose slot is unpopulated takes the fatal `UnknownOpcode` with its opcode byte, and with the
second byte in the extended form, after its operands are resolved. -/
def Obligations.UnpopulatedSlotsAreFatal : Prop :=
  ∀ (slot : Unpopulated) (s t : State) (vs : List Word), s.entered (.unpopulatedSlot slot) = some (vs, t) →
    ∃ o bytes, encode (.unpopulatedSlot slot) = o :: bytes ∧
      exec (.unpopulatedSlot slot) s =
        .next (takeFatal (.unknownOpcode o (if o = 0xBE#8 then bytes.head? else none)) t)

/-! ### Reset -/

/-- `RESET` refuses a story of fewer than 64 bytes or of a version other than 3 and 5; from any other it makes the
state of R42: the story's bytes in memory, the registers latched from the header, the geometry of the version, one
frame at `PC0` with nothing in it, no request, running (R6, R33, R380 to R382). Spec decisions: D1, D22, D27, D39,
D40. -/
def Obligations.ResetMakesTheInitialState : Prop :=
  ∀ (params : Params) (inbox : Inbox) (story : List Byte),
    (story.length < 64 → resetWith params inbox story = .refused .storyTooShort) ∧
    (64 ≤ story.length → story.getD 0 0#8 ≠ 3#8 → story.getD 0 0#8 ≠ 5#8 →
      resetWith params inbox story = .refused .versionNotAdmitted) ∧
    (64 ≤ story.length → story.getD 0 0#8 = 3#8 ∨ story.getD 0 0#8 = 5#8 →
      ∃ s, resetWith params inbox story = .next s ∧
        s.memSize = story.length ∧ (∀ a, s.mem.byte a = story.getD a 0#8) ∧ s.story = s.mem ∧
        s.cfg.version = story.getD 0 0#8 ∧
        s.cfg.pc0 = story.getD 6 0#8 ++ story.getD 7 0#8 ∧
        s.cfg.dict = story.getD 8 0#8 ++ story.getD 9 0#8 ∧
        s.cfg.objTab = story.getD 10 0#8 ++ story.getD 11 0#8 ∧
        s.cfg.globals = story.getD 12 0#8 ++ story.getD 13 0#8 ∧
        s.cfg.staticBase = story.getD 14 0#8 ++ story.getD 15 0#8 ∧
        s.cfg.abbrevTab = story.getD 24 0#8 ++ story.getD 25 0#8 ∧
        s.cfg.geom = geometryOf s.cfg.version ∧
        (story.getD 0 0#8 = 3#8 → s.cfg.geom =
          { earlier := true, propDefaultsSize := 62, objRecSize := 9, attrBits := 32, linkBytes := 1,
            offParent := 4, offSibling := 5, offChild := 6, offProps := 7, maxProp := 31, packScale := 2 }) ∧
        (story.getD 0 0#8 = 5#8 → s.cfg.geom =
          { earlier := false, propDefaultsSize := 126, objRecSize := 14, attrBits := 48, linkBytes := 2,
            offParent := 6, offSibling := 8, offChild := 10, offProps := 12, maxProp := 63, packScale := 4 }) ∧
        s.cfg.slot1Op0F = (if s.cfg.version.toNat ≤ 4 then .not else .call1n) ∧
        s.below = [] ∧
        s.top = { pc := s.cfg.pc0.setWidth 32, storeResult := false, argc := 0,
                  locals := Vector.replicate 15 0#16, stack := [] } ∧
        s.readText = 0#16 ∧ s.readParse = 0#16 ∧ s.trace = [] ∧ s.run = .running ∧ s.params = params)

/-! ### What an instruction leaves unchanged -/

/-- The frame of the instructions that only make a request, move the program counter or use the operand stack: every
byte of memory, every local, the frames below and every special register are kept; the trace grows by at most one
request; only `PUSH` adds to the stack. -/
def Obligations.RequestInstructionsKeepTheRest : Prop :=
  ∀ (i : Instr) (s u : State), requestGroup i = true → exec i s = .next u →
    s.SpecialsKept u ∧ (∀ a, u.mem.byte a = s.mem.byte a) ∧ u.below = s.below ∧
    u.top.locals = s.top.locals ∧ u.top.argc = s.top.argc ∧ u.top.storeResult = s.top.storeResult ∧
    (u.trace = s.trace ∨ ∃ r, u.trace = s.trace ++ [r]) ∧
    (∃ k, u.stack = s.stack.drop k ∨ ∃ ops v, i = .push ops ∧ u.stack = v :: s.stack.drop k)

/-- The frame of the instructions that store a result: everything but the variable their store byte names. The store
byte stands where the operands end. `READ_CHAR` and `RANDOM` also take their reply or draw. -/
def Obligations.ResultInstructionsKeepTheRest : Prop :=
  ∀ (i : Instr) (s u : State), resultGroup i = true → exec i s = .next u →
    s.AllButVariable
      (s.mem.byte (s.advance (i.headBytes + (encodeOperands i.operands).length)).pc.toNat) u ∧
    s.FixedKept u ∧ u.readText = s.readText ∧ u.readParse = s.readParse ∧
    ((∀ ops, i ≠ .readChar ops) → u.trace = s.trace ∧ u.inbox = s.inbox ∧
      ((∀ ops, i ≠ .random ops) → u.rng = s.rng ∧ u.draws = s.draws))

/-- The frame of the tests and the returns: without a return everything but the program counter and popped operands
is kept; with one, everything but the variable the caller's store byte names. -/
def Obligations.BranchesAndReturnsKeepTheRest : Prop :=
  ∀ (i : Instr) (s u : State), branchGroup i = true → exec i s = .next u →
    s.SpecialsKept u ∧ u.trace = s.trace ∧ (s.FrameKept u ∨ s.ReturnKeeps u)

/-- The frame of the instructions that write memory: `STOREW` and `STOREB` change only the bytes at the address they
compute, `PUT_PROP` only the data of the entry it finds, `SET_ATTR` and `CLEAR_ATTR` only the attribute bytes of the
object, `REMOVE_OBJ` and `INSERT_OBJ` only link fields of object records; everything else is kept. -/
def Obligations.MemoryWritersKeepTheRest : Prop :=
  ∀ (i : Instr) (args : Args2) (x : Operand) (ops : List Operand) (s u : State), exec i s = .next u →
    i = .storew ops ∨ i = .storeb ops ∨ i = .putProp ops ∨ i = .setAttr args ∨ i = .clearAttr args ∨
      i = .removeObj x ∨ i = .insertObj args →
    s.SpecialsKept u ∧ u.trace = s.trace ∧ u.below = s.below ∧ u.top.locals = s.top.locals ∧
    u.top.argc = s.top.argc ∧ u.top.storeResult = s.top.storeResult ∧ (∃ k, u.stack = s.stack.drop k) ∧
    (∀ a,
      (i = .storew ops → ∀ array index v more t, s.entered i = some (array :: index :: v :: more, t) →
        a < wordAddr array index ∨ wordAddr array index + 2 ≤ a) →
      (i = .storeb ops → ∀ array index v more t, s.entered i = some (array :: index :: v :: more, t) →
        a ≠ byteAddr array index) →
      (i = .putProp ops → ∀ obj p v more t r, s.entered i = some (obj :: p :: v :: more, t) →
        t.findProp obj p = some (some r) → a < r.data ∨ r.data + r.len ≤ a) →
      (i = .setAttr args ∨ i = .clearAttr args →
        ∀ obj attr more t, s.entered i = some (obj :: attr :: more, t) →
          a < s.objAddr obj ∨ s.objAddr obj + 6 ≤ a ∨
            s.cfg.geom.earlier = true ∧ s.objAddr obj + 4 ≤ a) →
      (i = .removeObj x ∨ i = .insertObj args → ∀ id, id ≠ 0#16 →
        (a < s.linkAddr id Geometry.offParent ∨ s.linkAddr id Geometry.offParent + s.cfg.geom.linkBytes ≤ a) ∧
        (a < s.linkAddr id Geometry.offSibling ∨ s.linkAddr id Geometry.offSibling + s.cfg.geom.linkBytes ≤ a) ∧
        (a < s.linkAddr id Geometry.offChild ∨ s.linkAddr id Geometry.offChild + s.cfg.geom.linkBytes ≤ a)) →
      u.mem.byte a = s.mem.byte a)

/-- The frame of the instructions that reach a variable by number: `STORE`, `INC`, `DEC` and `PULL` keep everything
but that variable (and the word `PULL` pops); `INC_CHK` and `DEC_CHK` then branch, and `GET_SIBLING` and `GET_CHILD`
branch after their store, as `BranchesAndReturnsKeepTheRest` says. Their store byte stands after the operands or
after the branch field, as `FIELD_ORDER` says, and where that field cannot be fetched nothing but the program counter
and popped operands changed. -/
def Obligations.InPlaceInstructionsKeepTheRest : Prop :=
  ∀ (i : Instr) (s t u : State) (v : Word) (more : List Word), s.entered i = some (v :: more, t) →
    exec i s = .next u →
    (inPlaceGroup i = true ∨ (∃ ops, i = .pull ops) →
      s.SpecialsKept u ∧ u.trace = s.trace ∧ s.AllButVariable (v.setWidth 8) u) ∧
    ((∃ args, i = .incChk args ∨ i = .decChk args) →
      s.SpecialsKept u ∧ u.trace = s.trace ∧
      ∃ w, s.SpecialsKept w ∧ s.AllButVariable (v.setWidth 8) w ∧ (w.FrameKept u ∨ w.ReturnKeeps u)) ∧
    ((∃ x, i = .getSibling x ∨ i = .getChild x) →
      s.SpecialsKept u ∧ u.trace = s.trace ∧
      ∃ w n, s.SpecialsKept w ∧ s.AllButVariable n w ∧ (w.FrameKept u ∨ w.ReturnKeeps u) ∧
        (s.params.fieldOrder = .storeThenBranch → n = s.mem.byte t.pc.toNat) ∧
        (∀ f t1, s.params.fieldOrder = .branchThenStore → t.fieldFetched = some (f, t1) →
          n = s.mem.byte t1.pc.toNat) ∧
        (s.params.fieldOrder = .branchThenStore → t.fieldFetched = none → s.FrameKept u))

/-- The frame of the calls, of `SAVE` and of `RESTORE`. A call keeps memory (but for the variable that takes the 0 of
a call of address 0 where a result is wanted), every special register, the trace, and the caller's frame but for its
program counter and popped operands. `SAVE` keeps all but its result and one request; `RESTORE` keeps the fixed
registers, the generator and, outside the globals, every byte at or above `STATIC_BASE` (R281, R330). Spec decisions:
D33, D41. -/
def Obligations.CallsSaveRestoreKeepTheRest : Prop :=
  ∀ (i : Instr) (s u : State), exec i s = .next u →
    (callGroup i = true →
      s.SpecialsKept u ∧ u.trace = s.trace ∧
      (s.FrameKept u ∨
        (wantsResult i = true ∧ (∃ args t, s.entered i = some (0#16 :: args, t)) ∧
          s.AllButVariable
            (s.mem.byte (s.advance (i.headBytes + (encodeOperands i.operands).length)).pc.toNat) u) ∨
        (∀ a, u.mem.byte a = s.mem.byte a) ∧
        ∃ caller, u.below = caller :: s.below ∧ caller.locals = s.top.locals ∧ caller.argc = s.top.argc ∧
          caller.storeResult = s.top.storeResult ∧ ∃ k, caller.stack = s.stack.drop k)) ∧
    (∀ form, i = .save form →
      s.FixedKept u ∧ u.readText = s.readText ∧ u.readParse = s.readParse ∧ u.rng = s.rng ∧
      (u.trace = s.trace ∨ ∃ snap ok, u.trace = s.trace ++ [.save snap ok]) ∧
      (s.late = true → s.AllButVariable
        (s.mem.byte (s.advance (i.headBytes + (encodeOperands i.operands).length)).pc.toNat) u) ∧
      (s.late = false → s.FrameKept u ∨ s.ReturnKeeps u)) ∧
    (∀ form, i = .restore form →
      s.FixedKept u ∧ u.rng = s.rng ∧
      (u.trace = s.trace ∨ ∃ reply, u.trace = s.trace ++ [.restore reply]) ∧
      ∀ a, s.cfg.staticBase.toNat ≤ a → ¬ (s.cfg.globals.toNat ≤ a ∧ a < s.cfg.globals.toNat + 480) →
        u.mem.byte a = s.mem.byte a)

/-! ### The whole machine -/

/-- Every step keeps memory and the story without a byte at or above `MEM_SIZE` (R20, R38, R61), and in canonical
form, which is the model's choice (log entry 1). Spec decisions: D9. -/
def Obligations.StepKeepsMemoryLegal : Prop :=
  ∀ s u : State, s.MemoryLegal → step s = .next u → u.MemoryLegal

/-- Every step keeps the configuration registers as the story's header says, whatever it writes to memory (R35).
Spec decisions: D3. -/
def Obligations.StepKeepsTheConfigurationLatched : Prop :=
  ∀ s u : State, s.ConfigLatched → step s = .next u → u.ConfigLatched

/-- Every step keeps the frames legal: at most 7 arguments each, every stack within `STACK_DEPTH`, the frames within
`FRAME_DEPTH` (R21, R22, R281). Spec decisions: D16, D33. -/
def Obligations.StepKeepsTheFramesLegal : Prop :=
  ∀ s u : State, s.FramesLegal → step s = .next u → u.FramesLegal

/-- The state after reset meets the three invariants, for every story `RESET` accepts and every limit that allows
one frame; and so does the model's `State.reset`. -/
def Obligations.ResetMeetsTheInvariants : Prop :=
  (∀ (params : Params) (inbox : Inbox) (story : List Byte) (s : State),
    resetWith params inbox story = .next s →
      s.MemoryLegal ∧ s.ConfigLatched ∧ (withinLimit 1 params.frameDepth = true → s.FramesLegal)) ∧
  State.reset.MemoryLegal ∧ State.reset.ConfigLatched ∧ State.reset.FramesLegal

/-- No step changes the story, the size or the parameters; requests are only added, at the end; and a step of a
running machine goes on running, takes a fatal, halts (only by `QUIT`) or waits (only by `READ`) (R38, R39, R40,
R310). Spec decisions: D39, D40. -/
def Obligations.RunStateAndTraceOnlyMoveForward : Prop :=
  ∀ s u : State, step s = .next u →
    u.story = s.story ∧ u.memSize = s.memSize ∧ u.params = s.params ∧ s.trace <+: u.trace ∧
    (u.run = .running ∨ (∃ c, u.run = .fatal c) ∨
      (u.run = .halted ∧ ∃ rest, decode s.cfg.slot1Op0F s.fetchBytes = .ok (.quit, rest)) ∨
      (u.run = .waitInput ∧ ∃ ops rest, decode s.cfg.slot1Op0F s.fetchBytes = .ok (.read ops, rest)))

/-- Frames are private: but for `RESTORE` and `RESTART` no step reaches under the frame it works in, so the frames
below stay as they are, get one more, or lose the nearest one (R22, R281, R283). Spec decisions: D16, D17, D33. -/
def Obligations.DeeperFramesAreUntouched : Prop :=
  ∀ s u : State, step s = .next u →
    (∀ form rest, decode s.cfg.slot1Op0F s.fetchBytes ≠ .ok (.restore form, rest)) →
    (∀ rest, decode s.cfg.slot1Op0F s.fetchBytes ≠ .ok (.restart, rest)) →
    u.below = s.below ∨ (∃ caller, u.below = caller :: s.below) ∨ ∃ resumed, s.below = resumed :: u.below
end

