-- ==== Sys2Proof/Laws/Memory.lean ====
section
/-! SUPPORT. The laws of the memory image: read after write, the canonical form and that every operation keeps
it, the bound on the listed addresses, and that canonical memories with equal bytes are equal. -/

namespace Sys2Proof.Machine.Memory

/-! ### One byte -/

@[simp] theorem byte_nil (x : Nat) : byte [] x = unlisted := rfl

theorem byte_of_lt {m : Memory} {x : Nat} (h : ∀ c ∈ m, x < c.1) : byte m x = unlisted := by
  cases m with
  | nil => rfl
  | cons c m =>
    obtain ⟨a, b⟩ := c
    simp [byte, h (a, b) (by simp)]

theorem byte_dropWhile_le (m : Memory) (x : Nat) :
    byte (m.dropWhile (fun c => decide (c.1 ≤ x))) x = unlisted := by
  induction m with
  | nil => rfl
  | cons c m ih =>
    obtain ⟨a, b⟩ := c
    rw [List.dropWhile_cons]
    split
    · exact ih
    · rename_i h
      simp at h
      simp [byte, h]

theorem byte_dropWhile_of_gt (m : Memory) {x y : Nat} (h : x < y) :
    byte (m.dropWhile (fun c => decide (c.1 ≤ x))) y = byte m y := by
  induction m with
  | nil => rfl
  | cons c m ih =>
    obtain ⟨a, b⟩ := c
    rw [List.dropWhile_cons]
    split
    · rename_i ha
      simp at ha
      rw [ih, byte, if_neg (by omega), if_neg (by omega)]
    · rfl

/-- A byte read where it was just written (R62, R63). -/
@[simp] theorem byte_setByte_same (m : Memory) (x : Nat) (v : Byte) : (m.setByte x v).byte x = v := by
  induction m with
  | nil =>
    by_cases hv : v = unlisted <;> simp [setByte, hv, byte]
  | cons c m ih =>
    obtain ⟨a, b⟩ := c
    unfold setByte
    split
    · rename_i hlt
      split
      · rename_i hv; simp [byte, hlt, hv]
      · simp [byte]
    · split
      · rename_i hlt heq
        split
        · rename_i hv; rw [byte_dropWhile_le, hv]
        · simp [byte]
      · rename_i hlt hne
        simp [byte, hlt, hne, ih]

/-- A byte read elsewhere. -/
theorem byte_setByte_other (m : Memory) {x y : Nat} (v : Byte) (h : y ≠ x) :
    (m.setByte x v).byte y = m.byte y := by
  induction m with
  | nil =>
    by_cases hv : v = unlisted <;> simp [setByte, hv, byte, h]
  | cons c m ih =>
    obtain ⟨a, b⟩ := c
    unfold setByte
    split
    · rename_i hlt
      split
      · rfl
      · by_cases hy : y < x
        · simp [byte, hy, show y < a by omega]
        · simp [byte, hy, h]
    · split
      · rename_i hlt heq
        subst heq
        split
        · by_cases hy : x < y
          · rw [byte_dropWhile_of_gt m hy, byte, if_neg (by omega), if_neg (by omega)]
          · have hyx : y < x := by omega
            have : byte (m.dropWhile (fun c => decide (c.1 ≤ x))) y = unlisted := by
              clear ih hlt
              induction m with
              | nil => rfl
              | cons c m ih =>
                rw [List.dropWhile_cons]
                split
                · exact ih
                · rename_i hc
                  simp at hc
                  obtain ⟨a, b⟩ := c
                  have hya : y < a := Nat.lt_trans hyx hc
                  simp [byte, hya]
            rw [this]
            simp [byte, hyx]
        · simp [byte]
          by_cases hy : y < x
          · simp [hy]
          · simp [hy, h]
      · rename_i hlt hne
        by_cases hy : y < a
        · simp [byte, hy]
        · by_cases hya : y = a
          · simp [byte, hya]
          · simp [byte, hy, hya, ih]

theorem byte_setByte (m : Memory) (x y : Nat) (v : Byte) :
    (m.setByte x v).byte y = if y = x then v else m.byte y := by
  split
  · rename_i h; subst h; simp
  · rename_i h; exact byte_setByte_other m v h

/-! ### The canonical form -/

theorem mem_setByte {m : Memory} {x : Nat} {v : Byte} {c : Host.Cell} (h : c ∈ m.setByte x v) :
    c ∈ m ∨ c = (x, v) := by
  induction m with
  | nil =>
    unfold setByte at h
    split at h <;> simp_all
  | cons d m ih =>
    obtain ⟨a, b⟩ := d
    unfold setByte at h
    split at h
    · split at h
      · exact .inl h
      · simp at h
        rcases h with h | h | h
        · exact .inr h
        · simp [h]
        · simp [h]
    · split at h
      · split at h
        · exact .inl (List.mem_cons_of_mem _ ((List.dropWhile_sublist _).mem h))
        · simp at h
          rcases h with h | h
          · exact .inr h
          · simp [h]
      · simp at h
        rcases h with h | h
        · simp [h]
        · rcases ih h with h' | h'
          · simp [h']
          · exact .inr h'

/-- A write keeps the canonical form. -/
theorem wf_setByte {m : Memory} (h : m.wf) (x : Nat) (v : Byte) : (m.setByte x v).wf := by
  obtain ⟨hs, hne⟩ := h
  induction m with
  | nil =>
    unfold setByte
    split <;> simp_all [wf]
  | cons d m ih =>
    obtain ⟨a, b⟩ := d
    rw [List.pairwise_cons] at hs
    obtain ⟨hlt, hs⟩ := hs
    have hm : wf m := ⟨hs, fun c hc => hne c (List.mem_cons_of_mem _ hc)⟩
    have hb : b ≠ unlisted := hne (a, b) (by simp)
    unfold setByte
    split
    · rename_i hxa
      split
      · exact ⟨List.pairwise_cons.2 ⟨hlt, hs⟩, hne⟩
      · rename_i hv
        refine ⟨List.pairwise_cons.2 ⟨?_, List.pairwise_cons.2 ⟨hlt, hs⟩⟩, ?_⟩
        · intro c hc
          rcases List.mem_cons.1 hc with rfl | hc
          · exact hxa
          · exact Nat.lt_trans hxa (hlt c hc)
        · intro c hc
          rcases List.mem_cons.1 hc with rfl | hc
          · exact hv
          · exact hne c hc
    · split
      · rename_i hxa heq
        subst heq
        split
        · exact ⟨hs.sublist (List.dropWhile_sublist _),
            fun c hc => hm.2 c ((List.dropWhile_sublist _).mem hc)⟩
        · rename_i hv
          refine ⟨List.pairwise_cons.2 ⟨hlt, hs⟩, ?_⟩
          intro c hc
          rcases List.mem_cons.1 hc with rfl | hc
          · exact hv
          · exact hm.2 c hc
      · rename_i hxa hxne
        have ih' := ih hm.1 hm.2
        refine ⟨List.pairwise_cons.2 ⟨?_, ih'.1⟩, ?_⟩
        · intro c hc
          rcases mem_setByte hc with h' | rfl
          · exact hlt c h'
          · simp; omega
        · intro c hc
          rcases List.mem_cons.1 hc with rfl | hc
          · exact hb
          · exact ih'.2 c hc

theorem bounded_setByte {m : Memory} {size x : Nat} (h : ∀ c ∈ m, c.1 < size) (hx : x < size) (v : Byte) :
    ∀ c ∈ m.setByte x v, c.1 < size := by
  intro c hc
  rcases mem_setByte hc with h' | rfl
  · exact h c h'
  · exact hx

/-- Canonical memories with the same bytes are the same list. -/
theorem wf_ext {m m' : Memory} (h : m.wf) (h' : m'.wf) (hb : ∀ x, m.byte x = m'.byte x) : m = m' := by
  induction m generalizing m' with
  | nil =>
    cases m' with
    | nil => rfl
    | cons d m' =>
      obtain ⟨a, b⟩ := d
      have := hb a
      simp [byte] at this
      exact absurd this.symm (h'.2 (a, b) (by simp))
  | cons c m ih =>
    obtain ⟨a, b⟩ := c
    obtain ⟨hs, hne⟩ := h
    rw [List.pairwise_cons] at hs
    have hb0 : b ≠ unlisted := hne (a, b) (by simp)
    cases m' with
    | nil =>
      have := hb a
      simp [byte] at this
      exact absurd this hb0
    | cons d m' =>
      obtain ⟨a', b'⟩ := d
      obtain ⟨hs', hne'⟩ := h'
      rw [List.pairwise_cons] at hs'
      have hb0' : b' ≠ unlisted := hne' (a', b') (by simp)
      have haa : a = a' := by
        rcases Nat.lt_trichotomy a a' with hlt | heq | hgt
        · have := hb a
          simp [byte, hlt] at this
          exact absurd this hb0
        · exact heq
        · have := hb a'
          simp [byte, hgt] at this
          exact absurd this.symm hb0'
      subst haa
      have hbb : b = b' := by
        have := hb a
        simpa [byte] using this
      subst hbb
      congr 1
      refine ih ⟨hs.2, fun c hc => hne c (List.mem_cons_of_mem _ hc)⟩
        ⟨hs'.2, fun c hc => hne' c (List.mem_cons_of_mem _ hc)⟩ ?_
      intro x
      by_cases hx : x ≤ a
      · rw [byte_of_lt (fun c hc => Nat.lt_of_le_of_lt hx (hs.1 c hc)),
          byte_of_lt (fun c hc => Nat.lt_of_le_of_lt hx (hs'.1 c hc))]
      · have := hb x
        simpa [byte, show ¬ x < a by omega, show ¬ x = a by omega] using this

/-! ### Several bytes -/

theorem readBE_one (m : Memory) (a : Nat) : m.readBE a 1 = (m.byte a).toNat := by
  simp [readBE]

theorem readBE_two (m : Memory) (a : Nat) :
    m.readBE a 2 = (m.byte a).toNat * 256 + (m.byte (a + 1)).toNat := by
  simp [readBE]

theorem readBE_four (m : Memory) (a : Nat) :
    m.readBE a 4 = (((m.byte a).toNat * 256 + (m.byte (a + 1)).toNat) * 256 + (m.byte (a + 2)).toNat) * 256 +
      (m.byte (a + 3)).toNat := by
  simp [readBE]

theorem readBE_lt (m : Memory) (a n : Nat) : m.readBE a n < 256 ^ n := by
  induction n with
  | zero => simp [readBE]
  | succ n ih =>
    have := (m.byte (a + n)).isLt
    simp only [readBE, Nat.pow_succ]
    omega

theorem readBE_congr {m m' : Memory} {a n : Nat} (h : ∀ i < n, m.byte (a + i) = m'.byte (a + i)) :
    m.readBE a n = m'.readBE a n := by
  induction n with
  | zero => rfl
  | succ n ih => simp [readBE, ih (fun i hi => h i (by omega)), h n (by omega)]

theorem byte_writeBE_other (m : Memory) (a n v : Nat) {x : Nat} (h : x < a ∨ a + n ≤ x) :
    (m.writeBE a n v).byte x = m.byte x := by
  induction n generalizing v with
  | zero => rfl
  | succ n ih => rw [writeBE, byte_setByte_other _ _ (by omega), ih _ (by omega)]

/-- Byte `i` of an `n`-byte big-endian write (R63). -/
theorem byte_writeBE_inside (m : Memory) (a n v : Nat) {i : Nat} (h : i < n) :
    (m.writeBE a n v).byte (a + i) = BitVec.ofNat 8 (v / 256 ^ (n - 1 - i)) := by
  induction n generalizing v with
  | zero => omega
  | succ n ih =>
    rw [writeBE]
    by_cases hi : i = n
    · subst hi
      simp
    · rw [byte_setByte_other _ _ (by omega), ih _ (by omega)]
      rw [Nat.div_div_eq_div_mul, ← Nat.pow_succ']
      congr 3
      omega

/-- A read of what was just written gives it back, reduced to the width (R62, R63). -/
theorem readBE_writeBE_same (m : Memory) (a n v : Nat) : (m.writeBE a n v).readBE a n = v % 256 ^ n := by
  induction n generalizing v with
  | zero => simp [readBE, Nat.mod_one]
  | succ n ih =>
    have h1 : ((m.writeBE a n (v / 256)).setByte (a + n) (BitVec.ofNat 8 v)).readBE a n =
        (m.writeBE a n (v / 256)).readBE a n :=
      readBE_congr fun i hi => byte_setByte_other _ _ (by omega)
    simp only [writeBE, readBE, byte_setByte_same, h1, ih, BitVec.toNat_ofNat]
    have := Nat.mod_mul (x := v) (a := 256) (b := 256 ^ n)
    rw [show 256 ^ (n + 1) = 256 * 256 ^ n from Nat.pow_succ', this]
    omega

theorem readBE_writeBE_other (m : Memory) (a n v b k : Nat) (h : b + k ≤ a ∨ a + n ≤ b) :
    (m.writeBE a n v).readBE b k = m.readBE b k :=
  readBE_congr fun i hi => byte_writeBE_other m a n v (by omega)

theorem wf_writeBE {m : Memory} (h : m.wf) (a n v : Nat) : (m.writeBE a n v).wf := by
  induction n generalizing v with
  | zero => exact h
  | succ n ih => exact wf_setByte (ih _) _ _

theorem bounded_writeBE {m : Memory} {size : Nat} (h : ∀ c ∈ m, c.1 < size) (a n v : Nat) (hr : a + n ≤ size) :
    ∀ c ∈ m.writeBE a n v, c.1 < size := by
  induction n generalizing v with
  | zero => exact h
  | succ n ih => exact bounded_setByte (ih _ (by omega)) (by omega) _

theorem wf_setBytes {m : Memory} (h : m.wf) (a : Nat) (bs : List Byte) : (m.setBytes a bs).wf := by
  induction bs generalizing m a with
  | nil => exact h
  | cons b bs ih => exact ih (wf_setByte h a b) (a + 1)

theorem bounded_setBytes {m : Memory} {size : Nat} (h : ∀ c ∈ m, c.1 < size) (a : Nat) (bs : List Byte)
    (hr : a + bs.length ≤ size) : ∀ c ∈ m.setBytes a bs, c.1 < size := by
  induction bs generalizing m a with
  | nil => exact h
  | cons b bs ih =>
    simp at hr
    exact ih (bounded_setByte h (by omega) b) (a + 1) (by omega)

theorem byte_setBytes_other (m : Memory) (a : Nat) (bs : List Byte) {x : Nat} (h : x < a ∨ a + bs.length ≤ x) :
    (m.setBytes a bs).byte x = m.byte x := by
  induction bs generalizing m a with
  | nil => rfl
  | cons b bs ih =>
    simp at h
    rw [setBytes, ih _ _ (by omega), byte_setByte_other _ _ (by omega)]

theorem byte_setBytes_inside (m : Memory) (a : Nat) (bs : List Byte) {i : Nat} (h : i < bs.length) :
    (m.setBytes a bs).byte (a + i) = bs[i] := by
  induction bs generalizing m a i with
  | nil => simp at h
  | cons b bs ih =>
    cases i with
    | zero =>
      rw [setBytes, byte_setBytes_other _ _ _ (by omega)]
      simp
    | succ i =>
      simp at h
      have := ih (m.setByte a b) (a + 1) h
      simpa [setBytes, Nat.add_assoc, Nat.add_comm 1 i] using this

@[simp] theorem length_bytes (m : Memory) (a n : Nat) : (m.bytes a n).length = n := by
  induction n generalizing a with
  | zero => rfl
  | succ n ih => simp [bytes, ih]

theorem getElem_bytes (m : Memory) (a n i : Nat) (h : i < (m.bytes a n).length) :
    (m.bytes a n)[i] = m.byte (a + i) := by
  induction n generalizing a i with
  | zero => simp [bytes] at h
  | succ n ih =>
    cases i with
    | zero => simp [bytes]
    | succ i =>
      simp [bytes] at h
      simp [bytes, ih, Nat.add_assoc, Nat.add_comm 1 i]

/-- Writing back the bytes that stand there changes no byte (R331). -/
theorem byte_setBytes_bytes (m : Memory) (a n x : Nat) : (m.setBytes a (m.bytes a n)).byte x = m.byte x := by
  by_cases h : x < a ∨ a + n ≤ x
  · exact byte_setBytes_other m a _ (by simpa using h)
  · obtain ⟨i, rfl⟩ : ∃ i, x = a + i := ⟨x - a, by omega⟩
    rw [byte_setBytes_inside m a _ (by simp; omega), getElem_bytes]

theorem length_window_le (m : Memory) (size a n : Nat) : (m.window size a n).length ≤ n := by
  induction n generalizing a with
  | zero => simp [window]
  | succ n ih =>
    unfold window
    split
    · simpa using ih (a + 1)
    · simp

/-- The fetch window of `n` bytes is the bytes that stand there, where they all exist. -/
theorem window_eq_bytes (m : Memory) (size a n : Nat) (h : a + n ≤ size) : m.window size a n = m.bytes a n := by
  induction n generalizing a with
  | zero => rfl
  | succ n ih =>
    rw [window, if_pos (by omega), bytes, ih _ (by omega)]

theorem window_prefix (m : Memory) (size a n k : Nat) (hk : k ≤ n) (h : a + k ≤ size) :
    ∃ rest, m.window size a n = m.bytes a k ++ rest := by
  induction k generalizing a n with
  | zero => exact ⟨_, rfl⟩
  | succ k ih =>
    obtain ⟨n, rfl⟩ : ∃ n', n = n' + 1 := ⟨n - 1, by omega⟩
    obtain ⟨rest, hr⟩ := ih (a + 1) n (by omega) (by omega)
    exact ⟨rest, by rw [window, if_pos (by omega), bytes, hr]; rfl⟩

end Sys2Proof.Machine.Memory
end

