-- ==== Sys2Proof/Laws/State.lean ====
section
/-! SUPPORT. Each field after each update of the state: one lemma a pair, all by unfolding. And the updates of the
program counter and of the operand stack, brought into one order: `advance` first, `setStack` last. -/

namespace Sys2Proof.Machine.State

variable (s : State)

@[simp] theorem setPc_mem (t : BitVec 32) : (s.setPc t).mem = s.mem := rfl
@[simp] theorem setPc_memSize (t : BitVec 32) : (s.setPc t).memSize = s.memSize := rfl
@[simp] theorem setPc_story (t : BitVec 32) : (s.setPc t).story = s.story := rfl
@[simp] theorem setPc_cfg (t : BitVec 32) : (s.setPc t).cfg = s.cfg := rfl
@[simp] theorem setPc_top (t : BitVec 32) : (s.setPc t).top = { s.top with pc := t } := rfl
@[simp] theorem setPc_below (t : BitVec 32) : (s.setPc t).below = s.below := rfl
@[simp] theorem setPc_readText (t : BitVec 32) : (s.setPc t).readText = s.readText := rfl
@[simp] theorem setPc_readParse (t : BitVec 32) : (s.setPc t).readParse = s.readParse := rfl
@[simp] theorem setPc_rng (t : BitVec 32) : (s.setPc t).rng = s.rng := rfl
@[simp] theorem setPc_trace (t : BitVec 32) : (s.setPc t).trace = s.trace := rfl
@[simp] theorem setPc_run (t : BitVec 32) : (s.setPc t).run = s.run := rfl
@[simp] theorem setPc_params (t : BitVec 32) : (s.setPc t).params = s.params := rfl
@[simp] theorem setPc_inbox (t : BitVec 32) : (s.setPc t).inbox = s.inbox := rfl
@[simp] theorem setPc_draws (t : BitVec 32) : (s.setPc t).draws = s.draws := rfl
@[simp] theorem setPc_pc (t : BitVec 32) : (s.setPc t).pc = t := rfl
@[simp] theorem setPc_stack (t : BitVec 32) : (s.setPc t).stack = s.stack := rfl

@[simp] theorem advance_mem (n : Nat) : (s.advance n).mem = s.mem := rfl
@[simp] theorem advance_memSize (n : Nat) : (s.advance n).memSize = s.memSize := rfl
@[simp] theorem advance_story (n : Nat) : (s.advance n).story = s.story := rfl
@[simp] theorem advance_cfg (n : Nat) : (s.advance n).cfg = s.cfg := rfl
@[simp] theorem advance_top (n : Nat) : (s.advance n).top = { s.top with pc := s.pc + BitVec.ofNat 32 n } := rfl
@[simp] theorem advance_below (n : Nat) : (s.advance n).below = s.below := rfl
@[simp] theorem advance_readText (n : Nat) : (s.advance n).readText = s.readText := rfl
@[simp] theorem advance_readParse (n : Nat) : (s.advance n).readParse = s.readParse := rfl
@[simp] theorem advance_rng (n : Nat) : (s.advance n).rng = s.rng := rfl
@[simp] theorem advance_trace (n : Nat) : (s.advance n).trace = s.trace := rfl
@[simp] theorem advance_run (n : Nat) : (s.advance n).run = s.run := rfl
@[simp] theorem advance_params (n : Nat) : (s.advance n).params = s.params := rfl
@[simp] theorem advance_inbox (n : Nat) : (s.advance n).inbox = s.inbox := rfl
@[simp] theorem advance_draws (n : Nat) : (s.advance n).draws = s.draws := rfl
@[simp] theorem advance_pc (n : Nat) : (s.advance n).pc = s.pc + BitVec.ofNat 32 n := rfl
@[simp] theorem advance_stack (n : Nat) : (s.advance n).stack = s.stack := rfl

@[simp] theorem setStack_mem (st : List Word) : (s.setStack st).mem = s.mem := rfl
@[simp] theorem setStack_memSize (st : List Word) : (s.setStack st).memSize = s.memSize := rfl
@[simp] theorem setStack_story (st : List Word) : (s.setStack st).story = s.story := rfl
@[simp] theorem setStack_cfg (st : List Word) : (s.setStack st).cfg = s.cfg := rfl
@[simp] theorem setStack_top (st : List Word) : (s.setStack st).top = { s.top with stack := st } := rfl
@[simp] theorem setStack_below (st : List Word) : (s.setStack st).below = s.below := rfl
@[simp] theorem setStack_readText (st : List Word) : (s.setStack st).readText = s.readText := rfl
@[simp] theorem setStack_readParse (st : List Word) : (s.setStack st).readParse = s.readParse := rfl
@[simp] theorem setStack_rng (st : List Word) : (s.setStack st).rng = s.rng := rfl
@[simp] theorem setStack_trace (st : List Word) : (s.setStack st).trace = s.trace := rfl
@[simp] theorem setStack_run (st : List Word) : (s.setStack st).run = s.run := rfl
@[simp] theorem setStack_params (st : List Word) : (s.setStack st).params = s.params := rfl
@[simp] theorem setStack_inbox (st : List Word) : (s.setStack st).inbox = s.inbox := rfl
@[simp] theorem setStack_draws (st : List Word) : (s.setStack st).draws = s.draws := rfl
@[simp] theorem setStack_pc (st : List Word) : (s.setStack st).pc = s.pc := rfl
@[simp] theorem setStack_stack (st : List Word) : (s.setStack st).stack = st := rfl

@[simp] theorem setLocal_mem (n : Nat) (v : Word) : (s.setLocal n v).mem = s.mem := rfl
@[simp] theorem setLocal_memSize (n : Nat) (v : Word) : (s.setLocal n v).memSize = s.memSize := rfl
@[simp] theorem setLocal_story (n : Nat) (v : Word) : (s.setLocal n v).story = s.story := rfl
@[simp] theorem setLocal_cfg (n : Nat) (v : Word) : (s.setLocal n v).cfg = s.cfg := rfl
@[simp] theorem setLocal_top (n : Nat) (v : Word) : (s.setLocal n v).top = { s.top with locals := s.top.locals.setIfInBounds (n - 1) v } := rfl
@[simp] theorem setLocal_below (n : Nat) (v : Word) : (s.setLocal n v).below = s.below := rfl
@[simp] theorem setLocal_readText (n : Nat) (v : Word) : (s.setLocal n v).readText = s.readText := rfl
@[simp] theorem setLocal_readParse (n : Nat) (v : Word) : (s.setLocal n v).readParse = s.readParse := rfl
@[simp] theorem setLocal_rng (n : Nat) (v : Word) : (s.setLocal n v).rng = s.rng := rfl
@[simp] theorem setLocal_trace (n : Nat) (v : Word) : (s.setLocal n v).trace = s.trace := rfl
@[simp] theorem setLocal_run (n : Nat) (v : Word) : (s.setLocal n v).run = s.run := rfl
@[simp] theorem setLocal_params (n : Nat) (v : Word) : (s.setLocal n v).params = s.params := rfl
@[simp] theorem setLocal_inbox (n : Nat) (v : Word) : (s.setLocal n v).inbox = s.inbox := rfl
@[simp] theorem setLocal_draws (n : Nat) (v : Word) : (s.setLocal n v).draws = s.draws := rfl
@[simp] theorem setLocal_pc (n : Nat) (v : Word) : (s.setLocal n v).pc = s.pc := rfl
@[simp] theorem setLocal_stack (n : Nat) (v : Word) : (s.setLocal n v).stack = s.stack := rfl

@[simp] theorem writeMem_mem (a n v : Nat) : (s.writeMem a n v).mem = s.mem.writeBE a n v := rfl
@[simp] theorem writeMem_memSize (a n v : Nat) : (s.writeMem a n v).memSize = s.memSize := rfl
@[simp] theorem writeMem_story (a n v : Nat) : (s.writeMem a n v).story = s.story := rfl
@[simp] theorem writeMem_cfg (a n v : Nat) : (s.writeMem a n v).cfg = s.cfg := rfl
@[simp] theorem writeMem_top (a n v : Nat) : (s.writeMem a n v).top = s.top := rfl
@[simp] theorem writeMem_below (a n v : Nat) : (s.writeMem a n v).below = s.below := rfl
@[simp] theorem writeMem_readText (a n v : Nat) : (s.writeMem a n v).readText = s.readText := rfl
@[simp] theorem writeMem_readParse (a n v : Nat) : (s.writeMem a n v).readParse = s.readParse := rfl
@[simp] theorem writeMem_rng (a n v : Nat) : (s.writeMem a n v).rng = s.rng := rfl
@[simp] theorem writeMem_trace (a n v : Nat) : (s.writeMem a n v).trace = s.trace := rfl
@[simp] theorem writeMem_run (a n v : Nat) : (s.writeMem a n v).run = s.run := rfl
@[simp] theorem writeMem_params (a n v : Nat) : (s.writeMem a n v).params = s.params := rfl
@[simp] theorem writeMem_inbox (a n v : Nat) : (s.writeMem a n v).inbox = s.inbox := rfl
@[simp] theorem writeMem_draws (a n v : Nat) : (s.writeMem a n v).draws = s.draws := rfl
@[simp] theorem writeMem_pc (a n v : Nat) : (s.writeMem a n v).pc = s.pc := rfl
@[simp] theorem writeMem_stack (a n v : Nat) : (s.writeMem a n v).stack = s.stack := rfl

@[simp] theorem pushFrame_mem (f : Frame) : (s.pushFrame f).mem = s.mem := rfl
@[simp] theorem pushFrame_memSize (f : Frame) : (s.pushFrame f).memSize = s.memSize := rfl
@[simp] theorem pushFrame_story (f : Frame) : (s.pushFrame f).story = s.story := rfl
@[simp] theorem pushFrame_cfg (f : Frame) : (s.pushFrame f).cfg = s.cfg := rfl
@[simp] theorem pushFrame_top (f : Frame) : (s.pushFrame f).top = f := rfl
@[simp] theorem pushFrame_below (f : Frame) : (s.pushFrame f).below = s.top :: s.below := rfl
@[simp] theorem pushFrame_readText (f : Frame) : (s.pushFrame f).readText = s.readText := rfl
@[simp] theorem pushFrame_readParse (f : Frame) : (s.pushFrame f).readParse = s.readParse := rfl
@[simp] theorem pushFrame_rng (f : Frame) : (s.pushFrame f).rng = s.rng := rfl
@[simp] theorem pushFrame_trace (f : Frame) : (s.pushFrame f).trace = s.trace := rfl
@[simp] theorem pushFrame_run (f : Frame) : (s.pushFrame f).run = s.run := rfl
@[simp] theorem pushFrame_params (f : Frame) : (s.pushFrame f).params = s.params := rfl
@[simp] theorem pushFrame_inbox (f : Frame) : (s.pushFrame f).inbox = s.inbox := rfl
@[simp] theorem pushFrame_draws (f : Frame) : (s.pushFrame f).draws = s.draws := rfl
@[simp] theorem pushFrame_pc (f : Frame) : (s.pushFrame f).pc = f.pc := rfl
@[simp] theorem pushFrame_stack (f : Frame) : (s.pushFrame f).stack = f.stack := rfl

@[simp] theorem emit_mem (r : Request) : (s.emit r).mem = s.mem := rfl
@[simp] theorem emit_memSize (r : Request) : (s.emit r).memSize = s.memSize := rfl
@[simp] theorem emit_story (r : Request) : (s.emit r).story = s.story := rfl
@[simp] theorem emit_cfg (r : Request) : (s.emit r).cfg = s.cfg := rfl
@[simp] theorem emit_top (r : Request) : (s.emit r).top = s.top := rfl
@[simp] theorem emit_below (r : Request) : (s.emit r).below = s.below := rfl
@[simp] theorem emit_readText (r : Request) : (s.emit r).readText = s.readText := rfl
@[simp] theorem emit_readParse (r : Request) : (s.emit r).readParse = s.readParse := rfl
@[simp] theorem emit_rng (r : Request) : (s.emit r).rng = s.rng := rfl
@[simp] theorem emit_trace (r : Request) : (s.emit r).trace = s.trace ++ [r] := rfl
@[simp] theorem emit_run (r : Request) : (s.emit r).run = s.run := rfl
@[simp] theorem emit_params (r : Request) : (s.emit r).params = s.params := rfl
@[simp] theorem emit_inbox (r : Request) : (s.emit r).inbox = s.inbox := rfl
@[simp] theorem emit_draws (r : Request) : (s.emit r).draws = s.draws := rfl
@[simp] theorem emit_pc (r : Request) : (s.emit r).pc = s.pc := rfl
@[simp] theorem emit_stack (r : Request) : (s.emit r).stack = s.stack := rfl

@[simp] theorem setRun_mem (r : RunState) : (s.setRun r).mem = s.mem := rfl
@[simp] theorem setRun_memSize (r : RunState) : (s.setRun r).memSize = s.memSize := rfl
@[simp] theorem setRun_story (r : RunState) : (s.setRun r).story = s.story := rfl
@[simp] theorem setRun_cfg (r : RunState) : (s.setRun r).cfg = s.cfg := rfl
@[simp] theorem setRun_top (r : RunState) : (s.setRun r).top = s.top := rfl
@[simp] theorem setRun_below (r : RunState) : (s.setRun r).below = s.below := rfl
@[simp] theorem setRun_readText (r : RunState) : (s.setRun r).readText = s.readText := rfl
@[simp] theorem setRun_readParse (r : RunState) : (s.setRun r).readParse = s.readParse := rfl
@[simp] theorem setRun_rng (r : RunState) : (s.setRun r).rng = s.rng := rfl
@[simp] theorem setRun_trace (r : RunState) : (s.setRun r).trace = s.trace := rfl
@[simp] theorem setRun_run (r : RunState) : (s.setRun r).run = r := rfl
@[simp] theorem setRun_params (r : RunState) : (s.setRun r).params = s.params := rfl
@[simp] theorem setRun_inbox (r : RunState) : (s.setRun r).inbox = s.inbox := rfl
@[simp] theorem setRun_draws (r : RunState) : (s.setRun r).draws = s.draws := rfl
@[simp] theorem setRun_pc (r : RunState) : (s.setRun r).pc = s.pc := rfl
@[simp] theorem setRun_stack (r : RunState) : (s.setRun r).stack = s.stack := rfl

@[simp] theorem reseed_mem (k : Int) : (s.reseed k).mem = s.mem := rfl
@[simp] theorem reseed_memSize (k : Int) : (s.reseed k).memSize = s.memSize := rfl
@[simp] theorem reseed_story (k : Int) : (s.reseed k).story = s.story := rfl
@[simp] theorem reseed_cfg (k : Int) : (s.reseed k).cfg = s.cfg := rfl
@[simp] theorem reseed_top (k : Int) : (s.reseed k).top = s.top := rfl
@[simp] theorem reseed_below (k : Int) : (s.reseed k).below = s.below := rfl
@[simp] theorem reseed_readText (k : Int) : (s.reseed k).readText = s.readText := rfl
@[simp] theorem reseed_readParse (k : Int) : (s.reseed k).readParse = s.readParse := rfl
@[simp] theorem reseed_rng (k : Int) : (s.reseed k).rng = Config.rngReseeded s.rng s.draws k := rfl
@[simp] theorem reseed_trace (k : Int) : (s.reseed k).trace = s.trace := rfl
@[simp] theorem reseed_run (k : Int) : (s.reseed k).run = s.run := rfl
@[simp] theorem reseed_params (k : Int) : (s.reseed k).params = s.params := rfl
@[simp] theorem reseed_inbox (k : Int) : (s.reseed k).inbox = s.inbox := rfl
@[simp] theorem reseed_draws (k : Int) : (s.reseed k).draws = s.draws + 1 := rfl
@[simp] theorem reseed_pc (k : Int) : (s.reseed k).pc = s.pc := rfl
@[simp] theorem reseed_stack (k : Int) : (s.reseed k).stack = s.stack := rfl

@[simp] theorem takeFatal_run (c : Cause) : (takeFatal c s).run = .fatal c := rfl

theorem takeFatal_eq (c : Cause) : takeFatal c s = s.setRun (.fatal c) := rfl

@[simp] theorem advance_zero : s.advance 0 = s := by
  simp [advance, setPc, pc]

@[simp] theorem advance_advance (m n : Nat) : (s.advance m).advance n = s.advance (m + n) := by
  simp [advance, setPc, pc, BitVec.ofNat_add, BitVec.add_assoc]

@[simp] theorem setStack_advance (st : List Word) (n : Nat) :
    (s.setStack st).advance n = (s.advance n).setStack st := rfl

@[simp] theorem setStack_setPc (st : List Word) (t : BitVec 32) :
    (s.setStack st).setPc t = (s.setPc t).setStack st := rfl

@[simp] theorem setStack_setStack (st st' : List Word) : (s.setStack st).setStack st' = s.setStack st' := rfl

@[simp] theorem setPc_setPc (t t' : BitVec 32) : (s.setPc t).setPc t' = s.setPc t' := rfl

@[simp] theorem setStack_stack_self : s.setStack s.stack = s := rfl

@[simp] theorem setPc_pc_self : s.setPc s.pc = s := rfl

end Sys2Proof.Machine.State
end

