-- ==== Sys2Proof/Laws/Ops.lean ====
section
/-! SUPPORT. How the operations of the machine run: the equations of the operation type, what each shared
operation answers, and its agreement with the state functions of `Sys2Proof/Safety.lean`. -/

namespace Sys2Proof.Machine

variable {α β : Type}

/-! ### The operation type -/

@[simp] theorem M.pure_apply (a : α) (s : State) : (pure a : M α) s = .ok a s := rfl

@[simp] theorem M.bind_apply (m : M α) (f : α → M β) (s : State) :
    (m >>= f) s = match m s with
      | .ok a s' => f a s'
      | .error e s' => .error e s' := by
  show EStateM.bind m f s = _
  unfold EStateM.bind
  split <;> simp_all

@[simp] theorem M.map_apply (m : M α) (f : α → β) (s : State) :
    (f <$> m) s = match m s with
      | .ok a s' => .ok (f a) s'
      | .error e s' => .error e s' := by
  show EStateM.map f m s = _
  unfold EStateM.map
  split <;> simp_all

theorem M.bind_ok {m : M α} {s s' : State} {a : α} (h : m s = .ok a s') (f : α → M β) :
    (m >>= f) s = f a s' := by simp [h]

theorem M.bind_error {m : M α} {s s' : State} {e : Stop} (h : m s = .error e s') (f : α → M β) :
    (m >>= f) s = .error e s' := by simp [h]

@[simp] theorem raise_apply (c : Cause) (s : State) : (raise c : M α) s = .error (.fatal c) s := rfl
@[simp] theorem noResult_apply (f : Fault) (s : State) : (noResult f : M α) s = .error (.noResult f) s := rfl
@[simp] theorem gets_apply (f : State → α) (s : State) : gets f s = .ok (f s) s := rfl
@[simp] theorem update_apply (f : State → State) (s : State) : update f s = .ok () (f s) := rfl
@[simp] theorem advance_apply (n : Nat) (s : State) : advance n s = .ok () (s.advance n) := rfl
@[simp] theorem request_apply (r : Request) (s : State) : request r s = .ok () (s.emit r) := rfl

theorem finish_ok {m : M Unit} {s s' : State} (h : m s = .ok () s') : finish m s = .next s' := by
  simp [finish, h]

theorem finish_fatal {m : M Unit} {s s' : State} {c : Cause} (h : m s = .error (.fatal c) s') :
    finish m s = .next (takeFatal c s') := by
  simp [finish, h]

/-- An answer that is a next state comes from a run to the end or from a fatal. -/
theorem finish_next {m : M Unit} {s u : State} (h : finish m s = .next u) :
    m s = .ok () u ∨ ∃ c s', m s = .error (.fatal c) s' ∧ u = takeFatal c s' := by
  unfold finish at h
  split at h
  · rename_i h'; simp at h; exact .inl (h ▸ h')
  · rename_i h'; simp at h; exact .inr ⟨_, _, h', h.symm⟩
  · simp at h

/-! ### Memory -/

theorem checkRange_ok {s : State} {a n : Nat} (h : s.inRange a n) : checkRange a n s = .ok () s := by
  simp [checkRange, h]

theorem checkRange_fatal {s : State} {a n : Nat} (h : ¬ s.inRange a n) :
    checkRange a n s = .error (.fatal (.memRange a)) s := by
  simp [checkRange, h]

theorem memRead_ok {s : State} {a n : Nat} (h : s.inRange a n) : memRead a n s = .ok (s.mem.readBE a n) s := by
  simp [memRead, checkRange_ok h]

theorem memRead_fatal {s : State} {a n : Nat} (h : ¬ s.inRange a n) :
    memRead a n s = .error (.fatal (.memRange a)) s := by
  simp [memRead, checkRange_fatal h]

theorem memByte_ok {s : State} {a : Nat} (h : s.inRange a 1) : memByte a s = .ok (s.mem.byte a) s := by
  simp [memByte, memRead_ok h, Memory.readBE_one]

theorem memByte_fatal {s : State} {a : Nat} (h : ¬ s.inRange a 1) :
    memByte a s = .error (.fatal (.memRange a)) s := by
  simp [memByte, memRead_fatal h]

theorem memWord_ok {s : State} {a : Nat} (h : s.inRange a 2) : memWord a s = .ok (s.wordAt a) s := by
  simp [memWord, memRead_ok h, State.wordAt]

theorem memWord_fatal {s : State} {a : Nat} (h : ¬ s.inRange a 2) :
    memWord a s = .error (.fatal (.memRange a)) s := by
  simp [memWord, memRead_fatal h]

theorem memWrite_ok {s : State} {a n : Nat} (h : s.inRange a n) (v : Nat) :
    memWrite a n v s = .ok () (s.writeMem a n v) := by
  simp [memWrite, checkRange_ok h]

theorem memWrite_fatal {s : State} {a n : Nat} (h : ¬ s.inRange a n) (v : Nat) :
    memWrite a n v s = .error (.fatal (.memRange a)) s := by
  simp [memWrite, checkRange_fatal h]

/-- A word is its two bytes, the most significant at the lower address (R64). -/
theorem State.wordAt_eq (s : State) (a : Nat) : s.wordAt a = s.mem.byte a ++ s.mem.byte (a + 1) := by
  apply BitVec.eq_of_toNat_eq
  have h1 := (s.mem.byte a).isLt
  have h2 := (s.mem.byte (a + 1)).isLt
  rw [State.wordAt, Memory.readBE_two, BitVec.toNat_ofNat, BitVec.toNat_append, Nat.shiftLeft_eq,
    Nat.mul_comm _ (2 ^ 8), ← Nat.two_pow_add_eq_or_of_lt h2]
  omega

theorem State.wordAt_toNat (s : State) (a : Nat) : (s.wordAt a).toNat = s.mem.readBE a 2 := by
  have := s.mem.readBE_lt a 2
  rw [State.wordAt, BitVec.toNat_ofNat, Nat.mod_eq_of_lt]
  simpa using this

/-! ### The instruction stream -/

theorem fetch8_ok {s s' : State} {b : Byte} (h : s.fetched = some (b, s')) : fetch8 s = .ok b s' := by
  unfold State.fetched at h
  split at h
  · rename_i hr
    simp at h
    obtain ⟨rfl, rfl⟩ := h
    simp [fetch8, memByte_ok hr]
  · simp at h

theorem fetch8_fatal {s : State} (h : s.fetched = none) :
    fetch8 s = .error (.fatal (.memRange s.pc.toNat)) s := by
  unfold State.fetched at h
  split at h
  · simp at h
  · rename_i hr
    simp [fetch8, memByte_fatal hr]

theorem State.fetched_some {s s' : State} {b : Byte} (h : s.fetched = some (b, s')) :
    s.inRange s.pc.toNat 1 ∧ b = s.mem.byte s.pc.toNat ∧ s' = s.advance 1 := by
  unfold State.fetched at h
  split at h
  · rename_i hr
    simp at h
    exact ⟨hr, h.1.symm, h.2.symm⟩
  · simp at h

/-! ### Variables -/

theorem push_ok {s : State} {v : Word} (h : withinLimit (s.stack.length + 1) s.params.stackDepth = true) :
    push v s = .ok () (s.setStack (v :: s.stack)) := by
  simp [push, h]

theorem push_fatal {s : State} {v : Word} (h : withinLimit (s.stack.length + 1) s.params.stackDepth = false) :
    push v s = .error (.fatal .stackOverflow) s := by
  simp [push, h]

theorem pop_ok {s : State} {v : Word} {rest : List Word} (h : s.stack = v :: rest) :
    pop s = .ok v (s.setStack rest) := by
  simp [pop, h]

theorem pop_fatal {s : State} (h : s.stack = []) : pop s = .error (.fatal .stackUnderflow) s := by
  simp [pop, h]

theorem peekTop_ok {s : State} {v : Word} {rest : List Word} (h : s.stack = v :: rest) :
    peekTop s = .ok v s := by
  simp [peekTop, h]

theorem peekTop_fatal {s : State} (h : s.stack = []) : peekTop s = .error (.fatal .stackUnderflow) s := by
  simp [peekTop, h]

theorem replaceTop_ok {s : State} {w : Word} {rest : List Word} (v : Word) (h : s.stack = w :: rest) :
    replaceTop v s = .ok () (s.setStack (v :: rest)) := by
  simp [replaceTop, h]

theorem replaceTop_fatal {s : State} (v : Word) (h : s.stack = []) :
    replaceTop v s = .error (.fatal .stackUnderflow) s := by
  simp [replaceTop, h]

/-- A fatal of an access to a variable, to the stream or to the stack. -/
def accessFault (c : Cause) : Prop := c = .stackUnderflow ∨ c = .stackOverflow ∨ ∃ a, c = .memRange a

/-- A variable operand read: the value and the stack after. -/
theorem readVar_ok {s : State} {n : Byte} {v : Word} {st : List Word}
    (h : s.operandValue s.stack (.var n) = some (v, st)) : readVar n s = .ok v (s.setStack st) := by
  unfold State.operandValue at h
  simp only at h
  unfold readVar
  by_cases h0 : n.toNat = 0
  · simp only [h0, if_true] at h ⊢
    split at h
    · simp at h
    · rename_i w rest hst
      simp at h
      obtain ⟨rfl, rfl⟩ := h
      exact pop_ok hst
  · simp only [h0, if_false] at h ⊢
    by_cases h1 : n.toNat ≤ 15
    · simp only [h1, if_true] at h ⊢
      simp at h
      obtain ⟨rfl, rfl⟩ := h
      simp
    · simp only [h1, if_false] at h ⊢
      split at h
      · rename_i hr
        simp at h
        obtain ⟨rfl, rfl⟩ := h
        simp [memWord_ok hr]
      · simp at h

theorem readVar_fatal {s : State} {n : Byte} (h : s.operandValue s.stack (.var n) = none) :
    ∃ c, readVar n s = .error (.fatal c) s ∧ (c = .stackUnderflow ∨ ∃ a, c = .memRange a) := by
  unfold State.operandValue at h
  simp only at h
  unfold readVar
  by_cases h0 : n.toNat = 0
  · simp only [h0, if_true] at h ⊢
    split at h
    · rename_i hst
      exact ⟨_, pop_fatal hst, .inl rfl⟩
    · simp at h
  · simp only [h0, if_false] at h ⊢
    by_cases h1 : n.toNat ≤ 15
    · simp [h1] at h
    · simp only [h1, if_false] at h ⊢
      split at h
      · simp at h
      · rename_i hr
        exact ⟨_, by simp [memWord_fatal hr]; rfl, .inr ⟨_, rfl⟩⟩

/-- A write of a variable is `State.put` (R24). -/
theorem writeVar_ok {s s' : State} {n : Byte} {v : Word} (h : s.put n v = some s') :
    writeVar n v s = .ok () s' := by
  unfold State.put at h
  unfold writeVar
  by_cases h0 : n.toNat = 0
  · simp only [h0, if_true] at h ⊢
    split at h
    · rename_i hl
      simp at h
      subst h
      exact push_ok hl
    · simp at h
  · simp only [h0, if_false] at h ⊢
    by_cases h1 : n.toNat ≤ 15
    · simp only [h1, if_true] at h ⊢
      simp at h
      subst h
      rfl
    · simp only [h1, if_false] at h ⊢
      split at h
      · rename_i hr
        simp at h
        subst h
        simp [memWrite_ok hr]
      · simp at h

theorem writeVar_fatal {s : State} {n : Byte} {v : Word} (h : s.put n v = none) :
    ∃ c, writeVar n v s = .error (.fatal c) s ∧ (c = .stackOverflow ∨ ∃ a, c = .memRange a) := by
  unfold State.put at h
  unfold writeVar
  by_cases h0 : n.toNat = 0
  · simp only [h0, if_true] at h ⊢
    split at h
    · simp at h
    · rename_i hl
      exact ⟨_, push_fatal (by simpa using hl), .inl rfl⟩
  · simp only [h0, if_false] at h ⊢
    by_cases h1 : n.toNat ≤ 15
    · simp [h1] at h
    · simp only [h1, if_false] at h ⊢
      split at h
      · simp at h
      · rename_i hr
        exact ⟨_, by simp [memWrite_fatal hr]; rfl, .inr ⟨_, rfl⟩⟩

theorem readVarInPlace_ok {s : State} {n : Byte} {v : Word} (h : s.getInPlace n = some v) :
    readVarInPlace n s = .ok v s := by
  unfold State.getInPlace at h
  unfold readVarInPlace
  by_cases h0 : n.toNat = 0
  · simp only [h0, if_true] at h ⊢
    cases hst : s.stack with
    | nil => simp [hst] at h
    | cons w rest =>
      simp [hst] at h
      subst h
      exact peekTop_ok hst
  · simp only [h0, if_false] at h ⊢
    have : s.operandValue s.stack (.var n) = some (v, s.stack) := by
      unfold State.operandValue
      simp only [h0, if_false]
      split
      · rename_i h1; simp [h1] at h; simp [h]
      · rename_i h1
        simp only [h1, if_false] at h
        split at h
        · rename_i hr; simp at h; simp [hr, h]
        · simp at h
    simpa using readVar_ok this

theorem readVarInPlace_fatal {s : State} {n : Byte} (h : s.getInPlace n = none) :
    ∃ c, readVarInPlace n s = .error (.fatal c) s ∧ (c = .stackUnderflow ∨ ∃ a, c = .memRange a) := by
  unfold State.getInPlace at h
  unfold readVarInPlace
  by_cases h0 : n.toNat = 0
  · simp only [h0, if_true] at h ⊢
    have hst : s.stack = [] := by simpa using h
    exact ⟨_, peekTop_fatal hst, .inl rfl⟩
  · simp only [h0, if_false] at h ⊢
    refine readVar_fatal ?_
    unfold State.operandValue
    simp only [h0, if_false]
    split
    · rename_i h1; simp [h1] at h
    · rename_i h1
      simp only [h1, if_false] at h
      split at h
      · simp at h
      · rename_i hr; simp [hr]

theorem writeVarInPlace_ok {s s' : State} {n : Byte} {v : Word} (h : s.putInPlace n v = some s') :
    writeVarInPlace n v s = .ok () s' := by
  unfold State.putInPlace at h
  unfold writeVarInPlace
  by_cases h0 : n.toNat = 0
  · simp only [h0, if_true] at h ⊢
    split at h
    · simp at h
    · rename_i w rest hst
      simp at h
      subst h
      exact replaceTop_ok v hst
  · simp only [h0, if_false] at h ⊢
    exact writeVar_ok h

theorem writeVarInPlace_fatal {s : State} {n : Byte} {v : Word} (h : s.putInPlace n v = none) :
    ∃ c, writeVarInPlace n v s = .error (.fatal c) s ∧ accessFault c := by
  unfold State.putInPlace at h
  unfold writeVarInPlace
  by_cases h0 : n.toNat = 0
  · simp only [h0, if_true] at h ⊢
    split at h
    · rename_i hst
      exact ⟨_, replaceTop_fatal v hst, .inl rfl⟩
    · simp at h
  · simp only [h0, if_false] at h ⊢
    obtain ⟨c, hc, h'⟩ := writeVar_fatal h
    exact ⟨c, hc, .inr h'⟩

/-! ### Store, return, branch -/

theorem store_ok {s s' : State} {v : Word} (h : s.stored v = some s') : store v s = .ok () s' := by
  unfold State.stored at h
  split at h
  · simp at h
  · rename_i n s1 hf
    simp [store, fetch8_ok hf, writeVar_ok h]

/-- A store that is fatal has at most consumed the store byte. -/
theorem store_fatal {s : State} {v : Word} (h : s.stored v = none) :
    ∃ c s', store v s = .error (.fatal c) s' ∧ (s' = s ∨ s' = s.advance 1) := by
  unfold State.stored at h
  split at h
  · rename_i hf
    exact ⟨_, s, by simp [store, fetch8_fatal hf]; rfl, .inl rfl⟩
  · rename_i n s1 hf
    obtain ⟨c, hc, -⟩ := writeVar_fatal h
    obtain ⟨-, -, rfl⟩ := State.fetched_some hf
    exact ⟨c, _, by simp [store, fetch8_ok hf, hc], .inr rfl⟩

theorem ret_ok {s s' : State} {v : Word} (h : s.returned v = some s') : ret v s = .ok () s' := by
  unfold State.returned at h
  split at h
  · simp at h
  · rename_i caller rest hb
    simp only at h
    by_cases hr : s.top.storeResult = true
    · simp only [hr, if_true] at h
      simp [ret, popFrame, hb, hr, store_ok h]
    · simp only [hr] at h
      simp at h
      subst h
      simp [ret, popFrame, hb, hr]

/-- A return is fatal in the bottom frame, or in the caller's frame while its store byte is applied. -/
theorem ret_fatal {s : State} {v : Word} (h : s.returned v = none) :
    ∃ c s', ret v s = .error (.fatal c) s' ∧
      (s.below = [] ∧ c = .returnFromMain ∧ s' = s ∨
        ∃ caller rest, s.below = caller :: rest ∧ s.top.storeResult = true ∧
          (s' = { s with top := caller, below := rest } ∨
            s' = State.advance { s with top := caller, below := rest } 1)) := by
  unfold State.returned at h
  split at h
  · rename_i hb
    exact ⟨_, s, by simp [ret, popFrame, hb], .inl ⟨hb, rfl, rfl⟩⟩
  · rename_i caller rest hb
    simp only at h
    by_cases hr : s.top.storeResult = true
    · simp only [hr, if_true] at h
      obtain ⟨c, s', hc, h'⟩ := store_fatal h
      exact ⟨c, s', by simp [ret, popFrame, hb, hr, hc], .inr ⟨caller, rest, hb, hr, h'⟩⟩
    · simp [hr] at h

theorem readBranchField_ok {s s' : State} {f : BranchField} (h : s.fieldFetched = some (f, s')) :
    readBranchField s = .ok f s' := by
  unfold State.fieldFetched at h
  split at h
  · simp at h
  · rename_i b1 s1 hf
    split at h
    · rename_i hs
      simp at h
      obtain ⟨rfl, rfl⟩ := h
      simp [readBranchField, fetch8_ok hf, hs]
    · rename_i hs
      split at h
      · simp at h
      · rename_i b2 s2 hf2
        simp at h
        obtain ⟨rfl, rfl⟩ := h
        simp [readBranchField, fetch8_ok hf, hs, fetch8_ok hf2]

/-- A branch field that is not whole has moved the program counter at most one byte. -/
theorem readBranchField_fatal {s : State} (h : s.fieldFetched = none) :
    ∃ c s', readBranchField s = .error (.fatal c) s' ∧ (s' = s ∨ s' = s.advance 1) := by
  unfold State.fieldFetched at h
  split at h
  · rename_i hf
    exact ⟨_, s, by simp [readBranchField, fetch8_fatal hf]; rfl, .inl rfl⟩
  · rename_i b1 s1 hf
    obtain ⟨-, -, rfl⟩ := State.fetched_some hf
    split at h
    · simp at h
    · rename_i hs
      split at h
      · rename_i hf2
        exact ⟨_, _, by simp [readBranchField, fetch8_ok hf, hs, fetch8_fatal hf2]; rfl, .inr rfl⟩
      · simp at h

theorem jumpTarget_eq (pc : BitVec 32) (offset : Int) :
    jumpTarget pc offset = pc + BitVec.ofInt 32 (offset - 2) := by
  rw [jumpTarget, Int.add_sub_assoc, BitVec.ofInt_add]
  congr 1
  simp

theorem doBranch_ok {s s' : State} {c : Bool} {f : BranchField} (h : s.branchedBy c f = some s') :
    doBranch c f s = .ok () s' := by
  unfold State.branchedBy at h
  unfold doBranch
  by_cases hc : c = f.sense
  · simp only [hc, ne_eq, not_true_eq_false, if_false, if_true] at h ⊢
    split
    · rename_i h0; simp only [h0, if_true] at h; exact ret_ok h
    · rename_i h0
      simp only [h0, if_false] at h
      split
      · rename_i h1; simp only [h1, if_true] at h; exact ret_ok h
      · rename_i h1
        simp [h1] at h
        simp [jumpTarget_eq, h]
  · simp [hc] at h ⊢
    exact h

theorem doBranch_fatal {s : State} {c : Bool} {f : BranchField} (h : s.branchedBy c f = none) :
    ∃ v, s.returned v = none ∧ doBranch c f s = ret v s := by
  unfold State.branchedBy at h
  unfold doBranch
  by_cases hc : c = f.sense
  · simp only [hc, ne_eq, not_true_eq_false, if_false, if_true] at h ⊢
    split
    · rename_i h0; simp only [h0, if_true] at h; exact ⟨_, h, rfl⟩
    · rename_i h0
      simp only [h0, if_false] at h
      split
      · rename_i h1; simp only [h1, if_true] at h; exact ⟨_, h, rfl⟩
      · rename_i h1; simp [h1] at h
  · simp [hc] at h

theorem branch_ok {s s' : State} {c : Bool} (h : s.branched c = some s') : branch c s = .ok () s' := by
  unfold State.branched at h
  split at h
  · simp at h
  · rename_i f s1 hf
    simp [branch, readBranchField_ok hf, doBranch_ok h]

theorem storeBranch_ok {s s' : State} {v : Word} {c : Bool} (h : s.storeBranched v c = some s') :
    storeBranch v c s = .ok () s' := by
  unfold State.storeBranched at h
  unfold storeBranch
  cases ho : s.params.fieldOrder with
  | branchThenStore =>
    simp only [ho] at h
    split at h
    · simp at h
    · rename_i f s1 hf
      split at h
      · simp at h
      · rename_i s2 hst
        simp [ho, readBranchField_ok hf, store_ok hst, doBranch_ok h]
  | storeThenBranch =>
    simp only [ho] at h
    split at h
    · simp at h
    · rename_i s1 hst
      simp [ho, store_ok hst, branch_ok h]

/-! ### Replies -/

theorem takeKey_ok (s : State) :
    ∃ k s', takeKey s = .ok k s' ∧
      ((∃ rest, s.inbox.keys = k :: rest ∧ s' = { s with inbox := { s.inbox with keys := rest } }) ∨
        s.inbox.keys = [] ∧ s' = { s with draws := s.draws + 1 }) := by
  unfold takeKey
  split
  · rename_i k rest h
    exact ⟨_, _, rfl, .inl ⟨rest, h, rfl⟩⟩
  · rename_i h
    exact ⟨_, _, rfl, .inr ⟨h, rfl⟩⟩

theorem takeSaveReply_ok (s : State) :
    ∃ k s', takeSaveReply s = .ok k s' ∧
      ((∃ rest, s.inbox.saves = k :: rest ∧ s' = { s with inbox := { s.inbox with saves := rest } }) ∨
        s.inbox.saves = [] ∧ s' = { s with draws := s.draws + 1 }) := by
  unfold takeSaveReply
  split
  · rename_i k rest h
    exact ⟨_, _, rfl, .inl ⟨rest, h, rfl⟩⟩
  · rename_i h
    exact ⟨_, _, rfl, .inr ⟨h, rfl⟩⟩

theorem takeRestoreReply_ok (s : State) :
    ∃ k s', takeRestoreReply s = .ok k s' ∧
      ((∃ rest, s.inbox.restores = k :: rest ∧ s' = { s with inbox := { s.inbox with restores := rest } }) ∨
        s.inbox.restores = [] ∧ s' = { s with draws := s.draws + 1 }) := by
  unfold takeRestoreReply
  split
  · rename_i k rest h
    exact ⟨_, _, rfl, .inl ⟨rest, h, rfl⟩⟩
  · rename_i h
    exact ⟨_, _, rfl, .inr ⟨h, rfl⟩⟩

end Sys2Proof.Machine
end

