-- ==== Sys2Proof/Laws/Operands.lean ====
section
/-! SUPPORT. Every instruction is its operands and then its body: `exec_of_entered` and `exec_of_not_entered`. -/

namespace Sys2Proof.Machine

/-! ### Operand values -/

@[simp] theorem State.operandValue_advance (s : State) (n : Nat) (st : List Word) (op : Operand) :
    (s.advance n).operandValue st op = s.operandValue st op := by
  cases op <;> rfl

@[simp] theorem State.operandValue_setStack (s : State) (st' st : List Word) (op : Operand) :
    (s.setStack st').operandValue st op = s.operandValue st op := by
  cases op <;> rfl

@[simp] theorem State.operandValues_advance (s : State) (n : Nat) (st : List Word) (ops : List Operand) :
    (s.advance n).operandValues st ops = s.operandValues st ops := by
  induction ops generalizing st with
  | nil => rfl
  | cons op ops ih => simp [State.operandValues, ih]

@[simp] theorem State.operandValues_setStack (s : State) (st' st : List Word) (ops : List Operand) :
    (s.setStack st').operandValues st ops = s.operandValues st ops := by
  induction ops generalizing st with
  | nil => rfl
  | cons op ops ih => simp [State.operandValues, ih]

theorem State.operandValue_drop {s : State} {st st' : List Word} {op : Operand} {v : Word}
    (h : s.operandValue st op = some (v, st')) : ∃ j, st' = st.drop j := by
  cases op with
  | large w => simp [State.operandValue] at h; exact ⟨0, h.2.symm⟩
  | small b => simp [State.operandValue] at h; exact ⟨0, h.2.symm⟩
  | var n =>
    simp only [State.operandValue] at h
    split at h
    · split at h
      · simp at h
      · rename_i w rest
        simp at h
        exact ⟨1, by simp [h.2]⟩
    · split at h
      · simp at h; exact ⟨0, h.2.symm⟩
      · split at h
        · simp at h; exact ⟨0, h.2.symm⟩
        · simp at h

/-- Resolving operands pops words off the stack, and gives one value for each operand. -/
theorem State.operandValues_some {s : State} {st st' : List Word} {ops : List Operand} {vs : List Word}
    (h : s.operandValues st ops = some (vs, st')) : vs.length = ops.length ∧ ∃ j, st' = st.drop j := by
  induction ops generalizing st vs with
  | nil =>
    simp [State.operandValues] at h
    obtain ⟨rfl, rfl⟩ := h
    exact ⟨rfl, 0, rfl⟩
  | cons op ops ih =>
    simp only [State.operandValues] at h
    split at h
    · simp at h
    · rename_i v st1 h1
      split at h
      · simp at h
      · rename_i vs1 st2 h2
        simp at h
        obtain ⟨rfl, rfl⟩ := h
        obtain ⟨hl, j, hj⟩ := ih h2
        obtain ⟨k, hk⟩ := State.operandValue_drop h1
        exact ⟨by simp [hl], k + j, by rw [hj, hk, List.drop_drop]⟩

theorem fetchOperand_ok {s : State} {op : Operand} {v : Word} {st : List Word}
    (h : s.operandValue s.stack op = some (v, st)) :
    fetchOperand op s = .ok v ((s.advance (encodeOperand op).length).setStack st) := by
  cases op with
  | large w =>
    simp [State.operandValue] at h
    obtain ⟨rfl, rfl⟩ := h
    rfl
  | small b =>
    simp [State.operandValue] at h
    obtain ⟨rfl, rfl⟩ := h
    rfl
  | var n =>
    have : (s.advance 1).operandValue (s.advance 1).stack (.var n) = some (v, st) := by simpa using h
    simp [fetchOperand, readVar_ok this, encodeOperand]

theorem fetchOperand_fatal {s : State} {op : Operand} (h : s.operandValue s.stack op = none) :
    ∃ c n, fetchOperand op s = .error (.fatal c) (s.advance n) ∧
      (c = .stackUnderflow ∨ ∃ a, c = .memRange a) := by
  cases op with
  | large w => simp [State.operandValue] at h
  | small b => simp [State.operandValue] at h
  | var n =>
    have : (s.advance 1).operandValue (s.advance 1).stack (.var n) = none := by simpa using h
    obtain ⟨c, hc, h'⟩ := readVar_fatal this
    exact ⟨c, 1, by simp [fetchOperand, hc], h'⟩

/-- Operands that all have a value are fetched: the program counter passes their bytes. -/
theorem fetchOperands_ok {s : State} {ops : List Operand} {vs st : List Word}
    (h : s.operandValues s.stack ops = some (vs, st)) :
    fetchOperands ops s = .ok vs ((s.advance (encodeOperands ops).length).setStack st) := by
  induction ops generalizing s vs with
  | nil =>
    simp [State.operandValues] at h
    obtain ⟨rfl, rfl⟩ := h
    simp [fetchOperands, encodeOperands]
  | cons op ops ih =>
    simp only [State.operandValues] at h
    split at h
    · simp at h
    · rename_i v st1 h1
      split at h
      · simp at h
      · rename_i vs1 st2 h2
        simp at h
        obtain ⟨rfl, rfl⟩ := h
        have ih' := ih (s := (s.advance (encodeOperand op).length).setStack st1) (by simpa using h2)
        simp [fetchOperands, fetchOperand_ok h1, ih', encodeOperands]

/-- Where an operand has no value the fetch is fatal there; the stack has lost the words popped before. -/
theorem fetchOperands_fatal {s : State} {ops : List Operand} (h : s.operandValues s.stack ops = none) :
    ∃ c n j, fetchOperands ops s = .error (.fatal c) ((s.advance n).setStack (s.stack.drop j)) ∧
      (c = .stackUnderflow ∨ ∃ a, c = .memRange a) := by
  induction ops generalizing s with
  | nil => simp [State.operandValues] at h
  | cons op ops ih =>
    simp only [State.operandValues] at h
    split at h
    · rename_i h1
      obtain ⟨c, n, hc, h'⟩ := fetchOperand_fatal h1
      exact ⟨c, n, 0, by simp [fetchOperands, hc]; rfl, h'⟩
    · rename_i v st1 h1
      split at h
      · rename_i h2
        obtain ⟨k, hk⟩ := State.operandValue_drop h1
        obtain ⟨c, n, j, hc, h'⟩ := ih (s := (s.advance (encodeOperand op).length).setStack st1) (by simpa using h2)
        refine ⟨c, (encodeOperand op).length + n, k + j, ?_, h'⟩
        subst hk
        simp [fetchOperands, fetchOperand_ok h1, hc]
      · simp at h

/-! ### The body of every instruction -/

/-- What an instruction does with its resolved operands, the program counter past the last of them. -/
def bodyOf : Instr → List Word → M Unit
  | .je _, vs => need2 (opcodeTyped2 0x01) vs fun a b more => branch (decide (a ∈ b :: more))
  | .jl _, vs => need2 (opcodeTyped2 0x02) vs fun a b _ => branch (signedLess a b)
  | .jg _, vs => need2 (opcodeTyped2 0x03) vs fun a b _ => branch (signedLess b a)
  | .decChk _, vs => need2 (opcodeTyped2 0x04) vs fun n v _ => do
    let w ← addInPlace (varNumber n) (-1)
    branch (signedLess w v)
  | .incChk _, vs => need2 (opcodeTyped2 0x05) vs fun n v _ => do
    let w ← addInPlace (varNumber n) 1
    branch (signedLess v w)
  | .jin _, vs => need2 (opcodeTyped2 0x06) vs fun a b _ => do
    branch (decide ((← link a Geometry.offParent) = b))
  | .test _, vs => need2 (opcodeTyped2 0x07) vs fun a b _ => branch (hasAllBits a b)
  | .or _, vs => need2 (opcodeTyped2 0x08) vs fun a b _ => store (a ||| b)
  | .and _, vs => need2 (opcodeTyped2 0x09) vs fun a b _ => store (a &&& b)
  | .testAttr _, vs => need2 (opcodeTyped2 0x0A) vs fun obj attr _ => do
    let set ← attrs obj
    let mask ← attrMask attr
    branch (decide (set &&& mask ≠ 0#48))
  | .setAttr _, vs => need2 (opcodeTyped2 0x0B) vs fun obj attr _ => do
    let set ← attrs obj
    let mask ← attrMask attr
    setAttrs obj (set ||| mask)
  | .clearAttr _, vs => need2 (opcodeTyped2 0x0C) vs fun obj attr _ => do
    let set ← attrs obj
    let mask ← attrMask attr
    setAttrs obj (set &&& ~~~mask)
  | .store _, vs => need2 (opcodeTyped2 0x0D) vs fun n v _ => writeVarInPlace (varNumber n) v
  | .insertObj _, vs => need2 (opcodeTyped2 0x0E) vs fun obj dest _ => do
    if obj = 0#16 ∨ dest = 0#16 then return ()
    if (← alreadyFirstChild obj dest) then return ()
    unlink obj
    setLink obj Geometry.offSibling (← link dest Geometry.offChild)
    setLink dest Geometry.offChild obj
    setLink obj Geometry.offParent dest
  | .loadw _, vs => need2 (opcodeTyped2 0x0F) vs fun array index _ => do store (← memWord (wordAddr array index))
  | .loadb _, vs => need2 (opcodeTyped2 0x10) vs fun array index _ => do
    store ((← memByte (byteAddr array index)).setWidth 16)
  | .getProp _, vs => need2 (opcodeTyped2 0x11) vs fun obj p _ => do
    checkProperty p
    match (← propFind obj p) with
    | none => store (← propDefault p)
    | some r =>
      if r.len = 1 then store ((← memByte r.data).setWidth 16)
      else if r.len = 2 then store (← memWord r.data)
      else raise (.badPropertyLength r.len)
  | .getPropAddr _, vs => need2 (opcodeTyped2 0x12) vs fun obj p _ => do
    checkProperty p
    match (← propFind obj p) with
    | none => store 0#16
    | some r => store (BitVec.ofNat 16 r.data)
  | .getNextProp _, vs => need2 (opcodeTyped2 0x13) vs fun obj p _ => do
    if p = 0#16 then store (← entryNumber (← propFirst obj))
    else
      checkProperty p
      match (← propFind obj p) with
      | none => raise (.propertyNotFound p)
      | some r => store (← entryNumber r.next)
  | .add _, vs => need2 (opcodeTyped2 0x14) vs fun a b _ => store (u16 (s16 a + s16 b))
  | .sub _, vs => need2 (opcodeTyped2 0x15) vs fun a b _ => store (u16 (s16 a - s16 b))
  | .mul _, vs => need2 (opcodeTyped2 0x16) vs fun a b _ => store (u16 (s16 a * s16 b))
  | .div _, vs => need2 (opcodeTyped2 0x17) vs fun a b _ => storeUnlessZero b (truncQuotient a b)
  | .mod _, vs => need2 (opcodeTyped2 0x18) vs fun a b _ => storeUnlessZero b (truncRemainder a b)
  | .call2s _, vs => need2 (opcodeTyped2 0x19) vs fun routine a _ => call routine [a] true
  | .call2n _, vs => need2 (opcodeTyped2 0x1A) vs fun routine a _ => call routine [a] false
  | .setColour _, vs => need2 (opcodeTyped2 0x1B) vs fun fg bg _ => request (.setColor fg bg)
  | .jz _, vs => branch (decide (vs.headD 0#16 = 0#16))
  | .getSibling _, vs => do
    let v ← link (vs.headD 0#16) Geometry.offSibling
    storeBranch v (decide (v ≠ 0#16))
  | .getChild _, vs => do
    let v ← link (vs.headD 0#16) Geometry.offChild
    storeBranch v (decide (v ≠ 0#16))
  | .getParent _, vs => do store (← link (vs.headD 0#16) Geometry.offParent)
  | .getPropLen _, vs =>
    if vs.headD 0#16 = 0#16 then store 0#16
    else do
      let b ← memByte ((vs.headD 0#16).toNat - 1)
      store (BitVec.ofNat 16 (lengthBefore (← gets (·.cfg.geom.earlier)) b))
  | .inc _, vs => do let _ ← addInPlace (varNumber (vs.headD 0#16)) 1
  | .dec _, vs => do let _ ← addInPlace (varNumber (vs.headD 0#16)) (-1)
  | .printAddr _, vs => printAt (vs.headD 0#16).toNat
  | .call1s _, vs => call (vs.headD 0#16) [] true
  | .removeObj _, vs => do
    if vs.headD 0#16 = 0#16 then return ()
    unlink (vs.headD 0#16)
    setLink (vs.headD 0#16) Geometry.offParent 0#16
    setLink (vs.headD 0#16) Geometry.offSibling 0#16
  | .printObj _, vs => do
    let t ← propTable (vs.headD 0#16)
    if (← memRead t 1) = 0 then request (.print [])
    else printAt (t + 1)
  | .ret _, vs => ret (vs.headD 0#16)
  | .jump _, vs => update fun s => s.setPc (jumpTarget s.pc (s16 (vs.headD 0#16)))
  | .printPaddr _, vs => do printAt (← gets (·.unpack (vs.headD 0#16)))
  | .load _, vs => do store (← readVarInPlace (varNumber (vs.headD 0#16)))
  | .not _, vs => store (vs.headD 0#16 ^^^ 0xFFFF#16)
  | .call1n _, vs => call (vs.headD 0#16) [] false
  | .rtrue, _ => ret 1#16
  | .rfalse, _ => ret 0#16
  | .print, _ => do request (.print (← inlineText))
  | .printRet, _ => do
    let text ← inlineText
    request (.print (text ++ [.newline]))
    ret 1#16
  | .nop, _ => return ()
  | .save _, _ => saveBody
  | .restore _, _ => restoreBody
  | .restart, _ => do
    update fun s => { s with mem := s.story }
    relatch
    update fun s => { s with top := initialFrame s.cfg.pc0, below := [], readText := 0#16, readParse := 0#16 }
  | .retPopped, _ => do ret (← pop)
  | .pop, _ => do let _ ← pop
  | .quit, _ => do
    request .quit
    update (·.setRun .halted)
  | .newLine, _ => request (.print [.newline])
  | .showStatus, _ => request .showStatusLine
  | .call _, vs => need1 (opcodeVar 0x00) vs fun routine args => call routine args true
  | .storew _, vs => need3 (opcodeVar 0x01) vs fun array index v => memWrite (wordAddr array index) 2 v.toNat
  | .storeb _, vs => need3 (opcodeVar 0x02) vs fun array index v => memWrite (byteAddr array index) 1 v.toNat
  | .putProp _, vs => need3 (opcodeVar 0x03) vs fun obj p v => do
    checkProperty p
    match (← propFind obj p) with
    | none => raise (.propertyNotFound p)
    | some r =>
      if r.len = 1 then memWrite r.data 1 v.toNat
      else if r.len = 2 then memWrite r.data 2 v.toNat
      else raise (.badPropertyLength r.len)
  | .read _, vs => need2 (opcodeVar 0x04) vs fun text parse _ => do
    update fun s => { s with readText := text, readParse := parse }
    let max ← memByte text.toNat
    request (.readLine max)
    update (·.setRun .waitInput)
  | .printChar _, vs => need1 (opcodeVar 0x05) vs fun c _ => request (.print [.char c])
  | .printNum _, vs => need1 (opcodeVar 0x06) vs fun v _ => request (.print (decimal (s16 v)))
  | .random _, vs => need1 (opcodeVar 0x07) vs fun range _ => do
    if 0 < s16 range then store (← drawRandom range.toNat)
    else
      update (·.reseed (-(s16 range)))
      store 0#16
  | .push _, vs => need1 (opcodeVar 0x08) vs fun v _ => push v
  | .pull _, vs => need1 (opcodeVar 0x09) vs fun n _ => do writeVarInPlace (varNumber n) (← pop)
  | .splitWindow _, vs => need1 (opcodeVar 0x0A) vs fun lines _ => request (.splitWindow lines)
  | .setWindow _, vs => need1 (opcodeVar 0x0B) vs fun window _ => request (.setActiveWindow window)
  | .callVs2 _ _, vs => need1 (opcodeVar 0x0C) vs fun routine args => call routine args true
  | .eraseWindow _, vs => need1 (opcodeVar 0x0D) vs fun window _ => request (.eraseWindow window)
  | .setCursor _, vs => need2 (opcodeVar 0x0F) vs fun line column more =>
    request (.setCursor line column (more.headD 0#16))
  | .setTextStyle _, vs => need1 (opcodeVar 0x11) vs fun style _ => request (.setTextStyle style)
  | .bufferMode _, vs => need1 (opcodeVar 0x12) vs fun flag _ => request (.setBufferMode (decide (flag = 1#16)))
  | .soundEffect _, vs => need1 (opcodeVar 0x15) vs fun number _ =>
    if number = 1#16 ∨ number = 2#16 then request (.playSound number) else raise (.invalidSoundEffect number)
  | .readChar _, _ => do
    let c ← takeKey
    request (.readChar c)
    store c
  | .callVn _, vs => need1 (opcodeVar 0x19) vs fun routine args => call routine args false
  | .callVn2 _ _, vs => need1 (opcodeVar 0x1A) vs fun routine args => call routine args false
  | .checkArgCount _, vs => need1 (opcodeVar 0x1F) vs fun n _ => do
    branch (decide (n.toNat ≤ (← gets (·.top.argc))))
  | .unpopulatedSlot u, _ => raise (unknownCause u)

/-- `finish` looks only at how an operation ends. -/
theorem finish_congr {m m' : M Unit} {s s' : State} (h : m s = m' s') : finish m s = finish m' s' := by
  simp [finish, h]

/-- The meaning of an instruction: its head is consumed, its operands are resolved, its body runs. -/
theorem exec_eq (i : Instr) (s : State) :
    exec i s = finish (do
      advance i.headBytes
      let vs ← fetchOperands i.operands
      bodyOf i vs) s := by
  have one (a : Operand) (f : Word → M Unit) :
      (do advance 1; f (← fetchOperand a) : M Unit) =
        (do advance 1; let vs ← fetchOperands [a]; f (vs.headD 0#16) : M Unit) := by
    funext s
    simp only [M.bind_apply, advance_apply, fetchOperands, M.pure_apply]
    cases fetchOperand a (s.advance 1) <;> rfl
  have two (args : Args2) (i : Instr) (f : List Word → M Unit)
      (hh : i.headBytes = match args with | .long _ _ => 1 | .typed _ => 2)
      (ho : i.operands = args.operands) :
      (do f (← fetchArgs2 args) : M Unit) =
        (do advance i.headBytes; let vs ← fetchOperands i.operands; f vs : M Unit) := by
    funext s
    rw [hh, ho]
    cases args <;> simp only [M.bind_apply, advance_apply, fetchArgs2, Args2.operands]
  cases i with
  | je args | jl args | jg args | decChk args | incChk args | jin args | test args | or args | and args
  | testAttr args | setAttr args | clearAttr args | store args | insertObj args | loadw args | loadb args
  | getProp args | getPropAddr args | getNextProp args | add args | sub args | mul args | div args | mod args
  | call2s args | call2n args | setColour args =>
    exact finish_congr (congrFun (two args _ _ rfl rfl) s)
  | jz a | getSibling a | getChild a | getParent a | getPropLen a | inc a | dec a | printAddr a | call1s a
  | removeObj a | printObj a | ret a | jump a | printPaddr a | load a | not a | call1n a =>
    exact finish_congr (congrFun (one a _) s)
  | save f | restore f => cases f <;> rfl
  | unpopulatedSlot u => cases u <;> rfl
  | _ => rfl

/-- An instruction whose operands all have values runs its body on them. -/
theorem exec_of_entered {i : Instr} {s t : State} {vs : List Word} (h : s.entered i = some (vs, t)) :
    exec i s = finish (bodyOf i vs) t := by
  unfold State.entered at h
  split at h
  · simp at h
  · rename_i vs' st ho
    simp at h
    obtain ⟨rfl, rfl⟩ := h
    have := fetchOperands_ok (s := s.advance i.headBytes) (by simpa using ho)
    rw [exec_eq]
    refine finish_congr ?_
    simp [this]

/-- An instruction with an operand that has no value takes that operand's fatal. -/
theorem exec_of_not_entered {i : Instr} {s : State} (h : s.entered i = none) :
    ∃ c n j, exec i s = .next (takeFatal c ((s.advance n).setStack (s.stack.drop j))) ∧
      (c = .stackUnderflow ∨ ∃ a, c = .memRange a) := by
  unfold State.entered at h
  split at h
  · rename_i ho
    obtain ⟨c, n, j, hc, h'⟩ := fetchOperands_fatal (s := s.advance i.headBytes) (by simpa using ho)
    refine ⟨c, i.headBytes + n, j, ?_, h'⟩
    rw [exec_eq]
    refine finish_fatal ?_
    simp [hc]
  · simp at h

/-- What the state is when the body of an instruction starts. -/
theorem State.entered_state {i : Instr} {s t : State} {vs : List Word} (h : s.entered i = some (vs, t)) :
    ∃ j, t = (s.advance (i.headBytes + (encodeOperands i.operands).length)).setStack (s.stack.drop j) := by
  unfold State.entered at h
  split at h
  · simp at h
  · rename_i vs' st ho
    simp at h
    obtain ⟨rfl, rfl⟩ := h
    obtain ⟨-, j, hj⟩ := State.operandValues_some ho
    exact ⟨j, by rw [hj]⟩

/-- One value for each operand. -/
theorem State.entered_length {i : Instr} {s t : State} {vs : List Word} (h : s.entered i = some (vs, t)) :
    vs.length = i.operands.length := by
  unfold State.entered at h
  split at h
  · simp at h
  · rename_i vs' st ho
    simp at h
    obtain ⟨rfl, -⟩ := h
    exact (State.operandValues_some ho).1

end Sys2Proof.Machine
end

