-- ==== Sys2Proof/Laws/Changes.lean ====
section
/-! SUPPORT. Everything an operation can do to the state, said once: `Change` lists the single changes with their
guards, `Keeps K m` says that `m` makes only changes of the kinds `K`, `kindsOf` gives the kinds of every
instruction, and `exec_changes` and `step_changes` hand the result to the invariants. -/

namespace Sys2Proof.Machine

variable {α β : Type}

/-- The kinds of single changes. -/
inductive Kind where
  | pc | pop | push | top | loc | glob | link | attrs | mem | enter | leave | emit | reads | reply | draw
  | restore | reload | halt | wait | resume | lines
deriving DecidableEq, Repr

/-- One change of a kind in `K`. -/
inductive Change (K : List Kind) : State → State → Prop where
  | pc {s : State} (t : BitVec 32) : .pc ∈ K → Change K s (s.setPc t)
  | pop {s : State} {v : Word} {rest : List Word} : .pop ∈ K → s.stack = v :: rest → Change K s (s.setStack rest)
  | push {s : State} (v : Word) : .push ∈ K → withinLimit (s.stack.length + 1) s.params.stackDepth = true →
      Change K s (s.setStack (v :: s.stack))
  | top {s : State} {w : Word} {rest : List Word} (v : Word) : .top ∈ K → s.stack = w :: rest →
      Change K s (s.setStack (v :: rest))
  | loc {s : State} (n : Nat) (v : Word) : .loc ∈ K → Change K s (s.setLocal n v)
  | glob {s : State} (n : Byte) (v : Word) : .glob ∈ K → 16 ≤ n.toNat → s.inRange (s.globalAddr n.toNat) 2 →
      Change K s (s.writeMem (s.globalAddr n.toNat) 2 v.toNat)
  | link {s : State} (id : Word) (off : Geometry → Nat) (v : Word) : .link ∈ K → id ≠ 0#16 →
      (off = Geometry.offParent ∨ off = Geometry.offSibling ∨ off = Geometry.offChild) →
      s.inRange (s.linkAddr id off) s.cfg.geom.linkBytes → Change K s (s.linked id off v)
  | attrs {s : State} (id : Word) (a n v : Nat) : .attrs ∈ K → s.objAddr id ≤ a →
      a + n ≤ s.objAddr id + (if s.cfg.geom.earlier then 4 else 6) → s.inRange a n →
      Change K s (s.writeMem a n v)
  | mem {s : State} (a n v : Nat) : .mem ∈ K → s.inRange a n → Change K s (s.writeMem a n v)
  | enter {s : State} (f : Frame) : .enter ∈ K → f.argc ≤ 7 → f.stack = [] →
      withinLimit (s.below.length + 2) s.params.frameDepth = true → Change K s (s.pushFrame f)
  | leave {s : State} {caller : Frame} {rest : List Frame} : .leave ∈ K → s.below = caller :: rest →
      Change K s { s with top := caller, below := rest }
  | emit {s : State} (r : Request) : .emit ∈ K → Change K s (s.emit r)
  | reads {s : State} (text parse : Word) : .reads ∈ K → Change K s { s with readText := text, readParse := parse }
  | reply {s : State} (inbox : Inbox) (draws : Nat) : .reply ∈ K → inbox.lines = s.inbox.lines →
      Change K s { s with inbox := inbox, draws := draws }
  | lines {s : State} (inbox : Inbox) : .lines ∈ K → Change K s { s with inbox := inbox }
  | draw {s : State} (rng draws : Nat) : .draw ∈ K → Change K s { s with rng := rng, draws := draws }
  | restore {s : State} (r : Snapshot) : .restore ∈ K → s.accepts r = true →
      s.inRange 0 s.cfg.staticBase.toNat → Change K s (s.restoreFrom r)
  | reloadMem {s : State} : .reload ∈ K → Change K s { s with mem := s.story }
  | reloadCfg {s : State} : .reload ∈ K → s.mem = s.story → Change K s { s with cfg := latchedFrom s.mem }
  | reloadFrames {s : State} : .reload ∈ K → Change K s
      { s with top := initialFrame s.cfg.pc0, below := [], readText := 0#16, readParse := 0#16 }
  | halt {s : State} : .halt ∈ K → Change K s (s.setRun .halted)
  | wait {s : State} : .wait ∈ K → Change K s (s.setRun .waitInput)
  | resume {s : State} : .resume ∈ K → Change K s (s.setRun .running)

/-- Any number of changes of the kinds `K`. -/
def Changes (K : List Kind) : State → State → Prop := Relation.ReflTransGen (Change K)

theorem Changes.refl {K : List Kind} (s : State) : Changes K s s := Relation.ReflTransGen.refl

theorem Changes.trans {K : List Kind} {s t u : State} (h : Changes K s t) (h' : Changes K t u) :
    Changes K s u := Relation.ReflTransGen.trans h h'

theorem Changes.one {K : List Kind} {s t : State} (h : Change K s t) : Changes K s t :=
  Relation.ReflTransGen.single h

theorem Change.mono {K L : List Kind} {s t : State} (h : Change K s t) (hl : K ⊆ L) : Change L s t := by
  cases h with
  | pc t hk => exact .pc t (hl hk)
  | pop hk h => exact .pop (hl hk) h
  | push v hk h => exact .push v (hl hk) h
  | top v hk h => exact .top v (hl hk) h
  | loc n v hk => exact .loc n v (hl hk)
  | glob n v hk h h' => exact .glob n v (hl hk) h h'
  | link id off v hk h h' h'' => exact .link id off v (hl hk) h h' h''
  | attrs id a n v hk h h' h'' => exact .attrs id a n v (hl hk) h h' h''
  | mem a n v hk h => exact .mem a n v (hl hk) h
  | enter f hk h h' h'' => exact .enter f (hl hk) h h' h''
  | leave hk h => exact .leave (hl hk) h
  | emit r hk => exact .emit r (hl hk)
  | reads x y hk => exact .reads x y (hl hk)
  | reply x y hk h => exact .reply x y (hl hk) h
  | lines x hk => exact .lines x (hl hk)
  | draw x y hk => exact .draw x y (hl hk)
  | restore r hk h h' => exact .restore r (hl hk) h h'
  | reloadMem hk => exact .reloadMem (hl hk)
  | reloadCfg hk h => exact .reloadCfg (hl hk) h
  | reloadFrames hk => exact .reloadFrames (hl hk)
  | halt hk => exact .halt (hl hk)
  | wait hk => exact .wait (hl hk)
  | resume hk => exact .resume (hl hk)

/-- A reflexive and transitive relation that holds across each single change holds across all. -/
theorem Changes.induct {K : List Kind} {R : State → State → Prop} (hr : ∀ s, R s s)
    (ht : ∀ s t u, R s t → R t u → R s u) (h1 : ∀ s t, Change K s t → R s t) {s t : State}
    (h : Changes K s t) : R s t := by
  induction h with
  | refl => exact hr s
  | tail _ hc ih => exact ht _ _ _ ih (h1 _ _ hc)

theorem Changes.mono {K L : List Kind} {s t : State} (h : Changes K s t) (hl : K ⊆ L) : Changes L s t :=
  h.induct Changes.refl (fun _ _ _ => Changes.trans) (fun _ _ hc => .one (Change.mono hc hl))

/-- A property that each single change keeps is kept by all. -/
theorem Changes.invariant {K : List Kind} {P : State → Prop} (h1 : ∀ s t, Change K s t → P s → P t)
    {s t : State} (h : Changes K s t) (hs : P s) : P t :=
  Changes.induct (R := fun s t => P s → P t) (fun _ => id) (fun _ _ _ f g => g ∘ f) h1 h hs

theorem Changes.eq_of_nil {s t : State} (h : Changes [] s t) : t = s :=
  Changes.induct (K := []) (R := fun s t => t = s) (fun _ => rfl) (fun _ _ _ h h' => h'.trans h)
    (fun s t h => by cases h <;> simp_all) h

/-- The state where an operation ends, by a value or by a stop. -/
def endOf : EStateM.Result Stop State α → State
  | .ok _ s => s
  | .error _ s => s

@[simp] theorem endOf_ok (a : α) (s : State) : endOf (.ok a s : EStateM.Result Stop State α) = s := rfl
@[simp] theorem endOf_error (e : Stop) (s : State) : endOf (.error e s : EStateM.Result Stop State α) = s := rfl

/-- An operation makes only changes of the kinds `K`, however it ends. -/
def Keeps (K : List Kind) (m : M α) : Prop := ∀ s, Changes K s (endOf (m s))

theorem Keeps.mono {K L : List Kind} {m : M α} (h : Keeps K m) (hl : K ⊆ L := by decide) : Keeps L m :=
  fun s => (h s).mono hl

theorem keeps_pure {K : List Kind} (a : α) : Keeps K (pure a : M α) := fun s => Changes.refl s

theorem keeps_bind' {K : List Kind} {m : M α} {f : α → M β} (hm : Keeps K m)
    (hf : ∀ s a s', m s = .ok a s' → Keeps K (f a)) : Keeps K (m >>= f) := by
  intro s
  have h1 := hm s
  rw [M.bind_apply]
  cases h : m s with
  | ok a s' => rw [h] at h1; exact h1.trans (hf s a s' h s')
  | error e s' => rw [h] at h1; exact h1

theorem keeps_bind {K : List Kind} {m : M α} {f : α → M β} (hm : Keeps K m) (hf : ∀ a, Keeps K (f a)) :
    Keeps K (m >>= f) := keeps_bind' hm fun _ a _ _ => hf a

theorem keeps_ite {K : List Kind} {c : Prop} [Decidable c] {m m' : M α} (h : Keeps K m) (h' : Keeps K m') :
    Keeps K (if c then m else m') := by split <;> assumption

theorem keeps_raise {K : List Kind} (c : Cause) : Keeps K (raise c : M α) := fun s => Changes.refl s
theorem keeps_noResult {K : List Kind} (f : Fault) : Keeps K (noResult f : M α) := fun s => Changes.refl s
theorem keeps_gets {K : List Kind} (f : State → α) : Keeps K (gets f) := fun s => Changes.refl s

theorem keeps_update {K : List Kind} {f : State → State} (h : ∀ s, Change K s (f s)) : Keeps K (update f) :=
  fun s => .one (h s)

/-- An operation that makes no change ends where it began. -/
theorem Keeps.same {m : M α} (h : Keeps [] m) (s : State) : endOf (m s) = s := (h s).eq_of_nil

theorem Keeps.same_ok {m : M α} (h : Keeps [] m) {s s' : State} {a : α} (hm : m s = .ok a s') : s' = s := by
  have := h.same s
  rwa [hm] at this

theorem Keeps.same_error {m : M α} (h : Keeps [] m) {s s' : State} {e : Stop} (hm : m s = .error e s') :
    s' = s := by
  have := h.same s
  rwa [hm] at this

/-! ### Memory and the stream -/

theorem keeps_checkRange {K : List Kind} (a n : Nat) : Keeps K (checkRange a n) := by
  intro s
  unfold checkRange
  split <;> exact Changes.refl s

theorem keeps_memRead {K : List Kind} (a n : Nat) : Keeps K (memRead a n) :=
  keeps_bind (keeps_checkRange a n) fun _ => keeps_gets _

theorem keeps_memByte {K : List Kind} (a : Nat) : Keeps K (memByte a) :=
  keeps_bind (keeps_memRead a 1) fun _ => keeps_pure _

theorem keeps_memWord {K : List Kind} (a : Nat) : Keeps K (memWord a) :=
  keeps_bind (keeps_memRead a 2) fun _ => keeps_pure _

theorem keeps_memWrite_of {K : List Kind} {a n v : Nat}
    (h : ∀ s : State, s.inRange a n → Change K s (s.writeMem a n v)) (s : State) :
    Changes K s (endOf (memWrite a n v s)) := by
  by_cases hr : s.inRange a n
  · rw [memWrite_ok hr]
    exact .one (h s hr)
  · rw [memWrite_fatal hr]
    exact .refl s

theorem keeps_memWrite {K : List Kind} (hk : .mem ∈ K) (a n v : Nat) : Keeps K (memWrite a n v) :=
  keeps_memWrite_of fun _ h => .mem a n v hk h

theorem keeps_advance {K : List Kind} (hk : .pc ∈ K) (n : Nat) : Keeps K (advance n) :=
  keeps_update fun s => .pc (s.pc + BitVec.ofNat 32 n) hk

theorem keeps_fetch8 {K : List Kind} (hk : .pc ∈ K) : Keeps K fetch8 :=
  keeps_bind (keeps_gets _) fun _ => keeps_bind (keeps_memByte _) fun _ =>
    keeps_bind (keeps_advance hk 1) fun _ => keeps_pure _

/-! ### Variables -/

theorem keeps_push {K : List Kind} (hk : .push ∈ K) (v : Word) : Keeps K (push v) := by
  intro s
  unfold push
  split
  · rename_i h; exact .one (.push v hk h)
  · exact .refl s

theorem keeps_pop {K : List Kind} (hk : .pop ∈ K) : Keeps K pop := by
  intro s
  unfold pop
  split
  · exact .refl s
  · rename_i h; exact .one (.pop hk h)

theorem keeps_peekTop {K : List Kind} : Keeps K peekTop := by
  intro s
  unfold peekTop
  split <;> exact .refl s

theorem keeps_replaceTop {K : List Kind} (hk : .top ∈ K) (v : Word) : Keeps K (replaceTop v) := by
  intro s
  unfold replaceTop
  split
  · exact .refl s
  · rename_i h; exact .one (.top v hk h)

theorem keeps_readVar {K : List Kind} (hk : .pop ∈ K) (n : Byte) : Keeps K (readVar n) :=
  keeps_ite (keeps_pop hk) (keeps_ite (keeps_gets _) (keeps_bind (keeps_gets _) fun _ => keeps_memWord _))

theorem keeps_writeVar {K : List Kind} (hk : [.push, .loc, .glob] ⊆ K) (n : Byte) (v : Word) :
    Keeps K (writeVar n v) := by
  intro s
  unfold writeVar
  split
  · exact keeps_push (hk (by simp)) v s
  · split
    · exact .one (.loc _ _ (hk (by simp)))
    · rw [M.bind_apply, gets_apply]
      by_cases hr : s.inRange (s.globalAddr n.toNat) 2
      · simp only [memWrite_ok hr]
        exact .one (.glob n v (hk (by simp)) (by omega) hr)
      · simp only [memWrite_fatal hr]
        exact .refl s

theorem keeps_readVarInPlace {K : List Kind} (n : Byte) : Keeps K (readVarInPlace n) := by
  unfold readVarInPlace
  split
  · exact keeps_peekTop
  · rename_i h
    unfold readVar
    rw [if_neg h]
    exact keeps_ite (keeps_gets _) (keeps_bind (keeps_gets _) fun _ => keeps_memWord _)

theorem keeps_writeVarInPlace {K : List Kind} (hk : [.top, .loc, .glob] ⊆ K) (n : Byte) (v : Word) :
    Keeps K (writeVarInPlace n v) := by
  intro s
  unfold writeVarInPlace
  split
  · exact keeps_replaceTop (hk (by simp)) v s
  · rename_i h0
    unfold writeVar
    rw [if_neg h0]
    split
    · exact .one (.loc _ _ (hk (by simp)))
    · rw [M.bind_apply, gets_apply]
      by_cases hr : s.inRange (s.globalAddr n.toNat) 2
      · simp only [memWrite_ok hr]
        exact .one (.glob n v (hk (by simp)) (by omega) hr)
      · simp only [memWrite_fatal hr]
        exact .refl s

theorem keeps_addInPlace {K : List Kind} (hk : [.top, .loc, .glob] ⊆ K) (n : Byte) (d : Int) :
    Keeps K (addInPlace n d) :=
  keeps_bind (keeps_readVarInPlace n) fun _ => keeps_bind (keeps_writeVarInPlace hk n _) fun _ => keeps_pure _

theorem keeps_fetchOperand {K : List Kind} (hk : [.pc, .pop] ⊆ K) (op : Operand) : Keeps K (fetchOperand op) := by
  cases op with
  | large w => exact keeps_bind (keeps_advance (hk (by simp)) _) fun _ => keeps_pure _
  | small b => exact keeps_bind (keeps_advance (hk (by simp)) _) fun _ => keeps_pure _
  | var n => exact keeps_bind (keeps_advance (hk (by simp)) _) fun _ => keeps_readVar (hk (by simp)) _

theorem keeps_fetchOperands {K : List Kind} (hk : [.pc, .pop] ⊆ K) (ops : List Operand) :
    Keeps K (fetchOperands ops) := by
  induction ops with
  | nil => exact keeps_pure _
  | cons op ops ih =>
    exact keeps_bind (keeps_fetchOperand hk op) fun _ => keeps_bind ih fun _ => keeps_pure _

/-! ### Store, return, branch, call -/

theorem keeps_store {K : List Kind} (hk : [.pc, .push, .loc, .glob] ⊆ K) (v : Word) : Keeps K (store v) :=
  keeps_bind (keeps_fetch8 (hk (by simp))) fun _ =>
    keeps_writeVar (fun _ h => hk (List.mem_cons_of_mem _ h)) _ _

theorem keeps_popFrame {K : List Kind} (hk : .leave ∈ K) : Keeps K popFrame := by
  intro s
  unfold popFrame
  split
  · exact .refl s
  · rename_i h; exact .one (.leave hk h)

theorem keeps_ret {K : List Kind} (hk : [.leave, .pc, .push, .loc, .glob] ⊆ K) (v : Word) : Keeps K (ret v) :=
  keeps_bind (keeps_popFrame (hk (by simp))) fun _ =>
    keeps_ite (keeps_store (fun _ h => hk (List.mem_cons_of_mem _ h)) v) (keeps_pure _)

theorem keeps_readBranchField {K : List Kind} (hk : .pc ∈ K) : Keeps K readBranchField :=
  keeps_bind (keeps_fetch8 hk) fun _ =>
    keeps_ite (keeps_pure _) (keeps_bind (keeps_fetch8 hk) fun _ => keeps_pure _)

theorem keeps_doBranch {K : List Kind} (hk : [.leave, .pc, .push, .loc, .glob] ⊆ K) (c : Bool) (f : BranchField) :
    Keeps K (doBranch c f) :=
  keeps_ite (keeps_ite (keeps_ret hk _) (keeps_ite (keeps_ret hk _)
    (keeps_update fun _ => .pc _ (hk (by simp))))) (keeps_pure _)

theorem keeps_branch {K : List Kind} (hk : [.leave, .pc, .push, .loc, .glob] ⊆ K) (c : Bool) : Keeps K (branch c) :=
  keeps_bind (keeps_readBranchField (hk (by simp))) fun _ => keeps_doBranch hk c _

theorem keeps_storeBranch {K : List Kind} (hk : [.leave, .pc, .push, .loc, .glob] ⊆ K) (v : Word) (c : Bool) :
    Keeps K (storeBranch v c) := by
  have hs : [.pc, .push, .loc, .glob] ⊆ K := fun _ h => hk (List.mem_cons_of_mem _ h)
  refine keeps_bind (keeps_gets _) fun o => ?_
  cases o with
  | branchThenStore =>
    exact keeps_bind (keeps_readBranchField (hk (by simp))) fun _ =>
      keeps_bind (keeps_store hs v) fun _ => keeps_doBranch hk c _
  | storeThenBranch => exact keeps_bind (keeps_store hs v) fun _ => keeps_branch hk c

theorem keeps_readDefaults {K : List Kind} (a n : Nat) : Keeps K (readDefaults a n) := by
  induction n generalizing a with
  | zero => exact keeps_pure _
  | succ n ih => exact keeps_bind (keeps_memWord a) fun _ => keeps_bind (ih _) fun _ => keeps_pure _

/-! ### Objects, properties, text -/

theorem keeps_checkObject {K : List Kind} (id : Word) : Keeps K (checkObject id) :=
  keeps_ite (keeps_raise _) (keeps_pure _)

theorem keeps_link {K : List Kind} (id : Word) (off : Geometry → Nat) : Keeps K (link id off) :=
  keeps_bind (keeps_checkObject id) fun _ => keeps_bind (keeps_gets _) fun _ =>
    keeps_bind (keeps_gets _) fun _ => keeps_bind (keeps_memRead _ _) fun _ => keeps_pure _

/-- What a link write answers. -/
theorem setLink_ok {s : State} {id v : Word} {off : Geometry → Nat} (h : s.takesLink id off v) :
    setLink id off v s = .ok () (s.linked id off v) := by
  obtain ⟨⟨hid, hr⟩, hv⟩ := h
  have hc : ¬ (s.cfg.geom.earlier = true ∧ 255 < v.toNat) := fun ⟨h1, h2⟩ => by have := hv h1; omega
  have hr' : s.inRange (s.objAddr id + off s.cfg.geom) s.cfg.geom.linkBytes := hr
  simp [setLink, checkObject, hid, hc, memWrite_ok hr', State.linked, State.linkAddr]

theorem setLink_fatal {s : State} {id v : Word} {off : Geometry → Nat} (h : ¬ s.takesLink id off v) :
    ∃ c, setLink id off v s = .error (.fatal c) s := by
  by_cases hid : id = 0#16
  · exact ⟨.invalidObject 0#16, by simp [setLink, checkObject, hid]⟩
  · by_cases hc : s.cfg.geom.earlier = true ∧ 255 < v.toNat
    · exact ⟨.invalidObject v, by simp [setLink, checkObject, hid, hc]⟩
    · have hr : ¬ s.inRange (s.objAddr id + off s.cfg.geom) s.cfg.geom.linkBytes := by
        intro hr
        exact h ⟨⟨hid, hr⟩, fun he => by by_contra hx; exact hc ⟨he, by omega⟩⟩
      exact ⟨_, by simp [setLink, checkObject, hid, hc, memWrite_fatal hr]; rfl⟩

theorem keeps_setLink {K : List Kind} (hk : .link ∈ K) (id v : Word) {off : Geometry → Nat}
    (ho : off = Geometry.offParent ∨ off = Geometry.offSibling ∨ off = Geometry.offChild) :
    Keeps K (setLink id off v) := by
  intro s
  by_cases h : s.takesLink id off v
  · rw [setLink_ok h]
    exact .one (.link id off v hk h.1.1 ho h.1.2)
  · obtain ⟨c, hc⟩ := setLink_fatal h
    rw [hc]
    exact .refl s

theorem keeps_attrs {K : List Kind} (id : Word) : Keeps K (attrs id) :=
  keeps_bind (keeps_checkObject id) fun _ => keeps_bind (keeps_gets _) fun _ =>
    keeps_bind (keeps_memRead _ _) fun _ => keeps_bind (keeps_gets _) fun _ =>
      keeps_ite (keeps_pure _) (keeps_bind (keeps_memRead _ _) fun _ => keeps_pure _)

theorem keeps_attrMask {K : List Kind} (n : Word) : Keeps K (attrMask n) :=
  keeps_bind (keeps_gets _) fun _ => keeps_ite (keeps_bind (keeps_raise _) fun _ => keeps_pure _) (keeps_pure _)

theorem keeps_setAttrs {K : List Kind} (hk : .attrs ∈ K) (id : Word) (v : BitVec 48) : Keeps K (setAttrs id v) := by
  intro s
  simp only [setAttrs, M.bind_apply, gets_apply]
  split
  · rename_i he
    by_cases hr : s.inRange (s.objAddr id) 4
    · rw [memWrite_ok hr]
      exact .one (.attrs id _ 4 _ hk (Nat.le_refl _) (by simp [he]) hr)
    · rw [memWrite_fatal hr]
      exact .refl s
  · rename_i he
    by_cases hr : s.inRange (s.objAddr id) 4
    · by_cases hr2 : s.inRange (s.objAddr id + 4) 2
      · have hr2' : (s.writeMem (s.objAddr id) 4 (v.toNat / 65536)).inRange (s.objAddr id + 4) 2 := hr2
        simp only [M.bind_apply, checkRange_ok hr, checkRange_ok hr2, memWrite_ok hr, memWrite_ok hr2']
        refine (Changes.one (.attrs id _ 4 _ hk (Nat.le_refl _) (by simp [he]) hr)).trans
          (.one (.attrs id _ 2 _ hk ?_ ?_ hr2'))
        · show s.objAddr id ≤ _; omega
        · show _ ≤ s.objAddr id + (if s.cfg.geom.earlier then 4 else 6)
          simp [he]
      · simp only [M.bind_apply, checkRange_ok hr, checkRange_fatal hr2]
        exact .refl s
    · simp only [M.bind_apply, checkRange_fatal hr]
      exact .refl s

theorem keeps_walkChain {K : List Kind} (hk : .link ∈ K) (obj sib : Word) (allowed : Nat) (first : Word) :
    Keeps K (walkChain obj sib allowed first) := by
  induction allowed generalizing first with
  | zero =>
    unfold walkChain
    refine keeps_ite (keeps_bind (keeps_raise _) fun _ => keeps_bind (keeps_link _ _) fun _ =>
      keeps_ite (keeps_setLink hk _ _ (by simp)) (keeps_raise _)) (keeps_bind (keeps_link _ _) fun _ =>
      keeps_ite (keeps_setLink hk _ _ (by simp)) (keeps_raise _))
  | succ n ih =>
    unfold walkChain
    refine keeps_ite (keeps_bind (keeps_raise _) fun _ => keeps_bind (keeps_link _ _) fun _ =>
      keeps_ite (keeps_setLink hk _ _ (by simp)) (ih _)) (keeps_bind (keeps_link _ _) fun _ =>
      keeps_ite (keeps_setLink hk _ _ (by simp)) (ih _))

theorem keeps_unlink {K : List Kind} (hk : .link ∈ K) (obj : Word) : Keeps K (unlink obj) := by
  unfold unlink
  refine keeps_bind (keeps_link _ _) fun p => keeps_ite (keeps_pure _) (keeps_bind (keeps_link _ _) fun sib =>
    keeps_bind (keeps_link _ _) fun c => keeps_ite (keeps_setLink hk _ _ (by simp)) ?_)
  exact keeps_bind (keeps_gets _) fun _ => keeps_walkChain hk _ _ _ _

theorem keeps_alreadyFirstChild {K : List Kind} (obj dest : Word) : Keeps K (alreadyFirstChild obj dest) :=
  keeps_bind (keeps_link _ _) fun _ => keeps_ite (keeps_bind (keeps_link _ _) fun _ => keeps_pure _) (keeps_pure _)

theorem keeps_propTable {K : List Kind} (id : Word) : Keeps K (propTable id) :=
  keeps_bind (keeps_checkObject id) fun _ => keeps_bind (keeps_gets _) fun _ => keeps_memRead _ _

theorem keeps_propFirst {K : List Kind} (id : Word) : Keeps K (propFirst id) :=
  keeps_bind (keeps_propTable id) fun _ => keeps_bind (keeps_memRead _ _) fun _ => keeps_pure _

theorem keeps_propEntry {K : List Kind} (e : Nat) : Keeps K (propEntry e) := by
  unfold propEntry
  refine keeps_bind (keeps_memByte e) fun b => keeps_ite (keeps_pure _) (keeps_bind (keeps_gets _) fun _ => ?_)
  exact keeps_ite (keeps_pure _) (keeps_ite (keeps_bind (keeps_memByte _) fun _ => keeps_pure _) (keeps_pure _))

theorem keeps_propSearch {K : List Kind} (p more e : Nat) : Keeps K (propSearch p more e) := by
  induction more generalizing e with
  | zero => exact keeps_raise _
  | succ n ih =>
    unfold propSearch
    refine keeps_bind (keeps_propEntry e) fun r => ?_
    cases r with
    | none => exact keeps_pure _
    | some r => exact keeps_ite (keeps_pure _) (ih _)

theorem keeps_propFind {K : List Kind} (id p : Word) : Keeps K (propFind id p) :=
  keeps_bind (keeps_propFirst id) fun _ => keeps_bind (keeps_gets _) fun _ => keeps_propSearch _ _ _

theorem keeps_checkProperty {K : List Kind} (p : Word) : Keeps K (checkProperty p) :=
  keeps_bind (keeps_gets _) fun _ => keeps_ite (keeps_raise _) (keeps_pure _)

theorem keeps_propDefault {K : List Kind} (p : Word) : Keeps K (propDefault p) :=
  keeps_bind (keeps_gets _) fun _ => keeps_memWord _

theorem keeps_entryNumber {K : List Kind} (e : Nat) : Keeps K (entryNumber e) := by
  refine keeps_bind (keeps_propEntry e) fun r => ?_
  cases r <;> exact keeps_pure _

theorem keeps_zcharsFrom {K : List Kind} (more a : Nat) : Keeps K (zcharsFrom more a) := by
  induction more generalizing a with
  | zero => exact keeps_raise _
  | succ n ih =>
    unfold zcharsFrom
    exact keeps_bind (keeps_memWord a) fun _ =>
      keeps_ite (keeps_pure _) (keeps_bind (ih _) fun _ => keeps_pure _)

theorem keeps_zchars {K : List Kind} (a : Nat) : Keeps K (zchars a) :=
  keeps_bind (keeps_gets _) fun _ => keeps_zcharsFrom _ _

theorem keeps_zdecodeWith {K : List Kind} {expand : Nat → M (List Token)} (he : ∀ n, Keeps K (expand n))
    (cs : List Code) : Keeps K (zdecodeWith expand cs) := by
  induction cs using zdecodeWith.induct with
  | _ =>
    unfold zdecodeWith
    try simp only [*, if_true, if_false]
    first
      | exact keeps_pure _
      | exact keeps_raise _
      | exact keeps_bind (by assumption) fun _ => keeps_pure _
      | exact keeps_bind (he _) fun _ => keeps_bind (by assumption) fun _ => keeps_pure _

theorem keeps_tooDeep {K : List Kind} : Keeps K tooDeep := by
  intro s
  unfold tooDeep
  split <;> exact Changes.refl s

theorem keeps_abbrevCodes {K : List Kind} (idx : Nat) : Keeps K (abbrevCodes idx) :=
  keeps_bind (keeps_gets _) fun _ => keeps_bind (keeps_memWord _) fun _ =>
    keeps_bind (keeps_zchars _) fun _ => keeps_pure _

theorem keeps_expandAbbrev {K : List Kind} (levels idx : Nat) : Keeps K (expandAbbrev levels idx) := by
  induction levels generalizing idx with
  | zero =>
    unfold expandAbbrev
    exact keeps_bind (keeps_abbrevCodes idx) fun _ => keeps_tooDeep
  | succ n ih =>
    unfold expandAbbrev
    exact keeps_bind (keeps_abbrevCodes idx) fun _ => keeps_zdecodeWith ih _

theorem keeps_decodeAt {K : List Kind} (a : Nat) : Keeps K (decodeAt a) :=
  keeps_bind (keeps_zchars a) fun _ => keeps_bind
    (keeps_bind (keeps_gets _) fun _ => keeps_zdecodeWith (fun _ => keeps_expandAbbrev _ _) _) fun _ => keeps_pure _

theorem keeps_request {K : List Kind} (hk : .emit ∈ K) (r : Request) : Keeps K (request r) :=
  keeps_update fun _ => .emit r hk

theorem keeps_printAt {K : List Kind} (hk : .emit ∈ K) (a : Nat) : Keeps K (printAt a) :=
  keeps_bind (keeps_decodeAt a) fun _ => keeps_request hk _

theorem keeps_inlineText {K : List Kind} (hk : .pc ∈ K) : Keeps K inlineText :=
  keeps_bind (keeps_gets _) fun _ => keeps_bind (keeps_decodeAt _) fun _ =>
    keeps_bind (keeps_update fun _ => .pc _ hk) fun _ => keeps_pure _

end Sys2Proof.Machine
end

