-- ==== Sys2Proof/Laws/Calls.lean ====
section
/-! SUPPORT. The call operation answers `State.called` exactly where the routine is callable. -/

namespace Sys2Proof.Machine

theorem getElem_setLocals (ls : Vector Word 15) (i : Nat) (vs : List Word) (k : Nat) (hk : k < 15) :
    (setLocals ls i vs)[k] = if i ≤ k ∧ k < i + vs.length then vs.getD (k - i) 0#16 else ls[k] := by
  induction vs generalizing ls i with
  | nil =>
    rw [setLocals, if_neg (by simp)]
  | cons v vs ih =>
    rw [setLocals, ih, Vector.getElem_setIfInBounds hk]
    by_cases h1 : i = k
    · subst h1
      simp
    · by_cases h2 : i ≤ k ∧ k < i + (v :: vs).length
      · obtain ⟨j, rfl⟩ : ∃ j, k = i + 1 + j := ⟨k - i - 1, by omega⟩
        have h3 : i + 1 ≤ i + 1 + j ∧ i + 1 + j < i + 1 + vs.length := by
          simp at h2; omega
        rw [if_pos h3, if_pos h2, show i + 1 + j - (i + 1) = j by omega, show i + 1 + j - i = j + 1 by omega]
        simp
      · have h3 : ¬ (i + 1 ≤ k ∧ k < i + 1 + vs.length) := by
          simp at h2; omega
        rw [if_neg h2, if_neg h3, if_neg h1]

theorem readDefaults_ok {s : State} {a n : Nat} (h : n = 0 ∨ s.inRange a (2 * n)) :
    ∃ vs, readDefaults a n s = .ok vs s ∧ vs.length = n ∧ ∀ i, i < n → vs.getD i 0#16 = s.wordAt (a + 2 * i) := by
  induction n generalizing a with
  | zero => exact ⟨[], rfl, rfl, by simp⟩
  | succ n ih =>
    have hr : s.inRange a (2 * (n + 1)) := by simpa using h
    obtain ⟨vs, hvs, hl, hg⟩ := ih (a := a + 2) (by right; show _ ≤ _; have : a + 2 * (n + 1) ≤ s.memSize := hr; omega)
    have h2 : s.inRange a 2 := by show _ ≤ _; have : a + 2 * (n + 1) ≤ s.memSize := hr; omega
    refine ⟨s.wordAt a :: vs, by simp [readDefaults, memWord_ok h2, hvs], by simp [hl], ?_⟩
    intro i hi
    cases i with
    | zero => simp
    | succ i =>
      have := hg i (by omega)
      rw [show a + 2 + 2 * i = a + 2 * (i + 1) by omega] at this
      simpa using this

theorem readDefaults_fatal {s : State} {a n : Nat} (hn : n ≠ 0) (h : ¬ s.inRange a (2 * n)) :
    ∃ c, readDefaults a n s = .error (.fatal c) s := by
  induction n generalizing a with
  | zero => simp at hn
  | succ n ih =>
    by_cases h2 : s.inRange a 2
    · by_cases hn' : n = 0
      · subst hn'
        exact absurd h2 h
      · have hr : ¬ s.inRange (a + 2) (2 * n) := by
          intro hr
          exact h (by show _ ≤ _; have : a + 2 + 2 * n ≤ s.memSize := hr; omega)
        obtain ⟨c, hc⟩ := ih hn' hr
        exact ⟨c, by simp [readDefaults, memWord_ok h2, hc]⟩
    · exact ⟨_, by simp [readDefaults, memWord_fatal h2]; rfl⟩

/-- The locals a call builds are those of `State.calleeLocals`. -/
theorem setLocals_eq_calleeLocals {s : State} {routine : Word} {args defaults : List Word}
    (hl : defaults.length = if s.late then 0 else s.localCount routine)
    (hd : s.late = false → ∀ i, i < s.localCount routine →
      defaults.getD i 0#16 = s.wordAt (s.unpack routine + 1 + 2 * i)) :
    setLocals (setLocals (Vector.replicate 15 0#16) 0 defaults) 0 args = s.calleeLocals routine args := by
  apply Vector.ext
  intro i hi
  rw [getElem_setLocals _ _ _ _ hi, getElem_setLocals _ _ _ _ hi, State.calleeLocals, Vector.getElem_ofFn]
  simp only [Nat.zero_le, true_and, Nat.zero_add, Nat.sub_zero, Vector.getElem_replicate, hl]
  cases hlate : s.late with
  | true => simp
  | false =>
    simp only [Bool.false_eq_true, if_false, true_and]
    by_cases h1 : i < args.length
    · simp only [h1, if_true]
    · by_cases h2 : i < s.localCount routine
      · simp only [h1, h2, if_true, if_false, hd hlate i h2]
      · simp only [h1, h2, if_false]

/-- A callable routine is entered (R281). -/
theorem call_ok {s : State} {routine : Word} {args : List Word} {want : Bool} (h0 : routine ≠ 0#16)
    (h : s.callable routine) : call routine args want s = .ok () (s.called routine args want) := by
  obtain ⟨hd, hr, hn, hdef⟩ := h
  have hn' : ¬ 15 < s.localCount routine := by omega
  have hb : (s.mem.byte (s.unpack routine)).toNat = s.localCount routine := rfl
  cases hl : s.late with
  | true =>
    have hloc := setLocals_eq_calleeLocals (s := s) (routine := routine) (args := args) (defaults := [])
      (by simp [hl]) (by simp [hl])
    simp [call, h0, hd, memByte_ok hr, hb, hn', hl, hloc, State.called]
  | false =>
    obtain ⟨vs, hvs, hlen, hg⟩ := readDefaults_ok (s := s) (a := s.unpack routine + 1)
      (n := s.localCount routine) (.inr (hdef hl))
    have hloc := setLocals_eq_calleeLocals (s := s) (routine := routine) (args := args) (defaults := vs)
      (by simp [hl, hlen]) (fun _ => hg)
    simp [call, h0, hd, memByte_ok hr, hb, hn', hl, hvs, hloc, State.called]

/-- Any other routine but address 0 is fatal, with nothing changed. -/
theorem call_fatal {s : State} {routine : Word} {args : List Word} {want : Bool} (h0 : routine ≠ 0#16)
    (h : ¬ s.callable routine) : ∃ c, call routine args want s = .error (.fatal c) s := by
  have hb : (s.mem.byte (s.unpack routine)).toNat = s.localCount routine := rfl
  by_cases hd : withinLimit (s.below.length + 2) s.params.frameDepth = true
  · by_cases hr : s.inRange (s.unpack routine) 1
    · by_cases hn : 15 < s.localCount routine
      · exact ⟨_, by simp [call, h0, hd, memByte_ok hr, hb, hn]; rfl⟩
      · cases hl : s.late with
        | true => exact absurd ⟨hd, hr, by omega, by simp [hl]⟩ h
        | false =>
          have hdef : ¬ s.inRange (s.unpack routine + 1) (2 * s.localCount routine) :=
            fun hx => h ⟨hd, hr, by omega, fun _ => hx⟩
          have hz : s.localCount routine ≠ 0 := by
            intro hz
            rw [hz] at hdef
            exact hdef hr
          obtain ⟨c, hc⟩ := readDefaults_fatal hz hdef
          exact ⟨c, by simp [call, h0, hd, memByte_ok hr, hb, hn, hl, hc]⟩
    · exact ⟨_, by simp [call, h0, hd, memByte_fatal hr]; rfl⟩
  · exact ⟨.stackOverflow, by simp [call, h0, hd]⟩

theorem call_zero_noResult (s : State) (args : List Word) : call 0#16 args false s = .ok () s := by
  simp [call]

theorem call_zero_result (s : State) (args : List Word) : call 0#16 args true s = store 0#16 s := by
  simp [call]

theorem keeps_call {K : List Kind} (hk : [.enter, .pc, .push, .loc, .glob] ⊆ K) (routine : Word)
    {args : List Word} (hargs : args.length ≤ 7) (want : Bool) : Keeps K (call routine args want) := by
  intro s
  by_cases h0 : routine = 0#16
  · subst h0
    cases want with
    | true =>
      rw [call_zero_result]
      exact keeps_store (fun _ h => hk (List.mem_cons_of_mem _ h)) _ s
    | false =>
      rw [call_zero_noResult]
      exact .refl s
  · by_cases hc : s.callable routine
    · rw [call_ok h0 hc]
      exact .one (.enter _ (hk (by simp)) hargs rfl hc.1)
    · obtain ⟨c, h⟩ := call_fatal (args := args) (want := want) h0 hc
      rw [h]
      exact .refl s

end Sys2Proof.Machine
end

