-- ==== Sys2Proof/Laws/Decode.lean ====
section
/-! SUPPORT. The decoder on encoded bytes, form by form; what the decoder answers; and how many bytes it needs. -/

namespace Sys2Proof

/-! ### Operands -/

/-- The type of an operand. -/
def Operand.type : Operand → OperandType
  | .large _ => .large
  | .small _ => .small
  | .var _ => .var

/-- How many stream bytes an operand of a type takes (R100). -/
def OperandType.size : OperandType → Nat
  | .large => 2
  | .small => 1
  | .var => 1

theorem operandType_typeCode (op : Operand) : operandType (typeCode op) = some op.type := by
  cases op <;> rfl

theorem typeFields_append (c0 c1 c2 c3 : BitVec 2) : typeFields (c0 ++ c1 ++ c2 ++ c3) = [c0, c1, c2, c3] := by
  revert c0 c1 c2 c3
  decide

theorem typesOf_typeByte {ops : List Operand} (h : ops.length ≤ 4) : typesOf (typeByte ops) = ops.map Operand.type := by
  unfold typesOf typeByte
  rw [typeFields_append]
  have end_ : operandType 0b11#2 = none := rfl
  match ops, h with
  | [], _ => rfl
  | [a], _ => simp [fieldCode, scanTypes, operandType_typeCode, end_]
  | [a, b], _ => simp [fieldCode, scanTypes, operandType_typeCode, end_]
  | [a, b, c], _ => simp [fieldCode, scanTypes, operandType_typeCode, end_]
  | [a, b, c, d], _ => simp [fieldCode, scanTypes, operandType_typeCode]

theorem append_bytes (w : Word) : w.extractLsb' 8 8 ++ w.extractLsb' 0 8 = w := by
  apply BitVec.eq_of_getLsbD_eq
  intro i hi
  rw [BitVec.getLsbD_append]
  by_cases h : i < 8
  · simp [h]
  · simp [h, show i - 8 < 8 by omega, show 8 + (i - 8) = i by omega]

theorem takeOperand_encode (op : Operand) (rest : List Byte) :
    takeOperand op.type (encodeOperand op ++ rest) = some (op, rest) := by
  cases op with
  | large w => simp [Operand.type, encodeOperand, takeOperand, append_bytes]
  | small b => rfl
  | var n => rfl

theorem takeOperands_encode (ops : List Operand) (rest : List Byte) :
    takeOperands (ops.map Operand.type) (encodeOperands ops ++ rest) = .ok (ops, rest) := by
  induction ops with
  | nil => rfl
  | cons op ops ih =>
    have : encodeOperands (op :: ops) ++ rest = encodeOperand op ++ (encodeOperands ops ++ rest) := by
      simp [encodeOperands]
    simp [this, takeOperands, takeOperand_encode, ih]

theorem takeOperand_some {ty : OperandType} {bs rest : List Byte} {op : Operand}
    (h : takeOperand ty bs = some (op, rest)) :
    ∃ used, bs = used ++ rest ∧ used.length = (encodeOperand op).length ∧ op.type = ty := by
  unfold takeOperand at h
  split at h
  · rename_i hi lo bs'
    simp at h
    obtain ⟨rfl, rfl⟩ := h
    exact ⟨[hi, lo], rfl, rfl, rfl⟩
  · rename_i b bs'
    simp at h
    obtain ⟨rfl, rfl⟩ := h
    exact ⟨[b], rfl, rfl, rfl⟩
  · rename_i n bs'
    simp at h
    obtain ⟨rfl, rfl⟩ := h
    exact ⟨[n], rfl, rfl, rfl⟩
  · simp at h

theorem takeOperand_none {ty : OperandType} {bs : List Byte} (h : takeOperand ty bs = none) : bs.length < ty.size := by
  cases ty with
  | large =>
    match bs with
    | [] => simp [OperandType.size]
    | [_] => simp [OperandType.size]
    | _ :: _ :: _ => simp [takeOperand] at h
  | small =>
    match bs with
    | [] => simp [OperandType.size]
    | _ :: _ => simp [takeOperand] at h
  | var =>
    match bs with
    | [] => simp [OperandType.size]
    | _ :: _ => simp [takeOperand] at h

theorem length_encodeOperand (op : Operand) : (encodeOperand op).length = op.type.size := by
  cases op <;> rfl

/-- What taking operands answers: the operands of the types asked for, and the bytes they stand in. -/
theorem takeOperands_ok {tys : List OperandType} {bs rest : List Byte} {ops : List Operand}
    (h : takeOperands tys bs = .ok (ops, rest)) :
    ops.map Operand.type = tys ∧ ∃ used, bs = used ++ rest ∧ used.length = (encodeOperands ops).length := by
  induction tys generalizing bs ops with
  | nil =>
    simp [takeOperands] at h
    obtain ⟨rfl, rfl⟩ := h
    exact ⟨rfl, [], rfl, rfl⟩
  | cons ty tys ih =>
    unfold takeOperands at h
    split at h
    · simp at h
    · rename_i op bs' h1
      split at h
      · rename_i ops' rest' h2
        simp at h
        obtain ⟨rfl, rfl⟩ := h
        obtain ⟨u1, hb1, hl1, ht1⟩ := takeOperand_some h1
        obtain ⟨ht2, u2, hb2, hl2⟩ := ih h2
        exact ⟨by simp [ht1, ht2], u1 ++ u2, by rw [hb1, hb2, List.append_assoc],
          by simp [hl1, hl2, encodeOperands]⟩
      · simp at h

theorem takeOperands_error {tys : List OperandType} {bs : List Byte} {ops : List Operand}
    (h : takeOperands tys bs = .error ops) :
    (encodeOperands ops).length ≤ bs.length ∧ bs.length < (tys.map OperandType.size).sum := by
  induction tys generalizing bs ops with
  | nil => simp [takeOperands] at h
  | cons ty tys ih =>
    unfold takeOperands at h
    split at h
    · rename_i h1
      simp at h
      subst h
      have := takeOperand_none h1
      simp [encodeOperands]
      omega
    · rename_i op bs' h1
      split at h
      · simp at h
      · rename_i ops' h2
        simp at h
        subst h
        obtain ⟨u1, hb1, hl1, ht1⟩ := takeOperand_some h1
        obtain ⟨h3, h4⟩ := ih h2
        rw [length_encodeOperand, ht1] at hl1
        subst hb1
        simp [encodeOperands, length_encodeOperand, ht1] at h3 ⊢
        omega

theorem length_typesOf (t : Byte) : (typesOf t).length ≤ 4 ∧ ((typesOf t).map OperandType.size).sum ≤ 8 := by
  revert t
  decide

theorem size_encodeOperands (ops : List Operand) :
    (encodeOperands ops).length = ((ops.map Operand.type).map OperandType.size).sum := by
  induction ops with
  | nil => rfl
  | cons op ops ih =>
    simp [encodeOperands, length_encodeOperand] at ih ⊢
    simpa using ih

/-! ### The forms -/

theorem long_byte (ta tb : BitVec 1) (slot : BitVec 5) :
    let o : Byte := 0#1 ++ ta ++ tb ++ slot
    o ≠ 0xBE#8 ∧ o.toNat < 0x80 ∧ o.toNat % 32 = slot.toNat ∧ o.setWidth 5 = slot ∧
      o.getLsbD 6 = (ta == 1#1) ∧ o.getLsbD 5 = (tb == 1#1) := by
  revert ta tb slot
  decide

theorem typed2_byte (slot : BitVec 5) :
    let o : Byte := 0b110#3 ++ slot
    o ≠ 0xBE#8 ∧ ¬ o.toNat < 0x80 ∧ ¬ o.toNat < 0xB0 ∧ ¬ o.toNat < 0xC0 ∧ o.toNat < 0xE0 ∧
      o.toNat % 32 = slot.toNat ∧ o.setWidth 5 = slot := by
  revert slot
  decide

theorem var_byte (slot : BitVec 5) :
    let o : Byte := 0b111#3 ++ slot
    o ≠ 0xBE#8 ∧ ¬ o.toNat < 0x80 ∧ ¬ o.toNat < 0xB0 ∧ ¬ o.toNat < 0xC0 ∧ ¬ o.toNat < 0xE0 ∧
      o.toNat % 32 = slot.toNat ∧ o.setWidth 5 = slot := by
  revert slot
  decide

theorem short_byte (c : BitVec 2) (slot : BitVec 4) (hc : c ≠ 0b11#2) :
    let o : Byte := 0b10#2 ++ c ++ slot
    o ≠ 0xBE#8 ∧ ¬ o.toNat < 0x80 ∧ o.toNat < 0xB0 ∧ o.toNat % 16 = slot.toNat ∧ o.extractLsb' 4 2 = c := by
  revert c slot
  decide

theorem zero_byte (slot : BitVec 4) (hs : slot ≠ 0xE#4) :
    let o : Byte := 0b1011#4 ++ slot
    o ≠ 0xBE#8 ∧ ¬ o.toNat < 0x80 ∧ ¬ o.toNat < 0xB0 ∧ o.toNat < 0xC0 ∧ o.toNat % 16 = slot.toNat ∧
      o.setWidth 4 = slot := by
  revert slot
  decide

theorem longArg_byte (a : LongArg) : longArg (a.typeBit == 1#1) a.byte = a := by
  cases a <;> rfl

theorem decode_long (sl : Slot1Op0F) (slot : BitVec 5) (a b : LongArg) (rest : List Byte) :
    decode sl (encode2 slot (.long a b) ++ rest) =
      .ok ((table2 slot.toNat (.long a b)).getD (.unpopulatedSlot (.long slot a b)), rest) := by
  obtain ⟨h1, h2, h3, h4, h5, h6⟩ := long_byte a.typeBit b.typeBit slot
  simp only [encode2, List.cons_append, List.nil_append, decode, h1, h2, if_true, if_false, decodeLong, h3, h4,
    h5, h6, longArg_byte]

theorem decode_typed2 (sl : Slot1Op0F) (slot : BitVec 5) {ops : List Operand} (h : ops.length ≤ 4)
    (rest : List Byte) :
    decode sl (encode2 slot (.typed ops) ++ rest) =
      .ok ((table2 slot.toNat (.typed ops)).getD (.unpopulatedSlot (.typed2 slot ops)), rest) := by
  obtain ⟨h1, h2, h3, h4, h5, h6, h7⟩ := typed2_byte slot
  simp only [encode2, List.cons_append, decode, h1, h2, h3, h4, h5, if_true, if_false, decodeVar2, decodeTyped,
    typesOf_typeByte h, takeOperands_encode, h6, h7]

theorem decode_short1 (sl : Slot1Op0F) (slot : BitVec 4) (a : Operand) (rest : List Byte) :
    decode sl (encode1 slot a ++ rest) = .ok (table1 sl slot.toNat a, rest) := by
  obtain ⟨h1, h2, h3, h4, h5⟩ := short_byte (typeCode a) slot (by cases a <;> simp [typeCode])
  simp only [encode1, List.cons_append, decode, h1, h2, h3, if_true, if_false, decodeShort1, h4, h5,
    operandType_typeCode, takeOperand_encode]

theorem decode_short0 (sl : Slot1Op0F) (slot : BitVec 4) (hs : slot ≠ 0xE#4) (rest : List Byte) :
    decode sl (encode0 slot ++ rest) = .ok ((table0 slot.toNat).getD (.unpopulatedSlot (.zero slot)), rest) := by
  obtain ⟨h1, h2, h3, h4, h5, h6⟩ := zero_byte slot hs
  simp only [encode0, List.cons_append, List.nil_append, decode, h1, h2, h3, h4, if_true, if_false, decodeShort0,
    h5, h6]

theorem decode_var (sl : Slot1Op0F) (slot : BitVec 5) (hs : ¬ (slot.toNat = 0x0C ∨ slot.toNat = 0x1A))
    {ops : List Operand} (h : ops.length ≤ 4) (rest : List Byte) :
    decode sl (encodeVar slot ops ++ rest) =
      .ok ((tableVar slot.toNat ops).getD (.unpopulatedSlot (.typedVar slot ops)), rest) := by
  obtain ⟨h1, h2, h3, h4, h5, h6, h7⟩ := var_byte slot
  simp only [encodeVar, List.cons_append, decode, h1, h2, h3, h4, h5, if_false, decodeVar, h6, hs, decodeTyped,
    typesOf_typeByte h, takeOperands_encode, h7]

theorem decode_var2 (sl : Slot1Op0F) (slot : BitVec 5) (hs : slot.toNat = 0x0C ∨ slot.toNat = 0x1A)
    {ops1 ops2 : List Operand} (h1 : ops1.length ≤ 4) (h2 : ops2.length ≤ 4) (rest : List Byte) :
    decode sl (encodeVar2 slot ops1 ops2 ++ rest) =
      .ok ((tableVar2 slot.toNat ops1 ops2).getD (.unpopulatedSlot (.typedVar slot (ops1 ++ ops2))), rest) := by
  obtain ⟨b1, b2, b3, b4, b5, b6, b7⟩ := var_byte slot
  simp only [encodeVar2, List.cons_append, List.append_assoc, decode, b1, b2, b3, b4, b5, if_false, if_true,
    decodeVar, b6, hs, decodeTyped2, typesOf_typeByte h1, typesOf_typeByte h2, takeOperands_encode, b7]

theorem decode_ext (sl : Slot1Op0F) (e : Byte) {ops : List Operand} (h : ops.length ≤ 4) (rest : List Byte) :
    decode sl (encodeExt e ops ++ rest) =
      .ok ((tableExt (e.toNat % 32) ops).getD (.unpopulatedSlot (.extended e ops)), rest) := by
  simp only [encodeExt, List.cons_append, decode, if_true, decodeExt, decodeTyped, typesOf_typeByte h,
    takeOperands_encode]

theorem fits_of_typeByteFits {ops : List Operand} (h : typeByteFits ops = true) : ops.length ≤ 4 := by
  simpa [typeByteFits] using h

/-! ### Empty slots -/

theorem table2_empty {slot : BitVec 5} (args : Args2) (h : emptySlot2 slot.toNat = true) :
    table2 slot.toNat args = none := by
  have : ∀ s : BitVec 5, emptySlot2 s.toNat = true → ∀ a, table2 s.toNat a = none := by
    intro s hs a
    have : s = 0x00#5 ∨ s = 0x1C#5 ∨ s = 0x1D#5 ∨ s = 0x1E#5 ∨ s = 0x1F#5 := by revert s; decide
    rcases this with rfl | rfl | rfl | rfl | rfl <;> rfl
  exact this slot h args

theorem table0_empty {slot : BitVec 4} (h : emptySlot0 slot.toNat = true) :
    slot ≠ 0xE#4 ∧ table0 slot.toNat = none := by
  have : slot = 0xD#4 ∨ slot = 0xF#4 := by revert slot; decide
  rcases this with rfl | rfl <;> exact ⟨by decide, rfl⟩

theorem tableVar_empty {slot : BitVec 5} (ops : List Operand) (h : emptySlotVar slot.toNat = true) :
    ¬ (slot.toNat = 0x0C ∨ slot.toNat = 0x1A) ∧ tableVar slot.toNat ops = none := by
  have : slot = 0x0E#5 ∨ slot = 0x10#5 ∨ slot = 0x13#5 ∨ slot = 0x14#5 ∨ slot = 0x17#5 ∨ slot = 0x18#5 ∨
      slot = 0x1B#5 ∨ slot = 0x1C#5 ∨ slot = 0x1D#5 ∨ slot = 0x1E#5 := by revert slot; decide
  rcases this with rfl | rfl | rfl | rfl | rfl | rfl | rfl | rfl | rfl | rfl <;> exact ⟨by decide, rfl⟩

theorem tableExt_empty {n : Nat} (ops : List Operand) (h : emptySlotExt n = true) : tableExt n ops = none := by
  unfold tableExt
  simp [emptySlotExt] at h
  split
  · omega
  · omega
  · rfl

/-! ### What the decoder answers -/

/-- An answer of the decoder is sound: a well-formed instruction of this machine in the bytes it takes. -/
def SoundAnswer (sl : Slot1Op0F) (bs : List Byte) (i : Instr) (rest : List Byte) : Prop :=
  i.wellFormed = true ∧ i.presentIn sl = true ∧
    ∃ used, bs = used ++ rest ∧ used.length = i.headBytes + (encodeOperands i.operands).length ∧ used.length ≤ 19

/-- The bytes before the operands of a 2OP-table instruction. -/
def headOf2 : Args2 → Nat
  | .long _ _ => 1
  | .typed _ => 2

theorem table2_sound {slot : Nat} {args : Args2} {i : Instr} (h : table2 slot args = some i) (sl : Slot1Op0F) :
    i.wellFormed = args.wellFormed ∧ i.presentIn sl = true ∧
      i.headBytes = headOf2 args ∧ i.operands = args.operands := by
  unfold table2 at h
  split at h <;> simp at h <;> subst h <;> cases args <;> exact ⟨rfl, rfl, rfl, rfl⟩

theorem table1_sound (sl : Slot1Op0F) (slot : Nat) (a : Operand) :
    (table1 sl slot a).wellFormed = true ∧ (table1 sl slot a).presentIn sl = true ∧
      (table1 sl slot a).headBytes = 1 ∧ (table1 sl slot a).operands = [a] := by
  unfold table1
  split <;> first
    | exact ⟨rfl, rfl, rfl, rfl⟩
    | cases sl <;> exact ⟨rfl, rfl, rfl, rfl⟩

theorem table0_sound {slot : Nat} {i : Instr} (h : table0 slot = some i) (sl : Slot1Op0F) :
    i.wellFormed = true ∧ i.presentIn sl = true ∧ i.headBytes = 1 ∧ i.operands = [] := by
  unfold table0 at h
  split at h <;> simp at h <;> subst h <;> exact ⟨rfl, rfl, rfl, rfl⟩

theorem tableVar_sound {slot : Nat} {ops : List Operand} {i : Instr} (h : tableVar slot ops = some i)
    (sl : Slot1Op0F) :
    i.wellFormed = typeByteFits ops ∧ i.presentIn sl = true ∧ i.headBytes = 2 ∧ i.operands = ops := by
  unfold tableVar at h
  split at h <;> simp at h <;> subst h <;> exact ⟨rfl, rfl, rfl, rfl⟩

theorem tableVar2_sound {slot : Nat} {ops1 ops2 : List Operand} {i : Instr}
    (h : tableVar2 slot ops1 ops2 = some i) (sl : Slot1Op0F) :
    i.wellFormed = (typeByteFits ops1 && typeByteFits ops2) ∧ i.presentIn sl = true ∧ i.headBytes = 3 ∧
      i.operands = ops1 ++ ops2 := by
  unfold tableVar2 at h
  split at h <;> simp at h <;> subst h <;> exact ⟨rfl, rfl, rfl, rfl⟩

theorem tableExt_sound {slot : Nat} {ops : List Operand} {i : Instr} (h : tableExt slot ops = some i)
    (sl : Slot1Op0F) :
    i.wellFormed = typeByteFits ops ∧ i.presentIn sl = true ∧ i.headBytes = 3 ∧ i.operands = ops := by
  unfold tableExt at h
  split at h <;> simp at h <;> subst h <;> exact ⟨rfl, rfl, rfl, rfl⟩

theorem table2_none {slot : Nat} (hs : slot < 32) {args : Args2} (h : table2 slot args = none) :
    emptySlot2 slot = true := by
  interval_cases slot <;> first
    | rfl
    | simp [table2] at h

theorem table0_none {slot : Nat} (hs : slot < 16) (he : slot ≠ 0xE) (h : table0 slot = none) :
    emptySlot0 slot = true := by
  interval_cases slot <;> first
    | rfl
    | exact absurd rfl he
    | simp [table0] at h

theorem tableVar_none {slot : Nat} (hs : slot < 32) (hn : ¬ (slot = 0x0C ∨ slot = 0x1A)) {ops : List Operand}
    (h : tableVar slot ops = none) : emptySlotVar slot = true := by
  interval_cases slot <;> first
    | rfl
    | exact absurd (by decide) hn
    | simp [tableVar] at h

theorem tableExt_none {slot : Nat} {ops : List Operand} (h : tableExt slot ops = none) :
    emptySlotExt slot = true := by
  match slot, h with
  | 0, h => simp [tableExt] at h
  | 1, h => simp [tableExt] at h
  | n + 2, _ => simp [emptySlotExt]

/-- Operands taken by a type byte fit one type byte and take at most 8 bytes. -/
theorem takeOperands_typesOf {t : Byte} {bs rest : List Byte} {ops : List Operand}
    (h : takeOperands (typesOf t) bs = .ok (ops, rest)) :
    typeByteFits ops = true ∧ (encodeOperands ops).length ≤ 8 ∧
      ∃ used, bs = used ++ rest ∧ used.length = (encodeOperands ops).length := by
  obtain ⟨ht, hu⟩ := takeOperands_ok h
  obtain ⟨h4, h8⟩ := length_typesOf t
  refine ⟨?_, ?_, hu⟩
  · have : ops.length = (typesOf t).length := by rw [← ht]; simp
    simp [typeByteFits, this, h4]
  · rw [size_encodeOperands, ht]; exact h8

/-- Every answer of the decoder is sound. -/
theorem decode_sound {sl : Slot1Op0F} {bs rest : List Byte} {i : Instr} (h : decode sl bs = .ok (i, rest)) :
    SoundAnswer sl bs i rest := by
  unfold decode at h
  split at h
  · simp at h
  · rename_i o bs
    split at h
    · unfold decodeExt at h
      split at h
      · simp at h
      · rename_i ho e bs
        unfold decodeTyped at h
        split at h
        · simp at h
        · rename_i t bs
          split at h
          · rename_i ops rest' hops
            obtain ⟨hf, h8, used, hb, hl⟩ := takeOperands_typesOf hops
            cases htab : tableExt (e.toNat % 32) ops with
            | some j =>
              simp only [htab, Option.getD] at h
              cases h
              obtain ⟨w, p, hh, ho⟩ := tableExt_sound htab sl
              exact ⟨by simp [w, hf], by simp [p], o :: e :: t :: used, by simp [hb], by simp [hh, ho, hl]; omega,
                by simp [hl]; omega⟩
            | none =>
              simp only [htab, Option.getD] at h
              cases h
              exact ⟨by simp [Instr.wellFormed, Unpopulated.wellFormed, tableExt_none htab, hf], rfl,
                o :: e :: t :: used, by simp [hb],
                by simp [Instr.headBytes, Instr.operands, hl]; omega, by simp [hl]; omega⟩
          · simp at h
    · rename_i ho
      split at h
      · unfold decodeLong at h
        split at h
        · simp at h
        · simp at h
        · rename_i x y rest'
          have hsz : ∀ (a b : LongArg), (encodeOperands [a.operand, b.operand]).length = 2 := by
            intro a b; cases a <;> cases b <;> rfl
          cases htab : table2 (o.toNat % 32) (.long (longArg (o.getLsbD 6) x) (longArg (o.getLsbD 5) y)) with
          | some j =>
            simp only [htab, Option.getD] at h
            cases h
            obtain ⟨w, p, hh, hop⟩ := table2_sound htab sl
            exact ⟨by simp [w, Args2.wellFormed], by simp [p], [o, x, y], rfl,
              by simp [hh, headOf2, hop, Args2.operands, hsz], by simp⟩
          | none =>
            simp only [htab, Option.getD] at h
            cases h
            have := table2_none (Nat.mod_lt _ (by decide)) htab
            exact ⟨by simp [Instr.wellFormed, Unpopulated.wellFormed, this], rfl, [o, x, y], rfl,
              by simp [Instr.headBytes, Instr.operands, hsz], by simp⟩
      · split at h
        · unfold decodeShort1 at h
          split at h
          · simp at h
          · split at h
            · simp at h
            · rename_i a rest' hop
              simp at h
              obtain ⟨rfl, rfl⟩ := h
              obtain ⟨used, hb, hl, -⟩ := takeOperand_some hop
              obtain ⟨w, p, hh, hop'⟩ := table1_sound sl (o.toNat % 16) a
              have hs : (encodeOperand a).length ≤ 2 := by cases a <;> simp [encodeOperand]
              exact ⟨w, p, o :: used, by simp [hb], by simp [hh, hop', encodeOperands, hl]; omega,
                by simp [hl]; omega⟩
        · split at h
          · unfold decodeShort0 at h
            cases htab : table0 (o.toNat % 16) with
            | some j =>
              simp only [htab, Option.getD] at h
              cases h
              obtain ⟨w, p, hh, hop⟩ := table0_sound htab sl
              exact ⟨by simp [w], by simp [p], [o], rfl, by simp [hh, hop, encodeOperands], by simp⟩
            | none =>
              simp only [htab, Option.getD] at h
              cases h
              have hE : o.toNat % 16 ≠ 0xE := by
                intro he
                apply ho
                apply BitVec.eq_of_toNat_eq
                simp
                omega
              have := table0_none (Nat.mod_lt _ (by decide)) hE htab
              exact ⟨by simp [Instr.wellFormed, Unpopulated.wellFormed, this], rfl, [o], rfl,
                by simp [Instr.headBytes, Instr.operands, encodeOperands], by simp⟩
          · split at h
            · unfold decodeVar2 decodeTyped at h
              split at h
              · simp at h
              · rename_i t bs
                split at h
                · rename_i ops rest' hops
                  obtain ⟨hf, h8, used, hb, hl⟩ := takeOperands_typesOf hops
                  cases htab : table2 (o.toNat % 32) (.typed ops) with
                  | some j =>
                    simp only [htab, Option.getD] at h
                    cases h
                    obtain ⟨w, p, hh, hop⟩ := table2_sound htab sl
                    exact ⟨by simp [w, Args2.wellFormed, hf], by simp [p], o :: t :: used, by simp [hb],
                      by simp [hh, headOf2, hop, Args2.operands, hl]; omega, by simp [hl]; omega⟩
                  | none =>
                    simp only [htab, Option.getD] at h
                    cases h
                    have := table2_none (Nat.mod_lt _ (by decide)) htab
                    exact ⟨by simp [Instr.wellFormed, Unpopulated.wellFormed, this, hf], rfl,
                      o :: t :: used, by simp [hb],
                      by simp [Instr.headBytes, Instr.operands, hl]; omega, by simp [hl]; omega⟩
                · simp at h
            · unfold decodeVar at h
              simp only at h
              split at h
              · rename_i hslot
                unfold decodeTyped2 at h
                split at h
                · simp at h
                · simp at h
                · rename_i t1 t2 bs
                  split at h
                  · simp at h
                  · rename_i ops1 bs' hops1
                    split at h
                    · simp at h
                    · rename_i ops2 rest' hops2
                      obtain ⟨hf1, h81, u1, hb1, hl1⟩ := takeOperands_typesOf hops1
                      obtain ⟨hf2, h82, u2, hb2, hl2⟩ := takeOperands_typesOf hops2
                      cases htab : tableVar2 (o.toNat % 32) ops1 ops2 with
                      | some j =>
                        simp only [htab, Option.getD] at h
                        cases h
                        obtain ⟨w, p, hh, hop⟩ := tableVar2_sound htab sl
                        exact ⟨by simp [w, hf1, hf2], by simp [p], o :: t1 :: t2 :: (u1 ++ u2), by simp [hb1, hb2],
                          by simp [hh, hop, encodeOperands] at hl1 hl2 ⊢; omega, by simp [hl1, hl2]; omega⟩
                      | none =>
                        rcases hslot with hs | hs <;> rw [hs] at htab <;> simp [tableVar2] at htab
              · rename_i hslot
                unfold decodeTyped at h
                split at h
                · simp at h
                · rename_i t bs
                  split at h
                  · rename_i ops rest' hops
                    obtain ⟨hf, h8, used, hb, hl⟩ := takeOperands_typesOf hops
                    cases htab : tableVar (o.toNat % 32) ops with
                    | some j =>
                      simp only [htab, Option.getD] at h
                      cases h
                      obtain ⟨w, p, hh, hop⟩ := tableVar_sound htab sl
                      exact ⟨by simp [w, hf], by simp [p], o :: t :: used, by simp [hb],
                        by simp [hh, hop, hl]; omega, by simp [hl]; omega⟩
                    | none =>
                      simp only [htab, Option.getD] at h
                      cases h
                      have := tableVar_none (Nat.mod_lt _ (by decide)) hslot htab
                      exact ⟨by simp [Instr.wellFormed, Unpopulated.wellFormed, this, hf], rfl,
                        o :: t :: used, by simp [hb],
                        by simp [Instr.headBytes, Instr.operands, hl]; omega, by simp [hl]; omega⟩
                  · simp at h

/-- A well-formed instruction has at most eight operands (R90). -/
theorem operands_le_of_wellFormed {i : Instr} (h : i.wellFormed = true) : i.operands.length ≤ 8 := by
  have ha : ∀ {args : Args2}, args.wellFormed = true → args.operands.length ≤ 8 := by
    intro args h
    cases args with
    | long a b => simp [Args2.operands]
    | typed ops => have := fits_of_typeByteFits h; simp [Args2.operands]; omega
  have ho : ∀ {ops : List Operand}, typeByteFits ops = true → ops.length ≤ 8 := fun h => by
    have := fits_of_typeByteFits h; omega
  cases i
  case save f => cases f <;> simp_all [Instr.wellFormed, SaveForm.wellFormed, Instr.operands, typeByteFits]
  case restore f => cases f <;> simp_all [Instr.wellFormed, SaveForm.wellFormed, Instr.operands, typeByteFits]
  case unpopulatedSlot u =>
    cases u <;> simp_all [Instr.wellFormed, Unpopulated.wellFormed, Instr.operands, typeByteFits]
  case callVs2 a b => simp_all [Instr.wellFormed, Instr.operands, typeByteFits]; omega
  case callVn2 a b => simp_all [Instr.wellFormed, Instr.operands, typeByteFits]; omega
  all_goals first
    | exact ha h
    | exact ho h

end Sys2Proof
end

