-- ==== Sys2Proof/Laws/Effects.lean ====
section
/-! SUPPORT. The kinds of change of every instruction and of every step. -/

namespace Sys2Proof.Machine

/-! ### The host port and input -/

theorem keeps_takeKey {K : List Kind} (hk : .reply ∈ K) : Keeps K takeKey := by
  intro s
  unfold takeKey
  split
  · exact .one (.reply _ s.draws hk rfl)
  · exact .one (.reply s.inbox _ hk rfl)

theorem keeps_takeSaveReply {K : List Kind} (hk : .reply ∈ K) : Keeps K takeSaveReply := by
  intro s
  unfold takeSaveReply
  split
  · exact .one (.reply _ s.draws hk rfl)
  · exact .one (.reply s.inbox _ hk rfl)

theorem keeps_takeRestoreReply {K : List Kind} (hk : .reply ∈ K) : Keeps K takeRestoreReply := by
  intro s
  unfold takeRestoreReply
  split
  · exact .one (.reply _ s.draws hk rfl)
  · exact .one (.reply s.inbox _ hk rfl)

theorem keeps_signalSuccess {K : List Kind} (hk : [.leave, .pc, .push, .loc, .glob] ⊆ K) (ok : Bool) :
    Keeps K (signalSuccess ok) :=
  keeps_bind (keeps_gets _) fun _ =>
    keeps_ite (keeps_store (fun _ h => hk (List.mem_cons_of_mem _ h)) _) (keeps_branch hk _)

theorem keeps_checkDynamic {K : List Kind} : Keeps K checkDynamic :=
  keeps_bind (keeps_gets _) fun _ => keeps_checkRange _ _

theorem keeps_saveBody {K : List Kind} (hk : [.reply, .emit, .leave, .pc, .push, .loc, .glob] ⊆ K) :
    Keeps K saveBody :=
  keeps_bind keeps_checkDynamic fun _ => keeps_bind (keeps_gets _) fun _ =>
    keeps_bind (keeps_takeSaveReply (hk (by simp))) fun _ => keeps_bind (keeps_request (hk (by simp)) _) fun _ =>
      keeps_signalSuccess (fun _ h => hk (by simp at h ⊢; tauto)) _

theorem keeps_restoreBody {K : List Kind} (hk : [.reply, .emit, .restore, .leave, .pc, .push, .loc, .glob] ⊆ K) :
    Keeps K restoreBody := by
  have hs : [.leave, .pc, .push, .loc, .glob] ⊆ K := fun _ h => hk (by simp at h ⊢; tauto)
  refine keeps_bind (keeps_takeRestoreReply (hk (by simp))) fun reply =>
    keeps_bind (keeps_request (hk (by simp)) _) fun _ => ?_
  cases reply with
  | none => exact keeps_signalSuccess hs _
  | some r =>
    intro s
    simp only [M.bind_apply, gets_apply]
    split
    · rename_i ha
      by_cases hr : s.inRange 0 s.cfg.staticBase.toNat
      · have : checkDynamic s = .ok () s := by simp [checkDynamic, checkRange_ok hr]
        simp only [M.bind_apply, this, update_apply]
        exact (Changes.one (.restore r (hk (by simp)) ha hr)).trans (keeps_signalSuccess hs _ _)
      · have : checkDynamic s = .error (.fatal (.memRange 0)) s := by
          simp [checkDynamic, checkRange_fatal hr]
        simp only [M.bind_apply, this]
        exact .refl s
    · exact keeps_signalSuccess hs _ s

theorem keeps_drawRandom {K : List Kind} (hk : .draw ∈ K) (r : Nat) : Keeps K (drawRandom r) :=
  fun _ => .one (.draw _ _ hk)

theorem keeps_storeUnlessZero {K : List Kind} (hk : [.pc, .push, .loc, .glob] ⊆ K) (b : Word) (r : Int) :
    Keeps K (storeUnlessZero b r) :=
  keeps_bind (keeps_fetch8 (hk (by simp))) fun _ =>
    keeps_ite (keeps_pure _) (keeps_writeVar (fun _ h => hk (List.mem_cons_of_mem _ h)) _ _)

/-- The registers latched again are those of the image in memory (R333, R381). -/
theorem relatch_ok {s : State} (h : s.inRange 0 26) : relatch s = .ok () { s with cfg := latchedFrom s.mem } := by
  have hr : 26 ≤ s.memSize := by simpa [State.inRange] using h
  have w : ∀ a, a + 2 ≤ 26 → memWord a s = .ok (headerWord s.mem a) s := fun a ha =>
    memWord_ok (show a + 2 ≤ s.memSize by omega)
  have b : memByte hdrVersion s = .ok (s.mem.byte hdrVersion) s :=
    memByte_ok (show hdrVersion + 1 ≤ s.memSize by simp [hdrVersion]; omega)
  simp [relatch, b, w hdrPc0 (by decide), w hdrDict (by decide), w hdrObjTab (by decide),
    w hdrGlobals (by decide), w hdrStatic (by decide), w hdrAbbrev (by decide), latchedFrom]

theorem relatch_short {s : State} (h : ¬ s.inRange 0 26) : ∃ c, relatch s = .error (.fatal c) s := by
  have hr : ¬ 26 ≤ s.memSize := by simpa [State.inRange] using h
  have w : ∀ a, memWord a s = .ok (headerWord s.mem a) s ∨ memWord a s = .error (.fatal (.memRange a)) s := by
    intro a
    by_cases ha : s.inRange a 2
    · exact .inl (memWord_ok ha)
    · exact .inr (memWord_fatal ha)
  have l : memWord hdrAbbrev s = .error (.fatal (.memRange hdrAbbrev)) s :=
    memWord_fatal (show ¬ hdrAbbrev + 2 ≤ s.memSize by simp [hdrAbbrev]; omega)
  have b : memByte hdrVersion s = .ok (s.mem.byte hdrVersion) s ∨
      memByte hdrVersion s = .error (.fatal (.memRange hdrVersion)) s := by
    by_cases ha : s.inRange hdrVersion 1
    · exact .inl (memByte_ok ha)
    · exact .inr (memByte_fatal ha)
  unfold relatch
  rcases b with b | b
  · rcases w hdrPc0 with w1 | w1
    · rcases w hdrDict with w2 | w2
      · rcases w hdrObjTab with w3 | w3
        · rcases w hdrGlobals with w4 | w4
          · rcases w hdrStatic with w5 | w5
            · exact ⟨.memRange hdrAbbrev, by simp [b, w1, w2, w3, w4, w5, l]⟩
            · exact ⟨.memRange hdrStatic, by simp [b, w1, w2, w3, w4, w5]⟩
          · exact ⟨.memRange hdrGlobals, by simp [b, w1, w2, w3, w4]⟩
        · exact ⟨.memRange hdrObjTab, by simp [b, w1, w2, w3]⟩
      · exact ⟨.memRange hdrDict, by simp [b, w1, w2]⟩
    · exact ⟨.memRange hdrPc0, by simp [b, w1]⟩
  · exact ⟨.memRange hdrVersion, by simp [b]⟩

theorem keeps_restartBody (vs : List Word) : Keeps [.reload] (bodyOf .restart vs) := by
  intro s
  have h1 : Changes [.reload] s { s with mem := s.story } := .one (.reloadMem (by simp))
  simp only [bodyOf, M.bind_apply, update_apply]
  by_cases hr : State.inRange { s with mem := s.story } 0 26
  · rw [relatch_ok hr]
    exact (h1.trans (.one (.reloadCfg (by simp) rfl))).trans (.one (.reloadFrames (by simp)))
  · obtain ⟨c, hc⟩ := relatch_short hr
    rw [hc]
    exact h1

theorem keeps_writeBytes {K : List Kind} (hk : .mem ∈ K) (a : Nat) (bs : List Byte) : Keeps K (writeBytes a bs) := by
  induction bs generalizing a with
  | nil => exact keeps_pure _
  | cons b bs ih => exact keeps_bind (keeps_memWrite hk _ _ _) fun _ => ih _

theorem keeps_writeLine {K : List Kind} (hk : .mem ∈ K) (t : Nat) (line : List Byte) : Keeps K (writeLine t line) :=
  keeps_bind (keeps_gets _) fun _ =>
    keeps_ite (keeps_bind (keeps_memWrite hk _ _ _) fun _ => keeps_writeBytes hk _ _) (keeps_writeBytes hk _ _)

theorem keeps_dictSearch {K : List Kind} (word : List Token) (stride more e : Nat) :
    Keeps K (dictSearch word stride more e) := by
  induction more generalizing e with
  | zero => exact keeps_pure _
  | succ n ih =>
    exact keeps_bind (keeps_decodeAt e) fun _ => keeps_ite (keeps_pure _) (ih _)

theorem keeps_dictLookup {K : List Kind} (tok : List Byte) : Keeps K (dictLookup tok) :=
  keeps_bind (keeps_gets _) fun _ => keeps_bind (keeps_gets _) fun _ => keeps_bind (keeps_memRead _ _) fun _ =>
    keeps_bind (keeps_memRead _ _) fun _ => keeps_bind (keeps_memRead _ _) fun _ => keeps_dictSearch _ _ _ _

theorem keeps_writeTokens {K : List Kind} (hk : .mem ∈ K) (a : Nat) (toks : List LineToken) :
    Keeps K (writeTokens a toks) := by
  induction toks generalizing a with
  | nil => exact keeps_pure _
  | cons tok toks ih =>
    exact keeps_bind (keeps_dictLookup _) fun _ => keeps_bind (keeps_memWrite hk _ _ _) fun _ =>
      keeps_bind (keeps_memWrite hk _ _ _) fun _ => keeps_bind (keeps_gets _) fun _ =>
        keeps_bind (keeps_memWrite hk _ _ _) fun _ => ih _

theorem keeps_completeInput {K : List Kind} (hk : [.mem, .pc, .push, .loc, .glob, .resume] ⊆ K)
    (line : List Byte) : Keeps K (completeInput line) := by
  have hs : [.pc, .push, .loc, .glob] ⊆ K := fun _ h => hk (by simp at h ⊢; tauto)
  have hm : .mem ∈ K := hk (by simp)
  have hu : Keeps K (update fun s => s.setRun .running) := keeps_update fun _ => .resume (hk (by simp))
  unfold completeInput
  refine keeps_bind (keeps_gets _) fun _ => keeps_bind (keeps_gets _) fun _ =>
    keeps_bind (keeps_memRead _ _) fun _ => keeps_bind (keeps_writeLine hm _ _) fun _ =>
    keeps_bind (keeps_memRead _ _) fun _ => keeps_bind (keeps_memWrite hm _ _ _) fun _ =>
    keeps_bind (keeps_writeTokens hm _ _) fun _ => keeps_bind (keeps_gets _) fun _ => ?_
  exact keeps_ite (keeps_bind (keeps_store hs _) fun _ => hu) hu

/-! ### Every instruction -/

/-- The kinds of a result for the store byte. -/
def storeKinds : List Kind := [.pc, .push, .loc, .glob]

/-- The kinds of a branch or a return. -/
def branchKinds : List Kind := .leave :: storeKinds

/-- The kinds of a call. -/
def callKinds : List Kind := .enter :: storeKinds

/-- The kinds of the bodies. -/
def kindsOf : Instr → List Kind
  | .je _ | .jl _ | .jg _ | .jin _ | .test _ | .testAttr _ | .jz _ | .checkArgCount _ | .getSibling _
  | .getChild _ | .ret _ | .rtrue | .rfalse => branchKinds
  | .decChk _ | .incChk _ => .top :: branchKinds
  | .or _ | .and _ | .loadw _ | .loadb _ | .getProp _ | .getPropAddr _ | .getNextProp _ | .add _ | .sub _
  | .mul _ | .div _ | .mod _ | .getParent _ | .getPropLen _ | .load _ | .not _ => storeKinds
  | .setAttr _ | .clearAttr _ => [.attrs]
  | .store _ | .inc _ | .dec _ => [.top, .loc, .glob]
  | .pull _ => [.pop, .top, .loc, .glob]
  | .insertObj _ | .removeObj _ => [.link]
  | .call2s _ | .call2n _ | .call1s _ | .call1n _ | .call _ | .callVs2 _ _ | .callVn _ | .callVn2 _ _ => callKinds
  | .setColour _ | .printAddr _ | .printObj _ | .printPaddr _ | .newLine | .showStatus | .printChar _
  | .printNum _ | .splitWindow _ | .setWindow _ | .eraseWindow _ | .setCursor _ | .setTextStyle _
  | .bufferMode _ | .soundEffect _ => [.emit]
  | .print => [.pc, .emit]
  | .printRet => .emit :: branchKinds
  | .jump _ => [.pc]
  | .nop | .unpopulatedSlot _ => []
  | .save _ => .reply :: .emit :: branchKinds
  | .restore _ => .reply :: .emit :: .restore :: branchKinds
  | .restart => [.reload]
  | .retPopped => .pop :: branchKinds
  | .pop => [.pop]
  | .quit => [.emit, .halt]
  | .storew _ | .storeb _ | .putProp _ => [.mem]
  | .read _ => [.reads, .emit, .wait]
  | .random _ => .draw :: storeKinds
  | .push _ => [.push]
  | .readChar _ => .reply :: .emit :: storeKinds

theorem keeps_need1 {K : List Kind} {o : Byte} {vs : List Word} {f : Word → List Word → M Unit}
    (h : ∀ a more, vs = a :: more → Keeps K (f a more)) : Keeps K (need1 o vs f) := by
  unfold need1
  split
  · exact h _ _ rfl
  · exact keeps_raise _

theorem keeps_need2 {K : List Kind} {o : Byte} {vs : List Word} {f : Word → Word → List Word → M Unit}
    (h : ∀ a b more, Keeps K (f a b more)) : Keeps K (need2 o vs f) := by
  unfold need2
  split
  · exact h _ _ _
  · exact keeps_raise _

theorem keeps_need3 {K : List Kind} {o : Byte} {vs : List Word} {f : Word → Word → Word → M Unit}
    (h : ∀ a b c, Keeps K (f a b c)) : Keeps K (need3 o vs f) := by
  unfold need3
  split
  · exact h _ _ _
  · exact keeps_raise _

/-- The body of every instruction makes only changes of its kinds. -/
theorem keeps_bodyOf (i : Instr) (vs : List Word) (hvs : vs.length ≤ 8) : Keeps (kindsOf i) (bodyOf i vs) := by
  cases i with
  | je _ | jl _ | jg _ | test _ =>
    dsimp only [kindsOf]
    exact keeps_need2 fun _ _ _ => keeps_branch (by decide) _
  | jin _ =>
    dsimp only [kindsOf]
    exact keeps_need2 fun _ _ _ => keeps_bind (keeps_link _ _) fun _ => keeps_branch (by decide) _
  | testAttr _ =>
    dsimp only [kindsOf]
    exact keeps_need2 fun _ _ _ => keeps_bind (keeps_attrs _) fun _ => keeps_bind (keeps_attrMask _) fun _ =>
      keeps_branch (by decide) _
  | jz _ =>
    dsimp only [kindsOf]
    exact keeps_branch (by decide) _
  | checkArgCount _ =>
    dsimp only [kindsOf]
    exact keeps_need1 fun _ _ _ => keeps_bind (keeps_gets _) fun _ => keeps_branch (by decide) _
  | getSibling _ | getChild _ =>
    dsimp only [kindsOf]
    exact keeps_bind (keeps_link _ _) fun _ => keeps_storeBranch (by decide) _ _
  | ret _ | rtrue | rfalse =>
    dsimp only [kindsOf]
    exact keeps_ret (by decide) _
  | decChk _ | incChk _ =>
    dsimp only [kindsOf]
    exact keeps_need2 fun _ _ _ => keeps_bind (keeps_addInPlace (by decide) _ _) fun _ =>
      keeps_branch (by decide) _
  | or _ | and _ | add _ | sub _ | mul _ =>
    dsimp only [kindsOf]
    exact keeps_need2 fun _ _ _ => keeps_store (by decide) _
  | div _ | mod _ =>
    dsimp only [kindsOf]
    exact keeps_need2 fun _ _ _ => keeps_storeUnlessZero (by decide) _ _
  | not _ =>
    dsimp only [kindsOf]
    exact keeps_store (by decide) _
  | loadw _ =>
    dsimp only [kindsOf]
    exact keeps_need2 fun _ _ _ => keeps_bind (keeps_memWord _) fun _ => keeps_store (by decide) _
  | loadb _ =>
    dsimp only [kindsOf]
    exact keeps_need2 fun _ _ _ => keeps_bind (keeps_memByte _) fun _ => keeps_store (by decide) _
  | getProp _ =>
    dsimp only [kindsOf]
    refine keeps_need2 fun _ _ _ => keeps_bind (keeps_checkProperty _) fun _ =>
      keeps_bind (keeps_propFind _ _) fun r => ?_
    cases r with
    | none => exact keeps_bind (keeps_propDefault _) fun _ => keeps_store (by decide) _
    | some r =>
      exact keeps_ite (keeps_bind (keeps_memByte _) fun _ => keeps_store (by decide) _)
        (keeps_ite (keeps_bind (keeps_memWord _) fun _ => keeps_store (by decide) _) (keeps_raise _))
  | getPropAddr _ =>
    dsimp only [kindsOf]
    refine keeps_need2 fun _ _ _ => keeps_bind (keeps_checkProperty _) fun _ =>
      keeps_bind (keeps_propFind _ _) fun r => ?_
    cases r <;> exact keeps_store (by decide) _
  | getNextProp _ =>
    dsimp only [kindsOf]
    refine keeps_need2 fun _ _ _ => keeps_ite (keeps_bind (keeps_propFirst _) fun _ =>
      keeps_bind (keeps_entryNumber _) fun _ => keeps_store (by decide) _)
      (keeps_bind (keeps_checkProperty _) fun _ => keeps_bind (keeps_propFind _ _) fun r => ?_)
    cases r with
    | none => exact keeps_raise _
    | some r => exact keeps_bind (keeps_entryNumber _) fun _ => keeps_store (by decide) _
  | getPropLen _ =>
    dsimp only [kindsOf]
    exact keeps_ite (keeps_store (by decide) _) (keeps_bind (keeps_memByte _) fun _ =>
      keeps_bind (keeps_gets _) fun _ => keeps_store (by decide) _)
  | getParent _ =>
    dsimp only [kindsOf]
    exact keeps_bind (keeps_link _ _) fun _ => keeps_store (by decide) _
  | load _ =>
    dsimp only [kindsOf]
    exact keeps_bind (keeps_readVarInPlace _) fun _ => keeps_store (by decide) _
  | setAttr _ | clearAttr _ =>
    dsimp only [kindsOf]
    exact keeps_need2 fun _ _ _ => keeps_bind (keeps_attrs _) fun _ => keeps_bind (keeps_attrMask _) fun _ =>
      keeps_setAttrs (by decide) _ _
  | store _ =>
    dsimp only [kindsOf]
    exact keeps_need2 fun _ _ _ => keeps_writeVarInPlace (by decide) _ _
  | inc _ | dec _ =>
    dsimp only [kindsOf]
    exact keeps_bind (keeps_addInPlace (by decide) _ _) fun _ => keeps_pure _
  | pull _ =>
    dsimp only [kindsOf]
    exact keeps_need1 fun _ _ _ => keeps_bind (keeps_pop (by decide)) fun _ =>
      keeps_writeVarInPlace (by decide) _ _
  | insertObj _ =>
    dsimp only [kindsOf]
    have hl (id v : Word) {off : Geometry → Nat}
        (ho : off = Geometry.offParent ∨ off = Geometry.offSibling ∨ off = Geometry.offChild) :
        Keeps [.link] (setLink id off v) := keeps_setLink (by decide) id v ho
    refine keeps_need2 fun obj dest _ => keeps_ite (keeps_pure _)
      (keeps_bind (keeps_alreadyFirstChild _ _) fun _ => keeps_ite (keeps_pure _)
        (keeps_bind (keeps_unlink (by decide) _) fun _ => keeps_bind (keeps_link _ _) fun _ =>
          keeps_bind (hl _ _ (by simp)) fun _ => keeps_bind (hl _ _ (by simp)) fun _ => hl _ _ (by simp)))
  | removeObj _ =>
    dsimp only [kindsOf]
    have hl (id v : Word) {off : Geometry → Nat}
        (ho : off = Geometry.offParent ∨ off = Geometry.offSibling ∨ off = Geometry.offChild) :
        Keeps [.link] (setLink id off v) := keeps_setLink (by decide) id v ho
    exact keeps_ite (keeps_pure _) (keeps_bind (keeps_unlink (by decide) _) fun _ =>
      keeps_bind (hl _ _ (by simp)) fun _ => hl _ _ (by simp))
  | call2s _ | call2n _ =>
    dsimp only [kindsOf]
    exact keeps_need2 fun _ _ _ => keeps_call (by decide) _ (by simp) _
  | call1s _ | call1n _ =>
    dsimp only [kindsOf]
    exact keeps_call (by decide) _ (by simp) _
  | call _ | callVs2 _ _ | callVn _ | callVn2 _ _ =>
    dsimp only [kindsOf]
    refine keeps_need1 fun a more h => keeps_call (by decide) _ ?_ _
    subst h
    simp at hvs
    omega
  | setColour _ | setCursor _ =>
    dsimp only [kindsOf]
    exact keeps_need2 fun _ _ _ => keeps_request (by decide) _
  | printAddr _ =>
    dsimp only [kindsOf]
    exact keeps_printAt (by decide) _
  | printPaddr _ =>
    dsimp only [kindsOf]
    exact keeps_bind (keeps_gets _) fun _ => keeps_printAt (by decide) _
  | printObj _ =>
    dsimp only [kindsOf]
    exact keeps_bind (keeps_propTable _) fun _ => keeps_bind (keeps_memRead _ _) fun _ =>
      keeps_ite (keeps_request (by decide) _) (keeps_printAt (by decide) _)
  | newLine | showStatus =>
    dsimp only [kindsOf]
    exact keeps_request (by decide) _
  | printChar _ | printNum _ | splitWindow _ | setWindow _ | eraseWindow _ | setTextStyle _ | bufferMode _ =>
    dsimp only [kindsOf]
    exact keeps_need1 fun _ _ _ => keeps_request (by decide) _
  | soundEffect _ =>
    dsimp only [kindsOf]
    exact keeps_need1 fun _ _ _ => keeps_ite (keeps_request (by decide) _) (keeps_raise _)
  | print =>
    dsimp only [kindsOf]
    exact keeps_bind (keeps_inlineText (by decide)) fun _ => keeps_request (by decide) _
  | printRet =>
    dsimp only [kindsOf]
    exact keeps_bind (keeps_inlineText (by decide)) fun _ => keeps_bind (keeps_request (by decide) _) fun _ =>
      keeps_ret (by decide) _
  | jump _ =>
    dsimp only [kindsOf]
    exact keeps_update fun _ => .pc _ (by decide)
  | nop =>
    dsimp only [kindsOf]
    exact keeps_pure _
  | unpopulatedSlot u =>
    dsimp only [kindsOf]
    exact keeps_raise _
  | save _ =>
    dsimp only [kindsOf]
    exact keeps_saveBody (by decide)
  | restore _ =>
    dsimp only [kindsOf]
    exact keeps_restoreBody (by decide)
  | restart =>
    dsimp only [kindsOf]
    exact keeps_restartBody vs
  | retPopped =>
    dsimp only [kindsOf]
    exact keeps_bind (keeps_pop (by decide)) fun _ => keeps_ret (by decide) _
  | pop =>
    dsimp only [kindsOf]
    exact keeps_bind (keeps_pop (by decide)) fun _ => keeps_pure _
  | quit =>
    dsimp only [kindsOf]
    exact keeps_bind (keeps_request (by decide) _) fun _ => keeps_update fun _ => .halt (by decide)
  | storew _ | storeb _ =>
    dsimp only [kindsOf]
    exact keeps_need3 fun _ _ _ => keeps_memWrite (by decide) _ _ _
  | putProp _ =>
    dsimp only [kindsOf]
    refine keeps_need3 fun _ _ _ => keeps_bind (keeps_checkProperty _) fun _ =>
      keeps_bind (keeps_propFind _ _) fun r => ?_
    cases r with
    | none => exact keeps_raise _
    | some r =>
      exact keeps_ite (keeps_memWrite (by decide) _ _ _)
        (keeps_ite (keeps_memWrite (by decide) _ _ _) (keeps_raise _))
  | read _ =>
    dsimp only [kindsOf]
    exact keeps_need2 fun _ _ _ => keeps_bind (keeps_update fun _ => .reads _ _ (by decide)) fun _ =>
      keeps_bind (keeps_memByte _) fun _ => keeps_bind (keeps_request (by decide) _) fun _ =>
        keeps_update fun _ => .wait (by decide)
  | random _ =>
    dsimp only [kindsOf]
    refine keeps_need1 fun _ _ _ => keeps_ite (keeps_bind (keeps_drawRandom (by decide) _) fun _ =>
      keeps_store (by decide) _) (keeps_bind (keeps_update fun _ => .draw _ _ (by decide)) fun _ =>
        keeps_store (by decide) _)
  | push _ =>
    dsimp only [kindsOf]
    exact keeps_need1 fun _ _ _ => keeps_push (by decide) _
  | readChar _ =>
    dsimp only [kindsOf]
    exact keeps_bind (keeps_takeKey (by decide)) fun _ => keeps_bind (keeps_request (by decide) _) fun _ =>
      keeps_store (by decide) _

/-- An operation that answers a next state has made its changes, and then at most taken a fatal. -/
theorem Keeps.finish {K : List Kind} {m : M Unit} (h : Keeps K m) {s u : State}
    (hu : Machine.finish m s = .next u) : ∃ t, Changes K s t ∧ (u = t ∨ ∃ c, u = takeFatal c t) := by
  have hs := h s
  rcases finish_next hu with hm | ⟨c, s', hm, rfl⟩
  · rw [hm] at hs
    exact ⟨u, hs, .inl rfl⟩
  · rw [hm] at hs
    exact ⟨s', hs, .inr ⟨c, rfl⟩⟩

/-- Everything the body of an instruction can have changed where its operands all have values. -/
theorem exec_entered_changes {i : Instr} {s t u : State} {vs : List Word} (h : s.entered i = some (vs, t))
    (hl : i.operands.length ≤ 8) (hu : exec i s = .next u) :
    ∃ w, Changes (kindsOf i) t w ∧ (u = w ∨ ∃ c, u = takeFatal c w) := by
  rw [exec_of_entered h] at hu
  exact (keeps_bodyOf i vs (by rw [State.entered_length h]; exact hl)).finish hu

/-- Everything an instruction can have changed when it answers a next state. -/
theorem exec_changes {i : Instr} {s u : State} (hl : i.operands.length ≤ 8) (hu : exec i s = .next u) :
    ∃ t, Changes (.pc :: .pop :: kindsOf i) s t ∧ (u = t ∨ ∃ c, u = takeFatal c t) := by
  rw [exec_eq] at hu
  refine Keeps.finish ?_ hu
  refine keeps_bind (keeps_advance (by simp) _) fun _ => keeps_bind' (keeps_fetchOperands (by simp) _) ?_
  intro s vs s' hf
  have hv : vs.length ≤ 8 := by
    cases ho : s.operandValues s.stack i.operands with
    | none =>
      obtain ⟨c, n, j, hc, -⟩ := fetchOperands_fatal ho
      rw [hc] at hf
      cases hf
    | some p =>
      obtain ⟨vs', st⟩ := p
      rw [fetchOperands_ok ho] at hf
      cases hf
      rw [(State.operandValues_some ho).1]
      exact hl
  exact Keeps.mono (keeps_bodyOf i vs hv) (fun _ h => by simp [h])

end Sys2Proof.Machine
end

