-- ==== Sys2Proof/Laws/Objects.lean ====
section
/-! SUPPORT. The object-table navigator, operation by operation: what each answers where its bytes exist, and that
it is fatal where they do not. -/

namespace Sys2Proof.Machine

/-! ### Links -/

theorem link_ok {s : State} {id : Word} {off : Geometry → Nat} (h : s.hasLink id off) :
    link id off s = .ok (s.linkOf id off) s := by
  obtain ⟨h0, hr⟩ := h
  simp [link, checkObject, h0]
  rw [memRead_ok (by simpa [State.linkAddr] using hr)]
  rfl

theorem link_fatal {s : State} {id : Word} {off : Geometry → Nat} (h : ¬ s.hasLink id off) :
    ∃ c, link id off s = .error (.fatal c) s := by
  by_cases h0 : id = 0#16
  · exact ⟨.invalidObject id, by simp [link, checkObject, h0]⟩
  · have hr : ¬ s.inRange (s.objAddr id + off s.cfg.geom) s.cfg.geom.linkBytes := fun hr => h ⟨h0, hr⟩
    exact ⟨_, by simp [link, checkObject, h0, memRead_fatal hr]; rfl⟩

theorem link_eq_ok {s s' : State} {id v : Word} {off : Geometry → Nat} (h : link id off s = .ok v s') :
    s.hasLink id off ∧ v = s.linkOf id off ∧ s' = s := by
  by_cases hl : s.hasLink id off
  · rw [link_ok hl] at h
    cases h
    exact ⟨hl, rfl, rfl⟩
  · obtain ⟨c, hc⟩ := link_fatal hl
    rw [hc] at h
    cases h

theorem setLink_eq_ok {s s' : State} {id v : Word} {off : Geometry → Nat} (h : setLink id off v s = .ok () s') :
    s.takesLink id off v ∧ s' = s.linked id off v := by
  by_cases hl : s.takesLink id off v
  · rw [setLink_ok hl] at h
    cases h
    exact ⟨hl, rfl⟩
  · obtain ⟨c, hc⟩ := setLink_fatal hl
    rw [hc] at h
    cases h

/-! ### What a link write leaves of the addresses -/

@[simp] theorem State.objAddr_writeMem (s : State) (a n v : Nat) (id : Word) :
    (s.writeMem a n v).objAddr id = s.objAddr id := rfl

@[simp] theorem State.linkAddr_writeMem (s : State) (a n v : Nat) (id : Word) (off : Geometry → Nat) :
    (s.writeMem a n v).linkAddr id off = s.linkAddr id off := rfl

@[simp] theorem State.linkAddr_linked (s : State) (i v id : Word) (o off : Geometry → Nat) :
    (s.linked i o v).linkAddr id off = s.linkAddr id off := rfl

@[simp] theorem State.cfg_linked (s : State) (i v : Word) (o : Geometry → Nat) : (s.linked i o v).cfg = s.cfg := rfl

@[simp] theorem State.memSize_linked (s : State) (i v : Word) (o : Geometry → Nat) :
    (s.linked i o v).memSize = s.memSize := rfl

@[simp] theorem State.hasLink_linked (s : State) (i v id : Word) (o off : Geometry → Nat) :
    (s.linked i o v).hasLink id off ↔ s.hasLink id off := Iff.rfl

@[simp] theorem State.takesLink_linked (s : State) (i v id w : Word) (o off : Geometry → Nat) :
    (s.linked i o v).takesLink id off w ↔ s.takesLink id off w := Iff.rfl

/-- Reading the link just written gives the value, which fits the field. -/
theorem State.linkOf_linked_same {s : State} {id v : Word} {off : Geometry → Nat} (h : s.takesLink id off v)
    (hg : s.cfg.geom = geometryOf s.cfg.version) : (s.linked id off v).linkOf id off = v := by
  obtain ⟨-, hv⟩ := h
  apply BitVec.eq_of_toNat_eq
  simp only [State.linkOf, State.linked, State.linkAddr_writeMem, writeMem_mem, writeMem_cfg,
    Memory.readBE_writeBE_same, BitVec.toNat_ofNat]
  have := v.isLt
  rw [hg] at hv ⊢
  unfold geometryOf at hv ⊢
  split
  · rename_i he
    simp [he] at hv ⊢
    omega
  · simp
    omega

/-- Reading a link in other bytes. -/
theorem State.linkOf_linked_other {s : State} {i v id : Word} {o off : Geometry → Nat}
    (h : s.linkAddr id off + s.cfg.geom.linkBytes ≤ s.linkAddr i o ∨
      s.linkAddr i o + s.cfg.geom.linkBytes ≤ s.linkAddr id off) :
    (s.linked i o v).linkOf id off = s.linkOf id off := by
  simp only [State.linkOf, State.linked, State.linkAddr_writeMem, writeMem_mem, writeMem_cfg]
  rw [Memory.readBE_writeBE_other _ _ _ _ _ _ h]

/-- Two link fields are the same field or share no byte. -/
theorem State.linkAddr_apart {s : State} (hg : s.cfg.geom = geometryOf s.cfg.version) {i j : Word}
    (hi : i ≠ 0#16) (hj : j ≠ 0#16) {o p : Geometry → Nat}
    (ho : o = Geometry.offParent ∨ o = Geometry.offSibling ∨ o = Geometry.offChild)
    (hp : p = Geometry.offParent ∨ p = Geometry.offSibling ∨ p = Geometry.offChild) :
    (i = j ∧ o = p) ∨ s.linkAddr i o + s.cfg.geom.linkBytes ≤ s.linkAddr j p ∨
      s.linkAddr j p + s.cfg.geom.linkBytes ≤ s.linkAddr i o := by
  have h1 : i.toNat ≠ 0 := fun h => hi (BitVec.eq_of_toNat_eq (by simpa using h))
  have h2 : j.toNat ≠ 0 := fun h => hj (BitVec.eq_of_toNat_eq (by simpa using h))
  by_cases hij : i = j
  · subst hij
    by_cases hop : o = p
    · exact .inl ⟨rfl, hop⟩
    · right
      simp only [State.linkAddr, hg]
      rcases ho with rfl | rfl | rfl <;> rcases hp with rfl | rfl | rfl <;> first | exact absurd rfl hop | skip
      all_goals (unfold geometryOf; split <;> simp)
  · right
    have h3 : i.toNat ≠ j.toNat := fun h => hij (BitVec.eq_of_toNat_eq h)
    simp only [State.linkAddr, State.objAddr, hg]
    rcases ho with rfl | rfl | rfl <;> rcases hp with rfl | rfl | rfl <;>
      (unfold geometryOf; split <;> simp <;> omega)

/-! ### The walk of a sibling chain -/

/-- The walk along a path of siblings ends in the write of the last one's sibling. -/
theorem walkChain_ok {s : State} {obj sib : Word} (path : List Word) {first last : Word} {allowed : Nat}
    (hp : s.ElderPath obj first path last) (hl : path.length ≤ allowed)
    (ht : s.takesLink last Geometry.offSibling sib) :
    walkChain obj sib allowed first s = .ok () (s.linked last Geometry.offSibling sib) := by
  induction path generalizing first allowed with
  | nil =>
    obtain ⟨rfl, hk, ho⟩ := hp
    unfold walkChain
    simp [hk.1, link_ok hk, ho, setLink_ok ht]
  | cons nxt path ih =>
    obtain ⟨hk, hn, hne, hp⟩ := hp
    unfold walkChain
    match allowed, hl with
    | more + 1, hl =>
      simp [hk.1, link_ok hk, hn, hne]
      exact ih hp (by simpa using hl)

theorem unlink_none {s : State} {obj : Word} (hp : s.hasLink obj Geometry.offParent)
    (h : s.linkOf obj Geometry.offParent = 0#16) : unlink obj s = .ok () s := by
  simp [unlink, link_ok hp, h]

theorem unlink_first {s : State} {obj p : Word} (hp : s.hasLink obj Geometry.offParent)
    (h : s.linkOf obj Geometry.offParent = p) (h0 : p ≠ 0#16) (hs : s.hasLink obj Geometry.offSibling)
    (hc : s.linkOf p Geometry.offChild = obj)
    (ht : s.takesLink p Geometry.offChild (s.linkOf obj Geometry.offSibling)) :
    unlink obj s = .ok () (s.linked p Geometry.offChild (s.linkOf obj Geometry.offSibling)) := by
  simp [unlink, link_ok hp, h, h0, link_ok hs, link_ok ht.1, hc, setLink_ok ht]

theorem unlink_later {s : State} {obj p first elder : Word} {path : List Word}
    (hp : s.hasLink obj Geometry.offParent) (h : s.linkOf obj Geometry.offParent = p) (h0 : p ≠ 0#16)
    (hs : s.hasLink obj Geometry.offSibling) (hpc : s.hasLink p Geometry.offChild)
    (hc : s.linkOf p Geometry.offChild = first) (hne : first ≠ obj)
    (hw : s.ElderPath obj first path elder) (hl : path.length ≤ s.walkLimit)
    (ht : s.takesLink elder Geometry.offSibling (s.linkOf obj Geometry.offSibling)) :
    unlink obj s = .ok () (s.linked elder Geometry.offSibling (s.linkOf obj Geometry.offSibling)) := by
  simp [unlink, link_ok hp, h, h0, link_ok hs, link_ok hpc, hc, hne, walkChain_ok path hw hl ht]

/-! ### What a link write leaves of the other links -/

/-- A link other than the one written, in two fields of `OFF_PARENT`, `OFF_SIBLING` and `OFF_CHILD`. -/
theorem State.linkOf_linked_apart {s : State} (hg : s.cfg.geom = geometryOf s.cfg.version) {i v id : Word}
    (hi : i ≠ 0#16) (hid : id ≠ 0#16) {o off : Geometry → Nat}
    (ho : o = Geometry.offParent ∨ o = Geometry.offSibling ∨ o = Geometry.offChild)
    (hf : off = Geometry.offParent ∨ off = Geometry.offSibling ∨ off = Geometry.offChild)
    (hne : id ≠ i ∨ off (geometryOf 3#8) ≠ o (geometryOf 3#8)) :
    (s.linked i o v).linkOf id off = s.linkOf id off := by
  apply State.linkOf_linked_other
  rcases State.linkAddr_apart hg hid hi hf ho with ⟨rfl, rfl⟩ | h | h
  · simp at hne
  · exact .inl h
  · exact .inr h

/-! ### Sibling chains -/

/-- The path of an elder sibling does not pass the object. -/
theorem State.ElderPath.last_ne {s : State} {obj : Word} (path : List Word) {first last : Word}
    (h : s.ElderPath obj first path last) (hne : first ≠ obj) : last ≠ obj := by
  induction path generalizing first with
  | nil => exact h.1 ▸ hne
  | cons nxt path ih => exact ih h.2.2.2 h.2.2.1

theorem State.SiblingChain.ne_zero {s : State} (kids : List Word) {first k : Word}
    (h : s.SiblingChain first kids) (hk : k ∈ kids) : k ≠ 0#16 := by
  induction kids generalizing first with
  | nil => simp at hk
  | cons id kids ih =>
    rcases List.mem_cons.1 hk with rfl | hk
    · exact h.2.1
    · exact ih h.2.2 hk

/-- A chain depends only on the sibling links of its objects. -/
theorem State.SiblingChain.congr {s u : State} (kids : List Word) {first : Word} (h : s.SiblingChain first kids)
    (he : ∀ k ∈ kids, u.linkOf k Geometry.offSibling = s.linkOf k Geometry.offSibling) :
    u.SiblingChain first kids := by
  induction kids generalizing first with
  | nil => exact h
  | cons id kids ih =>
    refine ⟨h.1, h.2.1, ?_⟩
    rw [he id (by simp)]
    exact ih h.2.2 fun k hk => he k (by simp [hk])

/-- The elder sibling of an object stands in its chain, and the chain without the object is the one where the elder
sibling has the object's sibling. -/
theorem State.SiblingChain.erase {s u : State} {obj elder : Word} (path : List Word) {first : Word}
    {kids : List Word} (h : s.SiblingChain first kids) (hn : kids.Nodup) (hne : first ≠ obj) (h0 : obj ≠ 0#16)
    (hp : s.ElderPath obj first path elder)
    (hu : u.linkOf elder Geometry.offSibling = s.linkOf obj Geometry.offSibling)
    (ho : ∀ k, k ≠ elder → k ≠ 0#16 → u.linkOf k Geometry.offSibling = s.linkOf k Geometry.offSibling) :
    elder ∈ kids ∧ u.SiblingChain first (kids.erase obj) := by
  induction path generalizing first kids with
  | nil =>
    obtain ⟨rfl, hl, hs⟩ := hp
    cases kids with
    | nil => exact absurd h hl.1
    | cons id kids =>
      obtain ⟨rfl, hid, h⟩ := h
      rw [hs] at h
      cases kids with
      | nil => exact absurd h h0
      | cons k kids =>
        obtain ⟨rfl, -, h⟩ := h
        refine ⟨by simp, ?_⟩
        rw [List.erase_cons_tail (by simpa using hne), List.erase_cons_head]
        refine ⟨rfl, hid, ?_⟩
        rw [hu]
        simp only [List.nodup_cons, List.mem_cons, not_or] at hn
        exact h.congr kids fun k hk => ho k (fun hx => hn.1.2 (hx ▸ hk)) (h.ne_zero kids hk)
  | cons nxt path ih =>
    obtain ⟨hl, hs, hnx, hp⟩ := hp
    cases kids with
    | nil => exact absurd h hl.1
    | cons id kids =>
      obtain ⟨rfl, hid, h⟩ := h
      rw [hs] at h
      simp only [List.nodup_cons] at hn
      obtain ⟨hm, hc⟩ := ih h hn.2 hnx hp
      refine ⟨by simp [hm], ?_⟩
      rw [List.erase_cons_tail (by simpa using hne)]
      refine ⟨rfl, hid, ?_⟩
      rw [ho first (fun hx => hn.1 (hx ▸ hm)) hid, hs]
      exact hc

/-! ### What unlinking did -/

/-- A walk that ends well ended at the elder sibling. -/
theorem walkChain_eq_ok {s s' : State} {obj sib : Word} (allowed : Nat) {first : Word}
    (h : walkChain obj sib allowed first s = .ok () s') :
    ∃ path elder, s.ElderPath obj first path elder ∧ path.length ≤ allowed ∧
      s.takesLink elder Geometry.offSibling sib ∧ s' = s.linked elder Geometry.offSibling sib := by
  induction allowed generalizing first with
  | zero =>
    unfold walkChain at h
    by_cases h0 : first = 0#16
    · simp [h0] at h
    by_cases hl : s.hasLink first Geometry.offSibling
    · simp only [h0, if_false, M.bind_apply, link_ok hl] at h
      split at h
      · rename_i ho
        obtain ⟨ht, rfl⟩ := setLink_eq_ok h
        exact ⟨[], first, ⟨rfl, hl, ho⟩, by simp, ht, rfl⟩
      · simp at h
    · obtain ⟨c, hc⟩ := link_fatal hl
      simp [h0, hc] at h
  | succ more ih =>
    unfold walkChain at h
    by_cases h0 : first = 0#16
    · simp [h0] at h
    by_cases hl : s.hasLink first Geometry.offSibling
    · simp only [h0, if_false, M.bind_apply, link_ok hl] at h
      split at h
      · rename_i ho
        obtain ⟨ht, rfl⟩ := setLink_eq_ok h
        exact ⟨[], first, ⟨rfl, hl, ho⟩, by simp, ht, rfl⟩
      · rename_i ho
        obtain ⟨path, elder, hp, hlen, ht⟩ := ih h
        exact ⟨_ :: path, elder, ⟨hl, rfl, ho, hp⟩, by simpa using hlen, ht⟩
    · obtain ⟨c, hc⟩ := link_fatal hl
      simp [h0, hc] at h

/-- Everything `Unlink` can do where it is not fatal (R207). -/
theorem unlink_eq_ok {s s' : State} {obj : Word} (h : unlink obj s = .ok () s') :
    (s.linkOf obj Geometry.offParent = 0#16 ∧ s' = s) ∨
    (s.linkOf obj Geometry.offParent ≠ 0#16 ∧
      s.linkOf (s.linkOf obj Geometry.offParent) Geometry.offChild = obj ∧
      s.takesLink (s.linkOf obj Geometry.offParent) Geometry.offChild (s.linkOf obj Geometry.offSibling) ∧
      s' = s.linked (s.linkOf obj Geometry.offParent) Geometry.offChild (s.linkOf obj Geometry.offSibling)) ∨
    ∃ path elder, s.linkOf obj Geometry.offParent ≠ 0#16 ∧
      s.linkOf (s.linkOf obj Geometry.offParent) Geometry.offChild ≠ obj ∧
      s.ElderPath obj (s.linkOf (s.linkOf obj Geometry.offParent) Geometry.offChild) path elder ∧
      s.takesLink elder Geometry.offSibling (s.linkOf obj Geometry.offSibling) ∧
      s' = s.linked elder Geometry.offSibling (s.linkOf obj Geometry.offSibling) := by
  unfold unlink at h
  by_cases hp : s.hasLink obj Geometry.offParent
  swap
  · obtain ⟨c, hc⟩ := link_fatal hp
    simp [hc] at h
  simp only [M.bind_apply, link_ok hp] at h
  split at h
  · rename_i h0
    cases h
    exact .inl ⟨h0, rfl⟩
  rename_i h0
  right
  by_cases hs : s.hasLink obj Geometry.offSibling
  swap
  · obtain ⟨c, hc⟩ := link_fatal hs
    simp [hc] at h
  by_cases hc : s.hasLink (s.linkOf obj Geometry.offParent) Geometry.offChild
  swap
  · obtain ⟨c, hc⟩ := link_fatal hc
    simp [link_ok hs, hc] at h
  simp only [M.bind_apply, link_ok hs, link_ok hc] at h
  split at h
  · rename_i he
    obtain ⟨ht, rfl⟩ := setLink_eq_ok h
    exact .inl ⟨h0, he, ht, rfl⟩
  · rename_i he
    simp only [M.bind_apply, gets_apply] at h
    obtain ⟨path, elder, hp, -, ht⟩ := walkChain_eq_ok _ h
    exact .inr ⟨path, elder, h0, he, hp, ht⟩

/-- A walk that passes the object nowhere is the fatal `TreeCorrupt`: the chain ends, or the limit is passed. -/
theorem walkChain_corrupt {t : State} {obj sib : Word} (path : List Word) {first last : Word} (allowed : Nat)
    (h : t.WalkedPast obj first path last) (hl : last = 0#16 ∨ last ≠ obj ∧ path.length = allowed + 1)
    (hne : last ≠ obj) : walkChain obj sib allowed first t = .error (.fatal (.treeCorrupt obj)) t := by
  induction path generalizing first allowed with
  | nil =>
    have h0 : first = 0#16 := by
      rcases hl with hl | hl
      · exact h.trans hl
      · simp at hl
    unfold walkChain
    simp [h0]
  | cons id path ih =>
    obtain ⟨rfl, hio, hk, h⟩ := h
    have hn : t.linkOf first Geometry.offSibling ≠ obj := by
      cases path with
      | nil => exact (show t.linkOf first Geometry.offSibling = last from h) ▸ hne
      | cons k p => exact h.1 ▸ h.2.1
    unfold walkChain
    simp [hk.1, link_ok hk, hn]
    cases allowed with
    | zero => simp
    | succ a => exact ih a h (hl.imp_right (by simp))

/-! ### Links that agree -/

theorem State.LinksAgree.ne_zero {s : State} {ids : List Word} (h : s.LinksAgree ids) {k : Word} (hk : k ∈ ids) :
    k ≠ 0#16 := (h.fields k hk).1.1

/-- Which link fields exist depends on the configuration and the size of memory alone. -/
theorem State.hasLink_congr {s u : State} (hc : u.cfg = s.cfg) (hm : u.memSize = s.memSize) (id : Word)
    (off : Geometry → Nat) : u.hasLink id off ↔ s.hasLink id off := by
  simp only [State.hasLink, State.linkAddr, State.objAddr, State.inRange, hc, hm]

/-- What a successful `Unlink` leaves of links that agree: no parent changes, and every child chain is as before
without the object. -/
theorem State.LinksAgree.unlinked {s w : State} {ids : List Word} {obj : Word}
    (hg : s.cfg.geom = geometryOf s.cfg.version) (h : s.LinksAgree ids) (ho : obj ∈ ids)
    (hw : unlink obj s = .ok () w) :
    w.cfg = s.cfg ∧ w.memSize = s.memSize ∧
    (∀ k, k ≠ 0#16 → w.linkOf k Geometry.offParent = s.linkOf k Geometry.offParent) ∧
    ∀ p ∈ ids, ∃ kids, w.SiblingChain (w.linkOf p Geometry.offChild) kids ∧ kids.Nodup ∧
      ∀ k, k ∈ kids ↔ k ≠ obj ∧ k ∈ ids ∧ s.linkOf k Geometry.offParent = p := by
  have h0 := h.ne_zero ho
  -- the chain of a parent other than the object's
  have other : ∀ {p : Word} {kids : List Word}, p ≠ s.linkOf obj Geometry.offParent →
      (∀ k, k ∈ kids ↔ k ∈ ids ∧ s.linkOf k Geometry.offParent = p) →
      ∀ k, k ∈ kids ↔ k ≠ obj ∧ k ∈ ids ∧ s.linkOf k Geometry.offParent = p := by
    intro p kids hp hc k
    rw [hc k, iff_and_self]
    rintro ⟨-, hk⟩ rfl
    exact hp hk.symm
  rcases unlink_eq_ok hw with ⟨hp, rfl⟩ | ⟨hp, hc, ht, rfl⟩ | ⟨path, elder, hp, hc, he, ht, rfl⟩
  · refine ⟨rfl, rfl, fun _ _ => rfl, fun p hpi => ?_⟩
    obtain ⟨kids, a, b, c⟩ := h.chains p hpi
    exact ⟨kids, a, b, other (fun hx => h.ne_zero hpi (hx.trans hp)) c⟩
  · have sg : ∀ k, k ≠ 0#16 → (s.linked (s.linkOf obj Geometry.offParent) Geometry.offChild
        (s.linkOf obj Geometry.offSibling)).linkOf k Geometry.offSibling = s.linkOf k Geometry.offSibling :=
      fun k hk => State.linkOf_linked_apart hg hp hk (by simp) (by simp) (by right; decide)
    refine ⟨rfl, rfl, fun k hk => State.linkOf_linked_apart hg hp hk (by simp) (by simp) (by right; decide),
      fun p hpi => ?_⟩
    obtain ⟨kids, a, b, c⟩ := h.chains p hpi
    by_cases hpp : p = s.linkOf obj Geometry.offParent
    · subst hpp
      rw [hc] at a
      cases kids with
      | nil => exact absurd a h0
      | cons k kids =>
        obtain ⟨rfl, -, a⟩ := a
        simp only [List.nodup_cons] at b
        refine ⟨kids, ?_, b.2, fun k => ?_⟩
        · rw [State.linkOf_linked_same ht hg]
          exact a.congr kids fun k hk => sg k (a.ne_zero kids hk)
        · rw [← c k, List.mem_cons]
          exact ⟨fun hk => ⟨fun hx => b.1 (hx ▸ hk), .inr hk⟩, fun hk => hk.2.resolve_left hk.1⟩
    · refine ⟨kids, ?_, b, other hpp c⟩
      rw [State.linkOf_linked_apart hg hp (h.ne_zero hpi) (by simp) (by simp) (.inl hpp)]
      exact a.congr kids fun k hk => sg k (a.ne_zero kids hk)
  · have hpi := (h.parents obj ho).resolve_left hp
    have hel : elder ≠ 0#16 := ht.1.1
    have sg : ∀ k, k ≠ elder → k ≠ 0#16 → (s.linked elder Geometry.offSibling
        (s.linkOf obj Geometry.offSibling)).linkOf k Geometry.offSibling = s.linkOf k Geometry.offSibling :=
      fun k h1 hk => State.linkOf_linked_apart hg hel hk (by simp) (by simp) (.inl h1)
    have cg : ∀ k, k ≠ 0#16 → (s.linked elder Geometry.offSibling
        (s.linkOf obj Geometry.offSibling)).linkOf k Geometry.offChild = s.linkOf k Geometry.offChild :=
      fun k hk => State.linkOf_linked_apart hg hel hk (by simp) (by simp) (by right; decide)
    refine ⟨rfl, rfl, fun k hk => State.linkOf_linked_apart hg hel hk (by simp) (by simp) (by right; decide),
      fun p hpi' => ?_⟩
    obtain ⟨kids0, a0, b0, c0⟩ := h.chains _ hpi
    obtain ⟨hm, hch⟩ := a0.erase path b0 hc h0 he (State.linkOf_linked_same ht hg) sg
    obtain ⟨kids, a, b, c⟩ := h.chains p hpi'
    by_cases hpp : p = s.linkOf obj Geometry.offParent
    · subst hpp
      refine ⟨kids0.erase obj, ?_, b0.erase obj, fun k => ?_⟩
      · rw [cg _ hp]
        exact hch
      · rw [b0.mem_erase_iff, c0]
    · refine ⟨kids, ?_, b, other hpp c⟩
      rw [cg _ (h.ne_zero hpi')]
      exact a.congr kids fun k hk =>
        sg k (fun hx => hpp (((c k).1 hk).2.symm.trans (hx ▸ ((c0 _).1 hm).2))) (a.ne_zero kids hk)

end Sys2Proof.Machine
end

