-- ==== Sys2Proof/Laws/PerInstr.lean ====
section
/-! SUPPORT. One lemma per instruction: how long its encoding is up to the last operand. A running machine that
enters an instruction moves its program counter by this length. -/

namespace Sys2Proof.Laws.HeadLength

/-- The encoding of an instruction is the bytes before its operands, then its operands (R90, R121). -/
def Statement (i : Instr) : Prop := (encode i).length = i.headBytes + (encodeOperands i.operands).length

theorem args2 (slot : BitVec 5) (args : Args2) :
    (encode2 slot args).length =
      (match args with
        | .long _ _ => 1
        | .typed _ => 2) + (encodeOperands args.operands).length := by
  cases args with
  | long a b => cases a <;> cases b <;> rfl
  | typed ops => simp [encode2, Args2.operands]; omega

theorem short (slot : BitVec 4) (a : Operand) :
    (encode1 slot a).length = 1 + (encodeOperands [a]).length := by
  simp [encode1, encodeOperands, Nat.add_comm]

theorem var_ (slot : BitVec 5) (ops : List Operand) :
    (encodeVar slot ops).length = 2 + (encodeOperands ops).length := by
  simp [encodeVar]; omega

theorem var2 (slot : BitVec 5) (ops1 ops2 : List Operand) :
    (encodeVar2 slot ops1 ops2).length = 3 + (encodeOperands (ops1 ++ ops2)).length := by
  simp [encodeVar2, encodeOperands]; omega

theorem ext_ (e : Byte) (ops : List Operand) :
    (encodeExt e ops).length = 3 + (encodeOperands ops).length := by
  simp [encodeExt]; omega

theorem je (args : Args2) : Statement (.je args) := args2 _ args

theorem jl (args : Args2) : Statement (.jl args) := args2 _ args

theorem jg (args : Args2) : Statement (.jg args) := args2 _ args

theorem decChk (args : Args2) : Statement (.decChk args) := args2 _ args

theorem incChk (args : Args2) : Statement (.incChk args) := args2 _ args

theorem jin (args : Args2) : Statement (.jin args) := args2 _ args

theorem test (args : Args2) : Statement (.test args) := args2 _ args

theorem or (args : Args2) : Statement (.or args) := args2 _ args

theorem and (args : Args2) : Statement (.and args) := args2 _ args

theorem testAttr (args : Args2) : Statement (.testAttr args) := args2 _ args

theorem setAttr (args : Args2) : Statement (.setAttr args) := args2 _ args

theorem clearAttr (args : Args2) : Statement (.clearAttr args) := args2 _ args

theorem store (args : Args2) : Statement (.store args) := args2 _ args

theorem insertObj (args : Args2) : Statement (.insertObj args) := args2 _ args

theorem loadw (args : Args2) : Statement (.loadw args) := args2 _ args

theorem loadb (args : Args2) : Statement (.loadb args) := args2 _ args

theorem getProp (args : Args2) : Statement (.getProp args) := args2 _ args

theorem getPropAddr (args : Args2) : Statement (.getPropAddr args) := args2 _ args

theorem getNextProp (args : Args2) : Statement (.getNextProp args) := args2 _ args

theorem add (args : Args2) : Statement (.add args) := args2 _ args

theorem sub (args : Args2) : Statement (.sub args) := args2 _ args

theorem mul (args : Args2) : Statement (.mul args) := args2 _ args

theorem div (args : Args2) : Statement (.div args) := args2 _ args

theorem mod (args : Args2) : Statement (.mod args) := args2 _ args

theorem call2s (args : Args2) : Statement (.call2s args) := args2 _ args

theorem call2n (args : Args2) : Statement (.call2n args) := args2 _ args

theorem setColour (args : Args2) : Statement (.setColour args) := args2 _ args

theorem jz (a : Operand) : Statement (.jz a) := short _ a

theorem getSibling (a : Operand) : Statement (.getSibling a) := short _ a

theorem getChild (a : Operand) : Statement (.getChild a) := short _ a

theorem getParent (a : Operand) : Statement (.getParent a) := short _ a

theorem getPropLen (a : Operand) : Statement (.getPropLen a) := short _ a

theorem inc (a : Operand) : Statement (.inc a) := short _ a

theorem dec (a : Operand) : Statement (.dec a) := short _ a

theorem printAddr (a : Operand) : Statement (.printAddr a) := short _ a

theorem call1s (a : Operand) : Statement (.call1s a) := short _ a

theorem removeObj (a : Operand) : Statement (.removeObj a) := short _ a

theorem printObj (a : Operand) : Statement (.printObj a) := short _ a

theorem ret (a : Operand) : Statement (.ret a) := short _ a

theorem jump (a : Operand) : Statement (.jump a) := short _ a

theorem printPaddr (a : Operand) : Statement (.printPaddr a) := short _ a

theorem load (a : Operand) : Statement (.load a) := short _ a

theorem not (a : Operand) : Statement (.not a) := short _ a

theorem call1n (a : Operand) : Statement (.call1n a) := short _ a

theorem rtrue : Statement .rtrue := rfl

theorem rfalse : Statement .rfalse := rfl

theorem print : Statement .print := rfl

theorem printRet : Statement .printRet := rfl

theorem nop : Statement .nop := rfl

theorem save (form : SaveForm) : Statement (.save form) := by
  cases form with
  | short => rfl
  | extended ops => exact ext_ _ ops

theorem restore (form : SaveForm) : Statement (.restore form) := by
  cases form with
  | short => rfl
  | extended ops => exact ext_ _ ops

theorem restart : Statement .restart := rfl

theorem retPopped : Statement .retPopped := rfl

theorem pop : Statement .pop := rfl

theorem quit : Statement .quit := rfl

theorem newLine : Statement .newLine := rfl

theorem showStatus : Statement .showStatus := rfl

theorem call (ops : List Operand) : Statement (.call ops) := var_ _ ops

theorem storew (ops : List Operand) : Statement (.storew ops) := var_ _ ops

theorem storeb (ops : List Operand) : Statement (.storeb ops) := var_ _ ops

theorem putProp (ops : List Operand) : Statement (.putProp ops) := var_ _ ops

theorem read (ops : List Operand) : Statement (.read ops) := var_ _ ops

theorem printChar (ops : List Operand) : Statement (.printChar ops) := var_ _ ops

theorem printNum (ops : List Operand) : Statement (.printNum ops) := var_ _ ops

theorem random (ops : List Operand) : Statement (.random ops) := var_ _ ops

theorem push (ops : List Operand) : Statement (.push ops) := var_ _ ops

theorem pull (ops : List Operand) : Statement (.pull ops) := var_ _ ops

theorem splitWindow (ops : List Operand) : Statement (.splitWindow ops) := var_ _ ops

theorem setWindow (ops : List Operand) : Statement (.setWindow ops) := var_ _ ops

theorem callVs2 (ops1 ops2 : List Operand) : Statement (.callVs2 ops1 ops2) := var2 _ ops1 ops2

theorem eraseWindow (ops : List Operand) : Statement (.eraseWindow ops) := var_ _ ops

theorem setCursor (ops : List Operand) : Statement (.setCursor ops) := var_ _ ops

theorem setTextStyle (ops : List Operand) : Statement (.setTextStyle ops) := var_ _ ops

theorem bufferMode (ops : List Operand) : Statement (.bufferMode ops) := var_ _ ops

theorem soundEffect (ops : List Operand) : Statement (.soundEffect ops) := var_ _ ops

theorem readChar (ops : List Operand) : Statement (.readChar ops) := var_ _ ops

theorem callVn (ops : List Operand) : Statement (.callVn ops) := var_ _ ops

theorem callVn2 (ops1 ops2 : List Operand) : Statement (.callVn2 ops1 ops2) := var2 _ ops1 ops2

theorem checkArgCount (ops : List Operand) : Statement (.checkArgCount ops) := var_ _ ops

theorem unpopulatedSlot (u : Unpopulated) : Statement (.unpopulatedSlot u) := by
  cases u with
  | long slot a b => exact args2 slot (.long a b)
  | typed2 slot ops => exact args2 slot (.typed ops)
  | zero _ => rfl
  | typedVar slot ops => exact var_ slot ops
  | extended e ops => exact ext_ e ops

end Sys2Proof.Laws.HeadLength
end

