-- ==== Sys2Proof/Laws/Step.lean ====
section
/-! SUPPORT. Everything a step can have changed: `step_changes`; and which instruction it ran. -/

namespace Sys2Proof.Machine

theorem keeps_runTruncated (t : Truncated) : Keeps [.pc, .pop] (runTruncated t) :=
  keeps_bind (keeps_advance (by decide) _) fun _ => keeps_bind (keeps_fetchOperands (by decide) _) fun _ =>
    keeps_bind (keeps_gets _) fun _ => keeps_raise _

/-- The kinds of the completion of the input. -/
def inputKinds : List Kind := [.mem, .pc, .push, .loc, .glob, .resume]

/-- The kinds of the next step of a state. -/
def stepKinds (s : State) : List Kind :=
  match s.run with
  | .running =>
    match decode s.cfg.slot1Op0F s.fetchBytes with
    | .ok (i, _) => .pc :: .pop :: kindsOf i
    | .error _ => [.pc, .pop]
  | .waitInput => .lines :: inputKinds
  | .halted | .fatal _ => []

theorem step_waitInput {s : State} {line : List Byte} {rest : List (List Byte)} (hr : s.run = .waitInput)
    (hl : s.inbox.lines = line :: rest) :
    step s = inputDone line { s with inbox := { s.inbox with lines := rest } } := by
  unfold step
  split
  · rename_i h; rw [hr] at h; cases h
  · split
    · rename_i h; rw [hl] at h; cases h
    · rename_i h; rw [hl] at h; cases h; rfl
  · rename_i h; rw [hr] at h; cases h
  · rename_i h; rw [hr] at h; cases h

theorem step_waitInput_empty {s : State} (hr : s.run = .waitInput) (hl : s.inbox.lines = []) :
    step s = .fault .waitingForInput := by
  unfold step
  simp [hr, hl]

theorem inputDone_waiting {s : State} (hr : s.run = .waitInput) (line : List Byte) :
    inputDone line s = finish (completeInput line) s := by
  unfold inputDone
  rw [if_pos hr]

/-- A step that answers a next state has made changes of its kinds, and then at most taken a fatal. -/
theorem step_changes {s u : State} (h : step s = .next u) :
    ∃ t, Changes (stepKinds s) s t ∧ (u = t ∨ ∃ c, u = takeFatal c t) := by
  unfold stepKinds
  cases hr : s.run with
  | running =>
    unfold step at h
    simp only [hr] at h ⊢
    cases hd : decode s.cfg.slot1Op0F s.fetchBytes with
    | ok p =>
      obtain ⟨i, rest⟩ := p
      simp only [hd] at h
      exact exec_changes (operands_le_of_wellFormed (decode_sound hd).1) h
    | error t =>
      simp only [hd] at h
      exact (keeps_runTruncated t).finish h
  | waitInput =>
    cases hl : s.inbox.lines with
    | nil => rw [step_waitInput_empty hr hl] at h; cases h
    | cons line rest =>
      rw [step_waitInput hr hl, inputDone_waiting (by exact hr)] at h
      obtain ⟨t, ht, hu⟩ := (keeps_completeInput (K := inputKinds) (by decide) line).finish h
      exact ⟨t, (Changes.one (.lines _ (by simp))).trans (ht.mono (List.subset_cons_self _ _)), hu⟩
  | halted => unfold step at h; simp [hr] at h
  | fatal c => unfold step at h; simp [hr] at h

/-- A property that every change of the step's kinds keeps, and that does not speak of the run state, is kept by
the step. -/
theorem step_invariant {P : State → Prop} (h1 : ∀ K s t, Change K s t → P s → P t)
    (hf : ∀ s c, P s → P (takeFatal c s)) {s u : State} (h : step s = .next u) (hs : P s) : P u := by
  obtain ⟨t, ht, hu⟩ := step_changes h
  have := ht.invariant (h1 _) hs
  rcases hu with rfl | ⟨c, rfl⟩
  · exact this
  · exact hf t c this

end Sys2Proof.Machine
end

