-- ==== Sys2Proof/Tests/Slice0.lean ====
section
/-! SUPPORT. Tests of the model: ill-formed terms, the decoding of every constructor from words written out bit by
bit, one-step vectors, and for every statement that has hypotheses a case that meets them. Expected results are
those of spec/95_test_vectors.md (named T-..., S... or P... below) or are worked out by hand from the rule cited. -/

namespace Sys2Proof.Tests

open Sys2Proof Sys2Proof.Machine

/-! ### Fault codes -/

/-- The codes of R354, in the order of its table. -/
theorem test_fault_codes :
    [Cause.unknownOpcode 0 none, .invalidSoundEffect 3, .memRange 0, .missingOperand 0, .stackUnderflow,
      .stackOverflow, .returnFromMain, .invalidObject 0, .invalidAttribute 32, .treeCorrupt 3, .invalidProperty 0,
      .propertyNotFound 1, .badPropertyLength 3, .badText, .badRoutine 16].map Cause.code =
    [1, 2, 3, 4, 5, 6, 7, 8, 9, 10, 11, 12, 13, 14, 15] := by decide

/-! ### Helpers -/

/-- Memory cells from runs of bytes, in rising order. -/
def cells (runs : List (Nat × List Byte)) : Memory := runs.flatMap fun r => imageFrom r.1 r.2

/-- The standard version 3 start state of 95_test_vectors.md, with more bytes. -/
def v3 (runs : List (Nat × List Byte)) : State :=
  resetState {} {} (cells ([(0, [3]), (6, [4, 0, 3, 0xF0, 2, 0, 1, 0, 4, 0]), (0x18, [0, 0x40])] ++ runs)) 0x480

/-- The standard version 5 start state. -/
def v5 (runs : List (Nat × List Byte)) : State :=
  resetState {} {} (cells ([(0, [5]), (6, [5, 0, 0, 0, 2, 0, 1, 0, 4, 0]), (0x18, [0, 0x40])] ++ runs)) 0x600

/-- Version 3 with only an instruction at `PC0`. -/
def code3 (bytes : List Byte) : State := v3 [(0x400, bytes)]

/-- Version 5 with only an instruction at `PC0`. -/
def code5 (bytes : List Byte) : State := v5 [(0x500, bytes)]

/-- The state after one step, where there is one. -/
def after (s : State) : Option State :=
  match step s with
  | .next t => some t
  | _ => none

/-- `G0` and the program counter. -/
def g0pc (t : State) : Word × BitVec 32 := (t.wordAt 0x100, t.pc)

/-- The top frame's operand stack, top first, and the program counter. -/
def stackPc (t : State) : List Word × BitVec 32 := (t.stack, t.pc)

/-- The program counter and the run state. -/
def pcRun (t : State) : BitVec 32 × RunState := (t.pc, t.run)

/-- The four objects of T-OBJ: 1 is the parent of the chain 2, 3, 4. -/
def tree : List (Nat × List Byte) :=
  [ (0x23E, [0, 0, 0, 0, 0, 0, 2, 2, 0x80]), (0x247, [0, 0, 0, 0, 1, 3, 0, 2, 0x80])
  , (0x250, [0, 0, 0, 0, 1, 4, 0, 2, 0x80]), (0x259, [0, 0, 0, 0, 1, 0, 0, 2, 0x80]) ]

/-- T-OBJ with an instruction. -/
def treeWith (bytes : List Byte) : State := v3 (tree ++ [(0x400, bytes)])

/-- Parent, sibling and child of objects 1 to 4. -/
def links (t : State) : List (Word × Word × Word) :=
  [1#16, 2#16, 3#16, 4#16].map fun id =>
    (t.linkOf id Geometry.offParent, t.linkOf id Geometry.offSibling, t.linkOf id Geometry.offChild)

/-- Object 1 of P2, with its property table, and an instruction. -/
def propsWith (bytes : List Byte) : State :=
  v3 [ (0x208, [0, 0x2A]), (0x23E, [0, 0, 0, 0, 0, 0, 2, 2, 0x60])
     , (0x260, [2, 0x11, 0xA4, 0xB8, 0xA5, 0x32, 0x12, 0x34, 0x0A, 7]), (0x400, bytes) ]

/-- A version 3 machine in a called routine at 0x400, its caller waiting at 0x440. -/
def called3 (wantResult : Bool) (runs : List (Nat × List Byte)) : State :=
  let s := v3 runs
  { s with
    top := { s.top with storeResult := wantResult, argc := 2 }
    below := [{ pc := 0x440, storeResult := false, argc := 0, locals := Vector.replicate 15 0, stack := [9] }] }

/-- Characters. -/
def chars (codes : List Word) : List Token := codes.map .char

/-- The decoder reads exactly this instruction. -/
def reads (slot : Slot1Op0F) (bytes : List Byte) (i : Instr) : Bool :=
  match decode slot bytes with
  | .ok (j, []) => decide (j = i)
  | _ => false

/-! ### Ill-formed terms -/

/-- Five operands. -/
def five : List Operand := [.small 1, .small 2, .small 3, .small 4, .small 5]

theorem test_illFormed_typed : (Instr.je (.typed five)).wellFormed = false := by decide

theorem test_illFormed_extended :
    (Instr.save (.extended five)).wellFormed = false ∧ (Instr.restore (.extended five)).wellFormed = false := by
  decide

theorem test_illFormed_var : (Instr.call five).wellFormed = false := by decide

theorem test_illFormed_var2 :
    (Instr.callVs2 five []).wellFormed = false ∧ (Instr.callVn2 [] five).wellFormed = false := by decide

theorem test_illFormed_unpopulated_slot :
    (Instr.unpopulatedSlot (.long 0x14 (.small 1) (.small 2))).wellFormed = false ∧
    (Instr.unpopulatedSlot (.typed2 0x1B [])).wellFormed = false ∧
    (Instr.unpopulatedSlot (.zero 0xE)).wellFormed = false ∧
    (Instr.unpopulatedSlot (.typedVar 0x1F [])).wellFormed = false ∧
    (Instr.unpopulatedSlot (.extended 0x21 [])).wellFormed = false := by decide

theorem test_illFormed_unpopulated_operands :
    (Instr.unpopulatedSlot (.typed2 0 five)).wellFormed = false ∧
    (Instr.unpopulatedSlot (.typedVar 0x0E five)).wellFormed = false ∧
    (Instr.unpopulatedSlot (.extended 2 five)).wellFormed = false := by decide

/-! ### Decoding -/

/-- R94, R115: the long form of the 2OP slots 0x01 to 0x0E. -/
theorem test_decode_2op_low :
    [ ([0b00000001, 5, 3], Instr.je (.long (.small 5) (.small 3)))
    , ([0b00100010, 5, 3], Instr.jl (.long (.small 5) (.var 3)))
    , ([0b01000011, 5, 3], Instr.jg (.long (.var 5) (.small 3)))
    , ([0b01100100, 5, 3], Instr.decChk (.long (.var 5) (.var 3)))
    , ([0b00000101, 5, 3], Instr.incChk (.long (.small 5) (.small 3)))
    , ([0b00100110, 5, 3], Instr.jin (.long (.small 5) (.var 3)))
    , ([0b01000111, 5, 3], Instr.test (.long (.var 5) (.small 3)))
    , ([0b01101000, 5, 3], Instr.or (.long (.var 5) (.var 3)))
    , ([0b00001001, 5, 3], Instr.and (.long (.small 5) (.small 3)))
    , ([0b00101010, 5, 3], Instr.testAttr (.long (.small 5) (.var 3)))
    , ([0b01001011, 5, 3], Instr.setAttr (.long (.var 5) (.small 3)))
    , ([0b01101100, 5, 3], Instr.clearAttr (.long (.var 5) (.var 3)))
    , ([0b00001101, 5, 3], Instr.store (.long (.small 5) (.small 3)))
    , ([0b00101110, 5, 3], Instr.insertObj (.long (.small 5) (.var 3))) ].all (fun p => reads .not p.1 p.2) = true := by decide

/-- R94, R115: the long form of the 2OP slots 0x0F to 0x1B. -/
theorem test_decode_2op_high :
    [ ([0b01001111, 5, 3], Instr.loadw (.long (.var 5) (.small 3)))
    , ([0b01110000, 5, 3], Instr.loadb (.long (.var 5) (.var 3)))
    , ([0b00010001, 5, 3], Instr.getProp (.long (.small 5) (.small 3)))
    , ([0b00110010, 5, 3], Instr.getPropAddr (.long (.small 5) (.var 3)))
    , ([0b01010011, 5, 3], Instr.getNextProp (.long (.var 5) (.small 3)))
    , ([0b01110100, 5, 3], Instr.add (.long (.var 5) (.var 3)))
    , ([0b00010101, 5, 3], Instr.sub (.long (.small 5) (.small 3)))
    , ([0b00110110, 5, 3], Instr.mul (.long (.small 5) (.var 3)))
    , ([0b01010111, 5, 3], Instr.div (.long (.var 5) (.small 3)))
    , ([0b01111000, 5, 3], Instr.mod (.long (.var 5) (.var 3)))
    , ([0b00011001, 5, 3], Instr.call2s (.long (.small 5) (.small 3)))
    , ([0b00111010, 5, 3], Instr.call2n (.long (.small 5) (.var 3)))
    , ([0b01011011, 5, 3], Instr.setColour (.long (.var 5) (.small 3))) ].all (fun p => reads .not p.1 p.2) = true := by decide

/-- R95, R116: the 1OP table, each slot with one of its three operand types; slot 0xF as `NOT`. -/
theorem test_decode_1op :
    [ ([0b10000000, 0x12, 0x34], Instr.jz (.large 0x1234))
    , ([0b10010001, 7], Instr.getSibling (.small 7))
    , ([0b10100010, 7], Instr.getChild (.var 7))
    , ([0b10000011, 0x12, 0x34], Instr.getParent (.large 0x1234))
    , ([0b10100100, 7], Instr.getPropLen (.var 7))
    , ([0b10010101, 7], Instr.inc (.small 7))
    , ([0b10010110, 7], Instr.dec (.small 7))
    , ([0b10000111, 0x12, 0x34], Instr.printAddr (.large 0x1234))
    , ([0b10001000, 0x12, 0x34], Instr.call1s (.large 0x1234))
    , ([0b10011001, 7], Instr.removeObj (.small 7))
    , ([0b10011010, 7], Instr.printObj (.small 7))
    , ([0b10101011, 7], Instr.ret (.var 7))
    , ([0b10001100, 0x12, 0x34], Instr.jump (.large 0x1234))
    , ([0b10001101, 0x12, 0x34], Instr.printPaddr (.large 0x1234))
    , ([0b10011110, 7], Instr.load (.small 7))
    , ([0b10101111, 7], Instr.not (.var 7)) ].all (fun p => reads .not p.1 p.2) = true := by decide

/-- R96, R117: the 0OP table. -/
theorem test_decode_0op :
    [ ([0b10110000], Instr.rtrue)
    , ([0b10110001], Instr.rfalse)
    , ([0b10110010], Instr.print)
    , ([0b10110011], Instr.printRet)
    , ([0b10110100], Instr.nop)
    , ([0b10110101], Instr.save .short)
    , ([0b10110110], Instr.restore .short)
    , ([0b10110111], Instr.restart)
    , ([0b10111000], Instr.retPopped)
    , ([0b10111001], Instr.pop)
    , ([0b10111010], Instr.quit)
    , ([0b10111011], Instr.newLine)
    , ([0b10111100], Instr.showStatus) ].all (fun p => reads .not p.1 p.2) = true := by decide

/-- R98, R99, R118: the VAR slots 0x00 to 0x0B. -/
theorem test_decode_var_low :
    [ ([0b11100000, 0b00011011, 0x01, 0x00, 1, 2], Instr.call [.large 0x100, .small 1, .var 2])
    , ([0b11100001, 0b00011011, 0x01, 0x00, 1, 2], Instr.storew [.large 0x100, .small 1, .var 2])
    , ([0b11100010, 0b00011011, 0x01, 0x00, 1, 2], Instr.storeb [.large 0x100, .small 1, .var 2])
    , ([0b11100011, 0b00011011, 0x01, 0x00, 1, 2], Instr.putProp [.large 0x100, .small 1, .var 2])
    , ([0b11100100, 0b00011011, 0x01, 0x00, 1, 2], Instr.read [.large 0x100, .small 1, .var 2])
    , ([0b11100101, 0b00011011, 0x01, 0x00, 1, 2], Instr.printChar [.large 0x100, .small 1, .var 2])
    , ([0b11100110, 0b00011011, 0x01, 0x00, 1, 2], Instr.printNum [.large 0x100, .small 1, .var 2])
    , ([0b11100111, 0b00011011, 0x01, 0x00, 1, 2], Instr.random [.large 0x100, .small 1, .var 2])
    , ([0b11101000, 0b00011011, 0x01, 0x00, 1, 2], Instr.push [.large 0x100, .small 1, .var 2])
    , ([0b11101001, 0b00011011, 0x01, 0x00, 1, 2], Instr.pull [.large 0x100, .small 1, .var 2])
    , ([0b11101010, 0b00011011, 0x01, 0x00, 1, 2], Instr.splitWindow [.large 0x100, .small 1, .var 2])
    , ([0b11101011, 0b00011011, 0x01, 0x00, 1, 2], Instr.setWindow [.large 0x100, .small 1, .var 2]) ].all (fun p => reads .not p.1 p.2) = true := by decide

/-- R98, R99, R118: the VAR slots 0x0C to 0x1F, two of them with a second type byte. -/
theorem test_decode_var_high :
    [ ([0b11101100, 0b00011001, 0b01111111, 0x01, 0x00, 1, 2, 3, 4], Instr.callVs2 [.large 0x100, .small 1, .var 2, .small 3] [.small 4])
    , ([0b11101101, 0b00011011, 0x01, 0x00, 1, 2], Instr.eraseWindow [.large 0x100, .small 1, .var 2])
    , ([0b11101111, 0b00011011, 0x01, 0x00, 1, 2], Instr.setCursor [.large 0x100, .small 1, .var 2])
    , ([0b11110001, 0b00011011, 0x01, 0x00, 1, 2], Instr.setTextStyle [.large 0x100, .small 1, .var 2])
    , ([0b11110010, 0b00011011, 0x01, 0x00, 1, 2], Instr.bufferMode [.large 0x100, .small 1, .var 2])
    , ([0b11110101, 0b00011011, 0x01, 0x00, 1, 2], Instr.soundEffect [.large 0x100, .small 1, .var 2])
    , ([0b11110110, 0b00011011, 0x01, 0x00, 1, 2], Instr.readChar [.large 0x100, .small 1, .var 2])
    , ([0b11111001, 0b00011011, 0x01, 0x00, 1, 2], Instr.callVn [.large 0x100, .small 1, .var 2])
    , ([0b11111010, 0b00011001, 0b01111111, 0x01, 0x00, 1, 2, 3, 4], Instr.callVn2 [.large 0x100, .small 1, .var 2, .small 3] [.small 4])
    , ([0b11111111, 0b00011011, 0x01, 0x00, 1, 2], Instr.checkArgCount [.large 0x100, .small 1, .var 2]) ].all (fun p => reads .not p.1 p.2) = true := by decide

/-- R93, R119: the EXT table, and bits 7:5 of the second byte ignored. -/
theorem test_decode_ext :
    [ ([0b10111110, 0b00000000, 0b01111111, 9], Instr.save (.extended [.small 9]))
    , ([0b10111110, 0b00000001, 0b01111111, 9], Instr.restore (.extended [.small 9]))
    , ([0b10111110, 0b11100001, 0b11111111], Instr.restore (.extended [])) ].all (fun p => reads .not p.1 p.2) = true := by decide

/-- R113: 1OP slot 0xF is `CALL_1N` in version 5. -/
theorem test_decode_version_slot :
    [ ([0b10001111, 0x12, 0x34], Instr.call1n (.large 0x1234)) ].all (fun p => reads .call1n p.1 p.2) = true := by decide

/-- R114: an empty slot of each form. -/
theorem test_decode_unpopulated :
    [ ([0b00011100, 1, 2], Instr.unpopulatedSlot (.long 0x1C (.small 1) (.small 2)))
    , ([0b11000000, 0b01111111, 1], Instr.unpopulatedSlot (.typed2 0 [.small 1]))
    , ([0b10111101], Instr.unpopulatedSlot (.zero 0xD))
    , ([0b10111111], Instr.unpopulatedSlot (.zero 0xF))
    , ([0b11101110, 0b11111111], Instr.unpopulatedSlot (.typedVar 0xE []))
    , ([0b10111110, 0b00000010, 0b11111111], Instr.unpopulatedSlot (.extended 2 [])) ].all
      (fun p => reads .not p.1 p.2) = true := by decide

/-- R97: the variable form over the 2OP table, with one to four operands (the last row of T-DEC-4). -/
theorem test_decode_2op_variable :
    [ ([0b11000001, 0b01010111, 5, 3, 5], Instr.je (.typed [.small 5, .small 3, .small 5]))
    , ([0b11010100, 0b00011111, 0x12, 0x34, 5], Instr.add (.typed [.large 0x1234, .small 5]))
    , ([0b11000001, 0b10101010, 1, 2, 3, 4], Instr.je (.typed [.var 1, .var 2, .var 3, .var 4])) ].all
      (fun p => reads .not p.1 p.2) = true := by decide

/-! ### The decoder and the faults of operands, in a step -/

/-- T-DEC-5: one operand where `JE` needs two. -/
theorem test_step_missing_operand :
    (after (code3 [0xC1, 0x7F, 5, 0xC5])).map pcRun = some (0x403#32, .fatal (.missingOperand 0xC1)) := by decide

/-- T-DEC-11, second step: the operand's underflow comes before the dispatch fault. -/
theorem test_step_operand_fault_first :
    (after ((code3 [0x60, 0, 0]).setStack [5])).map (·.run) = some (.fatal .stackUnderflow) := by decide

/-- T-DEC-13: the bytes end inside the instruction. -/
theorem test_step_truncated :
    (after { code3 [0x14] with memSize := 0x401 }).map pcRun = some (0x401#32, .fatal (.memRange 0x401)) := by decide

/-- T-DEC-8 and T-DEC-12. -/
theorem test_step_unpopulated :
    (after (code5 [0xBE, 2, 0xFF])).map pcRun = some (0x503#32, .fatal (.unknownOpcode 0xBE (some 2))) ∧
    (after (code3 [0xBD])).map pcRun = some (0x401#32, .fatal (.unknownOpcode 0xBD none)) := by decide

/-! ### Arithmetic and logic -/

/-- T-AR-1. -/
theorem test_add_wraps :
    (after (code3 [0xD4, 0x0F, 0x7F, 0xFF, 0, 1, 0x10])).map g0pc = some (0x8000#16, 0x407#32) := by decide

/-- T-DEC-3, third step: the first operand pops first, and the sum is pushed. -/
theorem test_add_stack :
    (after ((code3 [0x74, 0, 0, 0]).setStack [2, 1])).map stackPc = some ([3#16], 0x404#32) := by decide

/-- T-AR-3. -/
theorem test_sub_order :
    (after (code3 [0xD5, 0x0F, 0, 0, 0, 1, 0x10])).map g0pc = some (0xFFFF#16, 0x407#32) := by decide

/-- T-AR-5. -/
theorem test_mul_wraps :
    (after (code3 [0xD6, 0x0F, 1, 0x2C, 1, 0x2C, 0x10])).map g0pc = some (0x5F90#16, 0x407#32) := by decide

/-- T-AR-9. -/
theorem test_div_toward_zero :
    (after (code3 [0xD7, 0x0F, 0xFF, 0xF5, 0, 2, 0x10])).map g0pc = some (0xFFFB#16, 0x407#32) := by decide

/-- T-AR-24, third step: a zero divisor takes the store byte and stores nothing. -/
theorem test_div_by_zero :
    (after ((code3 [0x77, 0, 0, 0]).setStack [9, 0])).map stackPc = some ([], 0x404#32) := by decide

/-- T-AR-16. -/
theorem test_mod_sign_of_dividend :
    (after (code3 [0xD8, 0x0F, 0, 0x0D, 0xFF, 0xFB, 0x10])).map g0pc = some (3#16, 0x407#32) := by decide

/-- T-AR-15. -/
theorem test_mod_negative :
    (after (code3 [0xD8, 0x0F, 0xFF, 0xF3, 0, 5, 0x10])).map g0pc = some (0xFFFD#16, 0x407#32) := by decide

/-- T-AR-20. -/
theorem test_or : (after (code3 [0xC8, 0x0F, 0, 0xF0, 0x0F, 0, 0x10])).map g0pc = some (0x0FF0#16, 0x407#32) := by
  decide

/-- T-AR-21. -/
theorem test_and : (after (code3 [0xC9, 0x0F, 0x0F, 0xF0, 0, 0xFF, 0x10])).map g0pc = some (0xF0#16, 0x407#32) := by
  decide

/-- T-AR-22. -/
theorem test_not : (after (code3 [0x9F, 0x0F, 0])).map stackPc = some ([0xFFF0#16], 0x403#32) := by decide

/-! ### Compare, branch, jump -/

/-- T-DEC-4: any of the later operands. -/
theorem test_je_three : (after (code3 [0xC1, 0x57, 5, 3, 5, 0xC5])).map (·.pc) = some 0x409#32 := by decide

/-- T-BR-7. -/
theorem test_jl_signed :
    (after ((code3 [0x42, 1, 5, 0xC5]).setLocal 1 0xFFFF)).map (·.pc) = some 0x407#32 := by decide

/-- T-BR-8. -/
theorem test_jg_signed :
    (after ((code3 [0x43, 1, 5, 0xC5]).setLocal 1 0xFFFF)).map (·.pc) = some 0x404#32 := by decide

/-- T-BR-4: a negative two-byte offset, taken on false. -/
theorem test_decChk :
    (after ((code3 [4, 1, 1, 0x3F, 0xF9]).setLocal 1 5)).map (fun t => (localVar t.top 1, t.pc)) =
      some (4#16, 0x3FC#32) := by decide

/-- T-BR-12. -/
theorem test_incChk :
    (after ((code3 [5, 1, 0x7F, 0xC5]).setLocal 1 0x7FFF)).map (fun t => (localVar t.top 1, t.pc)) =
      some (0x8000#16, 0x404#32) := by decide

/-- T-BR-10. -/
theorem test_test_true : (after (code3 [7, 0x0F, 5, 0xC5])).map (·.pc) = some 0x407#32 := by decide

/-- T-BR-11. -/
theorem test_test_false : (after (code3 [7, 0x0A, 5, 0xC5])).map (·.pc) = some 0x404#32 := by decide

/-- T-BR-1. -/
theorem test_jz_long_field : (after (code3 [0x90, 0, 0x80, 0x10])).map (·.pc) = some 0x412#32 := by decide

/-- S2, third row, second step: sense 0 and offset 0 return false, here to a caller that wants no result. -/
theorem test_jz_returns_false :
    (after (called3 false [(0x400, [0x90, 5, 0x40])])).map (fun t => (t.pc, t.stack, t.below)) =
      some (0x440#32, [9#16], []) := by decide

/-- T-BR-6: offset 1 is ordinary. -/
theorem test_jump_one : (after (code3 [0x8C, 0, 1])).map (·.pc) = some 0x402#32 := by decide

/-- T-BR-5, from 0x0400. -/
theorem test_jump_back : (after (code3 [0x8C, 0xFF, 0xFD])).map (·.pc) = some 0x3FE#32 := by decide

/-! ### Variables, loads and stores -/

/-- T-VAR-1, second step. -/
theorem test_store_stack_in_place :
    (after ((code3 [0x0D, 0, 9]).setStack [5])).map (·.stack) = some [9#16] := by decide

/-- T-VAR-7. -/
theorem test_store_last_global :
    (after (code3 [0x0D, 0xFF, 0x2A])).map (fun t => t.wordAt 0x2DE) = some 0x2A#16 := by decide

/-- T-VAR-3, second step. -/
theorem test_load_stack_in_place :
    (after ((code3 [0x9E, 0, 0]).setStack [5])).map (·.stack) = some [5#16, 5#16] := by decide

/-- T-VAR-4, second step. -/
theorem test_inc_stack : (after ((code3 [0x95, 0]).setStack [5])).map (·.stack) = some [6#16] := by decide

/-- T-VAR-5. -/
theorem test_dec_wraps : (after (code3 [0x96, 1])).map (fun t => localVar t.top 1) = some 0xFFFF#16 := by decide

/-- T-VAR-8. -/
theorem test_loadw :
    (after (v3 [(0x304, [0xAB, 0xCD]), (0x400, [0xCF, 0x1F, 3, 0, 2, 0x10])])).map g0pc =
      some (0xABCD#16, 0x406#32) := by decide

/-- T-VAR-14: no wrap at 2^16. -/
theorem test_loadw_no_wrap :
    (after (code3 [0xCF, 0x0F, 0xFF, 0xFF, 0xFF, 0xFF, 0x10])).map (·.run) = some (.fatal (.memRange 0x2FFFD)) := by
  decide

/-- T-VAR-9. -/
theorem test_loadb :
    (after (v3 [(0x305, [0xCD]), (0x400, [0xD0, 0x1F, 3, 0, 5, 0x10])])).map g0pc = some (0xCD#16, 0x406#32) := by
  decide

/-- T-VAR-10. -/
theorem test_storew :
    (after (code3 [0xE1, 0x13, 3, 0, 1, 0xAB, 0xCD])).map (fun t => (t.wordAt 0x302, t.pc)) =
      some (0xABCD#16, 0x407#32) := by decide

/-- T-RST-5, first step: the header's globals field is written, the latched register stays. -/
theorem test_storew_header :
    (after (code3 [0xE1, 0x17, 0, 0x0C, 0, 0x99])).map (fun t => (t.wordAt 0x0C, t.cfg.globals)) =
      some (0x99#16, 0x100#16) := by decide

/-- T-VAR-12. -/
theorem test_storeb_low_byte :
    (after (code3 [0xE2, 0x13, 3, 0, 1, 0x12, 0xCD])).map (fun t => t.mem.bytes 0x300 3) =
      some [0#8, 0xCD#8, 0#8] := by decide

/-! ### Objects -/

/-- T-OBJ-1. -/
theorem test_removeObj_middle :
    (after (treeWith [0x99, 3])).map links = some [(0, 0, 2), (1, 4, 0), (0, 0, 0), (1, 0, 0)] := by decide

/-- T-OBJ-2. -/
theorem test_removeObj_first :
    (after (treeWith [0x99, 2])).map links = some [(0, 0, 3), (0, 0, 0), (1, 4, 0), (1, 0, 0)] := by decide

/-- T-OBJ-6. -/
theorem test_insertObj :
    (after (treeWith [0x0E, 4, 2])).map links = some [(0, 0, 2), (1, 3, 4), (1, 0, 0), (2, 0, 0)] := by decide

/-- T-OBJ-8. -/
theorem test_insertObj_same_parent :
    (after (treeWith [0x0E, 3, 1])).map links = some [(0, 0, 3), (1, 4, 0), (1, 2, 0), (1, 0, 0)] := by decide

/-- T-OBJ-18. -/
theorem test_getParent : (after (treeWith [0x93, 3, 0x10])).map g0pc = some (1#16, 0x403#32) := by decide

/-- T-ATTR-13: two-byte links. -/
theorem test_getParent_later :
    (after (v5 [(0x284, [0, 2, 0, 3, 0, 4]), (0x500, [0x93, 1, 0x10])])).map g0pc = some (2#16, 0x503#32) := by decide

/-- T-OBJ-16. -/
theorem test_getSibling : (after (treeWith [0x91, 2, 0xC5, 0x10])).map g0pc = some (3#16, 0x407#32) := by decide

/-- T-OBJ-12. -/
theorem test_getChild : (after (treeWith [0x92, 1, 0xC5, 0x10])).map g0pc = some (2#16, 0x407#32) := by decide

/-- T-OBJ-15. -/
theorem test_getChild_other_order :
    (after { treeWith [0x92, 1, 0x10, 0xC5] with params := { fieldOrder := .storeThenBranch } }).map g0pc =
      some (2#16, 0x407#32) := by decide

/-- T-OBJ-20. -/
theorem test_jin : (after (treeWith [6, 3, 1, 0xC5])).map (·.pc) = some 0x407#32 := by decide

/-- T-OBJ-21. -/
theorem test_jin_false : (after (treeWith [6, 3, 2, 0xC5])).map (·.pc) = some 0x404#32 := by decide

/-- T-ATTR-5. -/
theorem test_testAttr :
    (after (v3 [(0x23F, [0x40]), (0x400, [0x0A, 1, 9, 0xC5])])).map (·.pc) = some 0x407#32 := by decide

/-- T-ATTR-6. -/
theorem test_testAttr_neighbour :
    (after (v3 [(0x23F, [0x40]), (0x400, [0x0A, 1, 8, 0xC5])])).map (·.pc) = some 0x404#32 := by decide

/-- T-ATTR-2. -/
theorem test_setAttr_last :
    (after (treeWith [0x0B, 1, 0x1F])).map (fun t => t.mem.bytes 0x23E 4) = some [0#8, 0#8, 0#8, 1#8] := by decide

/-- T-ATTR-9: the first bit of the 16-bit part. -/
theorem test_setAttr_later :
    (after (code5 [0xCB, 0x5F, 1, 0x20])).map (fun t => t.mem.bytes 0x27E 6) =
      some [0#8, 0#8, 0#8, 0#8, 0x80#8, 0#8] := by decide

/-- T-ATTR-4. -/
theorem test_clearAttr :
    (after (v3 [(0x23E, [0xFF, 0xFF, 0xFF, 0xFF]), (0x400, [0x0C, 1, 9])])).map (fun t => t.mem.bytes 0x23E 4) =
      some [0xFF#8, 0xBF#8, 0xFF#8, 0xFF#8] := by decide

/-! ### Properties -/

/-- T-PR-1. -/
theorem test_getProp_default : (after (propsWith [0x11, 1, 5, 0x10])).map g0pc = some (0x2A#16, 0x404#32) := by decide

/-- P2, step 7. -/
theorem test_getProp_word : (after (propsWith [0x11, 1, 0x12, 0x10])).map g0pc = some (0x1234#16, 0x404#32) := by
  decide

/-- P2, step 11. -/
theorem test_getPropAddr : (after (propsWith [0x12, 1, 0x0A, 0x10])).map g0pc = some (0x269#16, 0x404#32) := by decide

/-- T-PR-6. -/
theorem test_getNextProp_first : (after (propsWith [0x13, 1, 0, 0x10])).map g0pc = some (18#16, 0x404#32) := by decide

/-- T-PR-7. -/
theorem test_getNextProp_last :
    (after (v3 [(0x100, [0xBE, 0xEF]), (0x23E, [0, 0, 0, 0, 0, 0, 2, 2, 0x60]), (0x261, [0x32, 0x12, 0x34, 0x0A, 7]),
      (0x400, [0x13, 1, 0x0A, 0x10])])).map g0pc = some (0#16, 0x404#32) := by decide

/-- The table of P2, by R239: the byte before 0x0266 is 32, length 2. -/
theorem test_getPropLen : (after (propsWith [0x84, 2, 0x66, 0x10])).map g0pc = some (2#16, 0x404#32) := by decide

/-- R242, the version 5 list: the byte before 0x02A3 is the continuation byte 83, length 3. -/
theorem test_getPropLen_later :
    (after (v5 [(0x2A1, [0x92, 0x83, 0xAA, 0xBB, 0xCC]), (0x500, [0x84, 2, 0xA3, 0x10])])).map g0pc =
      some (3#16, 0x504#32) := by decide

/-- T-PR-10. -/
theorem test_putProp_word :
    (after (propsWith [0xE3, 0x53, 1, 0x12, 0xAB, 0xCD])).map (fun t => t.wordAt 0x266) = some 0xABCD#16 := by decide

/-- T-PR-11. -/
theorem test_putProp_byte :
    (after (propsWith [0xE3, 0x53, 1, 0x0A, 0xAB, 0xCD])).map (fun t => t.mem.bytes 0x268 3) =
      some [0x0A#8, 0xCD#8, 0#8] := by decide

/-! ### Text -/

/-- T-TX-1. -/
theorem test_print :
    (after (code3 [0xB2, 0x11, 0xA4, 0xB8, 0xA5])).map (fun t => (t.trace, t.pc)) =
      some ([.print (chars [0x48, 0x49])], 0x405#32) := by decide

/-- R254: an abbreviation, its entry a word address; R269's "HI" inside, then padding. -/
theorem test_print_abbreviation :
    (after (v3 [(0x44, [1, 0x20]), (0x240, [0x11, 0xA4, 0xB8, 0xA5]), (0x400, [0xB2, 0x84, 0x45])])).map (·.trace) =
      some [.print (chars [0x48, 0x49])] := by decide

/-- T-TX-2, for a caller that wants no result. -/
theorem test_printRet :
    (after (called3 false [(0x400, [0xB3, 0x11, 0xA4, 0xB8, 0xA5])])).map (fun t => (t.trace, t.pc, t.stack)) =
      some ([.print (chars [0x48, 0x49] ++ [.newline])], 0x440#32, [9#16]) := by decide

/-- T-TX-9. -/
theorem test_printAddr :
    (after (v3 [(0x300, [0x11, 0xA4, 0xB8, 0xA5]), (0x400, [0x87, 3, 0])])).map (fun t => (t.trace, t.pc)) =
      some ([.print (chars [0x48, 0x49])], 0x403#32) := by decide

/-- T-TX-10. -/
theorem test_printPaddr :
    (after (v3 [(0x300, [0x11, 0xA4, 0xB8, 0xA5]), (0x400, [0x8D, 1, 0x80])])).map (·.trace) =
      some [.print (chars [0x48, 0x49])] := by decide

/-- T-TX-11. -/
theorem test_printPaddr_later :
    (after (v5 [(0x300, [0x11, 0xA4, 0xB8, 0xA5]), (0x500, [0x8D, 0, 0xC0])])).map (·.trace) =
      some [.print (chars [0x48, 0x49])] := by decide

/-- T-TX-12. -/
theorem test_printObj :
    (after (propsWith [0x9A, 1])).map (·.trace) = some [.print (chars [0x48, 0x49])] := by decide

/-- T-TX-13. -/
theorem test_printObj_no_name : (after (treeWith [0x9A, 1])).map (·.trace) = some [.print []] := by decide

/-- T-TX-8. -/
theorem test_printChar : (after (code3 [0xE5, 0x7F, 0x41])).map (·.trace) = some [.print [.char 65]] := by decide

/-- T-TX-6. -/
theorem test_printNum :
    (after (code3 [0xE6, 0x3F, 0x80, 0])).map (·.trace) =
      some [.print (chars [0x2D, 0x33, 0x32, 0x37, 0x36, 0x38])] := by decide

/-- T-TX-7. -/
theorem test_printNum_zero : (after (code3 [0xE6, 0x7F, 0])).map (·.trace) = some [.print [.char 0x30]] := by decide

/-- T-TX-4. -/
theorem test_newLine :
    (after (code3 [0xBB])).map (fun t => (t.trace, t.pc)) = some ([.print [.newline]], 0x401#32) := by decide

/-! ### Calls, returns, the operand stack -/

/-- A routine of two locals with the initial values 7 and 8, at packed address 0x0120 of version 3, and an
instruction (T-CALL-1). -/
def routineWith (bytes : List Byte) : State := v3 [(0x240, [2, 0, 7, 0, 8]), (0x400, bytes)]

/-- The new frame's program counter, result wish, argument count and first three locals, and the caller's program
counter. -/
def frameView (t : State) : BitVec 32 × Bool × Nat × List Word × List (BitVec 32) :=
  (t.pc, t.top.storeResult, t.top.argc, [1, 2, 3].map (localVar t.top), t.below.map (·.pc))

/-- T-CALL-1, from 0x0400. -/
theorem test_call :
    (after (routineWith [0xE0, 0x1F, 1, 0x20, 5, 0])).map frameView =
      some (0x245#32, true, 1, [5, 8, 0], [0x405#32]) := by decide

/-- T-CALL-3. -/
theorem test_call_zero : (after (code3 [0xE0, 0x3F, 0, 0, 0])).map stackPc = some ([0#16], 0x405#32) := by decide

/-- R284 on the routine of T-CALL-1: no argument, so both locals have their initial values. -/
theorem test_call1s :
    (after (routineWith [0x88, 1, 0x20, 0])).map frameView = some (0x245#32, true, 0, [7, 8, 0], [0x403#32]) := by
  decide

/-- T-AR-23. -/
theorem test_call1n :
    (after (code5 [0x9F, 0x0F])).map frameView = some (0x3D#32, false, 0, [0, 0, 0], [0x502#32]) := by decide

/-- R286 on the routine of T-CALL-1. -/
theorem test_call2s :
    (after (routineWith [0xD9, 0x1F, 1, 0x20, 5, 0])).map frameView =
      some (0x245#32, true, 1, [5, 8, 0], [0x405#32]) := by decide

/-- R287 on the routine of T-CALL-1; an operand beyond the second is ignored. -/
theorem test_call2n :
    (after (routineWith [0xDA, 0x17, 1, 0x20, 5, 6])).map frameView =
      some (0x245#32, false, 1, [5, 8, 0], [0x406#32]) := by decide

/-- T-CALL-2. -/
theorem test_callVs2 :
    (after (v5 [(0x400, [5]), (0x500, [0xEC, 0x15, 0x7F, 1, 0, 0x10, 2, 3, 4, 0])])).map
        (fun t => (t.pc, t.top.argc, [1, 2, 3, 4, 5].map (localVar t.top), t.below.map (·.pc))) =
      some (0x401#32, 4, [16, 2, 3, 4, 0], [0x509#32]) := by decide

/-- R289 on the routine of T-CALL-1. -/
theorem test_callVn :
    (after (routineWith [0xF9, 0x17, 1, 0x20, 5, 6])).map frameView =
      some (0x245#32, false, 2, [5, 6, 0], [0x406#32]) := by decide

/-- R297 on the routine of T-CALL-1: an argument beyond the locals is counted and sits in its local. -/
theorem test_callVn2 :
    (after (routineWith [0xFA, 0x15, 0x7F, 1, 0x20, 5, 6, 4, 3])).map frameView =
      some (0x245#32, false, 4, [5, 6, 4], [0x409#32]) := by decide

/-- P3, step 12: the value is discarded where no result is wanted. -/
theorem test_ret :
    (after (called3 false [(0x400, [0x9B, 5])])).map stackPc = some ([9#16], 0x440#32) := by decide

/-- T-CALL-13: the result is pushed on the caller's stack. -/
theorem test_ret_pushes :
    (after (called3 true [(0x400, [0x9B, 5]), (0x440, [0])])).map stackPc = some ([5#16, 9#16], 0x441#32) := by decide

/-- T-CALL-6. -/
theorem test_rtrue_main : (after (code3 [0xB0])).map (·.run) = some (.fatal .returnFromMain) := by decide

/-- R291. -/
theorem test_rtrue :
    (after (called3 true [(0x400, [0xB0]), (0x440, [0x10])])).map g0pc = some (1#16, 0x441#32) := by decide

/-- R292: 0 over 0xBEEF. -/
theorem test_rfalse :
    (after (called3 true [(0x100, [0xBE, 0xEF]), (0x400, [0xB1]), (0x440, [0x10])])).map g0pc =
      some (0#16, 0x441#32) := by decide

/-- P3, step 4. -/
theorem test_retPopped :
    (after ((called3 true [(0x400, [0xB8]), (0x440, [0x10])]).setStack [10])).map g0pc = some (10#16, 0x441#32) := by
  decide

/-- P3, step 6. -/
theorem test_push : (after (code3 [0xE8, 0x7F, 0x2A])).map stackPc = some ([42#16], 0x403#32) := by decide

/-- T-CALL-10, third step. -/
theorem test_pull_stack : (after ((code3 [0xE9, 0x7F, 0]).setStack [7, 42])).map (·.stack) = some [7#16] := by decide

/-- P3, step 9. -/
theorem test_pull_global :
    (after ((code3 [0xE9, 0x7F, 0x10]).setStack [7])).map (fun t => (t.wordAt 0x100, t.stack)) =
      some (7#16, []) := by decide

/-- R296. -/
theorem test_pop : (after ((code3 [0xB9]).setStack [7, 42])).map stackPc = some ([42#16], 0x401#32) := by decide

/-- T-CALL-11. -/
theorem test_nop : after (code3 [0xB4]) = some ((code3 [0xB4]).setPc 0x401) := by decide

/-- T-CALL-12. -/
theorem test_checkArgCount :
    (after (called3 false [(0x400, [0xFF, 0x7F, 2, 0xC5])])).map (·.pc) = some 0x407#32 ∧
    (after (called3 false [(0x400, [0xFF, 0x7F, 3, 0xC5])])).map (·.pc) = some 0x404#32 := by decide

/-! ### The host port -/

/-- The start of T-READ: a dictionary of "go" and "north", and two buffers. -/
def lineRuns : List (Nat × List Byte) :=
  [ (0x300, [0x14]), (0x320, [4])
  , (0x3F0, [0, 4, 0, 2, 0x32, 0x85, 0x94, 0xA5, 0x4E, 0x97, 0xE5, 0xA5]) ]

/-- T-READ-1, first step. -/
theorem test_read :
    (after (v3 (lineRuns ++ [(0x400, [0xE4, 0x0F, 3, 0, 3, 0x20])]))).map
        (fun t => (t.readText, t.readParse, t.trace, pcRun t)) =
      some (0x300#16, 0x320#16, [.readLine 20], 0x406#32, .waitInput) := by decide

/-- A machine of T-READ that waits, with a line supplied. -/
def waiting (s : State) (line : List Byte) : State :=
  { s with readText := 0x300, readParse := 0x320, run := .waitInput, inbox := { lines := [line] } }

/-- T-READ-1, the completion, with the dictionary at 0x03F0: the line in lower case, its two entries, running. -/
theorem test_inputDone :
    (after (waiting (v3 lineRuns) [0x47, 0x6F, 0x20, 0x4E, 0x6F, 0x72, 0x74, 0x68])).map
        (fun t => (t.mem.bytes 0x301 9, t.mem.bytes 0x321 9, pcRun t)) =
      some ([0x67, 0x6F, 0x20, 0x6E, 0x6F, 0x72, 0x74, 0x68, 0], [2, 3, 0xF4, 2, 0, 3, 0xF8, 5, 3],
        0x400#32, .running) := by decide +kernel

/-- R334, R315 in version 5, with an empty dictionary at 0: a length prefix, and 13 stored. -/
theorem test_inputDone_later :
    (after (waiting (v5 [(0x300, [2]), (0x500, [0x10])]) [0x47, 0x6F, 0x6F])).map
        (fun t => (t.mem.bytes 0x301 4, g0pc t)) =
      some ([2, 0x67, 0x6F, 0], 13#16, 0x501#32) := by decide

/-- T-READ-9. -/
theorem test_readChar :
    (after { code5 [0xF6, 0x7F, 1, 0x10] with inbox := { keys := [0x41] } }).map (fun t => (t.trace, g0pc t)) =
      some ([.readChar 0x41], 0x41#16, 0x504#32) := by decide

/-- T-SYS-10, first request. -/
theorem test_splitWindow : (after (code3 [0xEA, 0x7F, 3])).map (·.trace) = some [.splitWindow 3] := by decide

/-- T-SYS-10, second request. -/
theorem test_setWindow : (after (code3 [0xEB, 0x7F, 1])).map (·.trace) = some [.setActiveWindow 1] := by decide

/-- T-SYS-10, third request. -/
theorem test_showStatus : (after (code3 [0xBC])).map (·.trace) = some [.showStatusLine] := by decide

/-- T-SYS-10, fourth request. -/
theorem test_setTextStyle : (after (code3 [0xF1, 0x7F, 2])).map (·.trace) = some [.setTextStyle 2] := by decide

/-- T-SYS-10, fifth request. -/
theorem test_setColour : (after (code3 [0x1B, 2, 9])).map (·.trace) = some [.setColor 2 9] := by decide

/-- T-SYS-9. -/
theorem test_eraseWindow : (after (code5 [0xED, 0x3F, 0xFF, 0xFF])).map (·.trace) = some [.eraseWindow 0xFFFF] := by
  decide

/-- T-SYS-7. -/
theorem test_setCursor : (after (code5 [0xEF, 0x5F, 2, 3])).map (·.trace) = some [.setCursor 2 3 0] := by decide

/-- T-SYS-8. -/
theorem test_bufferMode :
    (after (code5 [0xF2, 0x7F, 1])).map (·.trace) = some [.setBufferMode true] ∧
    (after (code5 [0xF2, 0x7F, 2])).map (·.trace) = some [.setBufferMode false] := by decide

/-- T-SYS-6. -/
theorem test_soundEffect :
    (after (code3 [0xF5, 0x7F, 1])).map (·.trace) = some [.playSound 1] ∧
    (after (code3 [0xF5, 0x7F, 3])).map (·.run) = some (.fatal (.invalidSoundEffect 3)) := by decide

/-- T-SAVE-1. -/
theorem test_save :
    (after { code3 [0xB5, 0xC4] with inbox := { saves := [true] } }).map
        (fun t => (t.pc, t.trace.map fun r => match r with
          | .save snap ok => (snap.dyn.length, snap.frames.map (·.pc), ok)
          | _ => (0, [], false))) =
      some (0x404#32, [(0x400, [0x401#32], true)]) := by decide +kernel

/-- T-SAVE-4, a refused save in version 5: 0 over 0xBEEF. -/
theorem test_save_later :
    (after { v5 [(0x100, [0xBE, 0xEF]), (0x500, [0xB5, 0x10])] with inbox := { saves := [false] } }).map g0pc =
      some (0#16, 0x502#32) := by decide

/-- T-SAVE-6. -/
theorem test_restore_none :
    (after { code3 [0xB6, 0xC5] with inbox := { restores := [none] } }).map (·.pc) = some 0x402#32 := by decide

/-- T-SAVE-5: the globals come back and the branch field at the restored program counter is read. -/
theorem test_restore :
    (after { v3 [(0x100, [0, 0x63]), (0x400, [0xB5, 0xC4, 0xB6, 0xC2])] with
        top := { (v3 []).top with pc := 0x402 }
        inbox := { restores := [some { (code3 [0xB5]).snapshot with
          frames := [{ (v3 []).top with pc := 0x401 }] }] } }).map g0pc = some (0#16, 0x404#32) := by decide +kernel

/-- T-SYS-1. -/
theorem test_quit :
    (after (code3 [0xBA])).map (fun t => (t.trace, pcRun t)) = some ([.quit], 0x401#32, .halted) := by decide

/-- T-SYS-2: the story comes back; the trace is kept. -/
theorem test_restart :
    (after ({ ((code3 [0xB7]).writeMem 0x100 2 42) with trace := [.showStatusLine], readText := 7 })).map
        (fun t => (g0pc t, t.trace, t.readText, t.run)) =
      some ((0#16, 0x400#32), [.showStatusLine], 0#16, .running) := by decide

/-- T-SYS-5: a reseed stores 0. -/
theorem test_random_reseed :
    (after (v3 [(0x100, [0xBE, 0xEF]), (0x400, [0xE7, 0x3F, 0xFF, 0xFB, 0x10])])).map g0pc =
      some (0#16, 0x405#32) := by decide

/-- T-SYS-3: the only value of a range of 1, whatever the free draw is. -/
theorem test_random_one :
    (after (code3 [0xE7, 0x7F, 1, 0x10])).map (·.pc) = some 0x404#32 ∧
    ∀ n, BitVec.ofNat 16 (1 + n % 1) = 1#16 := by
  exact ⟨by decide, fun n => by simp [Nat.mod_one]⟩

/-! ### Reset, and where the host stores an instruction -/

/-- T-RST-1 and T-RST-2. -/
theorem test_reset_refuses :
    resetWith {} {} (List.replicate 63 3) = .refused .storyTooShort ∧
    resetWith {} {} (4 :: List.replicate 63 0) = .refused .versionNotAdmitted := ⟨rfl, rfl⟩

/-- T-RST-3 and T-RST-4. -/
theorem test_reset_geometry :
    (v3 []).cfg.geom = ⟨true, 62, 9, 32, 1, 4, 5, 6, 7, 31, 2⟩ ∧ (v3 []).cfg.slot1Op0F = .not ∧
    (v3 []).dictWordChars = 6 ∧ (v3 []).walkLimit = 255 ∧
    (v5 []).cfg.geom = ⟨false, 126, 14, 48, 2, 6, 8, 10, 12, 63, 4⟩ ∧ (v5 []).cfg.slot1Op0F = .call1n ∧
    (v5 []).dictWordChars = 9 ∧ (v5 []).walkLimit = 65535 := by decide

/-- The stored instruction is the one the next step runs: a table word of one byte and one of two. -/
theorem test_withFetchWord :
    step (State.reset.withFetchWord 8 0xB4) =
      exec .nop (State.reset.withFetchWord 8 0xB4) ∧
    decodeTableWord 8 0xB4 = some .nop ∧
    decodeTableWord 16 0xBE01 = some (.restore (.extended [.large 0, .large 0, .large 0, .large 0])) :=
  ⟨rfl, by decide, by decide⟩

/-! ### Cases that meet the hypotheses of the statements

Each theorem is named after its statement and has one case for each of its clauses, at the edge of a range where
there is one. -/

theorem test_meets_DecodeInvertsEncode :
    (Instr.callVs2 [.large 1, .large 2, .large 3, .large 4] [.large 5, .large 6, .large 7, .large 8]).wellFormed = true ∧
    (Instr.not (.var 0)).wellFormed = true ∧ (Instr.not (.var 0)).presentIn .not = true ∧
    (Instr.call1n (.var 0)).wellFormed = true ∧ (Instr.call1n (.var 0)).presentIn .call1n = true := by decide

theorem test_meets_WholeInstructionsRoundTrip :
    (Tail.none).fits (Instr.nop.tailShape true) = true ∧
    (Tail.store 0xFF).fits ((Instr.read []).tailShape true) = true ∧
    (Tail.branch (.long true 0x2000)).fits ((Instr.save .short).tailShape false) = true ∧
    (Tail.storeAndBranch 0 (.short false 63)).fits ((Instr.getChild (.small 1)).tailShape false) = true ∧
    (Tail.text [0x11A4, 0xB8A5]).fits (Instr.print.tailShape false) = true := by decide

theorem test_meets_DecodedInstructionsFitTheirBytes :
    decode .not (0b11101100 :: 0 :: 0 :: List.replicate 16 1) =
      .ok (.callVs2 (List.replicate 4 (.large 0x0101)) (List.replicate 4 (.large 0x0101)), []) ∧
    decode .not (0b11101100 :: 0 :: 0 :: List.replicate 15 1) = .error ⟨3, List.replicate 7 (.large 0x0101)⟩ ∧
    decode .not [] = .error ⟨0, []⟩ :=
  ⟨rfl, rfl, rfl⟩

theorem test_meets_StepRunsTheInstructionAtThePc :
    (code3 [0xB4]).run = .running ∧
    (∃ rest, decode (code3 [0xB4]).cfg.slot1Op0F (code3 [0xB4]).fetchBytes = .ok (.nop, rest)) ∧
    (Instr.nop).wellFormed = true ∧ (Instr.nop).presentIn (code3 [0xB4]).cfg.slot1Op0F = true ∧
    0x400 + (encode .nop).length ≤ { code3 [0xB4] with memSize := 0x401 }.memSize ∧
    { code3 [0xB4] with memSize := 0x401 }.mem.bytes (code3 [0xB4]).pc.toNat (encode .nop).length = encode .nop :=
  ⟨rfl, ⟨_, rfl⟩, rfl, rfl, by decide, by decide⟩

theorem test_meets_RunStateDecidesTheStep :
    ((code3 []).setRun .halted).run = .halted ∧ (takeFatal .badText (code3 [])).run = .fatal .badText ∧
    ((code3 []).setRun .waitInput).run = .waitInput ∧ ((code3 []).setRun .waitInput).inbox.lines = [] ∧
    (waiting (v3 lineRuns) [0x67]).run = .waitInput ∧ (waiting (v3 lineRuns) [0x67]).inbox.lines = [0x67] :: [] ∧
    { code3 [] with memSize := 0x400 }.memSize ≤ (code3 []).pc.toNat ∧
    decode .not { code3 [0x14] with memSize := 0x401 }.fetchBytes = .error ⟨1, []⟩ :=
  ⟨rfl, rfl, rfl, rfl, rfl, rfl, by decide, rfl⟩

theorem test_meets_MemoryAccessIsBigEndianAndBounded :
    (code3 []).memSize < 0x480 + 1 ∧ (code3 []).memSize < 0x47F + 2 ∧ (code3 []).memSize < 0x47D + 4 ∧
    0x47F + 1 ≤ (code3 []).memSize ∧ 0x47E + 2 ≤ (code3 []).memSize ∧ 0x47C + 4 ≤ (code3 []).memSize := by decide

theorem test_meets_CanonicalMemoriesAreDeterminedByTheirBytes :
    Memory.wf [(3, 1), (7, 255)] ∧ (∀ a, Memory.byte [(3, 1), (7, 255)] a = Memory.byte [(3, 1), (7, 255)] a) :=
  ⟨by decide, fun _ => rfl⟩

theorem test_meets_VariablesAreStackLocalsAndGlobals :
    (0#8).toNat = 0 ∧ (code3 []).stack = [] ∧ ((code3 []).setStack [7]).stack = 7 :: [] ∧
    (1#8).toNat = (0 : Fin 15).val + 1 ∧ (15#8).toNat = (14 : Fin 15).val + 1 ∧
    16 ≤ (16#8).toNat ∧ 16 ≤ (255#8).toNat ∧
    (let s := { code3 [] with params := { stackDepth := some 1 } };
      withinLimit (s.top.stack.length + 1) s.params.stackDepth = true ∧
      withinLimit ((s.setStack [7]).top.stack.length + 1) (s.setStack [7]).params.stackDepth = false) := by decide

theorem test_meets_InPlaceAccessKeepsTheDepth :
    (1#8).toNat ≠ 0 ∧ (255#8).toNat ≠ 0 ∧ (0#8).toNat = 0 ∧ (code3 []).stack = [] ∧
    ((code3 []).setStack [7, 8]).stack = 7 :: [8] := by decide

theorem test_meets_MissingOperandIsFatal :
    (∃ t, (code3 [0xC1, 0x7F, 5]).entered (.je (.typed [.small 5])) = some ([5#16], t)) ∧
    [5#16].length < (Instr.je (.typed [.small 5])).minOperands ∧
    (∃ t, (code3 [0xE3, 0x5F, 5, 6]).entered (.putProp [.small 5, .small 6]) = some ([5#16, 6#16], t)) ∧
    [5#16, 6#16].length < (Instr.putProp [.small 5, .small 6]).minOperands :=
  ⟨⟨_, rfl⟩, by decide, ⟨_, rfl⟩, by decide⟩

theorem test_meets_OperandFaultsComeFirst :
    (code3 [0xA0, 0]).entered (.jz (.var 0)) = none ∧
    { code3 [0xA0, 0xFF] with memSize := 0x2DF }.entered (.jz (.var 0xFF)) = none := ⟨rfl, rfl⟩

theorem test_meets_AddSubMulWrap :
    (∃ t u, (code3 [0x14, 5, 3, 0]).entered (.add (.long (.small 5) (.small 3))) = some ([5#16, 3#16], t) ∧
      t.stored (5#16 + 3#16) = some u) ∧
    (∃ t u, (code3 [0x15, 5, 3, 1]).entered (.sub (.long (.small 5) (.small 3))) = some ([5#16, 3#16], t) ∧
      t.stored (5#16 - 3#16) = some u) ∧
    (∃ t u, (code3 [0x16, 5, 3, 0xFF]).entered (.mul (.long (.small 5) (.small 3))) = some ([5#16, 3#16], t) ∧
      t.stored (5#16 * 3#16) = some u) :=
  ⟨⟨_, _, rfl, rfl⟩, ⟨_, _, rfl, rfl⟩, ⟨_, _, rfl, rfl⟩⟩

theorem test_meets_DivModRoundTowardZero :
    s16 0x8000#16 = s16 0xFFFF#16 * 32768 + 0 ∧ (0 : Int).natAbs < (s16 0xFFFF#16).natAbs ∧
    0 ≤ 0 * s16 0x8000#16 ∧
    (∃ t u, (code3 [0xD7, 0x0F, 0x80, 0, 0xFF, 0xFF, 0x10]).entered
        (.div (.typed [.large 0x8000, .large 0xFFFF])) = some ([0x8000#16, 0xFFFF#16], t) ∧
      t.stored (BitVec.ofInt 16 32768) = some u) ∧
    (∃ t u, (code3 [0xD8, 0x0F, 0x80, 0, 0xFF, 0xFF, 0x10]).entered
        (.mod (.typed [.large 0x8000, .large 0xFFFF])) = some ([0x8000#16, 0xFFFF#16], t) ∧
      t.stored (BitVec.ofInt 16 0) = some u) ∧
    (∃ t n u, (code3 [0x17, 7, 0, 0x10]).entered (.div (.long (.small 7) (.small 0))) = some ([7#16, 0#16], t) ∧
      t.fetched = some (n, u)) ∧
    (∃ t n u, (code3 [0x18, 7, 0, 0x10]).entered (.mod (.long (.small 7) (.small 0))) = some ([7#16, 0#16], t) ∧
      t.fetched = some (n, u)) :=
  ⟨by decide, by decide, by decide, ⟨_, _, rfl, rfl⟩, ⟨_, _, rfl, rfl⟩, ⟨_, _, _, rfl, rfl⟩, ⟨_, _, _, rfl, rfl⟩⟩

theorem test_meets_LogicIsBitwise :
    (∀ i, i < 16 → (0x7#16).getLsbD i = ((0x5#16).getLsbD i || (0x3#16).getLsbD i)) ∧
    (∀ i, i < 16 → (0x1#16).getLsbD i = ((0x5#16).getLsbD i && (0x3#16).getLsbD i)) ∧
    (∀ i, i < 16 → (0xFFFA#16).getLsbD i = !(0x5#16).getLsbD i) ∧
    (∃ t u, (code3 [8, 5, 3, 0]).entered (.or (.long (.small 5) (.small 3))) = some ([5#16, 3#16], t) ∧
      t.stored 7 = some u) ∧
    (∃ t u, (code3 [9, 5, 3, 0]).entered (.and (.long (.small 5) (.small 3))) = some ([5#16, 3#16], t) ∧
      t.stored 1 = some u) ∧
    (∃ t u, (code3 [0x9F, 5, 0]).entered (.not (.small 5)) = some ([5#16], t) ∧ t.stored 0xFFFA = some u) :=
  ⟨by decide, by decide, by decide, ⟨_, _, rfl, rfl⟩, ⟨_, _, rfl, rfl⟩, ⟨_, _, rfl, rfl⟩⟩

theorem test_meets_TestsBranchOnTheirCondition :
    (∃ t u, (code3 [1, 5, 5, 0xC5]).entered (.je (.long (.small 5) (.small 5))) = some ([5#16, 5#16], t) ∧
      (true = true ↔ ∃ w, w ∈ [5#16] ∧ 5#16 = w) ∧ t.branched true = some u) ∧
    (∃ t u, (code3 [2, 5, 5, 0xC5]).entered (.jl (.long (.small 5) (.small 5))) = some ([5#16, 5#16], t) ∧
      (false = true ↔ (5#16).toInt < (5#16).toInt) ∧ t.branched false = some u) ∧
    (∃ t u, (code3 [3, 6, 5, 0xC5]).entered (.jg (.long (.small 6) (.small 5))) = some ([6#16, 5#16], t) ∧
      (true = true ↔ (5#16).toInt < (6#16).toInt) ∧ t.branched true = some u) ∧
    (∃ t u, (code3 [0x90, 1, 0xC5]).entered (.jz (.small 1)) = some ([1#16], t) ∧
      (false = true ↔ 1#16 = 0#16) ∧ t.branched false = some u) ∧
    (∃ t u, (code3 [7, 5, 0, 0xC5]).entered (.test (.long (.small 5) (.small 0))) = some ([5#16, 0#16], t) ∧
      (true = true ↔ ∀ i, (0#16).getLsbD i = true → (5#16).getLsbD i = true) ∧ t.branched true = some u) ∧
    (∃ t u, (code3 [0xFF, 0x7F, 1, 0xC5]).entered (.checkArgCount [.small 1]) = some ([1#16], t) ∧
      (false = true ↔ (1#16).toNat ≤ (code3 []).top.argc) ∧ t.branched false = some u) :=
  ⟨⟨_, _, rfl, by simp, rfl⟩, ⟨_, _, rfl, by decide, rfl⟩, ⟨_, _, rfl, by decide, rfl⟩, ⟨_, _, rfl, by decide, rfl⟩,
    ⟨_, _, rfl, by simp, rfl⟩, ⟨_, _, rfl, by decide, rfl⟩⟩

theorem test_meets_BranchFieldsAreFollowed :
    (∀ b ∈ [0xC0#8, 0xC1#8, 0xC2#8, 0xFF#8], (code3 [b]).inRange (code3 [b]).pc.toNat 1 ∧
      ((code3 [b]).mem.byte (code3 [b]).pc.toNat).getLsbD 7 = true ∧
      ((code3 [b]).mem.byte (code3 [b]).pc.toNat).getLsbD 6 = true) ∧
    (∀ b ∈ [0x80#8, 0x9F#8, 0xA0#8, 0xBF#8], (code3 [b, 1]).inRange (code3 [b, 1]).pc.toNat 2 ∧
      ((code3 [b, 1]).mem.byte (code3 [b, 1]).pc.toNat).getLsbD 6 = false ∧
      (code3 [b, 1]).pc.toNat + 1 < 2 ^ 32) ∧
    (((code3 [0xC0]).mem.byte 0x400).toNat % 64 : Nat) = (0 : Int) ∧
    (((code3 [0xC1]).mem.byte 0x400).toNat % 64 : Nat) = (1 : Int) ∧
    (((code3 [0xBF, 1]).mem.byte 0x400).toNat % 64 * 256 + ((code3 [0xBF, 1]).mem.byte 0x401).toNat : Int) - 16384 =
      -255 := by decide

theorem test_meets_JumpIsRelative :
    ∃ t, (code3 [0x8C, 0xFF, 0xFD]).entered (.jump (.large 0xFFFD)) = some ([0xFFFD#16], t) := ⟨_, rfl⟩

theorem test_meets_VariableNumbersAreReachedInPlace :
    (∃ t u, ((code3 [0x0D, 0, 9]).setStack [5]).entered (.store (.long (.small 0) (.small 9))) =
      some ([0#16, 9#16], t) ∧ t.putInPlace ((0#16).setWidth 8) 9 = some u) ∧
    (∃ t u, (code3 [0x9E, 0xFF, 0]).entered (.load (.small 0xFF)) = some ([0xFF#16], t) ∧
      t.getInPlace ((0xFF#16).setWidth 8) = some 0 ∧ t.stored 0 = some u) ∧
    (∃ t u, (code3 [0x95, 1]).entered (.inc (.small 1)) = some ([1#16], t) ∧
      t.getInPlace ((1#16).setWidth 8) = some 0 ∧ t.putInPlace ((1#16).setWidth 8) (0 + 1) = some u) ∧
    (∃ t u, (code3 [0x96, 15]).entered (.dec (.small 15)) = some ([15#16], t) ∧
      t.getInPlace ((15#16).setWidth 8) = some 0 ∧ t.putInPlace ((15#16).setWidth 8) (0 - 1) = some u) ∧
    (∃ t w u, (code3 [5, 16, 0, 0xC5]).entered (.incChk (.long (.small 16) (.small 0))) = some ([16#16, 0#16], t) ∧
      t.getInPlace ((16#16).setWidth 8) = some 0 ∧ t.putInPlace ((16#16).setWidth 8) (0 + 1) = some w ∧
      (true = true ↔ (0#16).toInt < (0#16 + 1#16).toInt) ∧ w.branched true = some u) ∧
    (∃ t w u, (code3 [4, 1, 0, 0xC5]).entered (.decChk (.long (.small 1) (.small 0))) = some ([1#16, 0#16], t) ∧
      t.getInPlace ((1#16).setWidth 8) = some 0 ∧ t.putInPlace ((1#16).setWidth 8) (0 - 1) = some w ∧
      (true = true ↔ (0#16 - 1#16).toInt < (0#16).toInt) ∧ w.branched true = some u) :=
  ⟨⟨_, _, rfl, rfl⟩, ⟨_, _, rfl, rfl, rfl⟩, ⟨_, _, rfl, rfl, rfl⟩, ⟨_, _, rfl, rfl, rfl⟩,
    ⟨_, _, _, rfl, rfl, rfl, by decide, rfl⟩, ⟨_, _, _, rfl, rfl, rfl, by decide, rfl⟩⟩

theorem test_meets_LoadsReadMemory :
    (∃ t u, (code3 [0xCF, 0x1F, 4, 0x7E, 0, 0]).entered (.loadw (.typed [.large 0x47E, .small 0])) =
      some ([0x47E#16, 0#16], t) ∧ (code3 []).inRange ((0x47E#16).toNat + 2 * (0#16).toNat) 2 ∧
      t.stored ((code3 []).mem.byte 0x47E ++ (code3 []).mem.byte 0x47F) = some u) ∧
    (∃ t u, (code3 [0xD0, 0x1F, 4, 0x7F, 0, 0]).entered (.loadb (.typed [.large 0x47F, .small 0])) =
      some ([0x47F#16, 0#16], t) ∧ (code3 []).inRange ((0x47F#16).toNat + (0#16).toNat) 1 ∧
      t.stored (0#8 ++ (code3 []).mem.byte 0x47F) = some u) :=
  ⟨⟨_, _, rfl, by decide, rfl⟩, ⟨_, _, rfl, by decide, rfl⟩⟩

theorem test_meets_StoresWriteMemory :
    (∃ t, (code3 [0xE1, 0x17, 4, 0x7E, 0, 9]).entered (.storew [.large 0x47E, .small 0, .small 9]) =
      some ([0x47E#16, 0#16, 9#16], t)) ∧
    (code3 []).inRange ((0x47E#16).toNat + 2 * (0#16).toNat) 2 ∧
    ¬ (code3 []).inRange ((0x47F#16).toNat + 2 * (0#16).toNat) 2 ∧
    (∃ t, (code3 [0xE2, 0x17, 4, 0x7F, 0, 9]).entered (.storeb [.large 0x47F, .small 0, .small 9]) =
      some ([0x47F#16, 0#16, 9#16], t)) ∧
    (code3 []).inRange ((0x47F#16).toNat + (0#16).toNat) 1 ∧
    ¬ (code3 []).inRange ((0x47F#16).toNat + (1#16).toNat) 1 :=
  ⟨⟨_, rfl⟩, by decide, by decide, ⟨_, rfl⟩, by decide, by decide⟩

theorem test_meets_AttributesAreBitsOfTheRecord :
    (∃ t u, (treeWith [0x0A, 1, 31, 0xC5]).entered (.testAttr (.long (.small 1) (.small 31))) =
      some ([1#16, 31#16], t) ∧ (treeWith []).hasAttrs 1 ∧ (31#16).toNat < (treeWith []).cfg.geom.attrBits ∧
      (treeWith []).cfg.geom = geometryOf (treeWith []).cfg.version ∧
      t.branched ((treeWith []).attrOf 1 31) = some u) ∧
    (∃ t, (code5 [0x0B, 1, 47]).entered (.setAttr (.long (.small 1) (.small 47))) = some ([1#16, 47#16], t) ∧
      (code5 []).hasAttrs 1 ∧ (47#16).toNat < (code5 []).cfg.geom.attrBits ∧
      (code5 []).cfg.geom = geometryOf (code5 []).cfg.version) ∧
    (∃ t, (code5 [0x0C, 1, 0]).entered (.clearAttr (.long (.small 1) (.small 0))) = some ([1#16, 0#16], t)) :=
  ⟨⟨_, _, rfl, And.intro (by decide) (by decide), by decide, rfl, rfl⟩,
    ⟨_, rfl, And.intro (by decide) (by decide), by decide, rfl⟩, ⟨_, rfl⟩⟩

theorem test_meets_LinksAreReadAndTested :
    (∃ t u, (treeWith [0x93, 3, 0]).entered (.getParent (.small 3)) = some ([3#16], t) ∧
      (treeWith []).hasLink 3 Geometry.offParent ∧ t.stored ((treeWith []).linkOf 3 Geometry.offParent) = some u) ∧
    (∃ t u, (treeWith [0x91, 2, 0xC5, 0]).entered (.getSibling (.small 2)) = some ([2#16], t) ∧
      (treeWith []).hasLink 2 Geometry.offSibling ∧
      t.storeBranched ((treeWith []).linkOf 2 Geometry.offSibling)
        (decide ((treeWith []).linkOf 2 Geometry.offSibling ≠ 0#16)) = some u) ∧
    (∃ t u, (treeWith [0x92, 4, 0xC5, 0]).entered (.getChild (.small 4)) = some ([4#16], t) ∧
      (treeWith []).hasLink 4 Geometry.offChild ∧
      t.storeBranched ((treeWith []).linkOf 4 Geometry.offChild)
        (decide ((treeWith []).linkOf 4 Geometry.offChild ≠ 0#16)) = some u) ∧
    (∃ t u, (treeWith [6, 3, 1, 0xC5]).entered (.jin (.long (.small 3) (.small 1))) = some ([3#16, 1#16], t) ∧
      (treeWith []).hasLink 3 Geometry.offParent ∧
      t.branched (decide ((treeWith []).linkOf 3 Geometry.offParent = 1#16)) = some u) :=
  ⟨⟨_, _, rfl, And.intro (by decide) (by decide), rfl⟩, ⟨_, _, rfl, And.intro (by decide) (by decide), rfl⟩,
    ⟨_, _, rfl, And.intro (by decide) (by decide), rfl⟩, ⟨_, _, rfl, And.intro (by decide) (by decide), rfl⟩⟩

theorem test_meets_RemoveObjUnlinks :
    (∃ t, (treeWith [0x99, 0]).entered (.removeObj (.small 0)) = some ([0#16], t)) ∧
    (∃ t, (treeWith [0x99, 1]).entered (.removeObj (.small 1)) = some ([1#16], t) ∧
      t.hasLink 1 Geometry.offParent ∧ t.hasLink 1 Geometry.offSibling ∧ t.linkOf 1 Geometry.offParent = 0#16) ∧
    (∃ t, (treeWith [0x99, 2]).entered (.removeObj (.small 2)) = some ([2#16], t) ∧
      t.hasLink 2 Geometry.offParent ∧ t.hasLink 2 Geometry.offSibling ∧ t.linkOf 2 Geometry.offParent = 1#16 ∧
      t.linkOf 2 Geometry.offSibling = 3#16 ∧ t.takesLink 1 Geometry.offChild 3 ∧
      t.linkOf 1 Geometry.offChild = 2#16) ∧
    (∃ t, (treeWith [0x99, 4]).entered (.removeObj (.small 4)) = some ([4#16], t) ∧
      t.hasLink 1 Geometry.offChild ∧ t.linkOf 1 Geometry.offChild = 2#16 ∧ t.ElderPath 4 2 [3] 3 ∧
      [3#16].length ≤ t.walkLimit ∧ t.takesLink 3 Geometry.offSibling 0) :=
  ⟨⟨_, rfl⟩, ⟨_, rfl, And.intro (by decide) (by decide), And.intro (by decide) (by decide), by decide⟩,
    ⟨_, rfl, And.intro (by decide) (by decide), And.intro (by decide) (by decide), by decide, by decide,
      And.intro (And.intro (by decide) (by decide)) (by decide), by decide⟩,
    ⟨_, rfl, And.intro (by decide) (by decide), by decide,
      And.intro (And.intro (by decide) (by decide)) (And.intro (by decide) (And.intro (by decide)
        (And.intro rfl (And.intro (And.intro (by decide) (by decide)) (by decide))))),
      by decide, And.intro (And.intro (by decide) (by decide)) (by decide)⟩⟩

theorem test_meets_InsertObjLinksFirst :
    (∃ t, (treeWith [0x0E, 0, 2]).entered (.insertObj (.long (.small 0) (.small 2))) = some ([0#16, 2#16], t)) ∧
    (∃ t, (treeWith [0x0E, 2, 1]).entered (.insertObj (.long (.small 2) (.small 1))) = some ([2#16, 1#16], t) ∧
      t.hasLink 2 Geometry.offParent ∧ t.hasLink 2 Geometry.offSibling ∧ t.hasLink 1 Geometry.offChild ∧
      t.linkOf 2 Geometry.offParent = 1#16 ∧ t.linkOf 1 Geometry.offChild = 2#16) ∧
    (∃ t, (treeWith [0x0E, 1, 4]).entered (.insertObj (.long (.small 1) (.small 4))) = some ([1#16, 4#16], t) ∧
      t.linkOf 1 Geometry.offParent = 0#16 ∧ t.hasLink 1 Geometry.offSibling ∧ t.hasLink 4 Geometry.offChild ∧
      (t.linkOf 4 Geometry.offChild).toNat ≤ 255) ∧
    (∃ t, (treeWith [0x0E, 2, 4]).entered (.insertObj (.long (.small 2) (.small 4))) = some ([2#16, 4#16], t) ∧
      t.linkOf 2 Geometry.offParent = 1#16 ∧ ¬ (1#16 = 4#16 ∧ t.linkOf 4 Geometry.offChild = 2#16) ∧
      t.linkOf 2 Geometry.offSibling = 3#16 ∧ t.takesLink 1 Geometry.offChild 3 ∧
      t.linkOf 1 Geometry.offChild = 2#16 ∧
      ((t.linked 1 Geometry.offChild 3).linkOf 4 Geometry.offChild).toNat ≤ 255) ∧
    (∃ t, (treeWith [0x0E, 3, 1]).entered (.insertObj (.long (.small 3) (.small 1))) = some ([3#16, 1#16], t) ∧
      t.linkOf 3 Geometry.offParent = 1#16 ∧ ¬ (1#16 = 1#16 ∧ t.linkOf 1 Geometry.offChild = 3#16) ∧
      t.hasLink 1 Geometry.offChild ∧ t.linkOf 1 Geometry.offChild = 2#16 ∧ 2#16 ≠ 3#16 ∧ t.ElderPath 3 2 [] 2 ∧
      ([] : List Word).length ≤ t.walkLimit ∧ t.takesLink 2 Geometry.offSibling 4) :=
  ⟨⟨_, rfl⟩,
    ⟨_, rfl, And.intro (by decide) (by decide), And.intro (by decide) (by decide), And.intro (by decide) (by decide),
      by decide, by decide⟩,
    ⟨_, rfl, by decide, And.intro (by decide) (by decide), And.intro (by decide) (by decide), by decide⟩,
    ⟨_, rfl, by decide, by decide, by decide, And.intro (And.intro (by decide) (by decide)) (by decide), by decide,
      by decide⟩,
    ⟨_, rfl, by decide, by decide, And.intro (by decide) (by decide), by decide, by decide,
      And.intro rfl (And.intro (And.intro (by decide) (by decide)) (by decide)), by decide,
      And.intro (And.intro (by decide) (by decide)) (by decide)⟩⟩

/-- The tree of T-OBJ, where object 1 has the child chain 2, 3, 4 and the others none, is a forest. -/
theorem tree_forest {s : State}
    (hm : s.memSize = 0x480) (ho : s.cfg.objTab = 0x200#16)
    (hg : s.cfg.geom = geometryOf 3#8)
    (hl : links s = [(0#16, 0#16, 2#16), (1#16, 3#16, 0#16), (1#16, 4#16, 0#16), (1#16, 0#16, 0#16)]) :
    s.Forest [1#16, 2#16, 3#16, 4#16] := by
  simp only [links, List.map_cons, List.map_nil, List.cons.injEq, Prod.mk.injEq, and_true] at hl
  obtain ⟨⟨p1, s1, c1⟩, ⟨p2, s2, c2⟩, ⟨p3, s3, c3⟩, p4, s4, c4⟩ := hl
  refine ⟨⟨fun id hid => ?_, ?_, ?_⟩, fun id => if id = 1#16 then 0 else 1, ?_⟩
  · simp only [List.mem_cons, List.not_mem_nil, or_false] at hid
    rcases hid with rfl | rfl | rfl | rfl <;>
      simp [State.hasLink, State.linkAddr, State.objAddr, hg, hm, ho, geometryOf, isEarlier]
  · simp [p1, p2, p3, p4]
  · simp only [List.forall_mem_cons, List.not_mem_nil, false_imp_iff, implies_true, and_true, c1, c2, c3, c4]
    refine ⟨⟨[2, 3, 4], ?_, by decide, ?_⟩, ⟨[], rfl, by decide, ?_⟩, ⟨[], rfl, by decide, ?_⟩, ⟨[], rfl, by decide, ?_⟩⟩
    · simp [State.SiblingChain, s2, s3, s4]
    all_goals
      intro k
      constructor
      · simp only [List.mem_cons, List.not_mem_nil, or_false, false_imp_iff]
        try (rintro (rfl | rfl | rfl) <;> simp [p2, p3, p4])
      · simp only [List.mem_cons, List.not_mem_nil, or_false]
        rintro ⟨rfl | rfl | rfl | rfl, h⟩ <;> simp [p1, p2, p3, p4] at h ⊢
  · simp [p1, p2, p3, p4]

theorem removal_forest : (treeWith [0x99, 3]).Forest [1#16, 2#16, 3#16, 4#16] := by
  apply tree_forest <;> decide

theorem insertion_forest : (treeWith [0x0E, 3, 2]).Forest [1#16, 2#16, 3#16, 4#16] := by
  apply tree_forest <;> decide

/-- Object 2 is not under its sibling 3. -/
theorem insertion_not_under : ¬ (treeWith [0x0E, 3, 2]).InSubtree 3#16 2#16 := by
  intro h
  cases h with
  | child _ _ h =>
    rw [show (treeWith [0x0E, 3, 2]).linkOf 2#16 Geometry.offParent = 1#16 by decide] at h
    cases h with
    | child _ _ h =>
      rw [show (treeWith [0x0E, 3, 2]).linkOf 1#16 Geometry.offParent = 0#16 by decide] at h
      cases h with
      | child _ h0 _ => exact h0 rfl

theorem test_meets_TreeAfterRemoveAndInsert :
    (treeWith []).cfg.geom = geometryOf (treeWith []).cfg.version ∧
    (∃ t u, (treeWith [0x99, 3]).entered (.removeObj (.small 3)) = some ([3#16], t) ∧
      exec (.removeObj (.small 3)) (treeWith [0x99, 3]) = .next u ∧ u.run = .running) ∧
    (treeWith [0x99, 3]).Forest [1#16, 2#16, 3#16, 4#16] ∧ 3#16 ∈ [1#16, 2#16, 3#16, 4#16] ∧
    (∃ t u, (treeWith [0x0E, 3, 2]).entered (.insertObj (.long (.small 3) (.small 2))) = some ([3#16, 2#16], t) ∧
      exec (.insertObj (.long (.small 3) (.small 2))) (treeWith [0x0E, 3, 2]) = .next u ∧ u.run = .running) ∧
    (treeWith [0x0E, 3, 2]).Forest [1#16, 2#16, 3#16, 4#16] ∧ ¬ (treeWith [0x0E, 3, 2]).InSubtree 3#16 2#16 :=
  ⟨rfl, ⟨_, _, rfl, rfl, rfl⟩, removal_forest, by decide, ⟨_, _, rfl, rfl, rfl⟩, insertion_forest,
    insertion_not_under⟩

theorem test_meets_GetPropReadsOrDefaults :
    (∃ t u, (propsWith [0x11, 1, 10, 0]).entered (.getProp (.long (.small 1) (.small 10))) = some ([1#16, 10#16], t) ∧
      t.propNumber 10 ∧ t.findProp 1 10 = some (some ⟨10, 1, 0x269, 0x26A⟩) ∧ t.inRange 0x269 1 ∧
      t.stored (0#8 ++ t.mem.byte 0x269) = some u) ∧
    (∃ t u, (propsWith [0x11, 1, 18, 0]).entered (.getProp (.long (.small 1) (.small 18))) = some ([1#16, 18#16], t) ∧
      t.findProp 1 18 = some (some ⟨18, 2, 0x266, 0x268⟩) ∧ t.inRange 0x266 2 ∧
      t.stored (t.mem.byte 0x266 ++ t.mem.byte 0x267) = some u) ∧
    (∃ t u, (propsWith [0x11, 1, 31, 0]).entered (.getProp (.long (.small 1) (.small 31))) = some ([1#16, 31#16], t) ∧
      t.propNumber 31 ∧ t.findProp 1 31 = some none ∧ t.inRange (t.cfg.objTab.toNat + 2 * ((31#16).toNat - 1)) 2 ∧
      t.stored (t.wordAt (t.cfg.objTab.toNat + 2 * ((31#16).toNat - 1))) = some u) :=
  ⟨⟨_, _, rfl, And.intro (by decide) (by decide), rfl, by decide, rfl⟩, ⟨_, _, rfl, rfl, by decide, rfl⟩,
    ⟨_, _, rfl, And.intro (by decide) (by decide), rfl, by decide, rfl⟩⟩

theorem test_meets_PropertyAddressesSuccessorsLengths :
    (∃ t u, (propsWith [0x12, 1, 10, 0]).entered (.getPropAddr (.long (.small 1) (.small 10))) =
      some ([1#16, 10#16], t) ∧ t.propNumber 10 ∧ t.findProp 1 10 = some (some ⟨10, 1, 0x269, 0x26A⟩) ∧
      t.stored (BitVec.ofNat 16 0x269) = some u) ∧
    (∃ t u, (propsWith [0x12, 1, 1, 0]).entered (.getPropAddr (.long (.small 1) (.small 1))) =
      some ([1#16, 1#16], t) ∧ t.propNumber 1 ∧ t.findProp 1 1 = some none ∧ t.stored 0 = some u) ∧
    (∃ t u, (propsWith [0x13, 1, 0, 0]).entered (.getNextProp (.long (.small 1) (.small 0))) =
      some ([1#16, 0#16], t) ∧ t.propStart 1 = some 0x265 ∧ t.entryAt 0x265 = some (some ⟨18, 2, 0x266, 0x268⟩) ∧
      t.stored (BitVec.ofNat 16 18) = some u) ∧
    (∃ t u, (propsWith [0x13, 1, 10, 0]).entered (.getNextProp (.long (.small 1) (.small 10))) =
      some ([1#16, 10#16], t) ∧ t.findProp 1 10 = some (some ⟨10, 1, 0x269, 0x26A⟩) ∧
      t.entryAt 0x26A = some none ∧ t.stored 0 = some u) ∧
    (∃ t u, (propsWith [0x84, 0, 0, 0]).entered (.getPropLen (.large 0)) = some ([0#16], t) ∧ t.stored 0 = some u) ∧
    (∃ t u, (propsWith [0x84, 2, 0x66, 0]).entered (.getPropLen (.large 0x266)) = some ([0x266#16], t) ∧
      t.inRange ((0x266#16).toNat - 1) 1 ∧ t.stored 2 = some u) :=
  ⟨⟨_, _, rfl, And.intro (by decide) (by decide), rfl, rfl⟩, ⟨_, _, rfl, And.intro (by decide) (by decide), rfl, rfl⟩,
    ⟨_, _, rfl, rfl, rfl, rfl⟩, ⟨_, _, rfl, rfl, rfl, rfl⟩, ⟨_, _, rfl, rfl⟩, ⟨_, _, rfl, by decide, rfl⟩⟩

theorem test_meets_PutPropOverwritesTheEntry :
    (∃ t, (propsWith [0xE3, 0x57, 1, 10, 9]).entered (.putProp [.small 1, .small 10, .small 9]) =
      some ([1#16, 10#16, 9#16], t) ∧ t.propNumber 10 ∧ t.findProp 1 10 = some (some ⟨10, 1, 0x269, 0x26A⟩) ∧
      t.inRange 0x269 1) ∧
    (∃ t, (propsWith [0xE3, 0x57, 1, 18, 9]).entered (.putProp [.small 1, .small 18, .small 9]) =
      some ([1#16, 18#16, 9#16], t) ∧ t.propNumber 18 ∧ t.findProp 1 18 = some (some ⟨18, 2, 0x266, 0x268⟩) ∧
      t.inRange 0x266 2) :=
  ⟨⟨_, rfl, And.intro (by decide) (by decide), rfl, by decide⟩,
    ⟨_, rfl, And.intro (by decide) (by decide), rfl, by decide⟩⟩

/-- T-OBJ with object 3 taken out of the chain of its parent, and an instruction. -/
def orphan (bytes : List Byte) : State :=
  v3 [ (0x23E, [0, 0, 0, 0, 0, 0, 2, 2, 0x80]), (0x247, [0, 0, 0, 0, 1, 4, 0, 2, 0x80])
     , (0x250, [0, 0, 0, 0, 1, 4, 0, 2, 0x80]), (0x259, [0, 0, 0, 0, 1, 0, 0, 2, 0x80]), (0x400, bytes) ]

theorem test_meets_ObjectTableFaults :
    (∃ t, (treeWith [0x0A, 0, 1]).entered (.testAttr (.long (.small 0) (.small 1))) = some ([0#16, 1#16], t)) ∧
    (∃ t, (treeWith [0x0B, 1, 32]).entered (.setAttr (.long (.small 1) (.small 32))) = some ([1#16, 32#16], t) ∧
      (treeWith []).hasAttrs 1 ∧ (treeWith []).cfg.geom.attrBits ≤ (32#16).toNat) ∧
    (∃ t, (propsWith [0x11, 1, 0]).entered (.getProp (.long (.small 1) (.small 0))) = some ([1#16, 0#16], t) ∧
      ¬ t.propNumber 0) ∧
    (∃ t, (propsWith [0x13, 1, 32]).entered (.getNextProp (.long (.small 1) (.small 32))) = some ([1#16, 32#16], t) ∧
      ¬ t.propNumber 32 ∧ 32#16 ≠ 0#16) ∧
    (∃ t, (propsWith [0x13, 0, 0]).entered (.getNextProp (.long (.small 0) (.small 0))) = some ([0#16, 0#16], t)) ∧
    (∃ t, (propsWith [0x12, 0, 31]).entered (.getPropAddr (.long (.small 0) (.small 31))) = some ([0#16, 31#16], t) ∧
      t.propNumber 31) ∧
    (∃ t, (propsWith [0xE3, 0x57, 1, 5, 1]).entered (.putProp [.small 1, .small 5, .small 1]) =
      some ([1#16, 5#16, 1#16], t) ∧ t.propNumber 5 ∧ t.findProp 1 5 = some none) ∧
    (let s := v3 [(0x23E, [0, 0, 0, 0, 0, 0, 2, 2, 0x60]), (0x261, [0x52, 1, 2, 3]), (0x400, [0x11, 1, 18])]
      ∃ t, s.entered (.getProp (.long (.small 1) (.small 18))) = some ([1#16, 18#16], t) ∧ t.propNumber 18 ∧
        t.findProp 1 18 = some (some ⟨18, 3, 0x262, 0x265⟩)) ∧
    (∃ t, (treeWith [0x83, 0, 0]).entered (.getParent (.large 0)) = some ([0#16], t)) ∧
    (∃ t, (treeWith [0x06, 0, 1]).entered (.jin (.long (.small 0) (.small 1))) = some ([0#16, 1#16], t) ∧
      [1#16] ≠ []) ∧
    (∃ t, (orphan [0x99, 3]).entered (.removeObj (.small 3)) = some ([3#16], t) ∧
      t.hasLink 3 Geometry.offParent ∧ t.hasLink 3 Geometry.offSibling ∧ t.linkOf 3 Geometry.offParent ≠ 0#16 ∧
      t.hasLink (t.linkOf 3 Geometry.offParent) Geometry.offChild ∧
      t.WalkedPast 3 (t.linkOf (t.linkOf 3 Geometry.offParent) Geometry.offChild) [2, 4] 0) ∧
    (∃ t, (orphan [0x0E, 3, 1]).entered (.insertObj (.long (.small 3) (.small 1))) = some ([3#16, 1#16], t) ∧
      t.linkOf 1 Geometry.offChild ≠ 3#16) :=
  ⟨⟨_, rfl⟩, ⟨_, rfl, And.intro (by decide) (by decide), by decide⟩, ⟨_, rfl, fun h => h.1 rfl⟩,
    ⟨_, rfl, fun h => absurd h.2 (by decide), by decide⟩, ⟨_, rfl⟩, ⟨_, rfl, And.intro (by decide) (by decide)⟩,
    ⟨_, rfl, And.intro (by decide) (by decide), rfl⟩, ⟨_, rfl, And.intro (by decide) (by decide), rfl⟩, ⟨_, rfl⟩,
    ⟨_, rfl, by decide⟩,
    ⟨_, rfl, And.intro (by decide) (by decide), And.intro (by decide) (by decide), by decide,
      And.intro (by decide) (by decide),
      And.intro (by decide) (And.intro (by decide) (And.intro (And.intro (by decide) (by decide))
        (And.intro (by decide) (And.intro (by decide) (And.intro (And.intro (by decide) (by decide))
          (show State.linkOf _ _ _ = 0#16 by decide))))))⟩,
    ⟨_, rfl, by decide⟩⟩

/-- A text of one abbreviation, whose entry names the words of "HI" (R269) at 0x300. -/
theorem test_meets_AbbreviationNestingIsExact :
    (v3 [(0x40, [0x01, 0x80]), (0x300, [0x11, 0xA4, 0xB8, 0xA5])]).Decodes 200 [1#5, 0#5]
      (chars [0x48, 0x49] ++ []) :=
  .abbreviation 199 1#5 0#5 [] _ 0x304 _ [] (by decide) (by decide) (by decide)
    (.more 0x300 _ _ (by decide) (by decide) (.last 0x302 (by decide) (by decide)))
    (.upper _ 13#5 _ _ (.upper _ 14#5 _ _ (.terminator _ []))) (.empty 200)

theorem test_meets_LettersSpacesDigitsRoundTrip :
    ∀ p ∈ [([BitVec.ofNat 5 (6 + 25)], 0x61 + 25), ([0#5], 0x20), ([5#5, BitVec.ofNat 5 (8 + 9)], 0x30 + 9)],
      (∃ k : Fin 26, p = ([BitVec.ofNat 5 (6 + k.val)], 0x61 + k.val)) ∨ p = ([0#5], 0x20) ∨
        ∃ k : Fin 10, p = ([5#5, BitVec.ofNat 5 (8 + k.val)], 0x30 + k.val) := by decide

/-- The two words of "HI" (R269) stand for it. -/
theorem hi_textAt {t : State} {a : Nat} (h1 : t.inRange a 2) (h2 : t.inRange (a + 2) 2)
    (w1 : t.wordAt a = 0x11A4#16) (w2 : t.wordAt (a + 2) = 0xB8A5#16) : t.TextAt a (chars [0x48, 0x49]) (a + 4) := by
  refine ⟨_, .more a _ _ h1 (by rw [w1]; decide) (.last (a + 2) h2 (by rw [w2]; decide)), ?_⟩
  rw [w1, w2]
  exact .upper _ 13#5 _ _ (.upper _ 14#5 _ _ (.terminator _ []))

theorem test_meets_PrintsMakeOneRequest :
    (∃ t, (code3 [0xB2, 0x11, 0xA4, 0xB8, 0xA5]).entered .print = some ([], t) ∧
      t.TextAt t.pc.toNat (chars [0x48, 0x49]) 0x405) ∧
    (∃ t u, (called3 false [(0x400, [0xB3, 0x11, 0xA4, 0xB8, 0xA5])]).entered .printRet = some ([], t) ∧
      t.TextAt t.pc.toNat (chars [0x48, 0x49]) 0x405 ∧
      ((t.setPc (BitVec.ofNat 32 0x405)).emit (.print (chars [0x48, 0x49] ++ [.newline]))).returned 1#16 = some u) ∧
    (let s := v3 [(0x300, [0x11, 0xA4, 0xB8, 0xA5]), (0x400, [0x87, 3, 0])]
      ∃ t, s.entered (.printAddr (.large 0x300)) = some ([0x300#16], t) ∧
        t.TextAt (0x300#16).toNat (chars [0x48, 0x49]) 0x304) ∧
    (let s := v3 [(0x300, [0x11, 0xA4, 0xB8, 0xA5]), (0x400, [0x8D, 1, 0x80])]
      ∃ t, s.entered (.printPaddr (.large 0x180)) = some ([0x180#16], t) ∧
        t.TextAt (t.cfg.geom.packScale * (0x180#16).toNat) (chars [0x48, 0x49]) 0x304) ∧
    (∃ t, (propsWith [0x9A, 1]).entered (.printObj (.small 1)) = some ([1#16], t) ∧
      t.inRange (t.objAddr 1 + t.cfg.geom.offProps) 2 ∧
      0x260 = (t.wordAt (t.objAddr 1 + t.cfg.geom.offProps)).toNat ∧ t.inRange 0x260 1 ∧ t.mem.byte 0x260 ≠ 0#8 ∧
      t.TextAt (0x260 + 1) (chars [0x48, 0x49]) 0x265) ∧
    (∃ t, (treeWith [0x9A, 1]).entered (.printObj (.small 1)) = some ([1#16], t) ∧
      0x280 = (t.wordAt (t.objAddr 1 + t.cfg.geom.offProps)).toNat ∧ t.inRange 0x280 1 ∧ t.mem.byte 0x280 = 0#8) :=
  ⟨⟨_, rfl, hi_textAt (by decide) (by decide) (by decide) (by decide)⟩,
    ⟨_, _, rfl, hi_textAt (by decide) (by decide) (by decide) (by decide), rfl⟩,
    ⟨_, rfl, hi_textAt (by decide) (by decide) (by decide) (by decide)⟩,
    ⟨_, rfl, hi_textAt (by decide) (by decide) (by decide) (by decide)⟩,
    ⟨_, rfl, by decide, by decide, by decide, by decide,
      hi_textAt (by decide) (by decide) (by decide) (by decide)⟩,
    ⟨_, rfl, by decide, by decide, by decide⟩⟩

theorem test_meets_CharactersNumbersNewLines :
    (∃ t, (code3 [0xE5, 0x7F, 0x41]).entered (.printChar [.small 0x41]) = some ([0x41#16], t)) ∧
    (∃ t, (code3 [0xBB]).entered .newLine = some ([], t)) ∧
    (∃ t, (code3 [0xE6, 0x3F, 0x80, 0]).entered (.printNum [.large 0x8000]) = some ([0x8000#16], t)) :=
  ⟨⟨_, rfl⟩, ⟨_, rfl⟩, ⟨_, rfl⟩⟩

theorem test_meets_CallsEnterTheRoutine :
    (∃ t, (code5 [0x8F, 0, 0]).entered (.call1n (.large 0)) = some ([0#16], t) ∧
      wantsResult (.call1n (.large 0)) = false) ∧
    (∃ t u, (code3 [0xE0, 0x3F, 0, 0, 0]).entered (.call [.large 0]) = some ([0#16], t) ∧ t.stored 0 = some u) ∧
    (∀ ops ∈ [[.large 0x120], [.large 0x120, .small 5]],
      (∃ t vs, (routineWith []).entered (.call ops) = some (0x120#16 :: vs, t)) ∧
      (∃ t vs, (routineWith []).entered (.callVn ops) = some (0x120#16 :: vs, t)) ∧
      (∃ t vs, (routineWith []).entered (.callVs2 ops [.small 1]) = some (0x120#16 :: vs, t)) ∧
      (∃ t vs, (routineWith []).entered (.callVn2 ops [.small 1]) = some (0x120#16 :: vs, t))) ∧
    (∃ t, (routineWith []).entered (.call1s (.large 0x120)) = some ([0x120#16], t)) ∧
    (∃ t, (routineWith []).entered (.call2s (.typed [.large 0x120, .small 5])) = some ([0x120#16, 5#16], t) ∧
      (Instr.call2s (.typed [])).minOperands ≤ [5#16].length + 1) ∧
    (∃ t, (routineWith []).entered (.call2n (.typed [.large 0x120, .small 5])) = some ([0x120#16, 5#16], t)) ∧
    (routineWith []).callable 0x120 ∧
    { v3 [(0x240, [15])] with params := { frameDepth := some 2 } }.callable 0x120 :=
  ⟨⟨_, rfl, rfl⟩, ⟨_, _, rfl, rfl⟩,
    by
      intro ops h
      simp only [List.mem_cons, List.not_mem_nil, or_false] at h
      rcases h with rfl | rfl <;> exact ⟨⟨_, _, rfl⟩, ⟨_, _, rfl⟩, ⟨_, _, rfl⟩, ⟨_, _, rfl⟩⟩,
    ⟨_, rfl⟩, ⟨_, rfl, by decide⟩, ⟨_, rfl⟩,
    And.intro (by decide) (And.intro (by decide) (And.intro (by decide) (by decide))),
    And.intro (by decide) (And.intro (by decide) (And.intro (by decide) (by decide)))⟩

theorem test_meets_ReturnsResumeTheCaller :
    (let s := called3 true [(0x400, [0x9B, 5]), (0x440, [0x10])];
      (∃ t u, s.entered (.ret (.small 5)) = some ([5#16], t) ∧ t.returned 5 = some u) ∧
      (∃ t u, s.entered .rtrue = some ([], t) ∧ t.returned 1#16 = some u) ∧
      (∃ t u, s.entered .rfalse = some ([], t) ∧ t.returned 0#16 = some u) ∧
      (∃ t u, (s.setStack [7]).entered .retPopped = some ([], t) ∧ t.stack = 7 :: [] ∧
        (t.setStack []).returned 7 = some u)) ∧
    (∃ t, (code3 [0x9B, 5]).entered (.ret (.small 5)) = some ([5#16], t) ∧ t.below = []) ∧
    (∃ t, (code3 [0xB0]).entered .rtrue = some ([], t) ∧ t.below = []) ∧
    (∃ t, (code3 [0xB1]).entered .rfalse = some ([], t) ∧ t.below = []) ∧
    (∃ t, ((code3 [0xB8]).setStack [7]).entered .retPopped = some ([], t) ∧ t.stack = 7 :: [] ∧ t.below = []) :=
  ⟨⟨⟨_, _, rfl, rfl⟩, ⟨_, _, rfl, rfl⟩, ⟨_, _, rfl, rfl⟩, ⟨_, _, rfl, rfl, rfl⟩⟩,
    ⟨_, rfl, rfl⟩, ⟨_, rfl, rfl⟩, ⟨_, rfl, rfl⟩, ⟨_, rfl, rfl, rfl⟩⟩

theorem test_meets_StackInstructions :
    (let s := { code3 [0xE8, 0x7F, 5] with params := { stackDepth := some 1 } };
      ∃ t, s.entered (.push [.small 5]) = some ([5#16], t) ∧
        withinLimit (t.stack.length + 1) t.params.stackDepth = true) ∧
    (∃ t u, ((code3 [0xE9, 0x7F, 0]).setStack [7, 42]).entered (.pull [.small 0]) = some ([0#16], t) ∧
      t.stack = 7 :: [42] ∧ (t.setStack [42]).putInPlace ((0#16).setWidth 8) 7 = some u) ∧
    (∃ t, ((code3 [0xB9]).setStack [7]).entered .pop = some ([], t) ∧ t.stack = 7 :: []) ∧
    (∃ t, (code3 [0xB4]).entered .nop = some ([], t)) :=
  ⟨⟨_, rfl, by decide⟩, ⟨_, _, rfl, rfl, rfl⟩, ⟨_, rfl, rfl⟩, ⟨_, rfl⟩⟩

theorem test_meets_ScreenRequestsPassTheirOperands :
    (∃ t, (code3 []).entered (.splitWindow [.small 3]) = some ([3#16], t)) ∧
    (∃ t, (code3 []).entered (.setWindow [.small 1]) = some ([1#16], t)) ∧
    (∃ t, (code3 []).entered .showStatus = some ([], t)) ∧
    (∃ t, (code3 []).entered (.eraseWindow [.large 0xFFFF]) = some ([0xFFFF#16], t)) ∧
    (∃ t, (code3 []).entered (.setCursor [.small 2, .small 3]) = some ([2#16, 3#16], t)) ∧
    (∃ t, (code3 []).entered (.setCursor [.small 2, .small 3, .small 1]) = some ([2#16, 3#16, 1#16], t)) ∧
    (∃ t, (code3 []).entered (.setColour (.long (.small 2) (.small 9))) = some ([2#16, 9#16], t)) ∧
    (∃ t, (code3 []).entered (.setTextStyle [.small 2]) = some ([2#16], t)) ∧
    (∃ t, (code3 []).entered (.bufferMode [.small 1]) = some ([1#16], t)) ∧
    (∃ t, (code3 []).entered (.soundEffect [.small 2]) = some ([2#16], t)) ∧
    (∃ t, (code3 []).entered (.soundEffect [.small 3]) = some ([3#16], t) ∧ 3#16 ≠ 1#16 ∧ 3#16 ≠ 2#16) :=
  ⟨⟨_, rfl⟩, ⟨_, rfl⟩, ⟨_, rfl⟩, ⟨_, rfl⟩, ⟨_, rfl⟩, ⟨_, rfl⟩, ⟨_, rfl⟩, ⟨_, rfl⟩, ⟨_, rfl⟩, ⟨_, rfl⟩,
    ⟨_, rfl, by decide, by decide⟩⟩

theorem test_meets_DrawnResultsAreStored :
    (∃ t, (code3 [0xF6, 0x7F, 1, 0]).entered (.readChar [.small 1]) = some ([1#16], t) ∧
      ∀ k, ∃ u, (t.emit (.readChar k)).stored k = some u) ∧
    (∃ t, (code3 [0xE7, 0x3F, 0x7F, 0xFF, 0]).entered (.random [.large 0x7FFF]) = some ([0x7FFF#16], t) ∧
      0 < (0x7FFF#16).toInt ∧ ∀ g v, ∃ u, ({ t with rng := g, draws := t.draws + 1 }).stored v = some u) ∧
    (∃ t, (code3 [0xE7, 0x7F, 0, 0]).entered (.random [.small 0]) = some ([0#16], t) ∧ (0#16).toInt ≤ 0) :=
  ⟨⟨_, rfl, fun _ => ⟨_, rfl⟩⟩, ⟨_, rfl, by decide, fun _ _ => ⟨_, rfl⟩⟩, ⟨_, rfl, by decide⟩⟩

theorem test_meets_ReadSuspends :
    ∃ t, (code3 [0xE4, 0x0F, 4, 0x7F, 3, 0x20]).entered (.read [.large 0x47F, .large 0x320]) =
      some ([0x47F#16, 0x320#16], t) ∧ t.inRange (0x47F#16).toNat 1 := ⟨_, rfl, by decide⟩

theorem test_meets_InputDoneCompletesTheRead :
    (code3 []).run ≠ .waitInput ∧
    (waiting (v3 lineRuns) []).run = .waitInput ∧
    (∃ u, inputDone [0x47, 0x6F] (waiting (v3 lineRuns) []) = .next u ∧ u.run = .running) ∧
    (∃ u, inputDone [0x47, 0x6F] (waiting (v5 [(0x300, [2]), (0x500, [0x10])]) []) = .next u ∧ u.run = .running) ∧
    ¬ ((waiting (v3 lineRuns) []).readParse.toNat + 1 ≤ 0x301 ∧
      0x301 < (waiting (v3 lineRuns) []).readParse.toNat + 2 + 4 * 255) ∧
    ¬ ((waiting (v5 []) []).late = true ∧ (v5 []).cfg.globals.toNat ≤ 0x301 ∧
      0x301 < (v5 []).cfg.globals.toNat + 480) :=
  ⟨by decide, rfl, ⟨_, rfl, rfl⟩, ⟨_, rfl, rfl⟩, by decide, by decide⟩

theorem test_meets_SaveHandsOverTheSnapshot :
    (∃ t, (code3 [0xB5, 0xC4]).entered (.save .short) = some ([], t) ∧ t.inRange 0 t.cfg.staticBase.toNat ∧
      t.late = false ∧ (∃ u, (t.emit (.save t.snapshot true)).branched true = some u) ∧
      ∃ u, (t.emit (.save t.snapshot false)).branched false = some u) ∧
    (∃ t, (code5 [0xB5, 0x10]).entered (.save .short) = some ([], t) ∧ t.inRange 0 t.cfg.staticBase.toNat ∧
      t.late = true ∧ (∃ u, (t.emit (.save t.snapshot true)).stored 1#16 = some u) ∧
      ∃ u, (t.emit (.save t.snapshot false)).stored 0#16 = some u) :=
  ⟨⟨_, rfl, by decide, rfl, ⟨_, rfl⟩, _, rfl⟩, ⟨_, rfl, by decide, rfl, ⟨_, rfl⟩, _, rfl⟩⟩

/-- A version 3 and a version 5 machine whose host gives no snapshot, and the same with one of an empty dynamic
memory. -/
def restoring (s : State) (reply : Option Snapshot) : State := { s with inbox := { restores := [reply] } }

/-- A version 3 machine with no dynamic memory, and a snapshot it accepts. -/
def tiny : State := resetState {} {} (cells [(0, [3]), (6, [0, 0x40]), (0x40, [0xB6, 0xC5])]) 0x80

/-- The snapshot: it resumes at the branch field. -/
def tinySnapshot : Snapshot := { tiny.snapshot with frames := [{ tiny.top with pc := 0x41 }] }

theorem test_meets_RestoreReplacesOrReports :
    (∃ t u, (restoring (code3 [0xB6, 0xC5]) none).entered (.restore .short) = some ([], t) ∧ t.late = false ∧
      (t.emit (.restore none)).branched false = some u) ∧
    (∃ t u, (restoring (code5 [0xB6, 0x10]) none).entered (.restore .short) = some ([], t) ∧ t.late = true ∧
      (t.emit (.restore none)).stored 0#16 = some u) ∧
    (∃ t, (restoring (code3 [0xB6]) (some tinySnapshot)).entered (.restore .short) = some ([], t) ∧
      t.accepts tinySnapshot = false) ∧
    (∃ t u, (restoring tiny (some tinySnapshot)).entered (.restore .short) = some ([], t) ∧
      tinySnapshot.dyn.length = t.cfg.staticBase.toNat ∧ t.inRange 0 t.cfg.staticBase.toNat ∧
      tinySnapshot.frames.reverse = { tiny.top with pc := 0x41 } :: [] ∧
      withinLimit tinySnapshot.frames.length t.params.frameDepth = true ∧
      (∀ f ∈ tinySnapshot.frames, f.argc ≤ 7 ∧ withinLimit f.stack.length t.params.stackDepth = true) ∧
      t.mem.wf ∧ (∀ a, t.mem.byte a =
        if a < tinySnapshot.dyn.length then tinySnapshot.dyn.getD a 0#8 else t.mem.byte a) ∧ t.late = false ∧
      ({ t.emit (.restore (some tinySnapshot)) with
          mem := t.mem, top := { tiny.top with pc := 0x41 }, below := [], readParse := tinySnapshot.readParse,
          readText := tinySnapshot.readText }).branched true = some u) :=
  ⟨⟨_, _, rfl, rfl, rfl⟩, ⟨_, _, rfl, rfl, rfl⟩, ⟨_, rfl, by decide⟩,
    ⟨_, _, rfl, rfl, by decide, rfl, by decide, by decide, by decide,
      fun a => (if_neg (Nat.not_lt_zero a)).symm, rfl, rfl⟩⟩

theorem test_meets_RestoringItsOwnSnapshotIsTheIdentity : (treeWith [0xB5]).mem.wf := by decide

theorem test_meets_QuitHaltsAndRestartReloads :
    (∃ t, (code3 [0xBA]).entered .quit = some ([], t)) ∧
    (∃ t, tiny.entered .restart = some ([], t)) ∧ 64 ≤ State.reset.memSize := ⟨⟨_, rfl⟩, ⟨_, rfl⟩, by decide⟩

theorem test_meets_UnpopulatedSlotsAreFatal :
    (∃ t, (code5 [0xBE, 2, 0x7F, 1]).entered (.unpopulatedSlot (.extended 2 [.small 1])) = some ([1#16], t)) ∧
    (∃ t, (code3 [0xBD]).entered (.unpopulatedSlot (.zero 0xD)) = some ([], t)) :=
  ⟨⟨_, rfl⟩, ⟨_, rfl⟩⟩

theorem test_meets_ResetMakesTheInitialState :
    (List.replicate 63 3#8).length < 64 ∧
    64 ≤ (4#8 :: List.replicate 63 0#8).length ∧ (4#8 :: List.replicate 63 0#8).getD 0 0#8 ≠ 3#8 ∧
    (4#8 :: List.replicate 63 0#8).getD 0 0#8 ≠ 5#8 ∧
    64 ≤ (3#8 :: List.replicate 63 0#8).length ∧ (3#8 :: List.replicate 63 0#8).getD 0 0#8 = 3#8 ∧
    64 ≤ (5#8 :: List.replicate 63 0#8).length ∧ (5#8 :: List.replicate 63 0#8).getD 0 0#8 = 5#8 := by decide

theorem test_meets_RequestInstructionsKeepTheRest :
    requestGroup (.push [.small 5]) = true ∧ (∃ u, exec (.push [.small 5]) (code3 [0xE8, 0x7F, 5]) = .next u) ∧
    requestGroup .print = true ∧ (∃ u, exec .print (code3 [0xB2, 0x11, 0xA4, 0xB8, 0xA5]) = .next u) :=
  ⟨rfl, ⟨_, rfl⟩, rfl, ⟨_, rfl⟩⟩

theorem test_meets_ResultInstructionsKeepTheRest :
    resultGroup (.add (.long (.small 5) (.small 3))) = true ∧
    (∃ u, exec (.add (.long (.small 5) (.small 3))) (code3 [0x14, 5, 3, 0xFF]) = .next u) ∧
    resultGroup (.readChar [.small 1]) = true ∧
    (∃ u, exec (.readChar [.small 1]) { code3 [0xF6, 0x7F, 1, 0] with inbox := { keys := [0x41] } } = .next u) :=
  ⟨rfl, ⟨_, rfl⟩, rfl, ⟨_, rfl⟩⟩

theorem test_meets_BranchesAndReturnsKeepTheRest :
    branchGroup (.jz (.small 0)) = true ∧
    (∃ u, exec (.jz (.small 0)) (called3 true [(0x400, [0x90, 0, 0xC1]), (0x440, [0x10])]) = .next u) ∧
    branchGroup .rtrue = true ∧ (∃ u, exec .rtrue (called3 false [(0x400, [0xB0])]) = .next u) :=
  ⟨rfl, ⟨_, rfl⟩, rfl, ⟨_, rfl⟩⟩

theorem test_meets_MemoryWritersKeepTheRest :
    (∃ u, exec (.storew [.large 0x300, .small 0, .small 9]) (code3 [0xE1, 0x17, 3, 0, 0, 9]) = .next u) ∧
    (∃ u, exec (.storeb [.large 0x300, .small 0, .small 9]) (code3 [0xE2, 0x17, 3, 0, 0, 9]) = .next u) ∧
    (∃ u, exec (.putProp [.small 1, .small 10, .small 9]) (propsWith [0xE3, 0x57, 1, 10, 9]) = .next u) ∧
    (∃ u, exec (.setAttr (.long (.small 1) (.small 31))) (treeWith [0x0B, 1, 31]) = .next u) ∧
    (∃ u, exec (.clearAttr (.long (.small 1) (.small 31))) (treeWith [0x0C, 1, 31]) = .next u) ∧
    (∃ u, exec (.removeObj (.small 3)) (treeWith [0x99, 3]) = .next u) ∧
    (∃ u, exec (.insertObj (.long (.small 3) (.small 2))) (treeWith [0x0E, 3, 2]) = .next u) ∧
    (0x300 < (treeWith []).objAddr 1 ∨ (treeWith []).objAddr 1 + 6 ≤ 0x300) :=
  ⟨⟨_, rfl⟩, ⟨_, rfl⟩, ⟨_, rfl⟩, ⟨_, rfl⟩, ⟨_, rfl⟩, ⟨_, rfl⟩, ⟨_, rfl⟩, by decide⟩

theorem test_meets_InPlaceInstructionsKeepTheRest :
    (∃ t u, (code3 [0x95, 1]).entered (.inc (.small 1)) = some ([1#16], t) ∧
      exec (.inc (.small 1)) (code3 [0x95, 1]) = .next u) ∧
    (∃ t u, ((code3 [0xE9, 0x7F, 0]).setStack [7, 42]).entered (.pull [.small 0]) = some ([0#16], t) ∧
      exec (.pull [.small 0]) ((code3 [0xE9, 0x7F, 0]).setStack [7, 42]) = .next u) ∧
    (∃ t u, (code3 [5, 0xFF, 0, 0xC5]).entered (.incChk (.long (.small 0xFF) (.small 0))) =
      some ([0xFF#16, 0#16], t) ∧
      exec (.incChk (.long (.small 0xFF) (.small 0))) (code3 [5, 0xFF, 0, 0xC5]) = .next u) ∧
    (∃ t u f t1, (treeWith [0x92, 1, 0xC5, 0]).entered (.getChild (.small 1)) = some ([1#16], t) ∧
      exec (.getChild (.small 1)) (treeWith [0x92, 1, 0xC5, 0]) = .next u ∧
      (treeWith []).params.fieldOrder = .branchThenStore ∧ t.fieldFetched = some (f, t1)) ∧
    (let s := { treeWith [0x92, 1, 0, 0xC5] with params := { fieldOrder := .storeThenBranch } };
      s.params.fieldOrder = .storeThenBranch ∧ ∃ u, exec (.getChild (.small 1)) s = .next u) ∧
    (let s := { treeWith [0x92, 1] with memSize := 0x402 };
      ∃ t u, s.entered (.getChild (.small 1)) = some ([1#16], t) ∧ exec (.getChild (.small 1)) s = .next u ∧
        t.fieldFetched = none) :=
  ⟨⟨_, _, rfl, rfl⟩, ⟨_, _, rfl, rfl⟩, ⟨_, _, rfl, rfl⟩, ⟨_, _, _, _, rfl, rfl, rfl, rfl⟩, ⟨rfl, ⟨_, rfl⟩⟩,
    _, _, rfl, rfl, rfl⟩

theorem test_meets_CallsSaveRestoreKeepTheRest :
    callGroup (.call [.large 0x120]) = true ∧
    (∃ u, exec (.call [.large 0x120]) (routineWith [0xE0, 0x3F, 1, 0x20, 0]) = .next u) ∧
    (∃ u, exec (.save .short) { code3 [0xB5, 0xC4] with inbox := { saves := [true] } } = .next u) ∧
    (code3 []).late = false ∧
    (∃ u, exec (.save .short) { code5 [0xB5, 0x10] with inbox := { saves := [true] } } = .next u) ∧
    (code5 []).late = true ∧
    (∃ u, exec (.restore .short) (restoring tiny (some tinySnapshot)) = .next u) ∧
    tiny.cfg.staticBase.toNat ≤ 480 ∧ ¬ (tiny.cfg.globals.toNat ≤ 480 ∧ 480 < tiny.cfg.globals.toNat + 480) :=
  ⟨rfl, ⟨_, rfl⟩, ⟨_, rfl⟩, rfl, ⟨_, rfl⟩, rfl, ⟨_, rfl⟩, by decide, by decide⟩

theorem test_meets_StepKeepsMemoryLegal : (treeWith [0x99, 3]).MemoryLegal ∧ ∃ u, step (treeWith [0x99, 3]) = .next u :=
  ⟨And.intro (And.intro (by decide) (by decide)) (And.intro (by decide) (by decide)), _, rfl⟩

theorem test_meets_StepKeepsTheConfigurationLatched :
    (code3 [0xE1, 0x17, 0, 0x0C, 0, 0x99]).ConfigLatched ∧ ∃ u, step (code3 [0xE1, 0x17, 0, 0x0C, 0, 0x99]) = .next u :=
  ⟨And.intro (by decide) (And.intro (by decide) rfl), _, rfl⟩

theorem test_meets_StepKeepsTheFramesLegal :
    (routineWith [0xE0, 0x1F, 1, 0x20, 5, 0]).FramesLegal ∧
    ∃ u, step (routineWith [0xE0, 0x1F, 1, 0x20, 5, 0]) = .next u :=
  ⟨And.intro (by decide) (by decide), _, rfl⟩

theorem test_meets_ResetMeetsTheInvariants :
    (∃ s, resetWith {} {} (3 :: List.replicate 63 0) = .next s) ∧ withinLimit 1 (some 1) = true := ⟨⟨_, rfl⟩, rfl⟩

theorem test_meets_RunStateAndTraceOnlyMoveForward :
    (∃ u, step (code3 [0xB4]) = .next u ∧ u.run = .running) ∧
    (∃ u, step (code3 [0xB0]) = .next u ∧ u.run = .fatal .returnFromMain) ∧
    (∃ u, step (code3 [0xBA]) = .next u ∧ u.run = .halted) ∧
    (∃ u, step (v3 (lineRuns ++ [(0x400, [0xE4, 0x0F, 3, 0, 3, 0x20])])) = .next u ∧ u.run = .waitInput) :=
  ⟨⟨_, rfl, rfl⟩, ⟨_, rfl, rfl⟩, ⟨_, rfl, rfl⟩, ⟨_, rfl, rfl⟩⟩

theorem test_meets_DeeperFramesAreUntouched :
    let s := called3 true [(0x400, [0xB0]), (0x440, [0x10])];
    (∃ u, step s = .next u) ∧
    (∀ form rest, decode s.cfg.slot1Op0F s.fetchBytes ≠ .ok (.restore form, rest)) ∧
    (∀ rest, decode s.cfg.slot1Op0F s.fetchBytes ≠ .ok (.restart, rest)) := by
  refine ⟨⟨_, rfl⟩, ?_, ?_⟩
  · intro form rest h
    cases (show Except.ok (Instr.rtrue, List.replicate 18 0#8) = Except.ok (.restore form, rest) from h)
  · intro rest h
    cases (show Except.ok (Instr.rtrue, List.replicate 18 0#8) = Except.ok (.restart, rest) from h)

end Sys2Proof.Tests
end

section
/-! Proofs about `RESET` (R42, R380 to R382): the bytes of a story's image, the registers latched from an image, and
what `resetWith` answers. -/

namespace Sys2Proof.Machine

/-! ### The image of a story -/

theorem le_fst_of_mem_imageFrom {a : Nat} {bs : List Byte} {c : Host.Cell} (h : c ∈ imageFrom a bs) : a ≤ c.1 := by
  induction bs generalizing a with
  | nil => cases h
  | cons b bs ih =>
    rw [imageFrom] at h
    split at h
    · exact Nat.le_of_succ_le (ih h)
    · obtain rfl | h := List.mem_cons.1 h
      · exact Nat.le_refl a
      · exact Nat.le_of_succ_le (ih h)

theorem byte_imageFrom_of_lt {a x : Nat} (bs : List Byte) (h : x < a) :
    (imageFrom a bs).byte x = Memory.unlisted :=
  Memory.byte_of_lt fun _ hc => Nat.lt_of_lt_of_le h (le_fst_of_mem_imageFrom hc)

/-- An image reads back the listed bytes, and past their end what an unlisted address reads as (R20, R380). -/
theorem byte_imageFrom_add (a i : Nat) (bs : List Byte) : (imageFrom a bs).byte (a + i) = bs.getD i 0#8 := by
  induction bs generalizing a i with
  | nil => rfl
  | cons b bs ih =>
    rw [imageFrom]
    cases i with
    | zero =>
      split
      · next hb => rw [byte_imageFrom_of_lt bs (by omega), List.getD_cons_zero, hb]
      · simp [Memory.byte]
    | succ i =>
      have hi : (imageFrom (a + 1) bs).byte (a + (i + 1)) = bs.getD i 0#8 := by
        rw [← ih (a + 1) i, Nat.add_right_comm, Nat.add_assoc]
      split
      · rw [hi, List.getD_cons_succ]
      · rw [Memory.byte, if_neg (by omega), if_neg (by omega), hi, List.getD_cons_succ]

@[simp] theorem byte_imageFrom_zero (bs : List Byte) (a : Nat) : (imageFrom 0 bs).byte a = bs.getD a 0#8 := by
  simpa using byte_imageFrom_add 0 a bs

/-! ### The registers latched from an image -/

/-- A header word is its two bytes, the most significant at the lower address (R64). -/
theorem headerWord_eq_append (m : Memory) (a : Nat) : headerWord m a = m.byte a ++ m.byte (a + 1) :=
  State.wordAt_eq { State.reset with mem := m } a

/-- A header word of a story's image is the story's own two bytes (R32, R64). -/
theorem headerWord_imageFrom_zero (story : List Byte) (a : Nat) :
    headerWord (imageFrom 0 story) a = story.getD a 0#8 ++ story.getD (a + 1) 0#8 := by
  rw [headerWord_eq_append, byte_imageFrom_zero, byte_imageFrom_zero]

theorem slot1Op0FOf_eq_ite (version : Byte) :
    slot1Op0FOf version = if version.toNat ≤ 4 then .not else .call1n := by
  by_cases h : version.toNat ≤ 4
  · simp [slot1Op0FOf, isLate, h, show ¬ 5 ≤ version.toNat by omega]
  · simp [slot1Op0FOf, isLate, h, show 5 ≤ version.toNat by omega]

theorem versionAdmitted_iff (version : Byte) : versionAdmitted version = true ↔ version = 3#8 ∨ version = 5#8 := by
  simp [versionAdmitted]

/-! ### What `RESET` answers -/

theorem resetWith_of_short (params : Params) (inbox : Inbox) {story : List Byte} (h : story.length < headerSize) :
    resetWith params inbox story = .refused .storyTooShort :=
  if_pos h

theorem resetWith_of_not_admitted (params : Params) (inbox : Inbox) {story : List Byte}
    (h : headerSize ≤ story.length) (hv : ¬ versionAdmitted (story.getD 0 0#8) = true) :
    resetWith params inbox story = .refused .versionNotAdmitted := by
  rw [← byte_imageFrom_zero] at hv
  rw [resetWith, if_neg (Nat.not_lt.2 h)]
  exact if_neg hv

theorem resetWith_of_admitted (params : Params) (inbox : Inbox) {story : List Byte}
    (h : headerSize ≤ story.length) (hv : versionAdmitted (story.getD 0 0#8) = true) :
    resetWith params inbox story = .next (resetState params inbox (imageFrom 0 story) story.length) := by
  rw [← byte_imageFrom_zero] at hv
  rw [resetWith, if_neg (Nat.not_lt.2 h)]
  exact if_pos hv

/-- Settles O48, by what `RESET` answers for each kind of story and by reading the fields of `resetState` on the
story's image. -/
theorem resetMakesTheInitialState : Obligations.ResetMakesTheInitialState := by
  intro params inbox story
  refine ⟨resetWith_of_short params inbox, ?refused, ?accepted⟩
  case refused =>
    intro hlen h3 h5
    exact resetWith_of_not_admitted params inbox hlen fun hv => ((versionAdmitted_iff _).1 hv).elim h3 h5
  case accepted =>
    intro hlen hv
    have version : (imageFrom 0 story).byte hdrVersion = story.getD 0 0#8 := byte_imageFrom_zero story 0
    have word := headerWord_imageFrom_zero story
    have geometry {v : Byte} (h : story.getD 0 0#8 = v) :
        geometryOf ((imageFrom 0 story).byte hdrVersion) = geometryOf v := by rw [version, h]
    exact ⟨_, resetWith_of_admitted params inbox hlen ((versionAdmitted_iff _).2 hv),
      rfl, byte_imageFrom_zero story, rfl, version,
      word hdrPc0, word hdrDict, word hdrObjTab, word hdrGlobals, word hdrStatic, word hdrAbbrev,
      rfl, geometry, geometry, slot1Op0FOf_eq_ite _, rfl, rfl, rfl, rfl, rfl, rfl, rfl⟩

end Sys2Proof.Machine
end

section
/-! What every step keeps: the three invariants of memory, configuration and frames (R20 to R22, R35, R38), each
kept by every single change (`Change`) and by entering `Fatal`, and met by the state after reset (R42). -/

namespace Sys2Proof.Machine

variable {K : List Kind} {s t : State}

/-- A frame within the limits of R21 and R22. -/
def State.allowsFrame (s : State) (f : Frame) : Prop :=
  f.argc ≤ 7 ∧ withinLimit f.stack.length s.params.stackDepth = true

/-! ### What `RESTORE` accepts and replaces -/

theorem State.accepts_iff {r : Snapshot} : s.accepts r = true ↔ r.dyn.length = s.cfg.staticBase.toNat ∧
    r.frames ≠ [] ∧ withinLimit r.frames.length s.params.frameDepth = true ∧ ∀ f ∈ r.frames, s.allowsFrame f := by
  simp [State.accepts, State.allowsFrame, and_assoc]

/-- An accepted snapshot has frames, and restoring it replaces memory, the frames and the read addresses (R330). -/
theorem State.restoreFrom_eq {r : Snapshot} (h : s.accepts r = true) :
    ∃ top below, r.frames.reverse = top :: below ∧ s.restoreFrom r =
      { s with mem := s.mem.setBytes 0 r.dyn, top := top, below := below,
               readParse := r.readParse, readText := r.readText } := by
  obtain ⟨-, hne, -⟩ := State.accepts_iff.1 h
  cases hf : r.frames.reverse with
  | nil => exact absurd (List.reverse_eq_nil_iff.1 hf) hne
  | cons top below => exact ⟨top, below, rfl, by simp [State.restoreFrom, State.setFrames, hf]⟩

/-! ### Memory and the story -/

theorem State.MemoryLegal.writeMem (h : s.MemoryLegal) {a n : Nat} (hr : s.inRange a n) (v : Nat) :
    (s.writeMem a n v).MemoryLegal := by
  obtain ⟨⟨hwf, hlt⟩, hstory⟩ := h
  exact ⟨⟨Memory.wf_writeBE hwf a n v, Memory.bounded_writeBE hlt a n v hr⟩, hstory⟩

theorem Change.memoryLegal (h : Change K s t) (hs : s.MemoryLegal) : t.MemoryLegal := by
  cases h with
  | glob _ _ _ _ hr => exact hs.writeMem hr _
  | link _ _ _ _ _ _ hr => exact hs.writeMem hr _
  | attrs _ _ _ _ _ _ _ hr => exact hs.writeMem hr _
  | mem _ _ _ _ hr => exact hs.writeMem hr _
  | restore r _ ha hr =>
    obtain ⟨top, below, -, heq⟩ := State.restoreFrom_eq ha
    obtain ⟨hdyn, -⟩ := State.accepts_iff.1 ha
    obtain ⟨⟨hwf, hlt⟩, hstory⟩ := hs
    rw [heq]
    exact ⟨⟨Memory.wf_setBytes hwf 0 _, Memory.bounded_setBytes hlt 0 _ (hdyn ▸ hr)⟩, hstory⟩
  | reloadMem => exact ⟨hs.2, hs.2⟩
  | _ => exact hs

/-- Settles O55: every change writes only inside memory, or puts the story back, and a fatal writes nothing. -/
theorem stepKeepsMemoryLegal : Obligations.StepKeepsMemoryLegal := fun _ _ hs h =>
  step_invariant (P := State.MemoryLegal) (fun _ _ _ hc => hc.memoryLegal) (fun _ _ hp => hp) h hs

/-! ### The configuration registers -/

theorem Change.configLatched (h : Change K s t) (hs : s.ConfigLatched) : t.ConfigLatched := by
  obtain ⟨hsize, hversion, hcfg⟩ := hs
  cases h with
  | restore r _ ha =>
    obtain ⟨top, below, -, heq⟩ := State.restoreFrom_eq ha
    rw [heq]
    exact ⟨hsize, hversion, hcfg⟩
  | reloadCfg _ hm => exact ⟨hsize, hversion, congrArg latchedFrom hm⟩
  | _ => exact ⟨hsize, hversion, hcfg⟩

/-- Settles O56: only `RESTART` writes the registers, and it latches them from the story it has just put back. -/
theorem stepKeepsTheConfigurationLatched : Obligations.StepKeepsTheConfigurationLatched := fun _ _ hs h =>
  step_invariant (P := State.ConfigLatched) (fun _ _ _ hc => hc.configLatched) (fun _ _ hp => hp) h hs

/-! ### The frames -/

theorem withinLimit_of_le {m n : Nat} {limit : Option Nat} (h : m ≤ n) (hn : withinLimit n limit = true) :
    withinLimit m limit = true := by
  cases limit with
  | none => rfl
  | some l => exact decide_eq_true (h.trans (of_decide_eq_true hn))

theorem State.framesLegal_iff : s.FramesLegal ↔ s.allowsFrame s.top ∧ (∀ f ∈ s.below, s.allowsFrame f) ∧
    withinLimit (s.below.length + 1) s.params.frameDepth = true := by
  simp only [State.FramesLegal, State.allowsFrame, List.forall_mem_cons, and_assoc]

theorem State.allowsFrame_initialFrame (s : State) (pc0 : Word) : s.allowsFrame (initialFrame pc0) := by
  constructor
  · exact Nat.zero_le 7
  · cases s.params.stackDepth <;> rfl

theorem State.FramesLegal.setStack (h : s.FramesLegal) {st : List Word}
    (hst : withinLimit st.length s.params.stackDepth = true) : (s.setStack st).FramesLegal := by
  rw [State.framesLegal_iff] at h ⊢
  exact ⟨⟨h.1.1, hst⟩, h.2⟩

/-- An accepted snapshot holds only legal frames, at most `FRAME_DEPTH` of them (R327). -/
theorem State.FramesLegal.restored {r : Snapshot} (h : s.accepts r = true) : (s.restoreFrom r).FramesLegal := by
  obtain ⟨top, below, hf, heq⟩ := State.restoreFrom_eq h
  obtain ⟨-, -, hdepth, hall⟩ := State.accepts_iff.1 h
  have hlen : r.frames.length = below.length + 1 := by rw [← List.length_reverse, hf, List.length_cons]
  rw [heq]
  exact ⟨fun f hm => hall f (List.mem_reverse.1 (hf ▸ hm)), hlen ▸ hdepth⟩

theorem Change.framesLegal (h : Change K s t) (hs : s.FramesLegal) : t.FramesLegal := by
  obtain ⟨htop, hbelow, hdepth⟩ := State.framesLegal_iff.1 hs
  cases h with
  | @pop _ rest _ hst =>
    exact hs.setStack (withinLimit_of_le (show rest.length ≤ s.stack.length by simp [hst]) htop.2)
  | push v _ hl => exact hs.setStack hl
  | @top _ rest v _ hst =>
    exact hs.setStack (withinLimit_of_le (show (v :: rest).length ≤ s.stack.length by simp [hst]) htop.2)
  | enter f _ hargc hst hd =>
    have hf : s.allowsFrame f := ⟨hargc, withinLimit_of_le (by simp [hst]) htop.2⟩
    exact State.framesLegal_iff.2 ⟨hf, List.forall_mem_cons.2 ⟨htop, hbelow⟩, hd⟩
  | @leave caller rest _ hb =>
    rw [hb] at hbelow hdepth
    exact State.framesLegal_iff.2 ⟨hbelow caller (by simp), fun f hf => hbelow f (by simp [hf]),
      withinLimit_of_le (by simp) hdepth⟩
  | restore r _ ha => exact .restored ha
  | reloadFrames =>
    exact State.framesLegal_iff.2 ⟨s.allowsFrame_initialFrame _, by simp, withinLimit_of_le (by simp) hdepth⟩
  | _ => exact State.framesLegal_iff.2 ⟨htop, hbelow, hdepth⟩

/-- Settles O57: only a push, a call and `RESTORE` can break a limit, and each is guarded by it. -/
theorem stepKeepsTheFramesLegal : Obligations.StepKeepsTheFramesLegal := fun _ _ hs h =>
  step_invariant (P := State.FramesLegal) (fun _ _ _ hc => hc.framesLegal) (fun _ _ hp => hp) h hs

/-! ### The state after reset -/

theorem imageFrom_wf (a : Nat) (bs : List Byte) : (imageFrom a bs).wf := by
  induction bs generalizing a with
  | nil => exact ⟨.nil, fun _ hc => nomatch hc⟩
  | cons b bs ih =>
    rw [imageFrom]
    split
    · exact ih (a + 1)
    · next hb =>
      exact ⟨List.pairwise_cons.2 ⟨fun _ hc => le_fst_of_mem_imageFrom hc, (ih (a + 1)).1⟩,
        List.forall_mem_cons.2 ⟨hb, (ih (a + 1)).2⟩⟩

theorem fst_lt_of_mem_imageFrom {a : Nat} {bs : List Byte} {c : Host.Cell} (h : c ∈ imageFrom a bs) :
    c.1 < a + bs.length := by
  induction bs generalizing a with
  | nil => cases h
  | cons b bs ih =>
    have hrest (h : c ∈ imageFrom (a + 1) bs) : c.1 < a + (b :: bs).length := by
      have := ih h
      simp only [List.length_cons]
      omega
    rw [imageFrom] at h
    split at h
    · exact hrest h
    · obtain rfl | h := List.mem_cons.1 h
      · simp
      · exact hrest h

/-- A story `RESET` accepts has a header of an admitted version (R31, R380). -/
theorem resetWith_eq_next {params : Params} {inbox : Inbox} {story : List Byte}
    (h : resetWith params inbox story = .next s) :
    headerSize ≤ story.length ∧ versionAdmitted (story.getD 0 0#8) = true ∧
      s = resetState params inbox (imageFrom 0 story) story.length := by
  by_cases hlen : story.length < headerSize
  · rw [resetWith_of_short params inbox hlen] at h
    cases h
  by_cases hv : versionAdmitted (story.getD 0 0#8) = true
  · rw [resetWith_of_admitted params inbox (Nat.not_lt.1 hlen) hv] at h
    cases h
    exact ⟨Nat.not_lt.1 hlen, hv, rfl⟩
  · rw [resetWith_of_not_admitted params inbox (Nat.not_lt.1 hlen) hv] at h
    cases h

theorem resetState_framesLegal {params : Params} (inbox : Inbox) (story : Memory) (size : Nat)
    (h : withinLimit 1 params.frameDepth = true) : (resetState params inbox story size).FramesLegal :=
  State.framesLegal_iff.2 ⟨State.allowsFrame_initialFrame _ _, by simp [resetState], h⟩

/-- Settles O58: the image of a story is canonical and lists only its own addresses, the registers are latched from
it, and the one frame is the initial one. -/
theorem resetMeetsTheInvariants : Obligations.ResetMeetsTheInvariants := by
  refine ⟨fun params inbox story s h => ?accepted, ?memory, ?config, resetState_framesLegal _ _ _ rfl⟩
  case accepted =>
    obtain ⟨hlen, hv, rfl⟩ := resetWith_eq_next h
    have himage : (imageFrom 0 story).wf ∧ ∀ c ∈ imageFrom 0 story, c.1 < story.length :=
      ⟨imageFrom_wf 0 story, fun c hc => by simpa using fst_lt_of_mem_imageFrom hc⟩
    rw [← byte_imageFrom_zero] at hv
    exact ⟨⟨himage, himage⟩, ⟨hlen, hv, rfl⟩, resetState_framesLegal inbox _ _⟩
  case memory =>
    have hblank : State.blankStory.wf ∧ ∀ c ∈ State.blankStory, c.1 < headerSize := by decide
    exact ⟨hblank, hblank⟩
  case config => exact ⟨Nat.le_refl _, by decide, rfl⟩

end Sys2Proof.Machine
end

section
/-! What every step does to the story, the requests and the run state (R38, R39, R40, R310): only `QUIT` halts, only
`READ` waits, and the completion of the input ends running. -/

namespace Sys2Proof.Machine

variable {α β : Type} {K : List Kind} {s t u : State}

/-! ### The story, the size, the parameters and the requests -/

/-- The story, the size and the parameters are as they were, and requests are only added, at the end. -/
structure State.OnlyAddsRequests (s t : State) : Prop where
  story : t.story = s.story
  memSize : t.memSize = s.memSize
  params : t.params = s.params
  trace : s.trace <+: t.trace

theorem State.OnlyAddsRequests.refl (s : State) : s.OnlyAddsRequests s := ⟨rfl, rfl, rfl, List.prefix_rfl⟩

theorem State.OnlyAddsRequests.trans (h : s.OnlyAddsRequests t) (h' : t.OnlyAddsRequests u) :
    s.OnlyAddsRequests u where
  story := h'.story.trans h.story
  memSize := h'.memSize.trans h.memSize
  params := h'.params.trans h.params
  trace := h.trace.trans h'.trace

theorem Change.onlyAddsRequests (h : Change K s t) : s.OnlyAddsRequests t := by
  cases h with
  | emit r => exact ⟨rfl, rfl, rfl, List.prefix_append _ _⟩
  | restore r _ ha =>
    obtain ⟨top, below, -, heq⟩ := State.restoreFrom_eq ha
    rw [heq]
    exact ⟨rfl, rfl, rfl, List.prefix_rfl⟩
  | _ => exact ⟨rfl, rfl, rfl, List.prefix_rfl⟩

theorem Changes.onlyAddsRequests (h : Changes K s t) : s.OnlyAddsRequests t :=
  h.induct .refl (fun _ _ _ => .trans) fun _ _ hc => hc.onlyAddsRequests

/-! ### The run state -/

/-- The run state is as it was, or is one that a kind of `K` sets. -/
def State.RunMoves (K : List Kind) (s t : State) : Prop :=
  t.run = s.run ∨ (.halt ∈ K ∧ t.run = .halted) ∨ (.wait ∈ K ∧ t.run = .waitInput) ∨
    (.resume ∈ K ∧ t.run = .running)

theorem State.RunMoves.trans (h : s.RunMoves K t) (h' : t.RunMoves K u) : s.RunMoves K u := by
  rcases h' with hsame | hset
  · rw [State.RunMoves, hsame]
    exact h
  · exact .inr hset

theorem Change.runMoves (h : Change K s t) : s.RunMoves K t := by
  cases h with
  | halt hk => exact .inr (.inl ⟨hk, rfl⟩)
  | wait hk => exact .inr (.inr (.inl ⟨hk, rfl⟩))
  | resume hk => exact .inr (.inr (.inr ⟨hk, rfl⟩))
  | restore r _ ha =>
    obtain ⟨top, below, -, heq⟩ := State.restoreFrom_eq ha
    rw [heq]
    exact .inl rfl
  | _ => exact .inl rfl

theorem Changes.runMoves (h : Changes K s t) : s.RunMoves K t :=
  h.induct (R := State.RunMoves K) (fun _ => .inl rfl) (fun _ _ _ => .trans) fun _ _ hc => hc.runMoves

theorem halt_mem_kindsOf {i : Instr} (h : .halt ∈ kindsOf i) : i = .quit := by
  cases i with
  | quit => rfl
  | _ => exact absurd h (by dsimp only [kindsOf]; decide)

theorem wait_mem_kindsOf {i : Instr} (h : .wait ∈ kindsOf i) : ∃ ops, i = .read ops := by
  cases i with
  | read ops => exact ⟨ops, rfl⟩
  | _ => exact absurd h (by dsimp only [kindsOf]; decide)

theorem stepKinds_of_decode_ok {i : Instr} {rest : List Byte} (hr : s.run = .running)
    (hd : decode s.cfg.slot1Op0F s.fetchBytes = .ok (i, rest)) : stepKinds s = .pc :: .pop :: kindsOf i := by
  simp [stepKinds, hr, hd]

theorem stepKinds_of_decode_error {e : Truncated} (hr : s.run = .running)
    (hd : decode s.cfg.slot1Op0F s.fetchBytes = .error e) : stepKinds s = [.pc, .pop] := by
  simp [stepKinds, hr, hd]

/-- The changes of a running machine's step end it only in `QUIT`, and make it wait only in `READ`. -/
theorem Changes.run_of_running (hr : s.run = .running) (h : Changes (stepKinds s) s t) :
    t.run = .running ∨
      (t.run = .halted ∧ ∃ rest, decode s.cfg.slot1Op0F s.fetchBytes = .ok (.quit, rest)) ∨
      (t.run = .waitInput ∧ ∃ ops rest, decode s.cfg.slot1Op0F s.fetchBytes = .ok (.read ops, rest)) := by
  have hrun := h.runMoves
  rw [State.RunMoves, hr] at hrun
  cases hd : decode s.cfg.slot1Op0F s.fetchBytes with
  | error e =>
    rw [stepKinds_of_decode_error hr hd] at hrun
    simpa using hrun
  | ok p =>
    obtain ⟨i, rest⟩ := p
    rw [stepKinds_of_decode_ok hr hd] at hrun
    rcases hrun with hsame | ⟨hk, hhalt⟩ | ⟨hk, hwait⟩ | ⟨-, hrun⟩
    · exact .inl hsame
    · obtain rfl := halt_mem_kindsOf (i := i) (by simpa using hk)
      exact .inr (.inl ⟨hhalt, rest, rfl⟩)
    · obtain ⟨ops, rfl⟩ := wait_mem_kindsOf (i := i) (by simpa using hk)
      exact .inr (.inr ⟨hwait, ops, rest, rfl⟩)
    · exact .inl hrun

/-! ### The completion of the input -/

/-- Where the operation gives its value, the machine is running. -/
def EndsRunning (m : M α) : Prop := ∀ s a u, m s = .ok a u → u.run = .running

theorem endsRunning_bind {m : M α} {f : α → M β} (hf : ∀ a, EndsRunning (f a)) : EndsRunning (m >>= f) := by
  intro s b u h
  rw [M.bind_apply] at h
  split at h
  · exact hf _ _ _ _ h
  · cases h

theorem endsRunning_ite {c : Prop} [Decidable c] {m m' : M α} (h : EndsRunning m) (h' : EndsRunning m') :
    EndsRunning (if c then m else m') := by
  split <;> assumption

/-- The last statement of the completion sets `RUN` (R315). -/
theorem completeInput_endsRunning (line : List Byte) : EndsRunning (completeInput line) := by
  have hset : EndsRunning (update (·.setRun .running)) := fun _ _ _ h => by cases h; rfl
  unfold completeInput
  repeat refine endsRunning_bind fun _ => ?_
  exact endsRunning_ite (endsRunning_bind fun _ => hset) hset

theorem inputDone_run {line : List Byte} (h : inputDone line s = .next u) :
    u.run = .running ∨ ∃ c, u.run = .fatal c := by
  unfold inputDone at h
  split at h
  · rcases finish_next h with hm | ⟨c, s', -, rfl⟩
    · exact .inl (completeInput_endsRunning line _ _ _ hm)
    · exact .inr ⟨c, rfl⟩
  · cases h

/-- Settles O59, by the kinds of change of a running machine's step, and by the last statement of the completion of
the input for a waiting one. -/
theorem runStateAndTraceOnlyMoveForward : Obligations.RunStateAndTraceOnlyMoveForward := by
  intro s u h
  obtain ⟨t, ht, hu⟩ := step_changes h
  have hkept : s.OnlyAddsRequests u := by
    obtain ⟨hstory, hsize, hparams, htrace⟩ := ht.onlyAddsRequests
    rcases hu with rfl | ⟨c, rfl⟩ <;> exact ⟨hstory, hsize, hparams, htrace⟩
  refine ⟨hkept.story, hkept.memSize, hkept.params, hkept.trace, ?run⟩
  case run =>
    cases hr : s.run with
    | running =>
      rcases hu with rfl | ⟨c, rfl⟩
      · exact (ht.run_of_running hr).imp_right .inr
      · exact .inr (.inl ⟨c, rfl⟩)
    | waitInput =>
      cases hl : s.inbox.lines with
      | nil =>
        rw [step_waitInput_empty hr hl] at h
        cases h
      | cons line rest =>
        rw [step_waitInput hr hl] at h
        exact (inputDone_run h).imp_right .inl
    | halted => simp [step, hr] at h
    | fatal c => simp [step, hr] at h

end Sys2Proof.Machine
end

section
/-! Variables by number (R22 to R25) and the run states that step (R40, R351, R353). -/

namespace Sys2Proof.Machine

variable {s : State} {n : Byte} {v : Word}

/-! ### Reading and writing a variable -/

theorem readVar_stack (hn : n.toNat = 0) : readVar n s = pop s := by
  simp [readVar, hn]

theorem readVar_local (k : Fin 15) (hn : n.toNat = k.val + 1) : readVar n s = .ok s.top.locals[k] s := by
  have hle : k.val + 1 ≤ 15 := k.isLt
  simp [readVar, hn, hle, localVar]

theorem readVar_global (hn : 16 ≤ n.toNat) : readVar n s = memWord (s.globalAddr n.toNat) s := by
  simp [readVar, show n.toNat ≠ 0 by omega, show ¬ n.toNat ≤ 15 by omega]

theorem writeVar_stack (hn : n.toNat = 0) : writeVar n v s = push v s := by
  simp [writeVar, hn]

theorem writeVar_local (k : Fin 15) (hn : n.toNat = k.val + 1) :
    writeVar n v s = .ok () { s with top := { s.top with locals := s.top.locals.set k v } } := by
  have hle : k.val + 1 ≤ 15 := k.isLt
  have hset : s.top.locals.setIfInBounds k.val v = s.top.locals.set k.val v := by
    ext i hi
    simp [Vector.getElem_setIfInBounds, Vector.getElem_set]
  simp [writeVar, hn, hle, State.setLocal, hset]

theorem writeVar_global (hn : 16 ≤ n.toNat) : writeVar n v s = memWrite (s.globalAddr n.toNat) 2 v.toNat s := by
  simp [writeVar, show n.toNat ≠ 0 by omega, show ¬ n.toNat ≤ 15 by omega]

/-- A word read is its two bytes, or the fatal where they are not both inside memory (R61, R62, R64). -/
theorem memWord_eq (a : Nat) : memWord a s =
    if a + 2 ≤ s.memSize then .ok (s.mem.byte a ++ s.mem.byte (a + 1)) s else .error (.fatal (.memRange a)) s := by
  split
  · next h => rw [memWord_ok h, State.wordAt_eq]
  · next h => exact memWord_fatal h

/-- Settles O9, by the three ranges of a variable number: the stack (0), the locals (1 to 15), the globals. -/
theorem variablesAreStackLocalsAndGlobals : Obligations.VariablesAreStackLocalsAndGlobals := by
  intro s n v
  refine ⟨fun hn hst => ?popEmpty, fun w rest hn hst => ?pop, readVar_local, fun hn => ?readGlobal,
    fun hn hl => ?push, fun hn hl => ?pushFull, writeVar_local, writeVar_global⟩
  case popEmpty => rw [readVar_stack hn, pop_fatal hst]
  case pop => rw [readVar_stack hn, pop_ok hst]; rfl
  case readGlobal => rw [readVar_global hn, memWord_eq]; rfl
  case push => rw [writeVar_stack hn, push_ok hl]; rfl
  case pushFull => rw [writeVar_stack hn, push_fatal hl]

/-- Settles O10: in place, variable 0 is the last word of the stack, and the others are read and written as ever. -/
theorem inPlaceAccessKeepsTheDepth : Obligations.InPlaceAccessKeepsTheDepth := by
  intro s n v
  refine ⟨fun hn => ⟨by rw [readVarInPlace, if_neg hn], by rw [writeVarInPlace, if_neg hn]⟩,
    fun hn hst => ?empty, fun w rest hn hst => ?last⟩
  all_goals rw [readVarInPlace, writeVarInPlace, if_pos hn, if_pos hn]
  case empty => exact ⟨peekTop_fatal hst, replaceTop_fatal v hst⟩
  case last => exact ⟨peekTop_ok hst, replaceTop_ok v hst⟩

/-! ### Which run states step -/

theorem fetchBytes_of_outside (h : s.memSize ≤ s.pc.toNat) : s.fetchBytes = [] :=
  if_neg (Nat.not_lt.2 h)

theorem step_of_decode_ok {i : Instr} {rest : List Byte} (hr : s.run = .running)
    (hd : decode s.cfg.slot1Op0F s.fetchBytes = .ok (i, rest)) : step s = exec i s := by
  simp [step, hr, hd]

theorem step_of_decode_error {t : Truncated} (hr : s.run = .running)
    (hd : decode s.cfg.slot1Op0F s.fetchBytes = .error t) : step s = finish (runTruncated t) s := by
  simp [step, hr, hd]

/-- Bytes that end inside an instruction are a fatal: of an operand that was there, or of the byte that was not. -/
theorem finish_runTruncated (t : Truncated) (s : State) : ∃ u c, finish (runTruncated t) s = .next u ∧
    u.run = .fatal c ∧ (c = .stackUnderflow ∨ ∃ a, c = .memRange a) := by
  have hadvanced : runTruncated t s =
      (do let _ ← fetchOperands t.ops; raise (.memRange (← gets (·.pc.toNat)))) (s.advance t.head) := rfl
  cases ho : (s.advance t.head).operandValues (s.advance t.head).stack t.ops with
  | none =>
    obtain ⟨c, _, _, hc, hcause⟩ := fetchOperands_fatal ho
    exact ⟨_, c, finish_fatal (hadvanced.trans (M.bind_error hc _)), rfl, hcause⟩
  | some p =>
    exact ⟨_, _, finish_fatal (hadvanced.trans (M.bind_ok (fetchOperands_ok (vs := p.1) (st := p.2) ho) _)), rfl,
      .inr ⟨_, rfl⟩⟩

/-- Settles O6, by the run state, and for a running machine by what the decoder answers where bytes are missing. -/
theorem runStateDecidesTheStep : Obligations.RunStateDecidesTheStep := by
  intro s
  refine ⟨fun hr => by simp [step, hr], fun c hr => by simp [step, hr], step_waitInput_empty,
    fun line rest => step_waitInput, fun hr hpc => ?outside, fun t hr hd => ?truncated⟩
  case outside =>
    have hd : decode s.cfg.slot1Op0F s.fetchBytes = .error ⟨0, []⟩ := by rw [fetchBytes_of_outside hpc]; rfl
    rw [step_of_decode_error hr hd]
    exact finish_fatal (by simp [runTruncated, fetchOperands])
  case truncated =>
    rw [step_of_decode_error hr hd]
    exact finish_runTruncated t s

end Sys2Proof.Machine
end

section
/-! What an operation leaves of memory and of the frames (R22 to R25, R104 to R109, R283): a store, a return and a
branch keep all but one variable, so the instructions that reach a variable by number keep the rest, and no step but
`RESTORE` and `RESTART` reaches under the frame it works in. -/

namespace Sys2Proof.Machine

variable {α β : Type} {s t u : State} {n : Byte}

/-! ### The two ways of keeping the rest -/

theorem State.FrameKept.refl (s : State) : s.FrameKept s := ⟨fun _ => rfl, rfl, rfl, rfl, rfl, 0, rfl⟩

theorem State.FrameKept.trans (h : s.FrameKept t) (h' : t.FrameKept u) : s.FrameKept u := by
  obtain ⟨j, hj⟩ := h.stack
  obtain ⟨k, hk⟩ := h'.stack
  exact ⟨fun a => (h'.mem a).trans (h.mem a), h'.below.trans h.below, h'.locals.trans h.locals,
    h'.argc.trans h.argc, h'.storeResult.trans h.storeResult, j + k, by rw [hk, hj, List.drop_drop]⟩

theorem State.frameKept_advance (s : State) (k : Nat) : s.FrameKept (s.advance k) :=
  ⟨fun _ => rfl, rfl, rfl, rfl, rfl, 0, rfl⟩

theorem State.FrameKept.takeFatal (h : s.FrameKept t) (c : Cause) : s.FrameKept (takeFatal c t) :=
  ⟨h.mem, h.below, h.locals, h.argc, h.storeResult, h.stack⟩

theorem State.AllButVariable.takeFatal (h : s.AllButVariable n t) (c : Cause) :
    s.AllButVariable n (takeFatal c t) :=
  ⟨h.mem, h.below, h.locals, h.argc, h.storeResult, h.stack⟩

theorem State.ReturnKeeps.takeFatal (h : s.ReturnKeeps t) (c : Cause) : s.ReturnKeeps (takeFatal c t) := by
  obtain ⟨caller, rest, hs, ht, hkept⟩ := h
  refine ⟨caller, rest, hs, ht, ?_⟩
  by_cases hr : s.top.storeResult = true
  · rw [if_pos hr] at hkept ⊢
    exact hkept.takeFatal c
  · rw [if_neg hr] at hkept ⊢
    exact hkept

theorem State.FrameKept.allButVariable (h : s.FrameKept t) (n : Byte) : s.AllButVariable n t := by
  obtain ⟨k, hk⟩ := h.stack
  exact ⟨fun a _ => h.mem a, h.below, fun j _ _ _ => by rw [localVar, localVar, h.locals], h.argc, h.storeResult,
    k, .inl hk⟩

theorem State.AllButVariable.refl (n : Byte) (s : State) : s.AllButVariable n s :=
  (State.FrameKept.refl s).allButVariable n

/-- A variable written after words were popped. -/
theorem State.FrameKept.trans_allButVariable (h : s.FrameKept t) (hc : t.cfg = s.cfg)
    (h' : t.AllButVariable n u) : s.AllButVariable n u where
  mem a ha := by
    rw [h'.mem a (by rwa [State.globalBytes, State.globalAddr, hc]), h.mem a]
  below := h'.below.trans h.below
  locals k h1 h15 hk := by rw [h'.locals k h1 h15 hk, localVar, localVar, h.locals]
  argc := h'.argc.trans h.argc
  storeResult := h'.storeResult.trans h.storeResult
  stack := by
    obtain ⟨j, hj⟩ := h.stack
    obtain ⟨k, hk⟩ := h'.stack
    refine ⟨j + k, ?_⟩
    rwa [hj, List.drop_drop] at hk

/-! ### Operations on variables -/

theorem localVar_setLocal_of_ne {k m : Nat} (v : Word) (hk : 1 ≤ k) (hm : 1 ≤ m) (hne : k ≠ m) :
    localVar (s.setLocal m v).top k = localVar s.top k := by
  simp only [localVar, State.setLocal_top]
  rw [Vector.getElem?_setIfInBounds_ne (by omega)]

theorem State.put_allButVariable {v : Word} (h : s.put n v = some t) : s.AllButVariable n t := by
  unfold State.put at h
  split at h
  · next hn =>
    split at h
    · cases h
      exact ⟨fun _ _ => rfl, rfl, fun _ _ _ _ => rfl, rfl, rfl, 0, .inr ⟨BitVec.eq_of_toNat_eq hn, v, rfl⟩⟩
    · cases h
  · next hn =>
    split at h
    · cases h
      exact ⟨fun _ _ => rfl, rfl, fun k h1 _ hk => localVar_setLocal_of_ne v h1 (Nat.pos_of_ne_zero hn) hk, rfl, rfl,
        0, .inl rfl⟩
    · next hn15 =>
      split at h
      · cases h
        refine ⟨fun a ha => Memory.byte_writeBE_other _ _ _ _ ?_, rfl, fun _ _ _ _ => rfl, rfl, rfl, 0, .inl rfl⟩
        simp only [State.globalBytes, not_and, Nat.not_lt] at ha
        exact (Nat.lt_or_ge _ _).imp_right (ha (by omega))
      · cases h

theorem State.putInPlace_allButVariable {v : Word} (h : s.putInPlace n v = some t) : s.AllButVariable n t := by
  unfold State.putInPlace at h
  split at h
  · next hn =>
    split at h
    · cases h
    · next w rest hst =>
      cases h
      exact ⟨fun _ _ => rfl, rfl, fun _ _ _ _ => rfl, rfl, rfl, 1,
        .inr ⟨BitVec.eq_of_toNat_eq hn, v, by simp [hst]⟩⟩
  · exact State.put_allButVariable h

theorem writeVarInPlace_allButVariable (n : Byte) (v : Word) (s : State) :
    s.AllButVariable n (endOf (writeVarInPlace n v s)) := by
  cases h : s.putInPlace n v with
  | none =>
    obtain ⟨c, hc, -⟩ := writeVarInPlace_fatal h
    rw [hc]
    exact .refl n s
  | some t =>
    rw [writeVarInPlace_ok h]
    exact State.putInPlace_allButVariable h

/-- How the end of two operations in a row comes about: the first stops, or the second runs where it ended. -/
theorem endOf_bind {m : M α} {f : α → M β} (s : State) :
    endOf ((m >>= f) s) = endOf (m s) ∨ ∃ a, endOf ((m >>= f) s) = endOf (f a (endOf (m s))) := by
  rw [M.bind_apply]
  cases m s with
  | ok a s' => exact .inr ⟨a, rfl⟩
  | error e s' => exact .inl rfl

theorem addInPlace_allButVariable (n : Byte) (d : Int) (s : State) :
    s.AllButVariable n (endOf (addInPlace n d s)) := by
  have hread : endOf (readVarInPlace n s) = s := (keeps_readVarInPlace n).same s
  unfold addInPlace
  rcases endOf_bind (m := readVarInPlace n) s with h | ⟨v, h⟩ <;> rw [h, hread]
  · exact .refl n s
  · rcases endOf_bind (m := writeVarInPlace n (u16 (s16 v + d))) s with h | ⟨_, h⟩ <;> rw [h] <;>
      exact writeVarInPlace_allButVariable n _ s

theorem pop_frameKept (s : State) : s.FrameKept (endOf (pop s)) := by
  cases h : s.stack with
  | nil =>
    rw [pop_fatal h]
    exact .refl s
  | cons v rest =>
    rw [pop_ok h]
    exact ⟨fun _ => rfl, rfl, rfl, rfl, rfl, 1, by simp [h]⟩

/-! ### Stores, returns and branches -/

/-- A store keeps all but the variable its store byte names (R104). -/
theorem store_allButVariable (v : Word) (s : State) :
    s.AllButVariable (s.mem.byte s.pc.toNat) (endOf (store v s)) := by
  cases h : s.stored v with
  | none =>
    obtain ⟨c, s', hc, hs' | hs'⟩ := store_fatal h <;> rw [hc, hs']
    · exact .refl _ s
    · exact (s.frameKept_advance 1).allButVariable _
  | some t =>
    rw [store_ok h]
    unfold State.stored at h
    split at h
    · cases h
    · next b s' hf =>
      obtain ⟨-, rfl, rfl⟩ := State.fetched_some hf
      exact (s.frameKept_advance 1).trans_allButVariable rfl (State.put_allButVariable h)

/-- A return leaves the bottom frame as it is, or goes back to the caller's (R283). -/
theorem ret_keeps (v : Word) (s : State) : s.FrameKept (endOf (ret v s)) ∨ s.ReturnKeeps (endOf (ret v s)) := by
  cases hb : s.below with
  | nil =>
    have : ret v s = .error (.fatal .returnFromMain) s := by simp [ret, popFrame, hb]
    rw [this]
    exact .inl (.refl s)
  | cons caller rest =>
    have hret : ret v s =
        (if s.top.storeResult then store v else pure ()) { s with top := caller, below := rest } := by
      simp [ret, popFrame, hb]
    have hstore := store_allButVariable v { s with top := caller, below := rest }
    refine .inr ⟨caller, rest, hb, ?_⟩
    rw [hret]
    split
    · exact ⟨hstore.below, hstore⟩
    · exact ⟨rfl, fun _ => rfl, rfl⟩

theorem doBranch_keeps (c : Bool) (f : BranchField) (s : State) :
    s.FrameKept (endOf (doBranch c f s)) ∨ s.ReturnKeeps (endOf (doBranch c f s)) := by
  unfold doBranch
  split
  · split
    · exact ret_keeps _ s
    · split
      · exact ret_keeps _ s
      · exact .inl ⟨fun _ => rfl, rfl, rfl, rfl, rfl, 0, rfl⟩
  · exact .inl (.refl s)

theorem State.fieldFetched_some {f : BranchField} (h : s.fieldFetched = some (f, t)) : ∃ k, t = s.advance k := by
  unfold State.fieldFetched at h
  split at h
  · cases h
  · next b1 s1 hf =>
    obtain ⟨-, -, rfl⟩ := State.fetched_some hf
    split at h
    · cases h
      exact ⟨1, rfl⟩
    · split at h
      · cases h
      · next b2 s2 hf2 =>
        obtain ⟨-, -, rfl⟩ := State.fetched_some hf2
        cases h
        exact ⟨1 + 1, s.advance_advance 1 1⟩

theorem branch_keeps (c : Bool) (s : State) :
    s.FrameKept (endOf (branch c s)) ∨ s.ReturnKeeps (endOf (branch c s)) := by
  cases h : s.fieldFetched with
  | none =>
    obtain ⟨cause, s', hc, hs' | hs'⟩ := readBranchField_fatal h <;> rw [branch, M.bind_error hc, hs']
    · exact .inl (.refl s)
    · exact .inl (s.frameKept_advance 1)
  | some p =>
    obtain ⟨f, s'⟩ := p
    rw [branch, M.bind_ok (readBranchField_ok h)]
    obtain ⟨k, rfl⟩ := State.fieldFetched_some h
    exact (doBranch_keeps c f (s.advance k)).imp_left (s.frameKept_advance k).trans

/-- The variable the store byte of `store_branch` names: the byte at `PC`, or the one after the branch field, as
`FIELD_ORDER` says (R109). -/
def State.storeBranchVariable (s : State) : Byte :=
  match s.params.fieldOrder with
  | .storeThenBranch => s.mem.byte s.pc.toNat
  | .branchThenStore => s.fieldFetched.elim 0#8 fun p => s.mem.byte p.2.pc.toNat

theorem State.storeBranchVariable_of_storeThenBranch (h : s.params.fieldOrder = .storeThenBranch) :
    s.storeBranchVariable = s.mem.byte s.pc.toNat := by
  rw [State.storeBranchVariable, h]

theorem State.storeBranchVariable_of_fieldFetched {f : BranchField} (h : s.params.fieldOrder = .branchThenStore)
    (hf : s.fieldFetched = some (f, t)) : s.storeBranchVariable = s.mem.byte t.pc.toNat := by
  rw [State.storeBranchVariable, h, hf]
  rfl

/-! ### The special registers -/

/-- The kinds of change that leave the special registers and the requests alone. -/
def quietKinds : List Kind :=
  [.pc, .pop, .push, .top, .loc, .glob, .link, .attrs, .mem, .enter, .leave, .halt, .wait, .resume]

/-- The special registers and the requests are as they were. -/
structure State.QuietlyKept (s t : State) : Prop where
  specials : s.SpecialsKept t
  trace : t.trace = s.trace

theorem State.QuietlyKept.refl (s : State) : s.QuietlyKept s :=
  ⟨⟨⟨rfl, rfl, rfl, rfl⟩, rfl, rfl, rfl, rfl, rfl⟩, rfl⟩

theorem State.quietlyKept_advance_setStack (s : State) (k : Nat) (st : List Word) :
    s.QuietlyKept ((s.advance k).setStack st) :=
  ⟨⟨⟨rfl, rfl, rfl, rfl⟩, rfl, rfl, rfl, rfl, rfl⟩, rfl⟩

theorem State.QuietlyKept.takeFatal (h : s.QuietlyKept t) (c : Cause) : s.QuietlyKept (takeFatal c t) := by
  obtain ⟨⟨⟨hsize, hstory, hcfg, hparams⟩, htext, hparse, hrng, hinbox, hdraws⟩, htrace⟩ := h
  exact ⟨⟨⟨hsize, hstory, hcfg, hparams⟩, htext, hparse, hrng, hinbox, hdraws⟩, htrace⟩

theorem State.SpecialsKept.trans (h : s.SpecialsKept t) (h' : t.SpecialsKept u) : s.SpecialsKept u := by
  obtain ⟨⟨hsize, hstory, hcfg, hparams⟩, htext, hparse, hrng, hinbox, hdraws⟩ := h
  obtain ⟨⟨hsize', hstory', hcfg', hparams'⟩, htext', hparse', hrng', hinbox', hdraws'⟩ := h'
  exact ⟨⟨hsize'.trans hsize, hstory'.trans hstory, hcfg'.trans hcfg, hparams'.trans hparams⟩, htext'.trans htext,
    hparse'.trans hparse, hrng'.trans hrng, hinbox'.trans hinbox, hdraws'.trans hdraws⟩

theorem State.QuietlyKept.trans (h : s.QuietlyKept t) (h' : t.QuietlyKept u) : s.QuietlyKept u :=
  ⟨h.specials.trans h'.specials, h'.trace.trans h.trace⟩

theorem Change.quietlyKept (h : Change quietKinds s t) : s.QuietlyKept t := by
  cases h with
  | emit _ hk | reads _ _ hk | reply _ _ hk | lines _ hk | draw _ _ hk | restore _ hk | reloadMem hk | reloadCfg hk
  | reloadFrames hk => exact absurd hk (by decide)
  | _ => exact ⟨⟨⟨rfl, rfl, rfl, rfl⟩, rfl, rfl, rfl, rfl, rfl⟩, rfl⟩

theorem Keeps.quietlyKept {m : M α} (h : Keeps quietKinds m) (s : State) : s.QuietlyKept (endOf (m s)) :=
  (h s).induct .refl (fun _ _ _ => .trans) fun _ _ hc => hc.quietlyKept

/-! ### A variable written, then a branch -/

/-- All but variable `n` is kept, and then a branch is taken or a return made, the special registers and the
requests as they were throughout. -/
def State.WritesThenBranches (s : State) (n : Byte) (u : State) : Prop :=
  ∃ w, s.SpecialsKept w ∧ s.AllButVariable n w ∧ (w.FrameKept u ∨ w.ReturnKeeps u)

theorem State.WritesThenBranches.takeFatal (h : s.WritesThenBranches n u) (c : Cause) :
    s.WritesThenBranches n (takeFatal c u) := by
  obtain ⟨w, hspecials, hall, hend⟩ := h
  exact ⟨w, hspecials, hall, hend.imp (·.takeFatal c) (·.takeFatal c)⟩

/-- Before the write, words may be popped and the program counter moved. -/
theorem State.WritesThenBranches.after (hframe : s.FrameKept t) (hquiet : s.QuietlyKept t)
    (h : t.WritesThenBranches n u) : s.WritesThenBranches n u := by
  obtain ⟨w, hspecials, hall, hend⟩ := h
  exact ⟨w, hquiet.specials.trans hspecials, hframe.trans_allButVariable hquiet.specials.fixed.cfg hall, hend⟩

/-- The write, then the branch: where the write stops, nothing more happens. -/
theorem writesThenBranches_bind {m : M α} {f : α → M Unit} {s : State} (hm : Keeps quietKinds m)
    (hall : s.AllButVariable n (endOf (m s)))
    (hf : ∀ (a : α) (w : State), w.FrameKept (endOf (f a w)) ∨ w.ReturnKeeps (endOf (f a w))) :
    s.WritesThenBranches n (endOf ((m >>= f) s)) := by
  refine ⟨endOf (m s), (hm.quietlyKept s).specials, hall, ?_⟩
  rcases endOf_bind (f := f) s with h | ⟨a, h⟩ <;> rw [h]
  · exact .inl (.refl _)
  · exact hf a _

theorem storeBranch_fieldMissing {v : Word} {c : Bool} (ho : s.params.fieldOrder = .branchThenStore)
    (hf : s.fieldFetched = none) : s.FrameKept (endOf (storeBranch v c s)) := by
  obtain ⟨cause, s', hc, hs' | hs'⟩ := readBranchField_fatal hf <;>
    simp only [storeBranch, M.bind_apply, gets_apply, ho, hc, endOf_error, hs']
  · exact .refl s
  · exact s.frameKept_advance 1

theorem storeBranch_writesThenBranches (v : Word) (c : Bool) (s : State) :
    s.WritesThenBranches s.storeBranchVariable (endOf (storeBranch v c s)) := by
  have hstore : Keeps quietKinds (store v) := keeps_store (by decide) v
  cases ho : s.params.fieldOrder with
  | branchThenStore =>
    cases hf : s.fieldFetched with
    | none =>
      exact ⟨s, (State.QuietlyKept.refl s).specials, .refl _ s, .inl (storeBranch_fieldMissing ho hf)⟩
    | some p =>
      obtain ⟨f, s1⟩ := p
      have hrun : storeBranch v c s = (store v >>= fun _ => doBranch c f) s1 := by
        simp [storeBranch, ho, readBranchField_ok hf]
      rw [hrun, State.storeBranchVariable_of_fieldFetched ho hf]
      obtain ⟨k, rfl⟩ := State.fieldFetched_some hf
      exact .after (s.frameKept_advance k) (s.quietlyKept_advance_setStack k s.stack)
        (writesThenBranches_bind hstore (store_allButVariable v (s.advance k)) fun _ => doBranch_keeps c f)
  | storeThenBranch =>
    have hrun : storeBranch v c s = (store v >>= fun _ => branch c) s := by simp [storeBranch, ho]
    rw [hrun, State.storeBranchVariable_of_storeThenBranch ho]
    exact writesThenBranches_bind hstore (store_allButVariable v s) fun _ => branch_keeps c

/-! ### The instructions that reach a variable by number, `GET_SIBLING` and `GET_CHILD` -/

theorem State.entered_kept {i : Instr} {vs : List Word} (h : s.entered i = some (vs, t)) :
    s.FrameKept t ∧ s.QuietlyKept t := by
  obtain ⟨j, rfl⟩ := State.entered_state h
  exact ⟨⟨fun _ => rfl, rfl, rfl, rfl, rfl, j, rfl⟩, s.quietlyKept_advance_setStack _ _⟩

/-- What holds where the body of an instruction ends, and does not speak of the run state, holds of the next state. -/
theorem exec_entered_end {P : State → Prop} (hfatal : ∀ w c, P w → P (takeFatal c w)) {i : Instr} {vs : List Word}
    (h : s.entered i = some (vs, t)) (hu : exec i s = .next u) (hend : P (endOf (bodyOf i vs t))) : P u := by
  rw [exec_of_entered h] at hu
  rcases finish_next hu with hm | ⟨c, w, hm, rfl⟩ <;> rw [hm] at hend
  · exact hend
  · exact hfatal w c hend

/-- The instructions that reach a variable by number, and the two that store and branch. -/
def writesVariable : Instr → Bool
  | .store _ | .inc _ | .dec _ | .pull _ | .incChk _ | .decChk _ | .getSibling _ | .getChild _ => true
  | _ => false

theorem bodyOf_quiet {i : Instr} (hi : writesVariable i = true) (vs : List Word) :
    Keeps quietKinds (bodyOf i vs) := by
  cases i with
  | store _ => exact keeps_need2 fun _ _ _ => keeps_writeVarInPlace (by decide) _ _
  | inc _ | dec _ => exact keeps_bind (keeps_addInPlace (by decide) _ _) fun _ => keeps_pure _
  | pull _ =>
    exact keeps_need1 fun _ _ _ => keeps_bind (keeps_pop (by decide)) fun _ => keeps_writeVarInPlace (by decide) _ _
  | incChk _ | decChk _ =>
    exact keeps_need2 fun _ _ _ => keeps_bind (keeps_addInPlace (by decide) _ _) fun _ => keeps_branch (by decide) _
  | getSibling _ | getChild _ =>
    exact keeps_bind (keeps_link _ _) fun _ => keeps_storeBranch (by decide) _ _
  | _ => cases hi

theorem exec_quietlyKept {i : Instr} (hi : writesVariable i = true) {vs : List Word}
    (h : s.entered i = some (vs, t)) (hu : exec i s = .next u) : s.QuietlyKept u :=
  exec_entered_end (P := s.QuietlyKept) (fun _ c hp => hp.takeFatal c) h hu
    ((State.entered_kept h).2.trans ((bodyOf_quiet hi vs).quietlyKept t))

theorem bodyOf_store_allButVariable (args : Args2) (v : Word) (more : List Word) (s : State) :
    s.AllButVariable (varNumber v) (endOf (bodyOf (.store args) (v :: more) s)) := by
  cases more with
  | nil => exact .refl _ s
  | cons b more => exact writeVarInPlace_allButVariable _ b s

theorem addInPlace_discarded_allButVariable (n : Byte) (d : Int) (s : State) :
    s.AllButVariable n (endOf ((do let _ ← addInPlace n d : M Unit) s)) := by
  rcases endOf_bind (m := addInPlace n d) (f := fun _ => pure ()) s with h | ⟨_, h⟩ <;> rw [h] <;>
    exact addInPlace_allButVariable n d s

theorem bodyOf_pull_allButVariable (ops : List Operand) (v : Word) (more : List Word) (s : State) :
    s.AllButVariable (varNumber v) (endOf (bodyOf (.pull ops) (v :: more) s)) := by
  have hcfg : (endOf (pop s)).cfg = s.cfg := by cases h : s.stack <;> simp [pop, h]
  rcases endOf_bind (m := pop) (f := writeVarInPlace (varNumber v)) s with h | ⟨w, h⟩ <;>
    simp only [bodyOf, need1, h]
  · exact (pop_frameKept s).allButVariable _
  · exact (pop_frameKept s).trans_allButVariable hcfg (writeVarInPlace_allButVariable _ w _)

theorem bodyOf_inPlace_allButVariable {i : Instr} (hi : inPlaceGroup i = true ∨ ∃ ops, i = .pull ops) (v : Word)
    (more : List Word) (s : State) : s.AllButVariable (varNumber v) (endOf (bodyOf i (v :: more) s)) := by
  rcases hi with hi | ⟨ops, rfl⟩
  · cases i with
    | store args => exact bodyOf_store_allButVariable args v more s
    | inc _ | dec _ => exact addInPlace_discarded_allButVariable _ _ s
    | _ => cases hi
  · exact bodyOf_pull_allButVariable ops v more s

theorem bodyOf_chk_writesThenBranches {i : Instr} (hi : ∃ args, i = .incChk args ∨ i = .decChk args) (v : Word)
    (more : List Word) (s : State) : s.WritesThenBranches (varNumber v) (endOf (bodyOf i (v :: more) s)) := by
  have hadd (d : Int) (test : Word → Bool) :
      s.WritesThenBranches (varNumber v) (endOf ((addInPlace (varNumber v) d >>= fun w => branch (test w)) s)) :=
    writesThenBranches_bind (keeps_addInPlace (by decide) _ d) (addInPlace_allButVariable _ d s)
      fun w => branch_keeps (test w)
  cases more with
  | nil =>
    have hfatal : endOf (bodyOf i [v] s) = s := by obtain ⟨args, rfl | rfl⟩ := hi <;> rfl
    rw [hfatal]
    exact ⟨s, (State.QuietlyKept.refl s).specials, .refl _ s, .inl (.refl s)⟩
  | cons b more =>
    obtain ⟨args, rfl | rfl⟩ := hi
    · exact hadd 1 fun w => signedLess b w
    · exact hadd (-1) fun w => signedLess w b

/-- A link read, then a store and a branch; where the link cannot be read, nothing happens. -/
theorem bodyOf_getLink_keeps {i : Instr} (hi : ∃ x, i = .getSibling x ∨ i = .getChild x) (vs : List Word)
    (s : State) : s.WritesThenBranches s.storeBranchVariable (endOf (bodyOf i vs s)) ∧
      (s.params.fieldOrder = .branchThenStore → s.fieldFetched = none → s.FrameKept (endOf (bodyOf i vs s))) := by
  obtain ⟨off, hbody⟩ : ∃ off, bodyOf i vs =
      link (vs.headD 0#16) off >>= fun v => storeBranch v (decide (v ≠ 0#16)) := by
    obtain ⟨x, rfl | rfl⟩ := hi
    · exact ⟨Geometry.offSibling, rfl⟩
    · exact ⟨Geometry.offChild, rfl⟩
  have hlink : endOf (link (vs.headD 0#16) off s) = s := (keeps_link _ off).same s
  rcases endOf_bind (m := link (vs.headD 0#16) off) (f := fun v => storeBranch v (decide (v ≠ 0#16))) s with
    h | ⟨v, h⟩ <;> rw [hbody, h, hlink]
  · exact ⟨⟨s, (State.QuietlyKept.refl s).specials, .refl _ s, .inl (.refl s)⟩, fun _ _ => .refl s⟩
  · exact ⟨storeBranch_writesThenBranches v _ s, storeBranch_fieldMissing⟩

theorem writesVariable_of_inPlace {i : Instr} (hi : inPlaceGroup i = true ∨ ∃ ops, i = .pull ops) :
    writesVariable i = true := by
  rcases hi with hi | ⟨ops, rfl⟩
  · cases i with
    | store _ | inc _ | dec _ => rfl
    | _ => cases hi
  · rfl

/-- Settles O53: each instruction writes one variable after its operands, and what follows is a branch. -/
theorem inPlaceInstructionsKeepTheRest : Obligations.InPlaceInstructionsKeepTheRest := by
  intro i s t u v more h hu
  obtain ⟨hframe, hquiet⟩ := State.entered_kept h
  refine ⟨fun hi => ?inPlace, fun hi => ?chk, fun hi => ?getLink⟩
  case inPlace =>
    obtain ⟨hspecials, htrace⟩ := exec_quietlyKept (writesVariable_of_inPlace hi) h hu
    exact ⟨hspecials, htrace, exec_entered_end (P := s.AllButVariable (varNumber v)) (fun _ c hp => hp.takeFatal c)
      h hu (hframe.trans_allButVariable hquiet.specials.fixed.cfg (bodyOf_inPlace_allButVariable hi v more t))⟩
  case chk =>
    have hw : writesVariable i = true := by obtain ⟨args, rfl | rfl⟩ := hi <;> rfl
    obtain ⟨hspecials, htrace⟩ := exec_quietlyKept hw h hu
    exact ⟨hspecials, htrace, exec_entered_end (P := s.WritesThenBranches (varNumber v))
      (fun _ c hp => hp.takeFatal c) h hu (.after hframe hquiet (bodyOf_chk_writesThenBranches hi v more t))⟩
  case getLink =>
    have hw : writesVariable i = true := by obtain ⟨x, rfl | rfl⟩ := hi <;> rfl
    obtain ⟨hspecials, htrace⟩ := exec_quietlyKept hw h hu
    obtain ⟨hwrites, hmissing⟩ := bodyOf_getLink_keeps hi (v :: more) t
    obtain ⟨w, hw, hall, hend⟩ := exec_entered_end (P := s.WritesThenBranches t.storeBranchVariable)
      (fun _ c hp => hp.takeFatal c) h hu (.after hframe hquiet hwrites)
    rw [← hquiet.specials.fixed.params]
    refine ⟨hspecials, htrace, w, t.storeBranchVariable, hw, hall, hend, fun ho => ?_, fun f t1 ho hf => ?_,
      fun ho hf => exec_entered_end (P := s.FrameKept) (fun _ c hp => hp.takeFatal c) h hu
        (hframe.trans (hmissing ho hf))⟩
    · rw [State.storeBranchVariable_of_storeThenBranch ho, hframe.mem]
    · rw [State.storeBranchVariable_of_fieldFetched ho hf, hframe.mem]

end Sys2Proof.Machine
end

section
/-! The frames under the top one (R22, R281, R283): but for `RESTORE` and `RESTART` a step leaves them as they are,
puts one more on them in a call, or takes the nearest one back in a return. -/

namespace Sys2Proof.Machine

variable {α β : Type} {s t u : State}

/-- The frames below stay as they are, get one more, or lose the nearest one. -/
def State.BelowMoves (s u : State) : Prop :=
  u.below = s.below ∨ (∃ caller, u.below = caller :: s.below) ∨ ∃ resumed, s.below = resumed :: u.below

/-- However the operation ends, the frames below have moved by one at most. -/
def Moves (m : M α) : Prop := ∀ s : State, s.BelowMoves (endOf (m s))

/-- The kinds of change that leave the frames under the top one alone. -/
def topFrameKinds : List Kind :=
  [.pc, .pop, .push, .top, .loc, .glob, .link, .attrs, .mem, .emit, .reads, .reply, .draw, .halt, .wait, .resume,
    .lines]

theorem Change.below (h : Change topFrameKinds s t) : t.below = s.below := by
  cases h with
  | enter _ hk | leave hk | restore _ hk | reloadFrames hk => exact absurd hk (by decide)
  | _ => rfl

theorem Changes.below (h : Changes topFrameKinds s t) : t.below = s.below :=
  h.induct (R := fun s t => t.below = s.below) (fun _ => rfl) (fun _ _ _ h h' => h'.trans h) fun _ _ hc => hc.below

theorem moves_of_keeps {m : M α} (h : Keeps topFrameKinds m) : Moves m := fun s => .inl (h s).below

/-- Only the last part of an operation moves the frames. -/
theorem moves_bind {m : M α} {f : α → M β} (hm : Keeps topFrameKinds m) (hf : ∀ a, Moves (f a)) :
    Moves (m >>= f) := by
  intro s
  have hbelow := (hm s).below
  rcases endOf_bind (f := f) s with h | ⟨a, h⟩ <;> rw [h]
  · exact .inl hbelow
  · have := hf a (endOf (m s))
    rwa [State.BelowMoves, hbelow] at this

theorem moves_ite {c : Prop} [Decidable c] {m m' : M α} (h : Moves m) (h' : Moves m') :
    Moves (if c then m else m') := by split <;> assumption

theorem moves_raise (c : Cause) : Moves (raise c : M α) := moves_of_keeps (keeps_raise c)

theorem State.belowMoves_of_frameKept_or_returnKeeps (h : s.FrameKept u ∨ s.ReturnKeeps u) : s.BelowMoves u := by
  rcases h with h | ⟨caller, rest, hs, hu, -⟩
  · exact .inl h.below
  · exact .inr (.inr ⟨caller, by rw [hs, hu]⟩)

theorem moves_ret (v : Word) : Moves (ret v) := fun s => State.belowMoves_of_frameKept_or_returnKeeps (ret_keeps v s)

theorem moves_branch (c : Bool) : Moves (branch c) := fun s => State.belowMoves_of_frameKept_or_returnKeeps (branch_keeps c s)

theorem moves_storeBranch (v : Word) (c : Bool) : Moves (storeBranch v c) := by
  have hstore : Keeps topFrameKinds (store v) := keeps_store (by decide) v
  refine moves_bind (keeps_gets _) fun order => ?_
  cases order with
  | branchThenStore =>
    exact moves_bind (keeps_readBranchField (by decide)) fun f => moves_bind hstore fun _ s =>
      State.belowMoves_of_frameKept_or_returnKeeps (doBranch_keeps c f s)
  | storeThenBranch => exact moves_bind hstore fun _ => moves_branch c

theorem moves_call (routine : Word) (args : List Word) (want : Bool) : Moves (call routine args want) := by
  intro s
  by_cases h0 : routine = 0#16
  · subst h0
    cases want with
    | true =>
      rw [call_zero_result]
      exact moves_of_keeps (keeps_store (by decide) _) s
    | false =>
      rw [call_zero_noResult]
      exact .inl rfl
  · by_cases hc : s.callable routine
    · rw [call_ok h0 hc]
      exact .inr (.inl ⟨s.top, rfl⟩)
    · obtain ⟨c, h⟩ := call_fatal (args := args) (want := want) h0 hc
      rw [h]
      exact .inl rfl

theorem moves_saveBody : Moves saveBody :=
  moves_bind keeps_checkDynamic fun _ => moves_bind (keeps_gets _) fun _ =>
    moves_bind (keeps_takeSaveReply (by decide)) fun ok => moves_bind (keeps_request (by decide) _) fun _ =>
      moves_bind (keeps_gets _) fun _ => moves_ite (moves_of_keeps (keeps_store (by decide) _)) (moves_branch ok)

theorem moves_need1 {o : Byte} {vs : List Word} {f : Word → List Word → M Unit} (h : ∀ a more, Moves (f a more)) :
    Moves (need1 o vs f) := by
  unfold need1
  split
  · exact h _ _
  · exact moves_raise _

theorem moves_need2 {o : Byte} {vs : List Word} {f : Word → Word → List Word → M Unit}
    (h : ∀ a b more, Moves (f a b more)) : Moves (need2 o vs f) := by
  unfold need2
  split
  · exact h _ _ _
  · exact moves_raise _

/-- An instruction that neither calls nor returns keeps the frames below; the others do so up to their last part. -/
theorem moves_bodyOf {i : Instr} (hrestore : ∀ form, i ≠ .restore form) (hrestart : i ≠ .restart) {vs : List Word}
    (hvs : vs.length ≤ 8) : Moves (bodyOf i vs) := by
  cases i with
  | je _ | jl _ | jg _ | test _ => exact moves_need2 fun _ _ _ => moves_branch _
  | jin _ => exact moves_need2 fun _ _ _ => moves_bind (keeps_link _ _) fun _ => moves_branch _
  | testAttr _ =>
    exact moves_need2 fun _ _ _ => moves_bind (keeps_attrs _) fun _ => moves_bind (keeps_attrMask _) fun _ =>
      moves_branch _
  | decChk _ | incChk _ =>
    exact moves_need2 fun _ _ _ => moves_bind (keeps_addInPlace (by decide) _ _) fun _ => moves_branch _
  | jz _ => exact moves_branch _
  | checkArgCount _ => exact moves_need1 fun _ _ => moves_bind (keeps_gets _) fun _ => moves_branch _
  | getSibling _ | getChild _ => exact moves_bind (keeps_link _ _) fun _ => moves_storeBranch _ _
  | ret _ | rtrue | rfalse => exact moves_ret _
  | retPopped => exact moves_bind (keeps_pop (by decide)) fun _ => moves_ret _
  | printRet =>
    exact moves_bind (keeps_inlineText (by decide)) fun _ => moves_bind (keeps_request (by decide) _) fun _ =>
      moves_ret _
  | call1s _ | call1n _ => exact moves_call _ _ _
  | call2s _ | call2n _ => exact moves_need2 fun _ _ _ => moves_call _ _ _
  | call _ | callVs2 _ _ | callVn _ | callVn2 _ _ => exact moves_need1 fun _ _ => moves_call _ _ _
  | save _ => exact moves_saveBody
  | restore form => exact absurd rfl (hrestore form)
  | restart => exact absurd rfl hrestart
  | _ => exact moves_of_keeps ((keeps_bodyOf _ vs hvs).mono (by dsimp only [kindsOf]; decide))

theorem exec_belowMoves {i : Instr} (hl : i.operands.length ≤ 8) (hrestore : ∀ form, i ≠ .restore form)
    (hrestart : i ≠ .restart) (hu : exec i s = .next u) : s.BelowMoves u := by
  cases h : s.entered i with
  | none =>
    obtain ⟨c, n, j, hfatal, -⟩ := exec_of_not_entered h
    rw [hfatal] at hu
    cases hu
    exact .inl rfl
  | some p =>
    obtain ⟨vs, t⟩ := p
    have hend := moves_bodyOf hrestore hrestart (State.entered_length h ▸ hl) t
    rw [State.BelowMoves, (State.entered_kept h).1.below] at hend
    exact exec_entered_end (P := s.BelowMoves) (fun _ _ hp => hp) h hu hend

/-- Settles O60: of the changes a step makes only a call, a return, `RESTORE` and `RESTART` reach the frames below,
and an instruction calls or returns once, last. -/
theorem deeperFramesAreUntouched : Obligations.DeeperFramesAreUntouched := by
  intro s u h hrestore hrestart
  have still (hk : stepKinds s ⊆ topFrameKinds) : s.BelowMoves u := by
    obtain ⟨t, ht, rfl | ⟨c, rfl⟩⟩ := step_changes h <;> exact .inl (ht.mono hk).below
  cases hr : s.run with
  | running =>
    cases hd : decode s.cfg.slot1Op0F s.fetchBytes with
    | error e => exact still (by rw [stepKinds_of_decode_error hr hd]; decide)
    | ok p =>
      obtain ⟨i, rest⟩ := p
      rw [step_of_decode_ok hr hd] at h
      exact exec_belowMoves (operands_le_of_wellFormed (decode_sound hd).1)
        (fun form hi => hrestore form rest (by rw [hd, hi])) (fun hi => hrestart rest (by rw [hd, hi])) h
  | waitInput => exact still (by simp only [stepKinds, hr]; decide)
  | halted => simp [step, hr] at h
  | fatal c => simp [step, hr] at h

end Sys2Proof.Machine
end

section
/-! The object tree after `REMOVE_OBJ` and `INSERT_OBJ` (R45, R213, R214, R220): each takes the object out of its
chain and gives it one new parent (none, or the destination), and what agreed or was a forest stays so. -/

namespace Sys2Proof.Machine

variable {α β : Type} {s t u w : State} {obj dest : Word} {ids : List Word}

/-! ### What a run that ends well did -/

theorem M.bind_eq_ok {m : M α} {f : α → M β} {b : β} (h : (m >>= f) s = .ok b u) :
    ∃ a w, m s = .ok a w ∧ f a w = .ok b u := by
  rw [M.bind_apply] at h
  split at h
  · next a w hm => exact ⟨a, w, hm, h⟩
  · cases h

/-- A machine that goes on running took no fatal. -/
theorem finish_running {m : M Unit} (h : finish m s = .next u) (hr : u.run = .running) : m s = .ok () u := by
  rcases finish_next h with hm | ⟨c, w, -, rfl⟩
  · exact hm
  · cases hr

/-- `REMOVE_OBJ` without a fatal: `Unlink`, then parent and sibling 0 (R213). -/
theorem removeObj_eq_ok {x : Operand} (h0 : obj ≠ 0#16) (h : bodyOf (.removeObj x) [obj] t = .ok () u) :
    ∃ w, unlink obj t = .ok () w ∧ w.takesLink obj Geometry.offParent 0#16 ∧
      w.takesLink obj Geometry.offSibling 0#16 ∧
      u = (w.linked obj Geometry.offParent 0#16).linked obj Geometry.offSibling 0#16 := by
  have hbody : bodyOf (.removeObj x) [obj] = (do
      unlink obj
      setLink obj Geometry.offParent 0#16
      setLink obj Geometry.offSibling 0#16) := if_neg h0
  rw [hbody] at h
  obtain ⟨⟨⟩, w, hunlink, h⟩ := M.bind_eq_ok h
  obtain ⟨⟨⟩, w1, hparent, h⟩ := M.bind_eq_ok h
  obtain ⟨hp, rfl⟩ := setLink_eq_ok hparent
  obtain ⟨hs, rfl⟩ := setLink_eq_ok h
  exact ⟨w, hunlink, hp, hs, rfl⟩

theorem alreadyFirstChild_eq_ok {b : Bool} (h : alreadyFirstChild obj dest t = .ok b w) : w = t ∧
    (b = true → t.linkOf obj Geometry.offParent = dest ∧ t.linkOf dest Geometry.offChild = obj) := by
  obtain ⟨p, w1, hparent, h⟩ := M.bind_eq_ok h
  obtain ⟨-, rfl, rfl⟩ := link_eq_ok hparent
  split at h
  · next hp =>
    obtain ⟨c, w2, hchild, h⟩ := M.bind_eq_ok h
    obtain ⟨-, rfl, rfl⟩ := link_eq_ok hchild
    cases h
    exact ⟨rfl, fun hb => ⟨hp, of_decide_eq_true hb⟩⟩
  · cases h
    exact ⟨rfl, fun hb => absurd hb Bool.false_ne_true⟩

/-- `INSERT_OBJ` without a fatal: nothing where the object is already the first child; otherwise `Unlink`, then the
object before the first child of the destination (R214, R215). -/
theorem insertObj_eq_ok {args : Args2} {more : List Word} (ho : obj ≠ 0#16) (hd : dest ≠ 0#16)
    (h : bodyOf (.insertObj args) (obj :: dest :: more) t = .ok () u) :
    (t.linkOf obj Geometry.offParent = dest ∧ t.linkOf dest Geometry.offChild = obj ∧ u = t) ∨
    ∃ w, unlink obj t = .ok () w ∧
      w.takesLink obj Geometry.offSibling (w.linkOf dest Geometry.offChild) ∧
      w.takesLink dest Geometry.offChild obj ∧ w.takesLink obj Geometry.offParent dest ∧
      u = ((w.linked obj Geometry.offSibling (w.linkOf dest Geometry.offChild)).linked dest Geometry.offChild
        obj).linked obj Geometry.offParent dest := by
  simp only [bodyOf, need2, ho, hd, or_self, if_false] at h
  obtain ⟨already, w0, hfirst, hrest⟩ := M.bind_eq_ok h
  obtain ⟨rfl, hready⟩ := alreadyFirstChild_eq_ok hfirst
  split at hrest
  · next hb =>
    cases hrest
    exact .inl ⟨(hready hb).1, (hready hb).2, rfl⟩
  · obtain ⟨⟨⟩, w, hunlink, h⟩ := M.bind_eq_ok hrest
    obtain ⟨c, w1, hchild, h⟩ := M.bind_eq_ok h
    obtain ⟨-, rfl, rfl⟩ := link_eq_ok hchild
    obtain ⟨⟨⟩, w2, hsibling, h⟩ := M.bind_eq_ok h
    obtain ⟨hs, rfl⟩ := setLink_eq_ok hsibling
    obtain ⟨⟨⟩, w3, hfirst, h⟩ := M.bind_eq_ok h
    obtain ⟨hc, rfl⟩ := setLink_eq_ok hfirst
    obtain ⟨hp, rfl⟩ := setLink_eq_ok h
    exact .inr ⟨_, hunlink, hs, hc, hp, rfl⟩

/-! ### The links after a link write -/

theorem State.linkOf_linked_field (hg : s.cfg.geom = geometryOf s.cfg.version) {i id v : Word} {o : Geometry → Nat}
    (ho : o = Geometry.offParent ∨ o = Geometry.offSibling ∨ o = Geometry.offChild) (ht : s.takesLink i o v)
    (hid : id ≠ 0#16) : (s.linked i o v).linkOf id o = if id = i then v else s.linkOf id o := by
  split
  · next h => rw [h, State.linkOf_linked_same ht hg]
  · next h => exact State.linkOf_linked_apart hg ht.1.1 hid ho ho (.inl h)

/-- Every object has the parent it had, but `obj` has the parent `d`. -/
def State.Reparented (s u : State) (obj d : Word) : Prop :=
  ∀ k, k ≠ 0#16 → u.linkOf k Geometry.offParent = if k = obj then d else s.linkOf k Geometry.offParent

/-- A link of another field than the one written. -/
theorem State.linkOf_linked_otherField (hg : s.cfg.geom = geometryOf s.cfg.version) {i id v : Word}
    {o off : Geometry → Nat} (ho : o = Geometry.offParent ∨ o = Geometry.offSibling ∨ o = Geometry.offChild)
    (hf : off = Geometry.offParent ∨ off = Geometry.offSibling ∨ off = Geometry.offChild)
    (hne : off (geometryOf 3#8) ≠ o (geometryOf 3#8)) (hi : i ≠ 0#16) (hid : id ≠ 0#16) :
    (s.linked i o v).linkOf id off = s.linkOf id off :=
  State.linkOf_linked_apart hg hi hid ho hf (.inr hne)

/-- The links after parent and sibling are set to 0. -/
theorem removed_links (hg : w.cfg.geom = geometryOf w.cfg.version)
    (hp : w.takesLink obj Geometry.offParent 0#16) (hs : w.takesLink obj Geometry.offSibling 0#16)
    (hu : u = (w.linked obj Geometry.offParent 0#16).linked obj Geometry.offSibling 0#16) :
    w.Reparented u obj 0#16 ∧
    (∀ k, k ≠ 0#16 →
      u.linkOf k Geometry.offSibling = if k = obj then 0#16 else w.linkOf k Geometry.offSibling) ∧
    ∀ k, k ≠ 0#16 → u.linkOf k Geometry.offChild = w.linkOf k Geometry.offChild := by
  subst hu
  have h0 := hp.1.1
  have hg1 : (w.linked obj Geometry.offParent 0#16).cfg.geom = geometryOf w.cfg.version := hg
  refine ⟨fun k hk => ?parent, fun k hk => ?sibling, fun k hk => ?child⟩
  case parent =>
    rw [State.linkOf_linked_otherField hg1 (by simp) (by simp) (by decide) h0 hk,
      State.linkOf_linked_field hg (by simp) hp hk]
  case sibling =>
    rw [State.linkOf_linked_field hg1 (by simp) hs hk,
      State.linkOf_linked_otherField hg (by simp) (by simp) (by decide) h0 hk]
  case child =>
    rw [State.linkOf_linked_otherField hg1 (by simp) (by simp) (by decide) h0 hk,
      State.linkOf_linked_otherField hg (by simp) (by simp) (by decide) h0 hk]

/-- The links after the object is put before the first child of the destination. -/
theorem inserted_links {c : Word} (hg : w.cfg.geom = geometryOf w.cfg.version)
    (hs : w.takesLink obj Geometry.offSibling c) (hc : w.takesLink dest Geometry.offChild obj)
    (hp : w.takesLink obj Geometry.offParent dest)
    (hu : u = ((w.linked obj Geometry.offSibling c).linked dest Geometry.offChild obj).linked obj
      Geometry.offParent dest) :
    w.Reparented u obj dest ∧
    (∀ k, k ≠ 0#16 → u.linkOf k Geometry.offSibling = if k = obj then c else w.linkOf k Geometry.offSibling) ∧
    ∀ k, k ≠ 0#16 → u.linkOf k Geometry.offChild = if k = dest then obj else w.linkOf k Geometry.offChild := by
  subst hu
  have ho := hs.1.1
  have hd := hc.1.1
  have hg1 : (w.linked obj Geometry.offSibling c).cfg.geom = geometryOf w.cfg.version := hg
  have hg2 : ((w.linked obj Geometry.offSibling c).linked dest Geometry.offChild obj).cfg.geom =
    geometryOf w.cfg.version := hg
  refine ⟨fun k hk => ?parent, fun k hk => ?sibling, fun k hk => ?child⟩
  case parent =>
    rw [State.linkOf_linked_field hg2 (by simp) hp hk,
      State.linkOf_linked_otherField hg1 (by simp) (by simp) (by decide) hd hk,
      State.linkOf_linked_otherField hg (by simp) (by simp) (by decide) ho hk]
  case sibling =>
    rw [State.linkOf_linked_otherField hg2 (by simp) (by simp) (by decide) ho hk,
      State.linkOf_linked_otherField hg1 (by simp) (by simp) (by decide) hd hk,
      State.linkOf_linked_field hg (by simp) hs hk]
  case child =>
    rw [State.linkOf_linked_otherField hg2 (by simp) (by simp) (by decide) ho hk,
      State.linkOf_linked_field hg1 (by simp) hc hk,
      State.linkOf_linked_otherField hg (by simp) (by simp) (by decide) ho hk]

/-! ### Links that agree -/

/-- The same fields exist, so links agree where the parents and the chains do. -/
theorem State.LinksAgree.of_chains (h : s.LinksAgree ids) (hc : u.cfg = s.cfg) (hm : u.memSize = s.memSize)
    (hparents : ∀ id ∈ ids, u.linkOf id Geometry.offParent = 0#16 ∨ u.linkOf id Geometry.offParent ∈ ids)
    (hchains : ∀ p ∈ ids, ∃ kids, u.SiblingChain (u.linkOf p Geometry.offChild) kids ∧ kids.Nodup ∧
      ∀ k, k ∈ kids ↔ k ∈ ids ∧ u.linkOf k Geometry.offParent = p) : u.LinksAgree ids where
  fields id hid := by simpa only [State.hasLink_congr hc hm] using h.fields id hid
  parents := hparents
  chains := hchains

theorem State.Reparented.parents {d : Word} (hr : s.Reparented u obj d) (h : s.LinksAgree ids)
    (hd : d = 0#16 ∨ d ∈ ids) {id : Word} (hid : id ∈ ids) :
    u.linkOf id Geometry.offParent = 0#16 ∨ u.linkOf id Geometry.offParent ∈ ids := by
  rw [hr id (h.ne_zero hid)]
  split
  · exact hd
  · exact h.parents id hid

/-- The chains of `w` are those of links that agree without `obj`: what `Unlink` leaves (R207). -/
def State.ChainsWithout (s w : State) (obj : Word) (ids : List Word) : Prop :=
  ∀ p ∈ ids, ∃ kids, w.SiblingChain (w.linkOf p Geometry.offChild) kids ∧ kids.Nodup ∧
    ∀ k, k ∈ kids ↔ k ≠ obj ∧ k ∈ ids ∧ s.linkOf k Geometry.offParent = p

/-- The object out of every chain, and with parent 0: the links agree. -/
theorem State.LinksAgree.removed (h : s.LinksAgree ids) (hw : s.ChainsWithout w obj ids) (hc : u.cfg = s.cfg)
    (hm : u.memSize = s.memSize) (hr : s.Reparented u obj 0#16)
    (hs : ∀ k, k ≠ 0#16 →
      u.linkOf k Geometry.offSibling = if k = obj then 0#16 else w.linkOf k Geometry.offSibling)
    (hch : ∀ k, k ≠ 0#16 → u.linkOf k Geometry.offChild = w.linkOf k Geometry.offChild) : u.LinksAgree ids := by
  refine h.of_chains hc hm (fun id hid => hr.parents h (.inl rfl) hid) fun p hp => ?_
  obtain ⟨kids, hchain, hnodup, hmem⟩ := hw p hp
  have h0 := h.ne_zero hp
  refine ⟨kids, ?chain, hnodup, fun k => ?member⟩
  case chain =>
    rw [hch p h0]
    exact hchain.congr kids fun k hk => by rw [hs k (hchain.ne_zero kids hk), if_neg ((hmem k).1 hk).1]
  case member =>
    rw [hmem k]
    constructor
    · rintro ⟨hko, hk, hkp⟩
      exact ⟨hk, by rw [hr k (h.ne_zero hk), if_neg hko, hkp]⟩
    · rintro ⟨hk, hkp⟩
      rw [hr k (h.ne_zero hk)] at hkp
      split at hkp
      · exact absurd hkp.symm h0
      · next hko => exact ⟨hko, hk, hkp⟩

/-- The object first in the chain of the destination, its parent, and out of the others: the links agree. -/
theorem State.LinksAgree.inserted (h : s.LinksAgree ids) (ho : obj ∈ ids) (hd : dest ∈ ids)
    (hw : s.ChainsWithout w obj ids) (hc : u.cfg = s.cfg) (hm : u.memSize = s.memSize)
    (hr : s.Reparented u obj dest)
    (hs : ∀ k, k ≠ 0#16 → u.linkOf k Geometry.offSibling =
      if k = obj then w.linkOf dest Geometry.offChild else w.linkOf k Geometry.offSibling)
    (hch : ∀ k, k ≠ 0#16 → u.linkOf k Geometry.offChild = if k = dest then obj else w.linkOf k Geometry.offChild) :
    u.LinksAgree ids := by
  refine h.of_chains hc hm (fun id hid => hr.parents h (.inr hd) hid) fun p hp => ?_
  obtain ⟨kids, hchain, hnodup, hmem⟩ := hw p hp
  have kept : u.SiblingChain (w.linkOf p Geometry.offChild) kids :=
    hchain.congr kids fun k hk => by rw [hs k (hchain.ne_zero kids hk), if_neg ((hmem k).1 hk).1]
  have hobj : u.linkOf obj Geometry.offParent = dest := by rw [hr obj (h.ne_zero ho), if_pos rfl]
  have hother {k : Word} (hk : k ∈ ids) (hko : k ≠ obj) :
      u.linkOf k Geometry.offParent = s.linkOf k Geometry.offParent := by rw [hr k (h.ne_zero hk), if_neg hko]
  rw [hch p (h.ne_zero hp)]
  by_cases hpd : p = dest
  · subst hpd
    rw [if_pos rfl]
    refine ⟨obj :: kids, ⟨rfl, h.ne_zero ho, ?first⟩,
      List.nodup_cons.2 ⟨fun hk => ((hmem obj).1 hk).1 rfl, hnodup⟩, fun k => ?member⟩
    case first => rwa [hs obj (h.ne_zero ho), if_pos rfl]
    case member =>
      rw [List.mem_cons, hmem k]
      by_cases hko : k = obj
      · subst hko
        simp [ho, hobj]
      · simp only [hko, false_or, ne_eq, not_false_eq_true, true_and]
        exact and_congr_right fun hk => by rw [hother hk hko]
  · rw [if_neg hpd]
    refine ⟨kids, kept, hnodup, fun k => ?_⟩
    rw [hmem k]
    by_cases hko : k = obj
    · subst hko
      simp [hobj, Ne.symm hpd]
    · simp only [ne_eq, hko, not_false_eq_true, true_and]
      exact and_congr_right fun hk => by rw [hother hk hko]

theorem State.LinksAgree.not_mem_chain (h : u.LinksAgree ids) (hobj : u.linkOf obj Geometry.offParent = 0#16) :
    ∀ p ∈ ids, ∃ kids, u.SiblingChain (u.linkOf p Geometry.offChild) kids ∧ obj ∉ kids := by
  intro p hp
  obtain ⟨kids, hchain, -, hmem⟩ := h.chains p hp
  exact ⟨kids, hchain, fun hk => h.ne_zero hp (((hmem obj).1 hk).2.symm.trans hobj)⟩

theorem State.LinksAgree.count_chain (h : u.LinksAgree ids) (ho : obj ∈ ids) (hd : dest ∈ ids)
    (hobj : u.linkOf obj Geometry.offParent = dest) :
    ∃ kids, u.SiblingChain (u.linkOf dest Geometry.offChild) kids ∧ kids.count obj = 1 := by
  obtain ⟨kids, hchain, hnodup, hmem⟩ := h.chains dest hd
  exact ⟨kids, hchain, List.count_eq_one_of_mem hnodup ((hmem obj).2 ⟨ho, hobj⟩)⟩

/-! ### Forests -/

/-- In a subtree with another root, an object stands where its parent stands. -/
theorem State.inSubtree_iff_parent {id : Word} (h0 : id ≠ 0#16) (hne : id ≠ obj) :
    s.InSubtree obj id ↔ s.InSubtree obj (s.linkOf id Geometry.offParent) := by
  constructor
  · intro h
    cases h with
    | root => exact absurd rfl hne
    | child _ _ h => exact h
  · exact .child id h0

open Classical in
/-- The depths of a forest, with the whole subtree of `obj` so much deeper. -/
noncomputable def State.deepenedDepth (s : State) (obj : Word) (depth : Word → Nat) (n : Nat) (k : Word) : Nat :=
  if s.InSubtree obj k then depth k + n else depth k

theorem State.deepenedDepth_inside {depth : Word → Nat} {n : Nat} {k : Word} (h : s.InSubtree obj k) :
    s.deepenedDepth obj depth n k = depth k + n := if_pos h

theorem State.deepenedDepth_outside {depth : Word → Nat} {n : Nat} {k : Word} (h : ¬ s.InSubtree obj k) :
    s.deepenedDepth obj depth n k = depth k := if_neg h

/-- A forest stays one when an object gets no parent, or one that is not in its own subtree. -/
theorem State.Forest.reparented {d : Word} (h : s.Forest ids) (hu : u.LinksAgree ids) (hr : s.Reparented u obj d)
    (hd : d = 0#16 ∨ ¬ s.InSubtree obj d) : u.Forest ids where
  toLinksAgree := hu
  rooted := by
    obtain ⟨depth, hdepth⟩ := h.rooted
    refine ⟨s.deepenedDepth obj depth (depth d + 1), fun id hid hp => ?_⟩
    have h0 := hu.ne_zero hid
    rw [hr id h0] at hp ⊢
    by_cases hne : id = obj
    · subst hne
      rw [if_pos rfl] at hp ⊢
      rw [State.deepenedDepth_outside (hd.resolve_left hp), State.deepenedDepth_inside .root]
      omega
    · rw [if_neg hne] at hp ⊢
      have hlt := hdepth id hid hp
      by_cases hin : s.InSubtree obj (s.linkOf id Geometry.offParent)
      · rw [State.deepenedDepth_inside hin, State.deepenedDepth_inside ((State.inSubtree_iff_parent h0 hne).2 hin)]
        omega
      · rwa [State.deepenedDepth_outside hin,
          State.deepenedDepth_outside (mt (State.inSubtree_iff_parent h0 hne).1 hin)]

/-! ### The two instructions -/

theorem unlink_geom (hg : t.cfg.geom = geometryOf t.cfg.version) (hw : unlink obj t = .ok () w) :
    w.cfg.geom = geometryOf w.cfg.version := by
  have hkept := Keeps.quietlyKept (keeps_unlink (by decide) obj) t
  rw [hw] at hkept
  rwa [show w.cfg = t.cfg from hkept.specials.fixed.cfg]

/-- What `Unlink` leaves, and then a write of the object's parent: the object alone has a new parent. -/
theorem State.Reparented.after_unlink {d : Word} (hr : w.Reparented u obj d)
    (hkept : ∀ k, k ≠ 0#16 → w.linkOf k Geometry.offParent = t.linkOf k Geometry.offParent) :
    t.Reparented u obj d := fun k hk => by rw [hr k hk, hkept k hk]

theorem removeObj_effect {x : Operand} (hg : t.cfg.geom = geometryOf t.cfg.version) (h0 : obj ≠ 0#16)
    (h : bodyOf (.removeObj x) [obj] t = .ok () u) :
    u.linkOf obj Geometry.offParent = 0#16 ∧ u.linkOf obj Geometry.offSibling = 0#16 ∧
      (t.LinksAgree ids → obj ∈ ids → t.Reparented u obj 0#16 ∧ u.LinksAgree ids) := by
  obtain ⟨w, hunlink, hp, hs, hu⟩ := removeObj_eq_ok h0 h
  obtain ⟨hparent, hsibling, hchild⟩ := removed_links (unlink_geom hg hunlink) hp hs hu
  refine ⟨by rw [hparent obj h0, if_pos rfl], by rw [hsibling obj h0, if_pos rfl], fun hagree ho => ?_⟩
  obtain ⟨hcfg, hsize, hkept, hchains⟩ := hagree.unlinked hg ho hunlink
  have hr := hparent.after_unlink hkept
  exact ⟨hr, hagree.removed hchains (by rw [hu]; exact hcfg) (by rw [hu]; exact hsize) hr hsibling hchild⟩

theorem insertObj_effect {args : Args2} {more : List Word} (hg : t.cfg.geom = geometryOf t.cfg.version)
    (h0 : obj ≠ 0#16) (hd0 : dest ≠ 0#16) (h : bodyOf (.insertObj args) (obj :: dest :: more) t = .ok () u) :
    u.linkOf obj Geometry.offParent = dest ∧ u.linkOf dest Geometry.offChild = obj ∧
      (t.LinksAgree ids → obj ∈ ids → dest ∈ ids → t.Reparented u obj dest ∧ u.LinksAgree ids) := by
  rcases insertObj_eq_ok h0 hd0 h with ⟨hparent, hchild, rfl⟩ | ⟨w, hunlink, hs, hc, hp, hu⟩
  · refine ⟨hparent, hchild, fun hagree _ _ => ⟨fun k _ => ?_, hagree⟩⟩
    split
    · next hk => rw [hk, hparent]
    · rfl
  · obtain ⟨hparent, hsibling, hchild⟩ := inserted_links (unlink_geom hg hunlink) hs hc hp hu
    refine ⟨by rw [hparent obj h0, if_pos rfl], by rw [hchild dest hd0, if_pos rfl], fun hagree ho hd => ?_⟩
    obtain ⟨hcfg, hsize, hkept, hchains⟩ := hagree.unlinked hg ho hunlink
    have hr := hparent.after_unlink hkept
    exact ⟨hr, hagree.inserted ho hd hchains (by rw [hu]; exact hcfg) (by rw [hu]; exact hsize) hr hsibling hchild⟩

/-- Resolving operands touches no link. -/
theorem State.LinksAgree.entered {i : Instr} {vs : List Word} (h : s.LinksAgree ids)
    (he : s.entered i = some (vs, t)) : t.LinksAgree ids := by
  obtain ⟨j, rfl⟩ := State.entered_state he
  exact h.of_chains rfl rfl h.parents fun p hp =>
    (h.chains p hp).imp fun kids hk => ⟨hk.1.congr kids fun _ _ => rfl, hk.2⟩

theorem State.Reparented.of_entered {i : Instr} {vs : List Word} {d : Word} (he : s.entered i = some (vs, t))
    (hr : t.Reparented u obj d) : s.Reparented u obj d := by
  obtain ⟨j, rfl⟩ := State.entered_state he
  exact hr

/-- Settles O26: each instruction takes the object out of its chain and writes its new parent; a forest stays one
because the object's whole subtree can be made deeper than any parent outside it. -/
theorem treeAfterRemoveAndInsert : Obligations.TreeAfterRemoveAndInsert := by
  intro args x s t u obj dest more ids hg _ hrun h0
  have geom {i : Instr} {vs : List Word} (he : s.entered i = some (vs, t)) :
      t.cfg.geom = geometryOf t.cfg.version := by rwa [(State.entered_kept he).2.specials.fixed.cfg]
  refine ⟨fun he hu => ?remove, fun he hd0 hu => ?insert⟩
  case remove =>
    rw [exec_of_entered he] at hu
    obtain ⟨hparent, hsibling, hrest⟩ := removeObj_effect (ids := ids) (geom he) h0 (finish_running hu hrun)
    refine ⟨hparent, hsibling, fun hagree ho => ?_, fun hforest ho => ?_⟩
    · have hu := (hrest (hagree.entered he) ho).2
      exact ⟨hu, hu.not_mem_chain hparent⟩
    · obtain ⟨hr, hu⟩ := hrest (hforest.toLinksAgree.entered he) ho
      exact hforest.reparented hu (hr.of_entered he) (.inl rfl)
  case insert =>
    rw [exec_of_entered he] at hu
    obtain ⟨hparent, hchild, hrest⟩ := insertObj_effect (ids := ids) (geom he) h0 hd0 (finish_running hu hrun)
    refine ⟨hparent, hchild, fun hagree ho hd => ?_, fun hforest ho hd hout => ?_⟩
    · have hu := (hrest (hagree.entered he) ho hd).2
      exact ⟨hu, hu.count_chain ho hd hparent⟩
    · obtain ⟨hr, hu⟩ := hrest (hforest.toLinksAgree.entered he) ho hd
      exact hforest.reparented hu (hr.of_entered he) (.inr hout)

end Sys2Proof.Machine
end

section
/-! The memory accesses (R61 to R64) and the four instructions that load and store (R185 to R188): a big-endian value
by its bytes, the bytes a write leaves, and each instruction as the one access it makes after its operands. -/

namespace Sys2Proof.Machine

variable {s t u : State} {array index v : Word} {more : List Word}

/-! ### Values and their bytes -/

theorem toNat_append_byte {k : Nat} (x : BitVec k) (b : Byte) : (x ++ b).toNat = x.toNat * 256 + b.toNat := by
  rw [BitVec.toNat_append, ← Nat.shiftLeft_add_eq_or_of_lt b.isLt, Nat.shiftLeft_eq]

/-- Byte `i` of an `n`-byte write of a bit vector, as bits of it (R63, R64). -/
theorem byte_writeBE_toNat (m : Memory) (a n : Nat) {i k : Nat} (v : BitVec k) (h : i < n) :
    (m.writeBE a n v.toNat).byte (a + i) = v.extractLsb' (8 * (n - 1 - i)) 8 := by
  rw [Memory.byte_writeBE_inside m a n _ h, show 256 = 2 ^ 8 from rfl, ← Nat.pow_mul, ← Nat.shiftRight_eq_div_pow]
  rfl

/-- Settles O7: the value read is the recursion of `readBE` written out for each width; a write is known byte by byte,
inside and outside. -/
theorem memoryAccessIsBigEndianAndBounded : Obligations.MemoryAccessIsBigEndianAndBounded := by
  intro s a n v hn
  refine ⟨fun hout => ?outside, fun hin => ⟨?read, _, memWrite_ok hin v, fun i hi => ?written, fun x hx => ?kept⟩⟩
  case outside =>
    have hout : ¬ s.inRange a n := Nat.not_le.2 hout
    exact ⟨memRead_fatal hout, memWrite_fatal hout v⟩
  case read =>
    rw [memRead_ok hin]
    obtain rfl | rfl | rfl := hn
    · rw [Memory.readBE_one]; rfl
    · simp only [Memory.readBE_two, toNat_append_byte]; rfl
    · simp only [Memory.readBE_four, toNat_append_byte]; rfl
  case written =>
    rw [Memory.byte_writeBE_inside s.mem a n v hi, BitVec.toNat_ofNat, Nat.pow_mul, Nat.sub_right_comm]
  case kept => exact Memory.byte_writeBE_other s.mem a n v hx

/-! ### Loads and stores -/

/-- `LOADW` is one read of a word and one store (R185). -/
theorem exec_loadw {args : Args2} (h : s.entered (.loadw args) = some (array :: index :: more, t)) :
    exec (.loadw args) s = finish (do store (← memWord (wordAddr array index))) t :=
  exec_of_entered h

/-- `LOADB` is one read of a byte and one store (R186). -/
theorem exec_loadb {args : Args2} (h : s.entered (.loadb args) = some (array :: index :: more, t)) :
    exec (.loadb args) s = finish (do store ((← memByte (byteAddr array index)).setWidth 16)) t :=
  exec_of_entered h

/-- `STOREW` is one write of two bytes (R187). -/
theorem exec_storew {ops : List Operand} (h : s.entered (.storew ops) = some (array :: index :: v :: more, t)) :
    exec (.storew ops) s = finish (memWrite (wordAddr array index) 2 v.toNat) t :=
  exec_of_entered h

/-- `STOREB` is one write of one byte (R188). -/
theorem exec_storeb {ops : List Operand} (h : s.entered (.storeb ops) = some (array :: index :: v :: more, t)) :
    exec (.storeb ops) s = finish (memWrite (byteAddr array index) 1 v.toNat) t :=
  exec_of_entered h

/-- Resolving operands leaves the memory image and its size as they are. -/
theorem State.entered_mem {i : Instr} {vs : List Word} (h : s.entered i = some (vs, t)) :
    t.mem = s.mem ∧ t.memSize = s.memSize := by
  obtain ⟨_, rfl⟩ := State.entered_state h
  exact ⟨rfl, rfl⟩

/-- Settles O20: each load reads in range and its store completes. -/
theorem loadsReadMemory : Obligations.LoadsReadMemory := by
  intro args s t u array index more
  refine ⟨fun he hr hst => ?loadw, fun he hr hst => ?loadb⟩ <;> obtain ⟨hmem, hsize⟩ := State.entered_mem he
  case loadw =>
    have hread : memWord (wordAddr array index) t = .ok _ t := memWord_ok (by rwa [State.inRange, hsize])
    rw [exec_loadw he]
    refine finish_ok ((M.bind_ok hread _).trans (store_ok ?_))
    rwa [State.wordAt_eq, hmem]
  case loadb =>
    have hread : memByte (byteAddr array index) t = .ok _ t := memByte_ok (by rwa [State.inRange, hsize])
    rw [exec_loadb he]
    refine finish_ok ((M.bind_ok hread _).trans (store_ok ?_))
    rwa [hmem, BitVec.setWidth_eq_append (by decide)]

/-- Settles O21: each store is one checked write, whose bytes are known inside and outside. -/
theorem storesWriteMemory : Obligations.StoresWriteMemory := by
  intro ops s t array index v more
  refine ⟨fun he => ?storew, fun he => ?storeb⟩ <;> obtain ⟨hmem, hsize⟩ := State.entered_mem he
  case storew =>
    rw [State.inRange, ← hsize, ← hmem, exec_storew he]
    exact ⟨fun hr => finish_fatal (memWrite_fatal hr _), fun hr => ⟨_, finish_ok (memWrite_ok hr _),
      byte_writeBE_toNat t.mem _ 2 v (i := 0) (by decide), byte_writeBE_toNat t.mem _ 2 v (i := 1) (by decide),
      fun a ha => Memory.byte_writeBE_other t.mem _ 2 _ ha⟩⟩
  case storeb =>
    rw [State.inRange, ← hsize, ← hmem, exec_storeb he]
    exact ⟨fun hr => finish_fatal (memWrite_fatal hr _), fun hr => ⟨_, finish_ok (memWrite_ok hr _),
      byte_writeBE_toNat t.mem _ 1 v (i := 0) (by decide),
      fun a ha => Memory.byte_writeBE_other t.mem _ 1 _ (Nat.lt_or_gt_of_ne ha)⟩⟩

end Sys2Proof.Machine
end

section
/-! The decoder against the encoder (R92 to R121): each form's round trip gathered over the instructions, the result
fields and inline text, and what the decoder rejects. -/

namespace Sys2Proof

/-! ### The round trip of the head -/

theorem decode_encode2 {sl : Slot1Op0F} {slot : BitVec 5} {args : Args2} {i : Instr}
    (hi : table2 slot.toNat args = some i) (hw : args.wellFormed = true) (rest : List Byte) :
    decode sl (encode2 slot args ++ rest) = .ok (i, rest) := by
  cases args with
  | long a b => rw [decode_long, hi]; rfl
  | typed ops => rw [decode_typed2 sl slot (fits_of_typeByteFits hw), hi]; rfl

theorem decode_encode0 {sl : Slot1Op0F} {slot : BitVec 4} {i : Instr} (hi : table0 slot.toNat = some i)
    (rest : List Byte) : decode sl (encode0 slot ++ rest) = .ok (i, rest) := by
  have hs : slot ≠ 0xE#4 := by
    rintro rfl
    cases hi
  rw [decode_short0 sl slot hs, hi]
  rfl

theorem decode_encodeVar {sl : Slot1Op0F} {slot : BitVec 5} {ops : List Operand} {i : Instr}
    (hi : tableVar slot.toNat ops = some i) (hw : typeByteFits ops = true) (rest : List Byte) :
    decode sl (encodeVar slot ops ++ rest) = .ok (i, rest) := by
  have hs : ¬ (slot.toNat = 0x0C ∨ slot.toNat = 0x1A) := by
    rintro (h | h) <;> rw [h] at hi <;> cases hi
  rw [decode_var sl slot hs (fits_of_typeByteFits hw), hi]
  rfl

theorem decode_encodeVar2 {sl : Slot1Op0F} {slot : BitVec 5} {ops1 ops2 : List Operand} {i : Instr}
    (hs : slot.toNat = 0x0C ∨ slot.toNat = 0x1A) (hi : tableVar2 slot.toNat ops1 ops2 = some i)
    (hw : (typeByteFits ops1 && typeByteFits ops2) = true) (rest : List Byte) :
    decode sl (encodeVar2 slot ops1 ops2 ++ rest) = .ok (i, rest) := by
  obtain ⟨h1, h2⟩ := Bool.and_eq_true_iff.1 hw
  rw [decode_var2 sl slot hs (fits_of_typeByteFits h1) (fits_of_typeByteFits h2), hi]
  rfl

theorem decode_encodeExt {sl : Slot1Op0F} {e : Byte} {ops : List Operand} {i : Instr}
    (hi : tableExt (e.toNat % 32) ops = some i) (hw : typeByteFits ops = true) (rest : List Byte) :
    decode sl (encodeExt e ops ++ rest) = .ok (i, rest) := by
  rw [decode_ext sl e (fits_of_typeByteFits hw), hi]
  rfl

/-- An encoding of an empty slot decodes to that slot (R114). -/
theorem decode_encode_unpopulatedSlot {u : Unpopulated} (sl : Slot1Op0F) (hw : u.wellFormed = true)
    (rest : List Byte) : decode sl (encode (.unpopulatedSlot u) ++ rest) = .ok (.unpopulatedSlot u, rest) := by
  cases u with
  | long slot a b => exact (decode_long sl slot a b rest).trans (by rw [table2_empty _ hw]; rfl)
  | typed2 slot ops =>
    obtain ⟨hs, ho⟩ := Bool.and_eq_true_iff.1 hw
    exact (decode_typed2 sl slot (fits_of_typeByteFits ho) rest).trans (by rw [table2_empty _ hs]; rfl)
  | zero slot =>
    obtain ⟨hE, hs⟩ := table0_empty hw
    exact (decode_short0 sl slot hE rest).trans (by rw [hs]; rfl)
  | typedVar slot ops =>
    obtain ⟨hs, ho⟩ := Bool.and_eq_true_iff.1 hw
    obtain ⟨hone, hnone⟩ := tableVar_empty ops hs
    exact (decode_var sl slot hone (fits_of_typeByteFits ho) rest).trans (by rw [hnone]; rfl)
  | extended e ops =>
    obtain ⟨hs, ho⟩ := Bool.and_eq_true_iff.1 hw
    exact (decode_ext sl e (fits_of_typeByteFits ho) rest).trans (by rw [tableExt_empty ops hs]; rfl)

theorem decode_encode {i : Instr} {sl : Slot1Op0F} (hw : i.wellFormed = true) (hp : i.presentIn sl = true)
    (rest : List Byte) : decode sl (encode i ++ rest) = .ok (i, rest) := by
  cases i with
  | je _ | jl _ | jg _ | decChk _ | incChk _ | jin _ | test _ | or _ | and _ | testAttr _ | setAttr _ | clearAttr _
  | store _ | insertObj _ | loadw _ | loadb _ | getProp _ | getPropAddr _ | getNextProp _ | add _ | sub _ | mul _
  | div _ | mod _ | call2s _ | call2n _ | setColour _ => exact decode_encode2 rfl hw rest
  | jz a | getSibling a | getChild a | getParent a | getPropLen a | inc a | dec a | printAddr a | call1s a
  | removeObj a | printObj a | ret a | jump a | printPaddr a | load a => exact decode_short1 sl _ a rest
  | not a =>
    cases sl with
    | not => exact decode_short1 .not _ a rest
    | call1n => cases hp
  | call1n a =>
    cases sl with
    | not => cases hp
    | call1n => exact decode_short1 .call1n _ a rest
  | rtrue | rfalse | print | printRet | nop | restart | retPopped | pop | quit | newLine | showStatus =>
    exact decode_encode0 rfl rest
  | save form | restore form =>
    cases form with
    | short => exact decode_encode0 rfl rest
    | extended ops => exact decode_encodeExt rfl hw rest
  | callVs2 _ _ | callVn2 _ _ => exact decode_encodeVar2 (by decide) rfl hw rest
  | unpopulatedSlot _ => exact decode_encode_unpopulatedSlot sl hw rest
  | _ => exact decode_encodeVar rfl hw rest

/-- Settles O1, instruction by instruction: the form's bytes are recognized, and its table names the instruction. -/
theorem decodeInvertsEncode : Obligations.DecodeInvertsEncode := fun _ _ rest hw hp => decode_encode hw hp rest


/-! ### Result fields and inline text -/

/-- The first byte of a branch field, taken apart (R105). -/
theorem branch_byte (sense : Bool) (short : BitVec 1) (x : BitVec 6) :
    let b : Byte := BitVec.ofBool sense ++ short ++ x
    branchIsShort b = (short == 1#1) ∧ b.getLsbD 7 = sense ∧ b.extractLsb' 0 6 = x := by
  revert sense short x
  decide

theorem takeBranch_of_short {b1 : Byte} (h : branchIsShort b1 = true) (bs : List Byte) :
    takeBranch (b1 :: bs) = some (shortBranch b1, bs) := if_pos h

theorem takeBranch_of_long {b1 : Byte} (h : ¬ branchIsShort b1 = true) (b2 : Byte) (bs : List Byte) :
    takeBranch (b1 :: b2 :: bs) = some (longBranch b1 b2, bs) := if_neg h

theorem takeBranch_encodeBranch (f : BranchField) (rest : List Byte) :
    takeBranch (encodeBranch f ++ rest) = some (f, rest) := by
  cases f with
  | short sense offset =>
    obtain ⟨hshort, hsense, hoffset⟩ := branch_byte sense 1#1 offset
    rw [encodeBranch, List.singleton_append, takeBranch_of_short hshort, shortBranch, hsense, hoffset]
  | long sense offset =>
    obtain ⟨hshort, hsense, hoffset⟩ := branch_byte sense 0#1 (offset.extractLsb' 8 6)
    have hwhole : offset.extractLsb' 8 6 ++ offset.extractLsb' 0 8 = offset := BitVec.extractLsb'_append_extractLsb'
    rw [encodeBranch, List.cons_append, List.singleton_append, takeBranch_of_long (by simp [hshort]), longBranch,
      hsense, hoffset, hwhole]

/-- The first word of packed text: the last one where its bit 15 is set (R251). -/
theorem takeText_encode_cons (w : Word) (bs : List Byte) :
    takeText (w.extractLsb' 8 8 :: w.extractLsb' 0 8 :: bs) =
      if w.getLsbD 15 then some ([w], bs) else (takeText bs).map fun p => (w :: p.1, p.2) := by
  have hbit : (w.extractLsb' 8 8).getLsbD 7 = w.getLsbD 15 := by simp
  rw [takeText, hbit, append_bytes]

theorem takeText_encodeText {ws : List Word} (h : textWellFormed ws = true) (rest : List Byte) :
    takeText (encodeText ws ++ rest) = some (ws, rest) := by
  induction ws with
  | nil => cases h
  | cons w ws ih =>
    refine (takeText_encode_cons w (encodeText ws ++ rest)).trans ?_
    cases ws with
    | nil => exact if_pos h
    | cons w' ws =>
      obtain ⟨hlast, hmore⟩ := Bool.and_eq_true_iff.1 h
      rw [if_neg (by simpa using hlast), ih hmore]
      rfl

theorem takeTail_encodeTail {tail : Tail} {shape : TailShape} (order : FieldOrder) (h : tail.fits shape = true)
    (rest : List Byte) : takeTail order shape (encodeTail order tail ++ rest) = some (tail, rest) := by
  cases tail with
  | none =>
    cases shape with
    | none => rfl
    | _ => cases h
  | store v =>
    cases shape with
    | store => rfl
    | _ => cases h
  | branch f =>
    cases shape with
    | branch => simp [takeTail, encodeTail, takeBranch_encodeBranch]
    | _ => cases h
  | storeAndBranch v f =>
    cases shape with
    | storeAndBranch => cases order <;> simp [takeTail, encodeTail, takeBranch_encodeBranch]
    | _ => cases h
  | text ws =>
    cases shape with
    | text => simp [takeTail, encodeTail, takeText_encodeText h]
    | _ => cases h

/-- Settles O2: the head is read back by O1, and then the tail, whose shape the instruction gives. -/
theorem wholeInstructionsRoundTrip : Obligations.WholeInstructionsRoundTrip := by
  intro i tail slot late order rest hw hp hfits
  rw [encodeWhole, List.append_assoc, decodeWhole, decode_encode hw hp]
  simp only [takeTail_encodeTail order hfits, Option.map_some]

/-! ### Bytes that end inside an instruction -/

theorem takeOperand_append {ty : OperandType} {bs rest : List Byte} {op : Operand}
    (h : takeOperand ty bs = some (op, rest)) (more : List Byte) :
    takeOperand ty (bs ++ more) = some (op, rest ++ more) := by
  unfold takeOperand at h
  split at h <;> cases h <;> rfl

/-- Operands that are there are read the same way when more bytes follow. -/
theorem takeOperands_append {tys : List OperandType} {bs rest : List Byte} {ops : List Operand}
    (h : takeOperands tys bs = .ok (ops, rest)) (more : List Byte) :
    takeOperands tys (bs ++ more) = .ok (ops, rest ++ more) := by
  induction tys generalizing bs ops with
  | nil => cases h; rfl
  | cons ty tys ih =>
    unfold takeOperands at h ⊢
    split at h
    · cases h
    · next op bs' hop =>
      rw [takeOperand_append hop]
      split at h
      · next ops' rest' hops =>
        cases h
        simp only [ih hops]
      · cases h

/-- An operand of each type. -/
def OperandType.sample : OperandType → Operand
  | .large => .large 0#16
  | .small => .small 0#8
  | .var => .var 0#8

theorem OperandType.type_sample (ty : OperandType) : ty.sample.type = ty := by cases ty <;> rfl

/-- There are bytes for operands of any types. -/
theorem takeOperands_sample (tys : List OperandType) :
    ∃ bs ops, takeOperands tys bs = .ok (ops, []) := by
  have htypes : (tys.map OperandType.sample).map Operand.type = tys := by
    simp [Function.comp_def, OperandType.type_sample]
  refine ⟨encodeOperands (tys.map OperandType.sample), tys.map OperandType.sample, ?_⟩
  have := takeOperands_encode (tys.map OperandType.sample) []
  rwa [htypes, List.append_nil] at this

theorem takeOperand_completable {ty : OperandType} {bs : List Byte} (h : takeOperand ty bs = none) :
    ∃ more op, more ≠ [] ∧ takeOperand ty (bs ++ more) = some (op, []) := by
  have hsize := takeOperand_none h
  match ty, bs with
  | .large, [] => exact ⟨[0#8, 0#8], _, by simp, rfl⟩
  | .large, [_] => exact ⟨[0#8], _, by simp, rfl⟩
  | .small, [] | .var, [] => exact ⟨[0#8], _, by simp, rfl⟩
  | .large, _ :: _ :: _ | .small, _ :: _ | .var, _ :: _ => cases h

/-- Where operands are missing, more bytes give them all. -/
theorem takeOperands_completable {tys : List OperandType} {bs : List Byte} {ops : List Operand}
    (h : takeOperands tys bs = .error ops) :
    ∃ more all, more ≠ [] ∧ takeOperands tys (bs ++ more) = .ok (all, []) := by
  induction tys generalizing bs ops with
  | nil => cases h
  | cons ty tys ih =>
    unfold takeOperands at h
    split at h
    · next hop =>
      obtain ⟨more, op, hne, hmore⟩ := takeOperand_completable hop
      obtain ⟨bs', ops', hrest⟩ := takeOperands_sample tys
      have hfirst := takeOperand_append hmore bs'
      refine ⟨more ++ bs', op :: ops', by simp [hne], ?_⟩
      rw [← List.append_assoc, takeOperands, hfirst]
      simp only [List.nil_append, hrest]
    · next op bs' hop =>
      split at h
      · cases h
      · next ops' hops =>
        obtain ⟨more, all, hne, hmore⟩ := ih hops
        refine ⟨more, op :: all, hne, ?_⟩
        rw [takeOperands, takeOperand_append hop]
        simp only [hmore]

/-- After `head` bytes, the parser rejects only bytes that end inside an instruction of at most 19 bytes: fewer than
that, what it reports was there, and more bytes complete an instruction. -/
def EndsInside (head : Nat) (parse : List Byte → Except Truncated (Instr × List Byte)) : Prop :=
  ∀ bs t, parse bs = .error t →
    head + bs.length < 19 ∧ t.head + (encodeOperands t.ops).length ≤ head + bs.length ∧
      ∃ more i, more ≠ [] ∧ parse (bs ++ more) = .ok (i, [])

theorem decodeTyped_endsInside {head : Nat} (hhead : head ≤ 2) (mk : List Operand → Instr) :
    EndsInside head (decodeTyped head mk) := by
  intro bs t h
  cases bs with
  | nil =>
    cases h
    exact ⟨by simp only [List.length_nil]; omega, by simp [encodeOperands], [0xFF#8], mk [], by simp, rfl⟩
  | cons ty bs =>
    rw [decodeTyped] at h
    split at h
    · cases h
    · next ops hops =>
      cases h
      obtain ⟨hthere, hfew⟩ := takeOperands_error hops
      have hmost := (length_typesOf ty).2
      obtain ⟨more, all, hne, hmore⟩ := takeOperands_completable hops
      refine ⟨by simp only [List.length_cons]; omega, by simp only [List.length_cons]; omega,
        more, mk all, hne, ?_⟩
      rw [List.cons_append, decodeTyped, hmore]

theorem decodeTyped2_endsInside (mk : List Operand → List Operand → Instr) :
    EndsInside 1 (decodeTyped2 mk) := by
  intro bs t h
  match bs with
  | [] =>
    cases h
    exact ⟨by simp, by simp [encodeOperands], [0xFF#8, 0xFF#8], mk [] [], by simp, rfl⟩
  | [ty1] =>
    cases h
    obtain ⟨bs', ops', hrest⟩ := takeOperands_sample (typesOf ty1)
    refine ⟨by simp, by simp [encodeOperands], 0xFF#8 :: bs', mk ops' [], by simp, ?_⟩
    rw [List.singleton_append, decodeTyped2, hrest]
    rfl
  | ty1 :: ty2 :: bs =>
    have hmost1 := (length_typesOf ty1).2
    have hmost2 := (length_typesOf ty2).2
    rw [decodeTyped2] at h
    split at h
    · next ops hops =>
      cases h
      obtain ⟨hthere, hfew⟩ := takeOperands_error hops
      obtain ⟨more, all, hne, hmore⟩ := takeOperands_completable hops
      obtain ⟨bs', ops', hrest⟩ := takeOperands_sample (typesOf ty2)
      refine ⟨by simp only [List.length_cons]; omega, by simp only [List.length_cons]; omega,
        more ++ bs', mk all ops', by simp [hne], ?_⟩
      have hfirst := takeOperands_append hmore bs'
      rw [List.append_assoc] at hfirst
      rw [List.cons_append, List.cons_append, decodeTyped2, hfirst]
      simp only [List.nil_append, hrest]
    · next ops1 bs1 hops1 =>
      split at h
      · next ops hops =>
        cases h
        obtain ⟨-, hlen1, used, rfl, hused⟩ := takeOperands_typesOf hops1
        obtain ⟨hthere, hfew⟩ := takeOperands_error hops
        obtain ⟨more, all, hne, hmore⟩ := takeOperands_completable hops
        have hboth : (encodeOperands (ops1 ++ ops)).length = used.length + (encodeOperands ops).length := by
          rw [encodeOperands, List.flatMap_append, List.length_append, hused]
          rfl
        refine ⟨by simp only [List.length_cons, List.length_append]; omega,
          by simp only [hboth, List.length_cons, List.length_append]; omega, more, mk ops1 all, hne, ?_⟩
        rw [List.cons_append, List.cons_append, decodeTyped2, takeOperands_append hops1]
        simp only [hmore]
      · cases h

theorem decodeLong_endsInside (o : Byte) : EndsInside 1 (decodeLong o) := by
  intro bs t h
  match bs with
  | [] =>
    cases h
    exact ⟨by simp, by simp [encodeOperands], [0#8, 0#8], _, by simp, rfl⟩
  | [x] =>
    cases h
    refine ⟨by simp, ?_, [0#8], _, by simp, rfl⟩
    cases o.getLsbD 6 <;> exact Nat.le_refl 2
  | _ :: _ :: _ => cases h

/-- The opcode bytes of the short form with an operand never have the type code 11 (R92, R95). -/
theorem operandType_of_short1 {o : Byte} (h : ¬ o.toNat < 0x80) (h' : o.toNat < 0xB0) :
    operandType (o.extractLsb' 4 2) ≠ none := by
  revert o
  decide

theorem decodeShort1_endsInside (sl : Slot1Op0F) {o : Byte} (h : ¬ o.toNat < 0x80) (h' : o.toNat < 0xB0) :
    EndsInside 1 (decodeShort1 sl o) := by
  intro bs t ht
  rw [decodeShort1] at ht
  split at ht
  · next hnone => exact absurd hnone (operandType_of_short1 h h')
  · next ty hty =>
    split at ht
    · next hop =>
      cases ht
      have hfew := takeOperand_none hop
      have hmost : ty.size ≤ 2 := by cases ty <;> decide
      obtain ⟨more, op, hne, hmore⟩ := takeOperand_completable hop
      refine ⟨by omega, by simp [encodeOperands], more, table1 sl (o.toNat % 16) op, hne, ?_⟩
      simp only [decodeShort1, hty, hmore]
    · cases ht

theorem decodeExt_endsInside : EndsInside 1 decodeExt := by
  intro bs t h
  cases bs with
  | nil =>
    cases h
    exact ⟨by simp, by simp [encodeOperands], [0#8, 0xFF#8], _, by simp, rfl⟩
  | cons e bs =>
    obtain ⟨hlen, hthere, hmore⟩ := decodeTyped_endsInside (Nat.le_refl 2) _ bs t h
    exact ⟨by simp only [List.length_cons]; omega, by simp only [List.length_cons]; omega, hmore⟩

theorem decodeVar_endsInside (o : Byte) : EndsInside 1 (decodeVar o) := by
  unfold decodeVar
  by_cases hs : o.toNat % 32 = 0x0C ∨ o.toNat % 32 = 0x1A
  · simp only [hs, if_true]
    exact decodeTyped2_endsInside _
  · simp only [hs, if_false]
    exact decodeTyped_endsInside (by decide) _

/-- The decoder after the opcode byte: one case for each form of R92. -/
theorem decode_cons_endsInside (sl : Slot1Op0F) (o : Byte) : EndsInside 1 fun bs => decode sl (o :: bs) := by
  unfold decode
  by_cases hext : o = 0xBE#8
  · simp only [hext, if_true]
    exact decodeExt_endsInside
  by_cases hlong : o.toNat < 0x80
  · simp only [hext, hlong, if_true, if_false]
    exact decodeLong_endsInside o
  by_cases hshort : o.toNat < 0xB0
  · simp only [hext, hlong, hshort, if_true, if_false]
    exact decodeShort1_endsInside sl hlong hshort
  by_cases hzero : o.toNat < 0xC0
  · simp only [hext, hlong, hshort, hzero, if_true, if_false]
    exact fun _ _ h => nomatch h
  by_cases hvar2 : o.toNat < 0xE0
  · simp only [hext, hlong, hshort, hzero, hvar2, if_true, if_false]
    exact decodeTyped_endsInside (by decide) _
  · simp only [hext, hlong, hshort, hzero, hvar2, if_false]
    exact decodeVar_endsInside o

/-- Settles O3: an answer is sound for every form, and every form rejects only bytes that end inside an instruction;
with no byte at all, the opcode byte of `QUIT` completes one. -/
theorem decodedInstructionsFitTheirBytes : Obligations.DecodedInstructionsFitTheirBytes := by
  refine fun slot bs => ⟨fun i rest h => decode_sound h, fun t h => ?rejected⟩
  case rejected =>
    cases bs with
    | nil =>
      cases h
      exact ⟨by simp, by simp [encodeOperands], [0xBA#8], .quit, by simp, rfl⟩
    | cons o bs =>
      obtain ⟨hlen, hthere, hmore⟩ := decode_cons_endsInside slot o bs t h
      exact ⟨by simp only [List.length_cons]; omega, by simp only [List.length_cons]; omega, hmore⟩

/-- Settles O4, by running the decoder on each word. -/
theorem wordsOfTheSpecDecode : Obligations.WordsOfTheSpecDecode :=
  ⟨rfl, rfl, rfl, rfl, rfl, rfl, rfl, rfl, rfl⟩

end Sys2Proof
end

section
/-! Which instruction a step runs (R90, R92), and the faults around its operands: one that is fatal, too few of them,
and none of the tables' instructions to give them to (R102, R103, R114, R355). -/

namespace Sys2Proof.Machine

variable {s t : State} {vs : List Word}

/-! ### The instruction at the program counter -/

/-- An encoding fits the bytes the decoder is given (R90). -/
theorem length_encode_le {i : Instr} {sl : Slot1Op0F} (hw : i.wellFormed = true) (hp : i.presentIn sl = true) :
    (encode i).length ≤ maxHeadBytes := by
  obtain ⟨-, -, used, hused, -, hle⟩ := decode_sound (decode_encode hw hp [])
  rwa [List.append_cancel_right hused]

/-- Settles O5: the encoding is the front of the bytes fetched, and what follows does not matter (O1). -/
theorem stepRunsTheInstructionAtThePc : Obligations.StepRunsTheInstructionAtThePc := by
  refine fun s i hr => ⟨fun rest hd => step_of_decode_ok hr hd, fun hw hp hfits hbytes => ?encoded⟩
  case encoded =>
    obtain ⟨rest, hrest⟩ := s.mem.window_prefix s.memSize s.pc.toNat _ _ (length_encode_le hw hp) hfits
    refine step_of_decode_ok hr (rest := rest) ?_
    rw [State.fetchBytes, hrest, hbytes]
    exact decode_encode hw hp rest

/-! ### Operands that are fatal, missing or for nothing -/

/-- Settles O12: only the program counter has moved and words were popped when the operand's fatal is taken. -/
theorem operandFaultsComeFirst : Obligations.OperandFaultsComeFirst := by
  intro i s h
  obtain ⟨c, n, j, hfatal, hcause⟩ := exec_of_not_entered h
  exact ⟨_, c, hfatal, rfl, hcause, ⟨fun _ => rfl, rfl, rfl, rfl, rfl, j, rfl⟩,
    ⟨⟨rfl, rfl, rfl, rfl⟩, rfl, rfl, rfl, rfl, rfl⟩, rfl⟩

theorem need1_missing {o : Byte} {f : Word → List Word → M Unit} (h : vs.length < 1) :
    need1 o vs f = raise (.missingOperand o) := by
  match vs with
  | [] => rfl

theorem need2_missing {o : Byte} {f : Word → Word → List Word → M Unit} (h : vs.length < 2) :
    need2 o vs f = raise (.missingOperand o) := by
  match vs with
  | [] | [_] => rfl

theorem need3_missing {o : Byte} {f : Word → Word → Word → M Unit} (h : vs.length < 3) :
    need3 o vs f = raise (.missingOperand o) := by
  match vs with
  | [] | [_] | [_, _] => rfl

theorem opcodeTyped2_eq (slot : BitVec 5) : opcodeTyped2 slot.toNat = 0b110#3 ++ slot := by
  revert slot
  decide

/-- A 2OP-table instruction that lacks an operand is in the variable form (R103). -/
theorem need2_missing_args2 (slot : BitVec 5) {args : Args2} {f : Word → Word → List Word → M Unit}
    (hlen : vs.length = args.operands.length) (h : vs.length < 2) :
    ∃ o, (encode2 slot args).head? = some o ∧ need2 (opcodeTyped2 slot.toNat) vs f = raise (.missingOperand o) := by
  cases args with
  | long a b => exact absurd hlen h.ne
  | typed ops => exact ⟨_, rfl, (need2_missing h).trans (by rw [opcodeTyped2_eq])⟩

/-- With too few operands the body of an instruction is the fatal with its opcode byte (R103). -/
theorem bodyOf_missing {i : Instr} (hlen : vs.length = i.operands.length) (h : vs.length < i.minOperands) :
    ∃ o, (encode i).head? = some o ∧ bodyOf i vs = raise (.missingOperand o) := by
  cases i with
  | je _ | jl _ | jg _ | decChk _ | incChk _ | jin _ | test _ | or _ | and _ | testAttr _ | setAttr _ | clearAttr _
  | store _ | insertObj _ | loadw _ | loadb _ | getProp _ | getPropAddr _ | getNextProp _ | add _ | sub _ | mul _
  | div _ | mod _ | call2s _ | call2n _ | setColour _ => exact need2_missing_args2 _ hlen h
  | jz _ | getSibling _ | getChild _ | getParent _ | getPropLen _ | inc _ | dec _ | printAddr _ | call1s _
  | removeObj _ | printObj _ | ret _ | jump _ | printPaddr _ | load _ | not _ | call1n _ =>
    exact absurd hlen h.ne
  | rtrue | rfalse | print | printRet | nop | save _ | restore _ | restart | retPopped | pop | quit | newLine
  | showStatus | readChar _ | unpopulatedSlot _ => exact absurd h (Nat.not_lt_zero _)
  | storew _ | storeb _ | putProp _ => exact ⟨_, rfl, need3_missing h⟩
  | read _ | setCursor _ => exact ⟨_, rfl, need2_missing h⟩
  | _ => exact ⟨_, rfl, need1_missing h⟩

/-- Settles O11: the operands there are have been resolved, and the body is the fatal. -/
theorem missingOperandIsFatal : Obligations.MissingOperandIsFatal := by
  intro i s t vs he hlt
  obtain ⟨o, ho, hbody⟩ := bodyOf_missing (State.entered_length he) hlt
  refine ⟨o, ho, (exec_of_entered he).trans (finish_fatal ?_)⟩
  rw [hbody]
  rfl

/-- The fatal of an empty slot records the opcode byte, and in the extended form, which `0xBE` alone begins where
more bytes follow, the second byte (R114). -/
theorem unknownCause_eq (u : Unpopulated) : ∃ o bytes, encode (.unpopulatedSlot u) = o :: bytes ∧
    unknownCause u = .unknownOpcode o (if o = 0xBE#8 then bytes.head? else none) := by
  cases u with
  | long slot a b => exact ⟨_, _, rfl, by rw [if_neg (long_byte a.typeBit b.typeBit slot).1]; rfl⟩
  | typed2 slot ops => exact ⟨_, _, rfl, by rw [if_neg (typed2_byte slot).1]; rfl⟩
  | zero slot => exact ⟨_, [], rfl, by rw [List.head?_nil, ite_self]; rfl⟩
  | typedVar slot ops => exact ⟨_, _, rfl, by rw [if_neg (var_byte slot).1]; rfl⟩
  | extended e ops => exact ⟨0xBE#8, _, rfl, rfl⟩

/-- Settles O47: the operands are resolved, and the body is the fatal of the slot. -/
theorem unpopulatedSlotsAreFatal : Obligations.UnpopulatedSlotsAreFatal := by
  intro slot s t vs he
  obtain ⟨o, bytes, hbytes, hcause⟩ := unknownCause_eq slot
  refine ⟨o, bytes, hbytes, (exec_of_entered he).trans (finish_fatal ?_)⟩
  rw [← hcause]
  rfl

end Sys2Proof.Machine
end

section
/-! The branch field at the program counter (R105 to R107): which bytes it takes, what it says, and what following
it does. -/

namespace Sys2Proof.Machine

variable {s : State}

theorem State.fetched_of_inRange (h : s.inRange s.pc.toNat 1) :
    s.fetched = some (s.mem.byte s.pc.toNat, s.advance 1) := if_pos h

/-- The program counter moved past bytes that do not cross the end of its range (R26). -/
theorem State.advance_pc_toNat {n : Nat} (h : s.pc.toNat + n < 2 ^ 32) :
    (s.advance n).pc.toNat = s.pc.toNat + n := by
  rw [State.advance_pc, BitVec.toNat_add, BitVec.toNat_ofNat]
  omega

theorem readBranchField_short (hr : s.inRange s.pc.toNat 1) (h6 : (s.mem.byte s.pc.toNat).getLsbD 6 = true) :
    readBranchField s = .ok (shortBranch (s.mem.byte s.pc.toNat)) (s.advance 1) := by
  refine readBranchField_ok ?_
  rw [State.fieldFetched, State.fetched_of_inRange hr]
  exact if_pos h6

theorem readBranchField_long (hr : s.inRange s.pc.toNat 2) (hpc : s.pc.toNat + 1 < 2 ^ 32)
    (h6 : (s.mem.byte s.pc.toNat).getLsbD 6 = false) :
    readBranchField s =
      .ok (longBranch (s.mem.byte s.pc.toNat) (s.mem.byte (s.pc.toNat + 1))) (s.advance 2) := by
  have hnext := State.advance_pc_toNat hpc
  have hr2 : s.pc.toNat + 2 ≤ s.memSize := hr
  have hfirst : s.inRange s.pc.toNat 1 := Nat.le_of_succ_le hr2
  have hsecond : (s.advance 1).inRange (s.advance 1).pc.toNat 1 := by rwa [hnext]
  refine readBranchField_ok ?_
  rw [State.fieldFetched, State.fetched_of_inRange hfirst]
  simp only [branchIsShort, h6, Bool.false_eq_true, if_false, State.fetched_of_inRange hsecond, hnext,
    State.advance_advance, State.advance_mem]

theorem extractLsb'_zero_six (b : Byte) : (b.extractLsb' 0 6).toNat = b.toNat % 64 := by
  rw [BitVec.extractLsb'_toNat, Nat.shiftRight_zero]

theorem shortBranch_offset (b : Byte) : (shortBranch b).offset = (b.toNat % 64 : Nat) :=
  congrArg Int.ofNat (extractLsb'_zero_six b)

/-- The long offset: 14 bits, of which bit 5 of the first byte is the sign (R105). -/
theorem longBranch_offset (b1 b2 : Byte) : (longBranch b1 b2).offset =
    ((b1.toNat % 64 * 256 + b2.toNat : Nat) : Int) - (if b1.getLsbD 5 then 16384 else 0) := by
  have hvalue : (b1.extractLsb' 0 6 ++ b2).toNat = b1.toNat % 64 * 256 + b2.toNat := by
    rw [toNat_append_byte, extractLsb'_zero_six]
  have hsign : (b1.extractLsb' 0 6 ++ b2).msb = b1.getLsbD 5 := by
    rw [BitVec.msb_eq_getLsbD_last, BitVec.getLsbD_append]
    simp
  show (b1.extractLsb' 0 6 ++ b2).toInt = _
  rw [BitVec.toInt_eq_msb_cond, hsign, hvalue]
  split <;> simp

theorem branch_of_readBranchField {c : Bool} {f : BranchField} {length : Nat}
    (h : readBranchField s = .ok f (s.advance length)) :
    (c ≠ f.sense → branch c s = .ok () (s.advance length)) ∧
    (c = f.sense → f.offset = 0 → branch c s = ret 0#16 (s.advance length)) ∧
    (c = f.sense → f.offset = 1 → branch c s = ret 1#16 (s.advance length)) ∧
    (c = f.sense → f.offset ≠ 0 → f.offset ≠ 1 →
      branch c s = .ok () (s.setPc (jumpTarget (s.advance length).pc f.offset))) := by
  rw [branch, M.bind_ok h, doBranch]
  refine ⟨fun hc => ?_, fun hc h0 => ?_, fun hc h1 => ?_, fun hc h0 h1 => ?_⟩
  · rw [if_neg hc]; rfl
  · rw [if_pos hc, if_pos h0]
  · rw [if_pos hc, if_neg (by omega), if_pos h1]
  · rw [if_pos hc, if_neg h0, if_neg h1]; rfl

/-- Settles O17: the field is read where it stands, short or long, and then followed. -/
theorem branchFieldsAreFollowed : Obligations.BranchFieldsAreFollowed := by
  rintro s c sense off length hr rfl (⟨h6, rfl, rfl⟩ | ⟨h6, rfl, hpc, rfl⟩)
  · rw [← shortBranch_offset]
    exact branch_of_readBranchField (readBranchField_short hr h6)
  · rw [← longBranch_offset]
    exact branch_of_readBranchField (readBranchField_long hr hpc h6)

end Sys2Proof.Machine
end

section
/-! What the tests, the returns and the instructions with a result leave unchanged (R104, R107, R283): each only reads
before its branch, its return or its store, and `READ_CHAR` and `RANDOM` take a reply or a draw before theirs. -/

namespace Sys2Proof.Machine

variable {α β : Type} {L : List Kind} {i : Instr} {s t u : State}

/-- What holds wherever an operand is fatal and where the body ends, and does not speak of the run state, holds of the
next state. -/
theorem exec_end {P : State → Prop} (hfatal : ∀ w c, P w → P (takeFatal c w))
    (hoperand : ∀ n j, P ((s.advance n).setStack (s.stack.drop j)))
    (hbody : ∀ vs t, s.entered i = some (vs, t) → P (endOf (bodyOf i vs t))) (hu : exec i s = .next u) : P u := by
  cases h : s.entered i with
  | none =>
    obtain ⟨c, n, j, hnext, -⟩ := exec_of_not_entered h
    rw [hnext] at hu
    cases hu
    exact hfatal _ c (hoperand n j)
  | some p => exact exec_entered_end hfatal h hu (hbody p.1 p.2 h)

theorem State.frameKept_advance_setStack (s : State) (n j : Nat) :
    s.FrameKept ((s.advance n).setStack (s.stack.drop j)) := ⟨fun _ => rfl, rfl, rfl, rfl, rfl, j, rfl⟩

/-! ### Operations that move the program counter and pop at most -/

theorem Change.frameKept (h : Change [.pc, .pop] s t) : s.FrameKept t := by
  cases h with
  | pc _ _ => exact ⟨fun _ => rfl, rfl, rfl, rfl, rfl, 0, rfl⟩
  | @pop v rest _ hst => exact ⟨fun _ => rfl, rfl, rfl, rfl, rfl, 1, by simp [hst]⟩
  | push _ hk | top _ hk | loc _ _ hk | glob _ _ hk | link _ _ _ hk | attrs _ _ _ _ hk | mem _ _ _ hk | enter _ hk
  | leave hk | emit _ hk | reads _ _ hk | reply _ _ hk | lines _ hk | draw _ _ hk | restore _ hk | reloadMem hk
  | reloadCfg hk | reloadFrames hk | halt hk | wait hk | resume hk => exact absurd hk (by decide)

theorem Keeps.frameKept {m : M α} (h : Keeps [.pc, .pop] m) (s : State) : s.FrameKept (endOf (m s)) :=
  (h s).induct .refl (fun _ _ _ => .trans) fun _ _ hc => hc.frameKept

/-! ### A branch or a return -/

/-- The special registers and the requests are as they were; a branch was taken or not, or a return made. -/
structure State.BranchedOrReturned (s u : State) : Prop where
  quiet : s.QuietlyKept u
  kept : s.FrameKept u ∨ s.ReturnKeeps u

theorem State.BranchedOrReturned.takeFatal (h : s.BranchedOrReturned u) (c : Cause) :
    s.BranchedOrReturned (takeFatal c u) :=
  ⟨h.quiet.takeFatal c, h.kept.imp (·.takeFatal c) (·.takeFatal c)⟩

/-- A return after words were popped is a return. -/
theorem State.FrameKept.trans_returnKeeps (h : s.FrameKept t) (hc : t.cfg = s.cfg) (h' : t.ReturnKeeps u) :
    s.ReturnKeeps u := by
  obtain ⟨caller, rest, hbelow, hu, hkept⟩ := h'
  have hcaller : State.FrameKept { s with top := caller, below := rest } { t with top := caller, below := rest } :=
    ⟨h.mem, rfl, rfl, rfl, rfl, 0, rfl⟩
  refine ⟨caller, rest, h.below.symm.trans hbelow, hu, ?_⟩
  rw [h.storeResult, h.mem] at hkept
  split at hkept
  · next hr => rw [if_pos hr]; exact hcaller.trans_allButVariable hc hkept
  · next hr => rw [if_neg hr]; exact ⟨fun a => (hkept.1 a).trans (h.mem a), hkept.2⟩

theorem State.BranchedOrReturned.after (hframe : s.FrameKept t) (hquiet : s.QuietlyKept t)
    (h : t.BranchedOrReturned u) : s.BranchedOrReturned u :=
  ⟨hquiet.trans h.quiet, h.kept.imp hframe.trans (hframe.trans_returnKeeps hquiet.specials.fixed.cfg)⟩

/-- However the operation ends, it has at most branched or returned. -/
def BranchesOrReturns (m : M α) : Prop := ∀ s : State, s.BranchedOrReturned (endOf (m s))

theorem branchesOrReturns_branch (c : Bool) : BranchesOrReturns (branch c) :=
  fun s => ⟨Keeps.quietlyKept (keeps_branch (by decide) c) s, branch_keeps c s⟩

theorem branchesOrReturns_ret (v : Word) : BranchesOrReturns (ret v) :=
  fun s => ⟨Keeps.quietlyKept (keeps_ret (by decide) v) s, ret_keeps v s⟩

theorem branchesOrReturns_of_keeps {m : M α} (h : Keeps [.pc, .pop] m) : BranchesOrReturns m :=
  fun s => ⟨h.mono.quietlyKept s, .inl (h.frameKept s)⟩

theorem branchesOrReturns_bind {m : M α} {f : α → M β} (hm : Keeps [.pc, .pop] m)
    (hf : ∀ a, BranchesOrReturns (f a)) : BranchesOrReturns (m >>= f) := by
  intro s
  rcases endOf_bind (m := m) (f := f) s with h | ⟨a, h⟩ <;> rw [h]
  · exact branchesOrReturns_of_keeps hm s
  · exact .after (hm.frameKept s) (hm.mono.quietlyKept s) (hf a _)

theorem branchesOrReturns_need2 {o : Byte} {vs : List Word} {f : Word → Word → List Word → M Unit}
    (h : ∀ a b more, BranchesOrReturns (f a b more)) : BranchesOrReturns (need2 o vs f) := by
  unfold need2
  split
  · exact h _ _ _
  · exact branchesOrReturns_of_keeps (keeps_raise _)

theorem branchesOrReturns_need1 {o : Byte} {vs : List Word} {f : Word → List Word → M Unit}
    (h : ∀ a more, BranchesOrReturns (f a more)) : BranchesOrReturns (need1 o vs f) := by
  unfold need1
  split
  · exact h _ _
  · exact branchesOrReturns_of_keeps (keeps_raise _)

theorem bodyOf_branchesOrReturns (hi : branchGroup i = true) (vs : List Word) : BranchesOrReturns (bodyOf i vs) := by
  cases i with
  | je _ | jl _ | jg _ | test _ => exact branchesOrReturns_need2 fun _ _ _ => branchesOrReturns_branch _
  | jin _ =>
    exact branchesOrReturns_need2 fun _ _ _ => branchesOrReturns_bind (keeps_link _ _) fun _ =>
      branchesOrReturns_branch _
  | testAttr _ =>
    exact branchesOrReturns_need2 fun _ _ _ => branchesOrReturns_bind (keeps_attrs _) fun _ =>
      branchesOrReturns_bind (keeps_attrMask _) fun _ => branchesOrReturns_branch _
  | jz _ => exact branchesOrReturns_branch _
  | checkArgCount _ =>
    exact branchesOrReturns_need1 fun _ _ => branchesOrReturns_bind (keeps_gets _) fun _ => branchesOrReturns_branch _
  | ret _ | rtrue | rfalse => exact branchesOrReturns_ret _
  | retPopped => exact branchesOrReturns_bind (keeps_pop (by decide)) fun _ => branchesOrReturns_ret _
  | _ => cases hi

/-- Settles O51: the operands only pop, the body only reads and pops before it branches or returns. -/
theorem branchesAndReturnsKeepTheRest : Obligations.BranchesAndReturnsKeepTheRest := by
  intro i s u hi hu
  obtain ⟨⟨hspecials, htrace⟩, hkept⟩ := exec_end (P := s.BranchedOrReturned) (fun _ c h => h.takeFatal c)
    (fun n j => ⟨s.quietlyKept_advance_setStack n _, .inl (s.frameKept_advance_setStack n j)⟩)
    (fun vs t h => .after (State.entered_kept h).1 (State.entered_kept h).2 (bodyOf_branchesOrReturns hi vs t)) hu
  exact ⟨hspecials, htrace, hkept⟩

/-! ### A result for the store byte -/

/-- The kinds of change that take a reply or a draw. -/
def takingKinds : List Kind := [.reply, .emit, .draw]

/-- The kinds of those an instruction with a result makes. -/
def takenBy : Instr → List Kind
  | .readChar _ => [.reply, .emit]
  | .random _ => [.draw]
  | _ => []

theorem takenBy_subset (i : Instr) : takenBy i ⊆ takingKinds := by
  cases i with
  | readChar _ | random _ =>
    dsimp only [takenBy]
    decide
  | _ => exact List.nil_subset _

/-- The special registers and the requests are as they were, but for what changes of the kinds `L` take. -/
structure State.SpecialsTaken (L : List Kind) (s t : State) : Prop where
  fixed : s.FixedKept t
  readText : t.readText = s.readText
  readParse : t.readParse = s.readParse
  requests : .reply ∉ L → .emit ∉ L → t.trace = s.trace ∧ t.inbox = s.inbox
  generator : .reply ∉ L → .draw ∉ L → t.rng = s.rng ∧ t.draws = s.draws

theorem State.QuietlyKept.specialsTaken (h : s.QuietlyKept t) (L : List Kind) : s.SpecialsTaken L t := by
  obtain ⟨⟨hfixed, htext, hparse, hrng, hinbox, hdraws⟩, htrace⟩ := h
  exact ⟨hfixed, htext, hparse, fun _ _ => ⟨htrace, hinbox⟩, fun _ _ => ⟨hrng, hdraws⟩⟩

theorem State.SpecialsTaken.trans (h : s.SpecialsTaken L t) (h' : t.SpecialsTaken L u) : s.SpecialsTaken L u where
  fixed := ⟨h'.fixed.memSize.trans h.fixed.memSize, h'.fixed.story.trans h.fixed.story,
    h'.fixed.cfg.trans h.fixed.cfg, h'.fixed.params.trans h.fixed.params⟩
  readText := h'.readText.trans h.readText
  readParse := h'.readParse.trans h.readParse
  requests hr he :=
    ⟨(h'.requests hr he).1.trans (h.requests hr he).1, (h'.requests hr he).2.trans (h.requests hr he).2⟩
  generator hr hd :=
    ⟨(h'.generator hr hd).1.trans (h.generator hr hd).1, (h'.generator hr hd).2.trans (h.generator hr hd).2⟩

theorem State.SpecialsTaken.takeFatal (h : s.SpecialsTaken L t) (c : Cause) : s.SpecialsTaken L (takeFatal c t) :=
  ⟨⟨h.fixed.memSize, h.fixed.story, h.fixed.cfg, h.fixed.params⟩, h.readText, h.readParse, h.requests, h.generator⟩

/-- A reply or a draw was taken: memory and the frames are as they were. -/
structure State.Taken (L : List Kind) (s t : State) : Prop where
  mem : t.mem = s.mem
  top : t.top = s.top
  below : t.below = s.below
  specials : s.SpecialsTaken L t

theorem State.Taken.refl (s : State) : s.Taken L s := ⟨rfl, rfl, rfl, (State.QuietlyKept.refl s).specialsTaken L⟩

theorem State.Taken.trans (h : s.Taken L t) (h' : t.Taken L u) : s.Taken L u :=
  ⟨h'.mem.trans h.mem, h'.top.trans h.top, h'.below.trans h.below, h.specials.trans h'.specials⟩

theorem State.Taken.frameKept (h : s.Taken L t) : s.FrameKept t :=
  ⟨fun _ => by rw [h.mem], h.below, by rw [h.top], by rw [h.top], by rw [h.top], 0, congrArg Frame.stack h.top⟩

theorem Change.taken (h : Change L s t) (hL : L ⊆ takingKinds) : s.Taken L t := by
  cases h with
  | emit _ hk =>
    exact ⟨rfl, rfl, rfl, ⟨rfl, rfl, rfl, rfl⟩, rfl, rfl, fun _ he => absurd hk he, fun _ _ => ⟨rfl, rfl⟩⟩
  | reply _ _ hk =>
    exact ⟨rfl, rfl, rfl, ⟨rfl, rfl, rfl, rfl⟩, rfl, rfl, fun hr _ => absurd hk hr, fun hr _ => absurd hk hr⟩
  | draw _ _ hk =>
    exact ⟨rfl, rfl, rfl, ⟨rfl, rfl, rfl, rfl⟩, rfl, rfl, fun _ _ => ⟨rfl, rfl⟩, fun _ hd => absurd hk hd⟩
  | pc _ hk | pop hk | push _ hk | top _ hk | loc _ _ hk | glob _ _ hk | link _ _ _ hk | attrs _ _ _ _ hk
  | mem _ _ _ hk | enter _ hk | leave hk | reads _ _ hk | lines _ hk | restore _ hk | reloadMem hk | reloadCfg hk
  | reloadFrames hk | halt hk | wait hk | resume hk => exact absurd (hL hk) (by decide)

theorem Keeps.taken {m : M α} (h : Keeps L m) (hL : L ⊆ takingKinds) (s : State) : s.Taken L (endOf (m s)) :=
  (h s).induct .refl (fun _ _ _ => .trans) fun _ _ hc => hc.taken hL

/-- All but variable `n` is kept, and of the special registers all but what changes of the kinds `L` take. -/
structure State.ResultGiven (L : List Kind) (n : Byte) (s u : State) : Prop where
  kept : s.AllButVariable n u
  specials : s.SpecialsTaken L u

theorem State.ResultGiven.takeFatal {n : Byte} (h : s.ResultGiven L n u) (c : Cause) :
    s.ResultGiven L n (takeFatal c u) :=
  ⟨h.kept.takeFatal c, h.specials.takeFatal c⟩

theorem State.ResultGiven.after {n : Byte} (hframe : s.FrameKept t) (hspecials : s.SpecialsTaken L t)
    (h : t.ResultGiven L n u) : s.ResultGiven L n u :=
  ⟨hframe.trans_allButVariable hspecials.fixed.cfg h.kept, hspecials.trans h.specials⟩

/-- However the operation ends, it has at most given a result to the variable the store byte at `PC` names. -/
def GivesResult (L : List Kind) (m : M α) : Prop :=
  ∀ s : State, s.ResultGiven L (s.mem.byte s.pc.toNat) (endOf (m s))

theorem givesResult_store (v : Word) : GivesResult L (store v) :=
  fun s => ⟨store_allButVariable v s, (Keeps.quietlyKept (keeps_store (by decide) v) s).specialsTaken L⟩

theorem givesResult_of_keeps {m : M α} (h : Keeps [.pc, .pop] m) : GivesResult L m :=
  fun s => ⟨(h.frameKept s).allButVariable _, (h.mono.quietlyKept s).specialsTaken L⟩

/-- With a zero divisor the store byte is consumed, and otherwise it is a store (R144, R145). -/
theorem givesResult_storeUnlessZero (b : Word) (r : Int) : GivesResult L (storeUnlessZero b r) := by
  by_cases hb : b = 0#16
  · have hread : storeUnlessZero b r = (do let _ ← fetch8) := by simp [storeUnlessZero, hb]
    rw [hread]
    exact givesResult_of_keeps (keeps_bind (keeps_fetch8 (by decide)) fun _ => keeps_pure _)
  · have hstore : storeUnlessZero b r = store (u16 r) := by simp [storeUnlessZero, store, hb]
    rw [hstore]
    exact givesResult_store _

/-- What is read, or taken from the outside, before the store moves neither the program counter nor memory. -/
theorem givesResult_bind {m : M α} {f : α → M β} (hm : Keeps (takenBy i) m)
    (hf : ∀ a, GivesResult (takenBy i) (f a)) : GivesResult (takenBy i) (m >>= f) := by
  intro s
  have htaken := hm.taken (takenBy_subset i) s
  rcases endOf_bind (m := m) (f := f) s with h | ⟨a, h⟩ <;> rw [h]
  · exact ⟨htaken.frameKept.allButVariable _, htaken.specials⟩
  · have hpc : (endOf (m s)).pc = s.pc := congrArg Frame.pc htaken.top
    have hrest := hf a (endOf (m s))
    rw [hpc, htaken.mem] at hrest
    exact .after htaken.frameKept htaken.specials hrest

theorem givesResult_ite {c : Prop} [Decidable c] {m m' : M α} (h : GivesResult L m) (h' : GivesResult L m') :
    GivesResult L (if c then m else m') := by split <;> assumption

theorem givesResult_raise (c : Cause) : GivesResult L (raise c : M α) := givesResult_of_keeps (keeps_raise c)

theorem givesResult_need1 {o : Byte} {vs : List Word} {f : Word → List Word → M Unit}
    (h : ∀ a more, GivesResult L (f a more)) : GivesResult L (need1 o vs f) := by
  unfold need1
  split
  · exact h _ _
  · exact givesResult_raise _

theorem givesResult_need2 {o : Byte} {vs : List Word} {f : Word → Word → List Word → M Unit}
    (h : ∀ a b more, GivesResult L (f a b more)) : GivesResult L (need2 o vs f) := by
  unfold need2
  split
  · exact h _ _ _
  · exact givesResult_raise _

theorem bodyOf_givesResult (hi : resultGroup i = true) (vs : List Word) : GivesResult (takenBy i) (bodyOf i vs) := by
  cases i with
  | add _ | sub _ | mul _ | or _ | and _ => exact givesResult_need2 fun _ _ _ => givesResult_store _
  | div _ | mod _ => exact givesResult_need2 fun _ _ _ => givesResult_storeUnlessZero _ _
  | not _ => exact givesResult_store _
  | load _ => exact givesResult_bind (keeps_readVarInPlace _) fun _ => givesResult_store _
  | loadw _ =>
    exact givesResult_need2 fun _ _ _ => givesResult_bind (keeps_memWord _) fun _ => givesResult_store _
  | loadb _ =>
    exact givesResult_need2 fun _ _ _ => givesResult_bind (keeps_memByte _) fun _ => givesResult_store _
  | getParent _ => exact givesResult_bind (keeps_link _ _) fun _ => givesResult_store _
  | getProp _ =>
    refine givesResult_need2 fun _ _ _ => givesResult_bind (keeps_checkProperty _) fun _ =>
      givesResult_bind (keeps_propFind _ _) fun found => ?_
    cases found with
    | none => exact givesResult_bind (keeps_propDefault _) fun _ => givesResult_store _
    | some r =>
      exact givesResult_ite (givesResult_bind (keeps_memByte _) fun _ => givesResult_store _)
        (givesResult_ite (givesResult_bind (keeps_memWord _) fun _ => givesResult_store _) (givesResult_raise _))
  | getPropAddr _ =>
    refine givesResult_need2 fun _ _ _ => givesResult_bind (keeps_checkProperty _) fun _ =>
      givesResult_bind (keeps_propFind _ _) fun found => ?_
    cases found <;> exact givesResult_store _
  | getNextProp _ =>
    refine givesResult_need2 fun _ _ _ => givesResult_ite (givesResult_bind (keeps_propFirst _) fun _ =>
      givesResult_bind (keeps_entryNumber _) fun _ => givesResult_store _)
      (givesResult_bind (keeps_checkProperty _) fun _ => givesResult_bind (keeps_propFind _ _) fun found => ?_)
    cases found with
    | none => exact givesResult_raise _
    | some r => exact givesResult_bind (keeps_entryNumber _) fun _ => givesResult_store _
  | getPropLen _ =>
    exact givesResult_ite (givesResult_store _) (givesResult_bind (keeps_memByte _) fun _ =>
      givesResult_bind (keeps_gets _) fun _ => givesResult_store _)
  | readChar _ =>
    exact givesResult_bind (keeps_takeKey (by simp [takenBy])) fun _ =>
      givesResult_bind (keeps_request (by simp [takenBy]) _) fun _ => givesResult_store _
  | random _ =>
    exact givesResult_need1 fun _ _ => givesResult_ite
      (givesResult_bind (keeps_drawRandom (by simp [takenBy]) _) fun _ => givesResult_store _)
      (givesResult_bind (keeps_update fun _ => .draw _ _ (by simp [takenBy])) fun _ => givesResult_store _)
  | _ => cases hi

/-- Only `READ_CHAR` takes a reply and makes a request, and only `RANDOM` draws. -/
theorem not_mem_takenBy (h : ∀ ops, i ≠ .readChar ops) : .reply ∉ takenBy i ∧ .emit ∉ takenBy i ∧
    ((∀ ops, i ≠ .random ops) → .draw ∉ takenBy i) := by
  cases i with
  | readChar ops => exact absurd rfl (h ops)
  | random ops => exact ⟨by simp [takenBy], by simp [takenBy], fun hr => absurd rfl (hr ops)⟩
  | _ => exact ⟨List.not_mem_nil, List.not_mem_nil, fun _ => List.not_mem_nil⟩

/-- Settles O50: the operands only pop, and the body only reads, or takes its reply or draw, before it stores where
the operands end. -/
theorem resultInstructionsKeepTheRest : Obligations.ResultInstructionsKeepTheRest := by
  intro i s u hi hu
  obtain ⟨hkept, hfixed, htext, hparse, hrequests, hgenerator⟩ := exec_end
    (P := s.ResultGiven (takenBy i)
      (s.mem.byte (s.advance (i.headBytes + (encodeOperands i.operands).length)).pc.toNat))
    (fun _ c h => h.takeFatal c)
    (fun n j => ⟨(s.frameKept_advance_setStack n j).allButVariable _,
      (s.quietlyKept_advance_setStack n _).specialsTaken _⟩)
    (fun vs t h => by
      obtain ⟨j, rfl⟩ := State.entered_state h
      exact .after (s.frameKept_advance_setStack _ j) ((s.quietlyKept_advance_setStack _ _).specialsTaken _)
        (bodyOf_givesResult hi vs ((s.advance _).setStack (s.stack.drop j)))) hu
  refine ⟨hkept, hfixed, htext, hparse, fun hchar => ?_⟩
  obtain ⟨hreply, hemit, hdraw⟩ := not_mem_takenBy hchar
  exact ⟨(hrequests hreply hemit).1, (hrequests hreply hemit).2, fun hrandom => hgenerator hreply (hdraw hrandom)⟩

end Sys2Proof.Machine
end

section
/-! The arithmetic and logic instructions (R140 to R148): each computes one word from its operands and stores it, and
`DIV` and `MOD` with a zero divisor consume the store byte alone. -/

namespace Sys2Proof.Machine

variable {i : Instr} {vs : List Word} {s t u : State} {a b v : Word}

/-- An instruction whose body is a store completes with it. -/
theorem exec_of_body_store (he : s.entered i = some (vs, t)) (hbody : bodyOf i vs = store v)
    (hst : t.stored v = some u) : exec i s = .next u := by
  rw [exec_of_entered he, hbody]
  exact finish_ok (store_ok hst)

/-! ### Reduction modulo 2^16 -/

theorem u16_s16_add (a b : Word) : u16 (s16 a + s16 b) = a + b := by
  rw [u16, BitVec.ofInt_add, s16, s16, BitVec.ofInt_toInt, BitVec.ofInt_toInt]

theorem u16_s16_sub (a b : Word) : u16 (s16 a - s16 b) = a - b := by
  rw [u16, Int.sub_eq_add_neg, BitVec.ofInt_add, BitVec.ofInt_neg, s16, s16, BitVec.ofInt_toInt, BitVec.ofInt_toInt,
    BitVec.sub_eq_add_neg]

theorem u16_s16_mul (a b : Word) : u16 (s16 a * s16 b) = a * b := by
  rw [u16, BitVec.ofInt_mul, s16, s16, BitVec.ofInt_toInt, BitVec.ofInt_toInt]

/-- Settles O13: reduction modulo 2^16 turns the exact sum, difference and product into those of words. -/
theorem addSubMulWrap : Obligations.AddSubMulWrap := fun _ _ _ _ a b _ =>
  ⟨fun he => exec_of_body_store he (congrArg store (u16_s16_add a b)),
    fun he => exec_of_body_store he (congrArg store (u16_s16_sub a b)),
    fun he => exec_of_body_store he (congrArg store (u16_s16_mul a b))⟩

/-! ### Division rounded toward zero -/

/-- A remainder below the divisor and with the sign of the dividend fixes the quotient: it is the one rounded toward
zero. -/
theorem tdiv_eq_of_remainder {x y q r : Int} (h : x = y * q + r) (hlt : r.natAbs < y.natAbs) (hsign : 0 ≤ r * x) :
    x.tdiv y = q := by
  have hy : y ≠ 0 := Int.natAbs_pos.1 (Nat.zero_lt_of_lt hlt)
  obtain ⟨hr, hx⟩ | ⟨hr, hx⟩ := mul_nonneg_iff.1 hsign
  · exact ((Int.tdiv_tmod_unique hx hy).2 ⟨by omega, hr, by omega⟩).1
  · exact ((Int.tdiv_tmod_unique' hx hy).2 ⟨by omega, by omega, hr⟩).1

/-- The machine's quotient and remainder are the ones R144 and R145 describe. -/
theorem truncQuotient_truncRemainder_eq {q r : Int} (h : s16 a = s16 b * q + r)
    (hlt : r.natAbs < (s16 b).natAbs) (hsign : 0 ≤ r * s16 a) : truncQuotient a b = q ∧ truncRemainder a b = r := by
  have hq : truncQuotient a b = q := tdiv_eq_of_remainder h hlt hsign
  refine ⟨hq, ?_⟩
  rw [truncRemainder, hq]
  omega

theorem storeUnlessZero_of_ne_zero (hb : b ≠ 0#16) (result : Int) :
    storeUnlessZero b result = store (u16 result) := by
  simp only [storeUnlessZero, store, hb, if_false]

/-- With a zero divisor the store byte is consumed and nothing is written. -/
theorem storeUnlessZero_zero {n : Byte} (h : t.fetched = some (n, u)) (result : Int) :
    storeUnlessZero 0#16 result t = .ok () u :=
  M.bind_ok (fetch8_ok h) _

/-- Settles O14: the quotient and the remainder are unique, and a zero divisor ends the instruction at its store
byte. -/
theorem divModRoundTowardZero : Obligations.DivModRoundTowardZero := by
  intro args s t u a b more
  refine ⟨fun q r h hlt hsign => ?divided, fun n hb hf => ?zeroDivisor⟩
  case divided =>
    obtain ⟨hq, hr⟩ := truncQuotient_truncRemainder_eq h hlt hsign
    have hb : b ≠ 0#16 := by rintro rfl; exact Nat.not_lt_zero _ hlt
    have hbody := storeUnlessZero_of_ne_zero hb
    exact ⟨fun he => exec_of_body_store he ((hbody _).trans (by rw [hq, u16])),
      fun he => exec_of_body_store he ((hbody _).trans (by rw [hr, u16]))⟩
  case zeroDivisor =>
    subst hb
    exact ⟨fun he => (exec_of_entered he).trans (finish_ok (storeUnlessZero_zero hf _)),
      fun he => (exec_of_entered he).trans (finish_ok (storeUnlessZero_zero hf _))⟩

/-! ### Logic -/

theorem getLsbD_xor_ones (a : Word) {k : Nat} (hk : k < 16) : (a ^^^ 0xFFFF#16).getLsbD k = !a.getLsbD k := by
  rw [show 0xFFFF#16 = BitVec.allOnes 16 from rfl, BitVec.xor_allOnes, BitVec.getLsbD_not, decide_eq_true hk,
    Bool.true_and]

/-- Settles O15: a word is known by its bits. -/
theorem logicIsBitwise : Obligations.LogicIsBitwise := by
  intro args x s t u a b c more
  refine ⟨fun hc he => ?or, fun hc he => ?and, fun hc he => ?not⟩
  case or =>
    have hword : a ||| b = c := BitVec.eq_of_getLsbD_eq fun k hk => by rw [BitVec.getLsbD_or, hc k hk]
    exact exec_of_body_store he (congrArg store hword)
  case and =>
    have hword : a &&& b = c := BitVec.eq_of_getLsbD_eq fun k hk => by rw [BitVec.getLsbD_and, hc k hk]
    exact exec_of_body_store he (congrArg store hword)
  case not =>
    have hword : a ^^^ 0xFFFF#16 = c :=
      BitVec.eq_of_getLsbD_eq fun k hk => by rw [getLsbD_xor_ones a hk, hc k hk]
    exact exec_of_body_store he (congrArg store hword)

end Sys2Proof.Machine
end

section
/-! The instructions that only make a request, move the program counter or use the operand stack (R165, R260, R294 to
R298, R311): each makes at most one request, after all it reads, and only `PUSH` adds to the stack. -/

namespace Sys2Proof.Machine

variable {α β : Type} {i : Instr} {s t u : State}

/-- What the frame of the requests says of one instruction. -/
structure State.RequestFrame (i : Instr) (s u : State) : Prop where
  specials : s.SpecialsKept u
  mem : ∀ a, u.mem.byte a = s.mem.byte a
  below : u.below = s.below
  locals : u.top.locals = s.top.locals
  argc : u.top.argc = s.top.argc
  storeResult : u.top.storeResult = s.top.storeResult
  trace : u.trace = s.trace ∨ ∃ r, u.trace = s.trace ++ [r]
  stack : ∃ k, u.stack = s.stack.drop k ∨ ∃ ops v, i = .push ops ∧ u.stack = v :: s.stack.drop k

theorem State.SpecialsKept.takeFatal (h : s.SpecialsKept u) (c : Cause) : s.SpecialsKept (takeFatal c u) :=
  ⟨⟨h.fixed.memSize, h.fixed.story, h.fixed.cfg, h.fixed.params⟩, h.readText, h.readParse, h.rng, h.inbox, h.draws⟩

theorem State.RequestFrame.takeFatal (h : s.RequestFrame i u) (c : Cause) : s.RequestFrame i (takeFatal c u) :=
  ⟨h.specials.takeFatal c, h.mem, h.below, h.locals, h.argc, h.storeResult, h.trace, h.stack⟩

theorem State.FrameKept.requestFrame (h : s.FrameKept u) (hquiet : s.QuietlyKept u) (i : Instr) :
    s.RequestFrame i u := by
  obtain ⟨k, hk⟩ := h.stack
  exact ⟨hquiet.specials, h.mem, h.below, h.locals, h.argc, h.storeResult, .inl hquiet.trace, k, .inl hk⟩

/-- Before the request, words may be popped and the program counter moved. -/
theorem State.RequestFrame.after (hframe : s.FrameKept t) (hquiet : s.QuietlyKept t) (h : t.RequestFrame i u) :
    s.RequestFrame i u := by
  obtain ⟨j, hj⟩ := hframe.stack
  obtain ⟨k, hk⟩ := h.stack
  refine ⟨hquiet.specials.trans h.specials, fun a => (h.mem a).trans (hframe.mem a), h.below.trans hframe.below,
    h.locals.trans hframe.locals, h.argc.trans hframe.argc, h.storeResult.trans hframe.storeResult,
    hquiet.trace ▸ h.trace, j + k, ?_⟩
  rwa [hj, List.drop_drop] at hk

/-- However the operation ends, it has kept what the frame of the requests says of the instruction. -/
def KeepsRequestFrame (i : Instr) (m : M α) : Prop := ∀ s : State, s.RequestFrame i (endOf (m s))

theorem keepsRequestFrame_of_keeps {m : M α} (h : Keeps [.pc, .pop] m) : KeepsRequestFrame i m :=
  fun s => (h.frameKept s).requestFrame (h.mono.quietlyKept s) i

theorem keepsRequestFrame_request (r : Request) : KeepsRequestFrame i (request r) :=
  fun _ => ⟨⟨⟨rfl, rfl, rfl, rfl⟩, rfl, rfl, rfl, rfl, rfl⟩, fun _ => rfl, rfl, rfl, rfl, rfl, .inr ⟨r, rfl⟩,
    0, .inl rfl⟩

theorem keepsRequestFrame_push (ops : List Operand) (v : Word) : KeepsRequestFrame (.push ops) (push v) := by
  intro s
  have hquiet : s.QuietlyKept (endOf (push v s)) := Keeps.quietlyKept (keeps_push (by decide) v) s
  by_cases hl : withinLimit (s.stack.length + 1) s.params.stackDepth = true
  · rw [push_ok hl] at hquiet ⊢
    exact ⟨hquiet.specials, fun _ => rfl, rfl, rfl, rfl, rfl, .inl rfl, 0, .inr ⟨ops, v, rfl, rfl⟩⟩
  · rw [push_fatal (Bool.eq_false_of_not_eq_true hl)]
    exact (State.FrameKept.refl s).requestFrame (.refl s) _

/-- What comes before the request only reads, pops and moves the program counter. -/
theorem keepsRequestFrame_bind {m : M α} {f : α → M β} (hm : Keeps [.pc, .pop] m)
    (hf : ∀ a, KeepsRequestFrame i (f a)) : KeepsRequestFrame i (m >>= f) := by
  intro s
  rcases endOf_bind (m := m) (f := f) s with h | ⟨a, h⟩ <;> rw [h]
  · exact keepsRequestFrame_of_keeps hm s
  · exact .after (hm.frameKept s) (hm.mono.quietlyKept s) (hf a _)

theorem keepsRequestFrame_ite {c : Prop} [Decidable c] {m m' : M α} (h : KeepsRequestFrame i m)
    (h' : KeepsRequestFrame i m') : KeepsRequestFrame i (if c then m else m') := by split <;> assumption

theorem keepsRequestFrame_raise (c : Cause) : KeepsRequestFrame i (raise c : M α) :=
  keepsRequestFrame_of_keeps (keeps_raise c)

theorem keepsRequestFrame_need1 {o : Byte} {vs : List Word} {f : Word → List Word → M Unit}
    (h : ∀ a more, KeepsRequestFrame i (f a more)) : KeepsRequestFrame i (need1 o vs f) := by
  unfold need1
  split
  · exact h _ _
  · exact keepsRequestFrame_raise _

theorem keepsRequestFrame_need2 {o : Byte} {vs : List Word} {f : Word → Word → List Word → M Unit}
    (h : ∀ a b more, KeepsRequestFrame i (f a b more)) : KeepsRequestFrame i (need2 o vs f) := by
  unfold need2
  split
  · exact h _ _ _
  · exact keepsRequestFrame_raise _

/-- The text is decoded whole before it is printed. -/
theorem keepsRequestFrame_printAt (a : Nat) : KeepsRequestFrame i (printAt a) :=
  keepsRequestFrame_bind (keeps_decodeAt a) fun _ => keepsRequestFrame_request _

theorem bodyOf_keepsRequestFrame (hi : requestGroup i = true) (vs : List Word) : KeepsRequestFrame i (bodyOf i vs) := by
  cases i with
  | print =>
    exact keepsRequestFrame_bind (keeps_inlineText (by decide)) fun _ => keepsRequestFrame_request _
  | printAddr _ => exact keepsRequestFrame_printAt _
  | printPaddr _ => exact keepsRequestFrame_bind (keeps_gets _) fun _ => keepsRequestFrame_printAt _
  | printObj _ =>
    exact keepsRequestFrame_bind (keeps_propTable _) fun _ => keepsRequestFrame_bind (keeps_memRead _ _) fun _ =>
      keepsRequestFrame_ite (keepsRequestFrame_request _) (keepsRequestFrame_printAt _)
  | newLine | showStatus => exact keepsRequestFrame_request _
  | printChar _ | printNum _ | splitWindow _ | setWindow _ | eraseWindow _ | setTextStyle _ | bufferMode _ =>
    exact keepsRequestFrame_need1 fun _ _ => keepsRequestFrame_request _
  | setCursor _ | setColour _ => exact keepsRequestFrame_need2 fun _ _ _ => keepsRequestFrame_request _
  | soundEffect _ =>
    exact keepsRequestFrame_need1 fun _ _ =>
      keepsRequestFrame_ite (keepsRequestFrame_request _) (keepsRequestFrame_raise _)
  | push ops => exact keepsRequestFrame_need1 fun v _ => keepsRequestFrame_push ops v
  | pop => exact keepsRequestFrame_of_keeps (keeps_bind (keeps_pop (by decide)) fun _ => keeps_pure _)
  | nop => exact keepsRequestFrame_of_keeps (keeps_pure _)
  | jump _ => exact keepsRequestFrame_of_keeps (keeps_update fun _ => .pc _ (by decide))
  | _ => cases hi

/-- Settles O49: the operands only pop, and the body only reads and pops before its one request or its push. -/
theorem requestInstructionsKeepTheRest : Obligations.RequestInstructionsKeepTheRest := by
  intro i s u hi hu
  obtain ⟨hspecials, hmem, hbelow, hlocals, hargc, hresult, htrace, hstack⟩ := exec_end (P := s.RequestFrame i)
    (fun _ c h => h.takeFatal c)
    (fun n j => (s.frameKept_advance_setStack n j).requestFrame (s.quietlyKept_advance_setStack n _) i)
    (fun vs t h => .after (State.entered_kept h).1 (State.entered_kept h).2 (bodyOf_keepsRequestFrame hi vs t)) hu
  exact ⟨hspecials, hmem, hbelow, hlocals, hargc, hresult, htrace, hstack⟩

end Sys2Proof.Machine
end

section
/-! The tests and the jump (R160 to R165, R299) and the instructions that reach a variable in place (R166, R167, R180 to
R184): a test branches on its condition, and a count is reduced modulo 2^16 before it is written and compared. -/

namespace Sys2Proof.Machine

variable {i : Instr} {vs : List Word} {s t u w : State} {a b v old : Word} {n : Byte} {c : Bool}

/-! ### Tests -/

/-- An instruction whose body, where its operands end, is a branch on `c` completes with that branch. -/
theorem exec_of_body_branch (he : s.entered i = some (vs, t)) (hbody : bodyOf i vs t = branch c t)
    (hb : t.branched c = some u) : exec i s = .next u := by
  rw [exec_of_entered he]
  exact finish_ok (hbody.trans (branch_ok hb))

/-- A branch on a decided condition, under the name the statement gives the condition. -/
theorem branch_decide {p : Prop} [Decidable p] (h : c = true ↔ p) : branch (decide p) = branch c :=
  congrArg branch (Bool.eq_iff_iff.2 (decide_eq_true_iff.trans h.symm))

theorem and_eq_right_iff_getLsbD (a b : Word) : a &&& b = b ↔ ∀ k, b.getLsbD k = true → a.getLsbD k = true := by
  constructor
  · intro h k hk
    rw [← h, BitVec.getLsbD_and, Bool.and_eq_true] at hk
    exact hk.1
  · intro h
    refine BitVec.eq_of_getLsbD_eq fun k _ => ?_
    rw [BitVec.getLsbD_and]
    exact Bool.and_eq_right_iff_imp.2 (h k)

/-- Settles O16: the body of each is a branch on its condition, in the machine's words. -/
theorem testsBranchOnTheirCondition : Obligations.TestsBranchOnTheirCondition := by
  intro args x ops s t u a b more c hb
  refine ⟨fun hc he => ?je, fun hc he => ?jl, fun hc he => ?jg, fun hc he => ?jz, fun hc he => ?test,
    fun hc he => ?checkArgCount⟩
  case je =>
    have hmem : c = true ↔ a ∈ b :: more := hc.trans exists_eq_right'
    exact exec_of_body_branch he (congrFun (branch_decide hmem) t) hb
  case jl | jg | jz => exact exec_of_body_branch he (congrFun (branch_decide hc) t) hb
  case test =>
    have hbits : c = true ↔ a &&& b = b := hc.trans (and_eq_right_iff_getLsbD a b).symm
    exact exec_of_body_branch he (congrFun (branch_decide hbits) t) hb
  case checkArgCount =>
    rw [← (State.entered_kept he).1.argc] at hc
    exact exec_of_body_branch he (congrFun (branch_decide hc) t) hb

/-! ### The jump -/

theorem ofInt_s16_sub_two (offset : Word) : BitVec.ofInt 32 (s16 offset - 2) = offset.signExtend 32 - 2#32 := by
  rw [Int.sub_eq_add_neg, BitVec.ofInt_add, BitVec.sub_eq_add_neg]
  rfl

/-- Settles O18: the body moves the program counter to its target, for every offset. -/
theorem jumpIsRelative : Obligations.JumpIsRelative := by
  intro x s t offset he
  have htarget : jumpTarget t.pc (s16 offset) = t.pc + offset.signExtend 32 - 2#32 := by
    rw [jumpTarget_eq, ofInt_s16_sub_two, ← add_sub_assoc]
  rw [exec_of_entered he, ← htarget]
  rfl

/-! ### A variable changed in place -/

theorem u16_s16_add_one (a : Word) : u16 (s16 a + 1) = a + 1#16 := u16_s16_add a 1#16

theorem u16_s16_sub_one (a : Word) : u16 (s16 a + -1) = a - 1#16 := u16_s16_sub a 1#16

/-- The new word is written where the old one was read, and is the value of the operation. -/
theorem addInPlace_ok {d : Int} (hold : t.getInPlace n = some old) (hsum : u16 (s16 old + d) = v)
    (hput : t.putInPlace n v = some w) : addInPlace n d t = .ok v w := by
  subst hsum
  rw [addInPlace, M.bind_ok (readVarInPlace_ok hold), M.bind_ok (writeVarInPlace_ok hput), M.pure_apply]

/-- Settles O19: each reads or writes the variable in place, and then ends, stores or branches. -/
theorem variableNumbersAreReachedInPlace : Obligations.VariableNumbersAreReachedInPlace := by
  intro args x s t u w v b old more c
  refine ⟨fun he hput => ?store, fun he hold hst => ?load, fun he hold hput => ?inc, fun he hold hput => ?dec,
    fun he hold hput hc hb => ?incChk, fun he hold hput hc hb => ?decChk⟩ <;> rw [exec_of_entered he]
  case store => exact finish_ok (writeVarInPlace_ok hput)
  case load => exact finish_ok ((M.bind_ok (readVarInPlace_ok hold) _).trans (store_ok hst))
  case inc => exact finish_ok (M.bind_ok (addInPlace_ok hold (u16_s16_add_one old) hput) _)
  case dec => exact finish_ok (M.bind_ok (addInPlace_ok hold (u16_s16_sub_one old) hput) _)
  case incChk =>
    refine finish_ok ((M.bind_ok (addInPlace_ok hold (u16_s16_add_one old) hput) _).trans ?_)
    exact (congrFun (branch_decide hc) w).trans (branch_ok hb)
  case decChk =>
    refine finish_ok ((M.bind_ok (addInPlace_ok hold (u16_s16_sub_one old) hput) _).trans ?_)
    exact (congrFun (branch_decide hc) w).trans (branch_ok hb)

end Sys2Proof.Machine
end

section
/-! The search of a property list (R230 to R234): each operation of the navigator reads what the state functions of
`Sys2Proof/Safety.lean` say, and is fatal where a byte is missing. -/

namespace Sys2Proof.Machine

variable {α β : Type} {s t : State}

/-- In state `s` the operation only reads: it answers the value, or is fatal where there is none. -/
def Reads (m : M α) (s : State) : Option α → Prop
  | some x => m s = .ok x s
  | none => ∃ c, m s = .error (.fatal c) s

theorem Reads.eq_some {m : M α} {r : Option α} {x : α} (h : Reads m s r) (hm : m s = .ok x t) : r = some x := by
  cases r with
  | some y =>
    cases Eq.trans (Eq.symm h) hm
    rfl
  | none =>
    obtain ⟨c, hc⟩ := h
    cases hc.symm.trans hm

theorem Reads.bind {m : M α} {f : α → M β} {r : Option α} {r' : Option β} (h : Reads m s r)
    (hnone : r = none → r' = none) (hsome : ∀ x, r = some x → Reads (f x) s r') : Reads (m >>= f) s r' := by
  cases r with
  | none =>
    obtain ⟨c, hc⟩ := h
    rw [hnone rfl]
    exact ⟨c, M.bind_error hc f⟩
  | some x =>
    rw [Reads.eq_def, M.bind_ok h f]
    exact hsome x rfl

/-- One property entry (R231, R232). -/
theorem propEntry_reads (e : Nat) (s : State) : Reads (propEntry e) s (s.entryAt e) := by
  unfold propEntry State.entryAt
  by_cases hr : s.inRange e 1
  · by_cases h0 : s.mem.byte e = 0#8
    · simp [Reads, hr, memByte_ok hr, h0]
    by_cases hearlier : s.cfg.geom.earlier = true
    · simp [Reads, hr, memByte_ok hr, h0, hearlier, lengthEarlier]
    by_cases h7 : (s.mem.byte e)[7] = true
    · by_cases hr1 : s.inRange (e + 1) 1
      · simp [Reads, hr, memByte_ok hr, h0, hearlier, h7, hr1, memByte_ok hr1, lengthContinued]
      · simp [Reads, hr, memByte_ok hr, h0, hearlier, h7, hr1, memByte_fatal hr1]
    · simp [Reads, hr, memByte_ok hr, h0, hearlier, h7, lengthLater]
  · simp [Reads, hr, memByte_fatal hr]

/-- The search from an entry on (R233). -/
theorem propSearch_reads (p more e : Nat) (s : State) :
    Reads (propSearch p more e) s (s.findFrom p more e) := by
  induction more generalizing e with
  | zero => exact ⟨_, rfl⟩
  | succ more ih =>
    refine (propEntry_reads e s).bind (fun he => by rw [State.findFrom, he]) fun found he => ?_
    rw [State.findFrom, he]
    cases found with
    | none => rfl
    | some r =>
      dsimp only
      split
      · rfl
      · exact ih r.next

/-- Where the property list of an object starts (R230, R234). -/
theorem propFirst_reads (id : Word) (s : State) : Reads (propFirst id) s (s.propStart id) := by
  unfold propFirst propTable checkObject State.propStart
  by_cases h0 : id = 0#16
  · simp [Reads, h0]
  by_cases ha : s.inRange (s.objAddr id + s.cfg.geom.offProps) 2
  · by_cases ht : s.inRange (s.mem.readBE (s.objAddr id + s.cfg.geom.offProps) 2) 1
    · simp [Reads, h0, ha, State.wordAt_toNat, ht, memRead_ok ha, memRead_ok ht, Memory.readBE_one]
    · simp [Reads, h0, ha, State.wordAt_toNat, ht, memRead_ok ha, memRead_fatal ht]
  · simp [Reads, h0, ha, memRead_fatal ha]

/-- The search of an object's property (R233). -/
theorem propFind_reads (id p : Word) (s : State) : Reads (propFind id p) s (s.findProp id p) := by
  refine (propFirst_reads id s).bind (fun he => by rw [State.findProp, he]) fun e he => ?_
  rw [State.findProp, he]
  exact propSearch_reads p.toNat (s.memSize + 1) e s

end Sys2Proof.Machine
end

section
/-! The frame of the instructions that write memory (R187, R188, R206, R207, R213, R214, R240): each only reads before
its writes, changes no more of the state than memory, and writes no byte but those it names. -/

namespace Sys2Proof.Machine

variable {α β : Type} {i : Instr} {vs : List Word} {s t u : State} {a : Nat} {id : Word}

/-! ### Operations that change memory alone -/

/-- The kinds of change that reach no more of the state than memory. -/
def memoryKinds : List Kind := [.link, .attrs, .mem]

theorem Change.onlyMemory (h : Change memoryKinds s t) : t = { s with mem := t.mem } := by
  cases h with
  | link _ _ _ _ | attrs _ _ _ _ _ | mem _ _ _ _ => rfl
  | pc _ hk | pop hk | push _ hk | top _ hk | loc _ _ hk | glob _ _ hk | enter _ hk | leave hk | emit _ hk
  | reads _ _ hk | reply _ _ hk | lines _ hk | draw _ _ hk | restore _ hk | reloadMem hk | reloadCfg hk
  | reloadFrames hk | halt hk | wait hk | resume hk => exact absurd hk (by decide)

theorem Keeps.onlyMemory {m : M α} (h : Keeps memoryKinds m) (s : State) :
    endOf (m s) = { s with mem := (endOf (m s)).mem } :=
  (h s).induct (R := fun s t => t = { s with mem := t.mem }) (fun _ => rfl)
    (fun _ _ _ h h' => by rw [h', h]) fun _ _ hc => hc.onlyMemory

/-- The instructions that write memory at an address of their own. -/
def writesMemory : Instr → Bool
  | .storew _ | .storeb _ | .putProp _ | .setAttr _ | .clearAttr _ | .removeObj _ | .insertObj _ => true
  | _ => false

/-- An instruction that writes memory uses at most three of its operands. -/
theorem bodyOf_take_three (hi : writesMemory i = true) (vs : List Word) : bodyOf i vs = bodyOf i (vs.take 3) := by
  cases i with
  | storew _ | storeb _ | putProp _ | setAttr _ | clearAttr _ | removeObj _ | insertObj _ =>
    match vs with
    | [] | [_] | [_, _] | _ :: _ :: _ :: _ => rfl
  | _ => cases hi

theorem keeps_bodyOf_writesMemory (hi : writesMemory i = true) (vs : List Word) : Keeps (kindsOf i) (bodyOf i vs) := by
  rw [bodyOf_take_three hi]
  exact keeps_bodyOf i _ ((List.length_take_le 3 vs).trans (by decide))

theorem bodyOf_onlyMemory (hi : writesMemory i = true) (vs : List Word) (s : State) :
    endOf (bodyOf i vs s) = { s with mem := (endOf (bodyOf i vs s)).mem } := by
  refine Keeps.onlyMemory ((keeps_bodyOf_writesMemory hi vs).mono ?_) s
  cases i with
  | storew _ | storeb _ | putProp _ | setAttr _ | clearAttr _ | removeObj _ | insertObj _ =>
    dsimp only [kindsOf]
    decide
  | _ => cases hi

/-- The special registers and the requests are as they were, and so are the frames but for the program counter and popped
words. Nothing is said of memory: the frames are compared with the memory of before put back. -/
structure State.AllButMemory (s u : State) : Prop where
  quiet : s.QuietlyKept u
  frame : s.FrameKept { u with mem := s.mem }

theorem State.AllButMemory.takeFatal (h : s.AllButMemory u) (c : Cause) : s.AllButMemory (takeFatal c u) :=
  ⟨h.quiet.takeFatal c, h.frame.takeFatal c⟩

theorem exec_allButMemory (hi : writesMemory i = true) (hu : exec i s = .next u) : s.AllButMemory u :=
  exec_end (P := s.AllButMemory) (fun _ c h => h.takeFatal c)
    (fun n j => ⟨s.quietlyKept_advance_setStack n _, s.frameKept_advance_setStack n j⟩)
    (fun vs t h => by
      obtain ⟨j, rfl⟩ := State.entered_state h
      rw [bodyOf_onlyMemory hi]
      exact ⟨⟨⟨⟨rfl, rfl, rfl, rfl⟩, rfl, rfl, rfl, rfl, rfl⟩, rfl⟩, s.frameKept_advance_setStack _ j⟩) hu

/-! ### One byte of memory -/

/-- Byte `a` is the same however the operation ends. -/
def LeavesByte (a : Nat) (m : M α) (s : State) : Prop := (endOf (m s)).mem.byte a = s.mem.byte a

theorem leavesByte_seq {m : M α} {f : α → M β} (hm : LeavesByte a m s)
    (hf : ∀ x, LeavesByte a (f x) (endOf (m s))) : LeavesByte a (m >>= f) s := by
  rcases endOf_bind (m := m) (f := f) s with h | ⟨x, h⟩ <;> rw [LeavesByte, h]
  · exact hm
  · exact (hf x).trans hm

/-- An operation that first only reads leaves a byte that its rest leaves. -/
theorem leavesByte_bind {m : M α} {f : α → M β} (hm : Keeps [] m)
    (hf : ∀ x, m s = .ok x s → LeavesByte a (f x) s) : LeavesByte a (m >>= f) s := by
  unfold LeavesByte
  rw [M.bind_apply]
  cases h : m s with
  | ok x w =>
    obtain rfl := hm.same_ok h
    exact hf x h
  | error c w =>
    obtain rfl := hm.same_error h
    rfl

theorem leavesByte_gets {f : State → α} {g : α → M β} (h : LeavesByte a (g (f s)) s) :
    LeavesByte a (gets f >>= g) s := h

theorem memWrite_leavesByte {b n w : Nat} (h : a < b ∨ b + n ≤ a) : LeavesByte a (memWrite b n w) s := by
  unfold LeavesByte
  by_cases hr : s.inRange b n
  · rw [memWrite_ok hr]
    exact Memory.byte_writeBE_other _ _ _ _ h
  · rw [memWrite_fatal hr]
    rfl

theorem need2_leavesByte {o : Byte} {f : Word → Word → List Word → M Unit}
    (h : ∀ x y more, vs = x :: y :: more → LeavesByte a (f x y more) s) : LeavesByte a (need2 o vs f) s := by
  unfold need2
  split
  · exact h _ _ _ rfl
  · rfl

theorem need3_leavesByte {o : Byte} {f : Word → Word → Word → M Unit}
    (h : ∀ x y z more, vs = x :: y :: z :: more → LeavesByte a (f x y z) s) : LeavesByte a (need3 o vs f) s := by
  unfold need3
  split
  · exact h _ _ _ _ rfl
  · rfl

/-- `SetAttrWord` writes 4 bytes at the record, and 2 more in a later version (R206). -/
theorem setAttrs_leavesByte {set : BitVec 48} (h : a < s.objAddr id ∨ s.objAddr id + 6 ≤ a ∨
    s.cfg.geom.earlier = true ∧ s.objAddr id + 4 ≤ a) : LeavesByte a (setAttrs id set) s := by
  refine leavesByte_gets (leavesByte_gets ?_)
  split
  · next he => exact memWrite_leavesByte (by omega)
  · next he =>
    have hout : a < s.objAddr id ∨ s.objAddr id + 6 ≤ a := h.imp_right (Or.resolve_right · fun hx => he hx.1)
    exact leavesByte_bind (keeps_checkRange _ _) fun _ _ => leavesByte_bind (keeps_checkRange _ _) fun _ _ =>
      leavesByte_seq (memWrite_leavesByte (by omega)) fun _ => memWrite_leavesByte (by omega)

/-- A byte in none of the link fields that object records have. -/
def State.OffLinks (s : State) (a : Nat) : Prop :=
  ∀ id, id ≠ 0#16 →
    (a < s.linkAddr id Geometry.offParent ∨ s.linkAddr id Geometry.offParent + s.cfg.geom.linkBytes ≤ a) ∧
    (a < s.linkAddr id Geometry.offSibling ∨ s.linkAddr id Geometry.offSibling + s.cfg.geom.linkBytes ≤ a) ∧
    (a < s.linkAddr id Geometry.offChild ∨ s.linkAddr id Geometry.offChild + s.cfg.geom.linkBytes ≤ a)

/-- Link writes leave every byte outside the link fields, and the fields where they are. -/
theorem Change.link_keepsByte (h : Change [.link] s t) (ha : s.OffLinks a) :
    t.OffLinks a ∧ t.mem.byte a = s.mem.byte a := by
  cases h with
  | link id off v _ h0 hoff _ =>
    obtain ⟨hparent, hsibling, hchild⟩ := ha id h0
    refine ⟨ha, Memory.byte_writeBE_other _ _ _ _ ?_⟩
    rcases hoff with rfl | rfl | rfl
    · exact hparent
    · exact hsibling
    · exact hchild
  | pc _ hk | pop hk | push _ hk | top _ hk | loc _ _ hk | glob _ _ hk | attrs _ _ _ _ hk | mem _ _ _ hk | enter _ hk
  | leave hk | emit _ hk | reads _ _ hk | reply _ _ hk | lines _ hk | draw _ _ hk | restore _ hk | reloadMem hk
  | reloadCfg hk | reloadFrames hk | halt hk | wait hk | resume hk => exact absurd hk (by decide)

theorem Keeps.link_leavesByte {m : M α} (h : Keeps [.link] m) (ha : s.OffLinks a) : LeavesByte a m s := by
  obtain ⟨-, hbyte⟩ := (h s).invariant (P := fun w => w.OffLinks a ∧ w.mem.byte a = s.mem.byte a)
    (fun _ _ hc ⟨hoff, hbyte⟩ => (hc.link_keepsByte hoff).imp_right (·.trans hbyte)) ⟨ha, rfl⟩
  exact hbyte

/-! ### The instructions -/

theorem bodyOf_storew_leavesByte (ops : List Operand)
    (h : ∀ array index v more, vs = array :: index :: v :: more →
      a < wordAddr array index ∨ wordAddr array index + 2 ≤ a) : LeavesByte a (bodyOf (.storew ops) vs) s :=
  need3_leavesByte fun array index v more hvs => memWrite_leavesByte (h array index v more hvs)

theorem bodyOf_storeb_leavesByte (ops : List Operand)
    (h : ∀ array index v more, vs = array :: index :: v :: more → a ≠ byteAddr array index) :
    LeavesByte a (bodyOf (.storeb ops) vs) s :=
  need3_leavesByte fun array index v more hvs => memWrite_leavesByte (Nat.lt_or_gt_of_ne (h array index v more hvs))

theorem bodyOf_putProp_leavesByte (ops : List Operand)
    (h : ∀ obj p v more r, vs = obj :: p :: v :: more → s.findProp obj p = some (some r) →
      a < r.data ∨ r.data + r.len ≤ a) : LeavesByte a (bodyOf (.putProp ops) vs) s := by
  refine need3_leavesByte fun obj p v more hvs => leavesByte_bind (keeps_checkProperty p) fun _ _ =>
    leavesByte_bind (keeps_propFind obj p) fun found hfound => ?_
  cases found with
  | none => rfl
  | some r =>
    have hr := h obj p v more r hvs ((propFind_reads obj p s).eq_some hfound)
    dsimp only
    split
    · next hlen => exact memWrite_leavesByte (hlen ▸ hr)
    · split
      · next hlen => exact memWrite_leavesByte (hlen ▸ hr)
      · rfl

theorem bodyOf_attr_leavesByte {args : Args2} (hi : i = .setAttr args ∨ i = .clearAttr args)
    (h : ∀ obj attr more, vs = obj :: attr :: more → a < s.objAddr obj ∨ s.objAddr obj + 6 ≤ a ∨
      s.cfg.geom.earlier = true ∧ s.objAddr obj + 4 ≤ a) : LeavesByte a (bodyOf i vs) s := by
  have hwrite (obj attr : Word) (more : List Word) (hvs : vs = obj :: attr :: more)
      (change : BitVec 48 → BitVec 48 → BitVec 48) : LeavesByte a (attrs obj >>= fun set =>
        attrMask attr >>= fun mask => setAttrs obj (change set mask)) s :=
    leavesByte_bind (keeps_attrs obj) fun _ _ => leavesByte_bind (keeps_attrMask attr) fun _ _ =>
      setAttrs_leavesByte (h obj attr more hvs)
  rcases hi with rfl | rfl
  · exact need2_leavesByte fun obj attr more hvs => hwrite obj attr more hvs (· ||| ·)
  · exact need2_leavesByte fun obj attr more hvs => hwrite obj attr more hvs (· &&& ~~~·)

theorem bodyOf_tree_leavesByte {x : Operand} {args : Args2} (hi : i = .removeObj x ∨ i = .insertObj args)
    (ha : s.OffLinks a) : LeavesByte a (bodyOf i vs) s := by
  rcases hi with rfl | rfl
  · exact (keeps_bodyOf_writesMemory (i := .removeObj x) rfl vs).link_leavesByte ha
  · exact (keeps_bodyOf_writesMemory (i := .insertObj args) rfl vs).link_leavesByte ha

/-- A byte that the body leaves from the state it starts in is left by the instruction. -/
theorem exec_keepsByte (hu : exec i s = .next u)
    (h : ∀ vs n j, s.entered i = some (vs, (s.advance n).setStack (s.stack.drop j)) →
      LeavesByte a (bodyOf i vs) ((s.advance n).setStack (s.stack.drop j))) : u.mem.byte a = s.mem.byte a :=
  exec_end (P := fun w => w.mem.byte a = s.mem.byte a) (fun _ _ hw => hw) (fun _ _ => rfl)
    (fun vs t he => by
      obtain ⟨j, rfl⟩ := State.entered_state he
      exact h vs _ j he) hu

/-- Settles O52: the body changes memory alone, and each of its writes stays inside the bytes the instruction names. -/
theorem memoryWritersKeepTheRest : Obligations.MemoryWritersKeepTheRest := by
  intro i args x ops s u hu hi
  have hwrites : writesMemory i = true := by rcases hi with rfl | rfl | rfl | rfl | rfl | rfl | rfl <;> rfl
  obtain ⟨⟨hspecials, htrace⟩, hframe⟩ := exec_allButMemory hwrites hu
  refine ⟨hspecials, htrace, hframe.below, hframe.locals, hframe.argc, hframe.storeResult, hframe.stack,
    fun a hstorew hstoreb hputProp hattr htree => exec_keepsByte hu fun vs n j he => ?_⟩
  rcases hi with hi | hi | hi | hi | hi | hi
  · subst hi
    exact bodyOf_storew_leavesByte ops fun array index v more hvs => hstorew rfl array index v more _ (hvs ▸ he)
  · subst hi
    exact bodyOf_storeb_leavesByte ops fun array index v more hvs => hstoreb rfl array index v more _ (hvs ▸ he)
  · subst hi
    exact bodyOf_putProp_leavesByte ops fun obj p v more r hvs => hputProp rfl obj p v more _ r (hvs ▸ he)
  · exact bodyOf_attr_leavesByte (.inl hi) fun obj attr more hvs => hattr (.inl hi) obj attr more _ (hvs ▸ he)
  · exact bodyOf_attr_leavesByte (.inr hi) fun obj attr more hvs => hattr (.inr hi) obj attr more _ (hvs ▸ he)
  · exact bodyOf_tree_leavesByte hi (htree hi)

end Sys2Proof.Machine
end

section
/-! The attributes of an object (R204 to R206, R210 to R212): the bytes that hold them as one word of bits, what a write
of that word leaves, and the three instructions as a test or a change of one bit of it. -/

namespace Sys2Proof.Machine

variable {i : Instr} {s t : State} {id obj attr : Word} {more : List Word} {b : Bool} {k : Nat}

/-! ### The attributes as one word -/

/-- Bits of a big-endian value, counted from its most significant one, are those of its bytes (R64). -/
theorem Memory.testBit_readBE (m : Memory) (a n : Nat) (h : k < 8 * n) :
    (m.readBE a n).testBit (8 * n - 1 - k) = (m.byte (a + k / 8)).getLsbD (7 - k % 8) := by
  induction n with
  | zero => omega
  | succ n ih =>
    rw [Memory.readBE, Nat.mul_comm _ 256, Nat.testBit_two_pow_mul_add (i := 8) _ (m.byte (a + n)).isLt]
    split
    · have hbyte : k / 8 = n := by omega
      rw [BitVec.testBit_toNat, hbyte]
      congr 1
      omega
    · have hbit : 8 * (n + 1) - 1 - k - 8 = 8 * n - 1 - k := by omega
      rw [hbit, ih (by omega)]

/-- A big-endian value in two parts (R62). -/
theorem Memory.readBE_add (m : Memory) (a n k : Nat) :
    m.readBE a (n + k) = m.readBE a n * 256 ^ k + m.readBE (a + n) k := by
  induction k with
  | zero => simp [Memory.readBE]
  | succ k ih =>
    rw [← Nat.add_assoc, Memory.readBE, ih, Memory.readBE, Nat.add_assoc a, Nat.pow_succ]
    ring

/-- A big-endian write in two parts, the more significant one first (R63). -/
theorem Memory.writeBE_add (m : Memory) (a n k v : Nat) :
    m.writeBE a (n + k) v = (m.writeBE a n (v / 256 ^ k)).writeBE (a + n) k v := by
  induction k generalizing v with
  | zero => simp [Memory.writeBE]
  | succ k ih =>
    rw [← Nat.add_assoc, Memory.writeBE, ih, Memory.writeBE, Nat.div_div_eq_div_mul, ← Nat.pow_succ',
      Nat.add_assoc a]

/-- A write takes the low bits of its value (R63). -/
theorem Memory.writeBE_mod (m : Memory) (a n v : Nat) : m.writeBE a n (v % 256 ^ n) = m.writeBE a n v := by
  induction n generalizing v with
  | zero => rfl
  | succ n ih =>
    have hbyte : BitVec.ofNat 8 (v % 256 ^ (n + 1)) = BitVec.ofNat 8 v :=
      BitVec.eq_of_toNat_eq (Nat.mod_mod_of_dvd v (Dvd.intro_left _ (Nat.pow_succ ..).symm))
    rw [Memory.writeBE, Memory.writeBE, hbyte, Nat.pow_succ', Nat.mod_mul_right_div_self, ih]

/-- The attributes of an object as the machine reads them (R204). -/
def State.attrWord (s : State) (id : Word) : BitVec 48 :=
  BitVec.ofNat 48 (s.mem.readBE (s.objAddr id) (s.cfg.geom.attrBits / 8))

/-- The attributes of an object replaced (R206). -/
def State.withAttrs (s : State) (id : Word) (v : BitVec 48) : State :=
  s.writeMem (s.objAddr id) (s.cfg.geom.attrBits / 8) v.toNat

@[simp] theorem State.cfg_withAttrs (s : State) (id : Word) (v : BitVec 48) : (s.withAttrs id v).cfg = s.cfg := rfl

@[simp] theorem State.objAddr_withAttrs (s : State) (id obj : Word) (v : BitVec 48) :
    (s.withAttrs id v).objAddr obj = s.objAddr obj := rfl

/-- The geometry registers have 32 attributes, or 48 (R33). -/
theorem Geometry.attrBits_cases {g : Geometry} {version : Byte} (hg : g = geometryOf version) :
    g.earlier = true ∧ g.attrBits = 32 ∨ g.earlier = false ∧ g.attrBits = 48 := by
  subst hg
  unfold geometryOf
  split
  · exact .inl ⟨rfl, rfl⟩
  · exact .inr ⟨rfl, rfl⟩

theorem Geometry.attrBits_eq_bytes {g : Geometry} {version : Byte} (hg : g = geometryOf version) :
    g.attrBits = 8 * (g.attrBits / 8) ∧ g.attrBits ≤ 48 := by
  rcases Geometry.attrBits_cases hg with ⟨-, h⟩ | ⟨-, h⟩ <;> rw [h] <;> decide

/-- The attributes are bits of the bytes of the record, numbered from the most significant one (R205). -/
theorem State.attrOf_eq_testBit (hg : s.cfg.geom = geometryOf s.cfg.version) (hk : k < s.cfg.geom.attrBits) :
    s.attrOf id k =
      (s.mem.readBE (s.objAddr id) (s.cfg.geom.attrBits / 8)).testBit (s.cfg.geom.attrBits - 1 - k) := by
  obtain ⟨hbits, -⟩ := Geometry.attrBits_eq_bytes hg
  have h := s.mem.testBit_readBE (k := k) (s.objAddr id) (s.cfg.geom.attrBits / 8) (by omega)
  rw [← hbits] at h
  exact h.symm

theorem State.getLsbD_attrWord (hg : s.cfg.geom = geometryOf s.cfg.version) (hk : k < s.cfg.geom.attrBits) :
    (s.attrWord id).getLsbD (s.cfg.geom.attrBits - 1 - k) = s.attrOf id k := by
  obtain ⟨-, hle⟩ := Geometry.attrBits_eq_bytes hg
  have hlt : s.cfg.geom.attrBits - 1 - k < 48 := by omega
  rw [State.attrWord, BitVec.getLsbD_ofNat, State.attrOf_eq_testBit hg hk, decide_eq_true hlt, Bool.true_and]

/-- After the attributes are replaced, the attributes are the bits of the new word. -/
theorem State.attrOf_withAttrs (hg : s.cfg.geom = geometryOf s.cfg.version) (hk : k < s.cfg.geom.attrBits)
    (v : BitVec 48) : (s.withAttrs id v).attrOf id k = v.getLsbD (s.cfg.geom.attrBits - 1 - k) := by
  obtain ⟨hbits, -⟩ := Geometry.attrBits_eq_bytes hg
  have hlt : s.cfg.geom.attrBits - 1 - k < 8 * (s.cfg.geom.attrBits / 8) := by omega
  have hread : (s.withAttrs id v).mem.readBE (s.objAddr id) (s.cfg.geom.attrBits / 8) =
      v.toNat % 256 ^ (s.cfg.geom.attrBits / 8) := Memory.readBE_writeBE_same ..
  rw [State.attrOf_eq_testBit (s := s.withAttrs id v) hg hk, State.objAddr_withAttrs, State.cfg_withAttrs,
    hread, show 256 = 2 ^ 8 from rfl, ← Nat.pow_mul, Nat.testBit_mod_two_pow, decide_eq_true hlt, Bool.true_and,
    BitVec.testBit_toNat]

/-! ### The accesses -/

theorem checkObject_ok (h : id ≠ 0#16) (s : State) : checkObject id s = .ok () s := by
  rw [checkObject, if_neg h, M.pure_apply]

/-- The two accesses of 32 and 16 bits make one value of 48 bits (R204). -/
theorem attrs_ok (hg : s.cfg.geom = geometryOf s.cfg.version) (h : s.hasAttrs id) :
    attrs id s = .ok (s.attrWord id) s := by
  obtain ⟨h0, hr⟩ := h
  rw [attrs, M.bind_ok (checkObject_ok h0 s), State.attrWord]
  rcases Geometry.attrBits_cases hg with ⟨hearlier, hbits⟩ | ⟨hearlier, hbits⟩ <;> rw [hbits] at hr ⊢
  · simp [memRead_ok hr, hearlier]
  · have hfirst : s.inRange (s.objAddr id) 4 := Nat.le_trans (by omega) hr
    have hsecond : s.inRange (s.objAddr id + 4) 2 := hr
    have hvalue : s.mem.readBE (s.objAddr id) 6 =
        s.mem.readBE (s.objAddr id) 4 * 65536 + s.mem.readBE (s.objAddr id + 4) 2 := s.mem.readBE_add _ 4 2
    simp [memRead_ok hfirst, memRead_ok hsecond, hearlier, hvalue]

theorem attrMask_ok (h : attr.toNat < s.cfg.geom.attrBits) :
    attrMask attr s = .ok (BitVec.twoPow 48 (s.cfg.geom.attrBits - 1 - attr.toNat)) s := by
  simp [attrMask, Nat.not_le.2 h, BitVec.twoPow]

/-- The two writes of 32 and 16 bits are one write of 48 bits (R206). -/
theorem setAttrs_ok (hg : s.cfg.geom = geometryOf s.cfg.version) (h : s.hasAttrs id) (v : BitVec 48) :
    setAttrs id v s = .ok () (s.withAttrs id v) := by
  obtain ⟨-, hr⟩ := h
  rw [setAttrs, State.withAttrs]
  rcases Geometry.attrBits_cases hg with ⟨hearlier, hbits⟩ | ⟨hearlier, hbits⟩ <;> rw [hbits] at hr ⊢
  · simp [hearlier, memWrite_ok hr]
  · have hfirst : s.inRange (s.objAddr id) 4 := Nat.le_trans (by omega) hr
    have hsecond : s.inRange (s.objAddr id + 4) 2 := hr
    have hwrite : (s.writeMem (s.objAddr id) 4 (v.toNat / 65536)).writeMem (s.objAddr id + 4) 2 (v.toNat % 65536) =
        s.writeMem (s.objAddr id) 6 v.toNat := by
      rw [State.writeMem, State.writeMem, State.writeMem, s.mem.writeBE_add _ 4 2, ← Memory.writeBE_mod _ _ 2 v.toNat]
      rfl
    have hsecond' : (s.writeMem (s.objAddr id) 4 (v.toNat / 65536)).inRange (s.objAddr id + 4) 2 := hr
    simp [hearlier, checkRange_ok hfirst, checkRange_ok hsecond, memWrite_ok hfirst, memWrite_ok hsecond', hwrite]

/-! ### The instructions -/

/-- `TEST_ATTR` is a branch on the bit (R210). -/
theorem bodyOf_testAttr {args : Args2} (hg : s.cfg.geom = geometryOf s.cfg.version) (h : s.hasAttrs obj)
    (ha : attr.toNat < s.cfg.geom.attrBits) :
    bodyOf (.testAttr args) (obj :: attr :: more) s = branch (s.attrOf obj attr.toNat) s := by
  obtain ⟨-, hle⟩ := Geometry.attrBits_eq_bytes hg
  have hmask : BitVec.twoPow 48 (s.cfg.geom.attrBits - 1 - attr.toNat) ≠ 0#48 := fun h0 => by
    have hlt : s.cfg.geom.attrBits - 1 - attr.toNat < 48 := by omega
    simpa [hlt] using congrArg (·.getLsbD (s.cfg.geom.attrBits - 1 - attr.toNat)) h0
  have htest : s.attrOf obj attr.toNat = true ↔
      s.attrWord obj &&& BitVec.twoPow 48 (s.cfg.geom.attrBits - 1 - attr.toNat) ≠ 0#48 := by
    rw [BitVec.and_twoPow, State.getLsbD_attrWord hg ha]
    split
    · next hset => exact iff_of_true hset hmask
    · next hset => exact iff_of_false hset (not_not.2 rfl)
  exact (M.bind_ok (attrs_ok hg h) _).trans
    ((M.bind_ok (attrMask_ok ha) _).trans (congrFun (branch_decide htest) s))

/-- `SET_ATTR` and `CLEAR_ATTR` replace the word of attributes by one that differs from it in the named bit alone. -/
theorem bodyOf_changeAttr {args : Args2} (hi : i = .setAttr args ∧ b = true ∨ i = .clearAttr args ∧ b = false)
    (hg : s.cfg.geom = geometryOf s.cfg.version) (h : s.hasAttrs obj) (ha : attr.toNat < s.cfg.geom.attrBits) :
    ∃ v, bodyOf i (obj :: attr :: more) s = .ok () (s.withAttrs obj v) ∧
      ∀ j < 48, v.getLsbD j =
        if j = s.cfg.geom.attrBits - 1 - attr.toNat then b else (s.attrWord obj).getLsbD j := by
  rcases hi with ⟨rfl, rfl⟩ | ⟨rfl, rfl⟩
  all_goals
    refine ⟨_, (M.bind_ok (attrs_ok hg h) _).trans ((M.bind_ok (attrMask_ok ha) _).trans (setAttrs_ok hg h _)),
      fun j hj => ?_⟩
    by_cases hbit : j = s.cfg.geom.attrBits - 1 - attr.toNat
    · subst hbit
      simp [hj]
    · simp [hj, hbit]

/-- Settles O22: the attributes are one word, of which `TEST_ATTR` tests one bit and the other two change one. -/
theorem attributesAreBitsOfTheRecord : Obligations.AttributesAreBitsOfTheRecord := by
  intro args s t obj attr more h ha hg
  refine ⟨fun u he hb => ?test, fun i b hi he => ?change⟩ <;> obtain ⟨j, rfl⟩ := State.entered_state he
  case test => exact exec_of_body_branch he (bodyOf_testAttr hg h ha) hb
  case change =>
    obtain ⟨v, hbody, hv⟩ := bodyOf_changeAttr (s := (s.advance _).setStack (s.stack.drop j)) hi hg h ha
    obtain ⟨-, hle⟩ := Geometry.attrBits_eq_bytes hg
    have hnew {k : Nat} (hk : k < s.cfg.geom.attrBits) :
        (s.withAttrs obj v).attrOf obj k = if k = attr.toNat then b else s.attrOf obj k := by
      have hnumber : s.cfg.geom.attrBits - 1 - k = s.cfg.geom.attrBits - 1 - attr.toNat ↔ k = attr.toNat := by omega
      rw [State.attrOf_withAttrs hg hk, ← State.getLsbD_attrWord hg hk]
      exact (hv _ (by omega)).trans (ite_congr (propext hnumber) (fun _ => rfl) fun _ => rfl)
    refine ⟨_, (exec_of_entered he).trans (finish_ok hbody), ?_, fun k hk hne => ?_, fun a ha => ?_⟩
    · exact (hnew ha).trans (if_pos rfl)
    · exact (hnew hk).trans (if_neg hne)
    · exact Memory.byte_writeBE_other _ _ _ _ ha

end Sys2Proof.Machine
end

section
/-! The links of an object read (R202, R216 to R219), and how `REMOVE_OBJ` and `INSERT_OBJ` complete (R207, R213 to
R215): what each writes is decided by what `Unlink` answers. -/

namespace Sys2Proof.Machine

variable {s t w : State} {id obj dest v : Word} {more : List Word} {off : Geometry → Nat}

/-! ### Links read -/

/-- Resolving operands touches no link. -/
theorem link_of_entered {i : Instr} {vs : List Word} (he : s.entered i = some (vs, t)) (h : s.hasLink id off) :
    link id off t = .ok (s.linkOf id off) t := by
  obtain ⟨j, rfl⟩ := State.entered_state he
  exact link_ok (s := (s.advance _).setStack (s.stack.drop j)) h

/-- Settles O23: each reads one link, and then stores it, stores it and branches, or branches. -/
theorem linksAreReadAndTested : Obligations.LinksAreReadAndTested := by
  intro args x s t u obj b more
  refine ⟨fun he hl hu => ?getParent, fun he hl hu => ?getSibling, fun he hl hu => ?getChild, fun he hl hu => ?jin⟩
    <;> refine (exec_of_entered he).trans (finish_ok ((M.bind_ok (link_of_entered he hl) _).trans ?_))
  case getParent => exact store_ok hu
  case getSibling | getChild => exact storeBranch_ok hu
  case jin => exact branch_ok hu

/-! ### Which links can be written -/

theorem State.hasLink.takesLink_zero (h : s.hasLink id off) : s.takesLink id off 0#16 :=
  ⟨h, fun _ => Nat.zero_le _⟩

/-- `Unlink` moves no link field. -/
theorem takesLink_unlink (hw : unlink obj t = .ok () w) : w.takesLink id off v ↔ t.takesLink id off v := by
  rcases unlink_eq_ok hw with ⟨-, rfl⟩ | ⟨-, -, -, rfl⟩ | ⟨_, _, -, -, -, -, rfl⟩ <;> exact Iff.rfl

/-! ### `REMOVE_OBJ` -/

theorem exec_removeObj_zero {x : Operand} (he : s.entered (.removeObj x) = some ([0#16], t)) :
    exec (.removeObj x) s = .next t := exec_of_entered he

theorem bodyOf_removeObj {x : Operand} (h0 : obj ≠ 0#16) : bodyOf (.removeObj x) (obj :: more) = (do
    unlink obj
    setLink obj Geometry.offParent 0#16
    setLink obj Geometry.offSibling 0#16) := if_neg h0

/-- Where `Unlink` completes, the parent and the sibling are then written with 0 (R213). -/
theorem exec_removeObj {x : Operand} (he : s.entered (.removeObj x) = some ([obj], t))
    (hp : t.hasLink obj Geometry.offParent) (hs : t.hasLink obj Geometry.offSibling)
    (hw : unlink obj t = .ok () w) :
    exec (.removeObj x) s =
      .next ((w.linked obj Geometry.offParent 0#16).linked obj Geometry.offSibling 0#16) := by
  have hparent := (takesLink_unlink hw).2 hp.takesLink_zero
  have hsibling := (takesLink_unlink hw).2 hs.takesLink_zero
  rw [exec_of_entered he, bodyOf_removeObj hp.1]
  exact finish_ok ((M.bind_ok hw _).trans ((M.bind_ok (setLink_ok hparent) _).trans (setLink_ok hsibling)))

/-- Settles O24: the three ways `Unlink` completes, each followed by the two writes of 0. -/
theorem removeObjUnlinks : Obligations.RemoveObjUnlinks := by
  intro x s t obj he
  refine ⟨fun h0 => exec_removeObj_zero (h0 ▸ he), fun hp hs =>
    ⟨fun hnone => ?none, fun p sib hpar h0 hsib => ⟨fun ht hc => ?first, ?later⟩⟩⟩
  case none => exact exec_removeObj he hp hs (unlink_none hp hnone)
  case first =>
    subst hsib
    exact exec_removeObj he hp hs (unlink_first hp hpar h0 hs hc ht)
  case later =>
    subst hsib
    intro first path elder hpc hc hne hpath hlen ht
    exact exec_removeObj he hp hs (unlink_later hp hpar h0 hs hpc hc hne hpath hlen ht)

/-! ### `INSERT_OBJ` -/

/-- The guard: the second link is read where the first test holds (R214). -/
theorem alreadyFirstChild_ok (hp : t.hasLink obj Geometry.offParent)
    (hc : t.linkOf obj Geometry.offParent = dest → t.hasLink dest Geometry.offChild) :
    alreadyFirstChild obj dest t =
      .ok (decide (t.linkOf obj Geometry.offParent = dest ∧ t.linkOf dest Geometry.offChild = obj)) t := by
  rw [alreadyFirstChild, M.bind_ok (link_ok hp)]
  by_cases h : t.linkOf obj Geometry.offParent = dest
  · simp [h, link_ok (hc h)]
  · simp [h]

theorem exec_insertObj_zero {args : Args2} (he : s.entered (.insertObj args) = some (obj :: dest :: more, t))
    (h : obj = 0#16 ∨ dest = 0#16) : exec (.insertObj args) s = .next t := by
  rw [exec_of_entered he, bodyOf, need2, if_pos h]
  rfl

theorem exec_insertObj_already {args : Args2}
    (he : s.entered (.insertObj args) = some (obj :: dest :: more, t)) (hp : t.hasLink obj Geometry.offParent)
    (hc : t.hasLink dest Geometry.offChild) (hpar : t.linkOf obj Geometry.offParent = dest)
    (hchild : t.linkOf dest Geometry.offChild = obj) : exec (.insertObj args) s = .next t := by
  have hbody : bodyOf (.insertObj args) (obj :: dest :: more) t = .ok () t := by
    simp [bodyOf, need2, hp.1, hc.1, alreadyFirstChild_ok hp fun _ => hc, hpar, hchild]
  exact (exec_of_entered he).trans (finish_ok hbody)

/-- Where the object is not the first child already, `INSERT_OBJ` begins with `Unlink` (R214). -/
theorem bodyOf_insertObj {args : Args2} (hp : t.hasLink obj Geometry.offParent) (hd : dest ≠ 0#16)
    (hc : t.linkOf obj Geometry.offParent = dest → t.hasLink dest Geometry.offChild)
    (hnot : ¬ (t.linkOf obj Geometry.offParent = dest ∧ t.linkOf dest Geometry.offChild = obj)) :
    bodyOf (.insertObj args) (obj :: dest :: more) t = (do
      unlink obj
      setLink obj Geometry.offSibling (← link dest Geometry.offChild)
      setLink dest Geometry.offChild obj
      setLink obj Geometry.offParent dest) t := by
  rw [bodyOf, need2, if_neg (not_or.2 ⟨hp.1, hd⟩)]
  refine (M.bind_ok (alreadyFirstChild_ok hp hc) _).trans ?_
  rw [decide_eq_false hnot]
  rfl

/-- Where `Unlink` completes, three links are then written (R214, R215). -/
theorem exec_insertObj {args : Args2} (he : s.entered (.insertObj args) = some (obj :: dest :: more, t))
    (hp : t.hasLink obj Geometry.offParent) (hs : t.hasLink obj Geometry.offSibling)
    (hc : t.hasLink dest Geometry.offChild)
    (hnot : ¬ (t.linkOf obj Geometry.offParent = dest ∧ t.linkOf dest Geometry.offChild = obj))
    (hw : unlink obj t = .ok () w)
    (hfit : w.cfg.geom.earlier = true →
      obj.toNat ≤ 255 ∧ dest.toNat ≤ 255 ∧ (w.linkOf dest Geometry.offChild).toNat ≤ 255) :
    exec (.insertObj args) s =
      .next (((w.linked obj Geometry.offSibling (w.linkOf dest Geometry.offChild)).linked dest
        Geometry.offChild obj).linked obj Geometry.offParent dest) := by
  have field {id : Word} {off : Geometry → Nat} (h : t.hasLink id off) : w.hasLink id off :=
    ((takesLink_unlink hw).2 h.takesLink_zero).1
  have hsibling : w.takesLink obj Geometry.offSibling (w.linkOf dest Geometry.offChild) :=
    ⟨field hs, fun h => (hfit h).2.2⟩
  have hchild : w.takesLink dest Geometry.offChild obj := ⟨field hc, fun h => (hfit h).1⟩
  have hparent : w.takesLink obj Geometry.offParent dest := ⟨field hp, fun h => (hfit h).2.1⟩
  rw [exec_of_entered he]
  exact finish_ok (by simp [bodyOf_insertObj hp hc.1 (fun _ => hc) hnot, hw, link_ok (field hc), setLink_ok, hsibling,
    hchild, hparent])

/-- Settles O25: the guard, or the three ways `Unlink` completes, each followed by the three writes. -/
theorem insertObjLinksFirst : Obligations.InsertObjLinksFirst := by
  intro args s t obj dest more he
  refine ⟨exec_insertObj_zero he, fun hp hs hc =>
    ⟨fun hpar hchild _ => exec_insertObj_already he hp hc hpar hchild, fun p sib w hpar hnot hsib hw hfit => ?_⟩⟩
  subst hpar hsib
  refine exec_insertObj he hp hs hc hnot ?unlinked hfit
  case unlinked =>
    rcases hw with ⟨h0, rfl⟩ | ⟨h0, ht, hfirst, rfl⟩ |
      ⟨h0, hpc, first, path, elder, hfirst, hne, hpath, hlen, ht, rfl⟩
    · exact unlink_none hp h0
    · exact unlink_first hp rfl h0 hs hfirst ht
    · exact unlink_later hp rfl h0 hs hpc hfirst hne hpath hlen ht

end Sys2Proof.Machine
end

section
/-! The faults of the object table that come before any write (R201, R205, R207, R208, R235 to R240): each instruction
of a group begins with the same checked reads, and the first of them that fails decides. -/

namespace Sys2Proof.Machine

variable {i : Instr} {s t : State} {id obj p attr : Word} {more : List Word} {off : Geometry → Nat}

/-! ### The operations -/

theorem checkObject_zero (s : State) : checkObject 0#16 s = .error (.fatal (.invalidObject 0#16)) s := rfl

theorem link_zero (off : Geometry → Nat) (s : State) :
    link 0#16 off s = .error (.fatal (.invalidObject 0#16)) s := M.bind_error (checkObject_zero s) _

theorem attrs_zero (s : State) : attrs 0#16 s = .error (.fatal (.invalidObject 0#16)) s :=
  M.bind_error (checkObject_zero s) _

theorem propTable_zero (s : State) : propTable 0#16 s = .error (.fatal (.invalidObject 0#16)) s :=
  M.bind_error (checkObject_zero s) _

theorem propFirst_zero (s : State) : propFirst 0#16 s = .error (.fatal (.invalidObject 0#16)) s :=
  M.bind_error (propTable_zero s) _

theorem propFind_zero (p : Word) (s : State) : propFind 0#16 p s = .error (.fatal (.invalidObject 0#16)) s :=
  M.bind_error (propFirst_zero s) _

theorem attrMask_fatal (h : s.cfg.geom.attrBits ≤ attr.toNat) :
    attrMask attr s = .error (.fatal (.invalidAttribute attr)) s := by
  simp [attrMask, h]

theorem checkProperty_ok (h : s.propNumber p) : checkProperty p s = .ok () s := by
  obtain ⟨h0, hmax⟩ := h
  simp [checkProperty, h0, Nat.not_lt.2 hmax]

theorem checkProperty_fatal (h : ¬ s.propNumber p) : checkProperty p s = .error (.fatal (.invalidProperty p)) s := by
  have hout : p = 0#16 ∨ s.cfg.geom.maxProp < p.toNat := by
    rw [State.propNumber, not_and_or, not_not, Nat.not_le] at h
    exact h
  simp [checkProperty, hout]

theorem propFind_ok {found : Option PropEntry} (h : s.findProp obj p = some found) :
    propFind obj p s = .ok found s := by
  have hreads := propFind_reads obj p s
  rwa [h] at hreads

/-- `Unlink` is fatal where the walk passes the object nowhere: the chain ends, or the limit is passed (R207, R208). -/
theorem unlink_corrupt {path : List Word} {last : Word} (hp : t.hasLink obj Geometry.offParent)
    (hs : t.hasLink obj Geometry.offSibling) (h0 : t.linkOf obj Geometry.offParent ≠ 0#16)
    (hc : t.hasLink (t.linkOf obj Geometry.offParent) Geometry.offChild)
    (hwalk : t.WalkedPast obj (t.linkOf (t.linkOf obj Geometry.offParent) Geometry.offChild) path last)
    (hlast : last = 0#16 ∨ last ≠ obj ∧ path.length = t.walkLimit + 1) :
    unlink obj t = .error (.fatal (.treeCorrupt obj)) t := by
  have hne : last ≠ obj := hlast.elim (fun h => h ▸ hp.1.symm) And.left
  have hfirst : t.linkOf (t.linkOf obj Geometry.offParent) Geometry.offChild ≠ obj := by
    cases path with
    | nil => exact Eq.trans_ne hwalk hne
    | cons id path => exact Eq.trans_ne hwalk.1 hwalk.2.1
  simp [unlink, link_ok hp, h0, link_ok hs, link_ok hc, hfirst, walkChain_corrupt path _ hwalk hlast hne]

/-! ### How the instructions begin -/

/-- Each of `TEST_ATTR`, `SET_ATTR` and `CLEAR_ATTR` reads the attributes, then makes the mask (R210 to R212). -/
theorem bodyOf_attr_eq {args : Args2} (hi : i = .testAttr args ∨ i = .setAttr args ∨ i = .clearAttr args)
    (obj attr : Word) (more : List Word) :
    ∃ f : BitVec 48 → BitVec 48 → M Unit,
      bodyOf i (obj :: attr :: more) = (attrs obj >>= fun set => attrMask attr >>= f set) := by
  rcases hi with rfl | rfl | rfl <;> exact ⟨_, rfl⟩

/-- A property instruction checks the number, then searches the list, and only then differs from the others (R235 to
R240). -/
theorem bodyOf_property_eq {args : Args2} {ops : List Operand}
    (hi : i = .getProp args ∨ i = .getPropAddr args ∨ i = .getNextProp args ∨ i = .putProp ops ∧ more ≠ [])
    (hp : i = .getNextProp args → p ≠ 0#16) (obj : Word) :
    ∃ f : Option PropEntry → M Unit,
      bodyOf i (obj :: p :: more) = (checkProperty p >>= fun _ => propFind obj p >>= f) ∧
      (i = .getNextProp args ∨ i = .putProp ops → f none = raise (.propertyNotFound p)) ∧
      (i = .getProp args ∨ i = .putProp ops → ∀ r : PropEntry, r.len ≠ 1 → r.len ≠ 2 →
        f (some r) = raise (.badPropertyLength r.len)) := by
  rcases hi with rfl | rfl | rfl | ⟨rfl, hmore⟩
  · refine ⟨_, rfl, by simp, fun _ r h1 h2 => ?_⟩
    simp [h1, h2]
  · exact ⟨_, rfl, by simp, by simp⟩
  · exact ⟨_, if_neg (hp rfl), fun _ => rfl, by simp⟩
  · obtain ⟨v, rest, rfl⟩ := List.exists_cons_of_ne_nil hmore
    refine ⟨_, rfl, fun _ => rfl, fun _ r h1 h2 => ?_⟩
    simp [h1, h2]

/-- The instructions that read a link or the property table of their first operand begin with the check of it (R201). -/
theorem bodyOf_zero_object {args : Args2} {x : Operand}
    (hi : i = .getParent x ∨ i = .getSibling x ∨ i = .getChild x ∨ i = .printObj x ∨ i = .jin args ∧ more ≠ [])
    (s : State) : bodyOf i (0#16 :: more) s = .error (.fatal (.invalidObject 0#16)) s := by
  rcases hi with rfl | rfl | rfl | rfl | ⟨rfl, hmore⟩
  · exact M.bind_error (link_zero _ s) _
  · exact M.bind_error (link_zero _ s) _
  · exact M.bind_error (link_zero _ s) _
  · exact M.bind_error (propTable_zero s) _
  · obtain ⟨b, rest, rfl⟩ := List.exists_cons_of_ne_nil hmore
    exact M.bind_error (link_zero _ s) _

/-! ### The faults -/

theorem attr_faults {args : Args2} (he : s.entered i = some (obj :: attr :: more, t))
    (hi : i = .testAttr args ∨ i = .setAttr args ∨ i = .clearAttr args) :
    (obj = 0#16 → exec i s = .next (takeFatal (.invalidObject 0#16) t)) ∧
    (s.hasAttrs obj → s.cfg.geom = geometryOf s.cfg.version → s.cfg.geom.attrBits ≤ attr.toNat →
      exec i s = .next (takeFatal (.invalidAttribute attr) t)) := by
  obtain ⟨f, hbody⟩ := bodyOf_attr_eq hi obj attr more
  rw [exec_of_entered he, hbody]
  refine ⟨?zero, fun h hg ha => finish_fatal ?number⟩
  case zero =>
    rintro rfl
    exact finish_fatal (M.bind_error (attrs_zero t) _)
  case number =>
    obtain ⟨j, rfl⟩ := State.entered_state he
    refine (M.bind_ok (attrs_ok (s := (s.advance _).setStack (s.stack.drop j)) hg h) _).trans (M.bind_error ?_ _)
    exact attrMask_fatal ha

theorem property_faults {args : Args2} {ops : List Operand} (he : s.entered i = some (obj :: p :: more, t))
    (hi : i = .getProp args ∨ i = .getPropAddr args ∨ i = .getNextProp args ∨ i = .putProp ops ∧ more ≠ []) :
    (¬ t.propNumber p → (i = .getNextProp args → p ≠ 0#16) →
      exec i s = .next (takeFatal (.invalidProperty p) t)) ∧
    (t.propNumber p ∨ i = .getNextProp args ∧ p = 0#16 → obj = 0#16 →
      exec i s = .next (takeFatal (.invalidObject 0#16) t)) ∧
    (t.propNumber p → t.findProp obj p = some none → i = .getNextProp args ∨ i = .putProp ops →
      exec i s = .next (takeFatal (.propertyNotFound p) t)) ∧
    (∀ r, t.propNumber p → t.findProp obj p = some (some r) → r.len ≠ 1 → r.len ≠ 2 →
      i = .getProp args ∨ i = .putProp ops → exec i s = .next (takeFatal (.badPropertyLength r.len) t)) := by
  have nonzero (h : t.propNumber p) : i = .getNextProp args → p ≠ 0#16 := fun _ => h.1
  rw [exec_of_entered he]
  refine ⟨fun hp hnext => ?number, ?object, fun hp hfind hgroup => ?missing, fun r hp hfind h1 h2 hgroup => ?length⟩
  case number =>
    obtain ⟨f, hbody, -⟩ := bodyOf_property_eq hi hnext obj
    rw [hbody]
    exact finish_fatal (M.bind_error (checkProperty_fatal hp) _)
  case object =>
    rintro (hp | ⟨rfl, rfl⟩) rfl
    · obtain ⟨f, hbody, -⟩ := bodyOf_property_eq hi (nonzero hp) 0#16
      rw [hbody]
      exact finish_fatal ((M.bind_ok (checkProperty_ok hp) _).trans (M.bind_error (propFind_zero p t) _))
    · exact finish_fatal (M.bind_error (propFirst_zero t) _)
  case missing =>
    obtain ⟨f, hbody, hnone, -⟩ := bodyOf_property_eq hi (nonzero hp) obj
    rw [hbody]
    refine finish_fatal ((M.bind_ok (checkProperty_ok hp) _).trans ((M.bind_ok (propFind_ok hfind) _).trans ?_))
    rw [hnone hgroup, raise_apply]
  case length =>
    obtain ⟨f, hbody, -, hsome⟩ := bodyOf_property_eq hi (nonzero hp) obj
    rw [hbody]
    refine finish_fatal ((M.bind_ok (checkProperty_ok hp) _).trans ((M.bind_ok (propFind_ok hfind) _).trans ?_))
    rw [hsome hgroup r h1 h2, raise_apply]

/-- Where `Unlink` is fatal before any write, so are both instructions of the tree. -/
theorem tree_faults {args : Args2} {x : Operand} {c : Cause} (he : s.entered i = some (obj :: more, t))
    (hi : i = .removeObj x ∨ i = .insertObj args ∧ (∃ dest rest, more = dest :: rest ∧ dest ≠ 0#16 ∧
      (t.linkOf obj Geometry.offParent = dest → t.linkOf dest Geometry.offChild ≠ obj)))
    (hp : t.hasLink obj Geometry.offParent)
    (hc : t.hasLink (t.linkOf obj Geometry.offParent) Geometry.offChild)
    (hunlink : unlink obj t = .error (.fatal c) t) : exec i s = .next (takeFatal c t) := by
  rw [exec_of_entered he]
  rcases hi with rfl | ⟨rfl, dest, rest, rfl, hd, hnot⟩ <;> refine finish_fatal ?_
  · rw [bodyOf_removeObj hp.1]
    exact M.bind_error hunlink _
  · exact (bodyOf_insertObj hp hd (fun h => h ▸ hc) (not_and.2 hnot)).trans (M.bind_error hunlink _)

/-- Settles O30: each instruction begins with checked reads, and the first that fails raises before any write. -/
theorem objectTableFaults : Obligations.ObjectTableFaults := by
  intro args x ops i s t obj p more
  refine ⟨fun he => ⟨attr_faults he, property_faults he⟩, fun he hi => ?zero,
    fun he hi hp hs h0 hc path last hwalk hlast => ?corrupt⟩
  case zero => exact (exec_of_entered he).trans (finish_fatal (bodyOf_zero_object hi t))
  case corrupt => exact tree_faults he hi hp hc (unlink_corrupt hp hs h0 hc hwalk hlast)

end Sys2Proof.Machine
end

section
/-! The property instructions complete (R235 to R240): each resolves its property or its address to an entry of the
list, and then makes one store or one write. -/

namespace Sys2Proof.Machine

variable {α : Type} {i : Instr} {vs more : List Word} {s t u : State} {obj p v addr : Word} {e : Nat}
  {found : Option PropEntry}

/-! ### The operations -/

theorem Reads.eq_ok {m : M α} {r : Option α} {x : α} (h : Reads m s r) (hr : r = some x) : m s = .ok x s := by
  subst hr
  exact h

theorem propDefault_ok (h : s.inRange (s.cfg.objTab.toNat + 2 * (p.toNat - 1)) 2) :
    propDefault p s = .ok (s.wordAt (s.cfg.objTab.toNat + 2 * (p.toNat - 1))) s :=
  memWord_ok h

/-- The number of the entry at an address, 0 at the end of the list (R238). -/
theorem entryNumber_ok (h : s.entryAt e = some none ∧ v = 0#16 ∨
    ∃ r, s.entryAt e = some (some r) ∧ v = BitVec.ofNat 16 r.num) : entryNumber e s = .ok v s := by
  rcases h with ⟨he, rfl⟩ | ⟨r, he, rfl⟩ <;> exact M.bind_ok ((propEntry_reads e s).eq_ok he) _

/-- A write of one byte takes the low byte of the value (R63). -/
theorem State.writeMem_low_byte (s : State) (a : Nat) (v : Word) :
    s.writeMem a 1 (v.extractLsb' 0 8).toNat = s.writeMem a 1 v.toNat := by
  have hlow : BitVec.ofNat 8 (v.extractLsb' 0 8).toNat = BitVec.ofNat 8 v.toNat := by
    rw [BitVec.ofNat_toNat, BitVec.setWidth_eq, ← BitVec.setWidth_eq_extractLsb' (by decide), BitVec.ofNat_toNat]
  rw [State.writeMem, State.writeMem, Memory.writeBE, Memory.writeBE, hlow]
  rfl

/-! ### The instructions -/

/-- An instruction that checks a property number and searches the list completes as it does with what it found. -/
theorem exec_of_findProp {f : Option PropEntry → M Unit} (he : s.entered i = some (vs, t))
    (hbody : bodyOf i vs = (checkProperty p >>= fun _ => propFind obj p >>= f)) (hp : t.propNumber p)
    (hfind : t.findProp obj p = some found) (hf : f found t = .ok () u) : exec i s = .next u := by
  rw [exec_of_entered he, hbody]
  exact finish_ok ((M.bind_ok (checkProperty_ok hp) _).trans ((M.bind_ok (propFind_ok hfind) _).trans hf))

/-- Settles O27: the search answers an entry, of which one or two bytes are read, or none, and the default is read. -/
theorem getPropReadsOrDefaults : Obligations.GetPropReadsOrDefaults := by
  intro args s t u obj p v more he hp hst
  refine ⟨fun r hfind => ⟨fun hlen hr hv => ?byte, fun hlen hr hv => ?word⟩, fun hfind hr hv => ?default⟩
    <;> subst hv <;> refine exec_of_findProp he rfl hp hfind ?_
  case byte =>
    simp only [hlen, if_true]
    refine (M.bind_ok (memByte_ok hr) _).trans (store_ok ?_)
    rwa [BitVec.setWidth_eq_append (by decide)]
  case word =>
    simp only [hlen, if_true, OfNat.ofNat_ne_one, if_false]
    refine (M.bind_ok (memWord_ok hr) _).trans (store_ok ?_)
    rwa [State.wordAt_eq]
  case default => exact (M.bind_ok (propDefault_ok hr) _).trans (store_ok hst)

/-- `GET_NEXT_PROP` completes with the number of the entry it reads (R238). -/
theorem exec_getNextProp {args : Args2} (he : s.entered (.getNextProp args) = some (obj :: p :: more, t))
    (hentry : p = 0#16 ∧ t.propStart obj = some e ∨
      t.propNumber p ∧ ∃ r, t.findProp obj p = some (some r) ∧ e = r.next)
    (hnum : entryNumber e t = .ok v t) (hst : t.stored v = some u) : exec (.getNextProp args) s = .next u := by
  have hstore : (entryNumber e >>= store) t = .ok () u := (M.bind_ok hnum _).trans (store_ok hst)
  rcases hentry with ⟨rfl, hstart⟩ | ⟨hp, r, hfind, rfl⟩
  · rw [exec_of_entered he]
    exact finish_ok ((M.bind_ok ((propFirst_reads obj t).eq_ok hstart) _).trans hstore)
  · exact exec_of_findProp he (if_neg hp.1) hp hfind hstore

/-- `GET_PROP_LEN` completes with the length that the byte before the address gives (R239). -/
theorem exec_getPropLen {x : Operand} (he : s.entered (.getPropLen x) = some ([addr], t)) (h0 : addr ≠ 0#16)
    (hr : t.inRange (addr.toNat - 1) 1)
    (hst : t.stored (BitVec.ofNat 16 (lengthBefore t.cfg.geom.earlier (t.mem.byte (addr.toNat - 1)))) = some u) :
    exec (.getPropLen x) s = .next u := by
  have hbody : bodyOf (.getPropLen x) [addr] = _ := if_neg h0
  rw [exec_of_entered he, hbody]
  exact finish_ok ((M.bind_ok (memByte_ok hr) _).trans (store_ok hst))

/-- Settles O28: the word each stores is the address found or 0, the number of the entry read, or the length from the
byte before the address. -/
theorem propertyAddressesSuccessorsLengths : Obligations.PropertyAddressesSuccessorsLengths := by
  intro args x s t u obj p v addr more hst
  refine ⟨fun he hp hv => ?address, fun he ⟨e, hentry, hv⟩ => ?successor, fun he hv => ?length⟩
  case address =>
    rcases hv with ⟨r, hfind, rfl⟩ | ⟨hfind, rfl⟩ <;> exact exec_of_findProp he rfl hp hfind (store_ok hst)
  case successor => exact exec_getNextProp he hentry (entryNumber_ok hv) hst
  case length =>
    rcases hv with ⟨rfl, rfl⟩ | ⟨h0, hr, b, rfl, rfl⟩
    · exact exec_of_body_store he rfl hst
    · exact exec_getPropLen he h0 hr hst

/-- Settles O29: the search answers the entry, whose length says how many bytes of the value are written. -/
theorem putPropOverwritesTheEntry : Obligations.PutPropOverwritesTheEntry := by
  intro ops s t obj p v more r he hp hfind hr
  refine ⟨fun hlen => ?byte, fun hlen => ?word⟩ <;> rw [hlen] at hr <;> refine exec_of_findProp he rfl hp hfind ?_
  case byte =>
    rw [State.writeMem_low_byte]
    simp only [hlen, if_true]
    exact memWrite_ok hr _
  case word =>
    simp only [hlen, if_true, OfNat.ofNat_ne_one, if_false]
    exact memWrite_ok hr _

end Sys2Proof.Machine
end

section
/-! The decompressor of packed text against the relation of the code rules (R250 to R259). Each operation of it only
reads, and is described by when it ends well: the codes at an address, the tokens of a code list given how
abbreviations expand, one abbreviation, the text at an address. -/

namespace Sys2Proof.Machine

variable {α β : Type} {s u : State} {a after d idx : Nat} {c n hi lo : Code} {cs : List Code} {text : List Token}
  {expand : Nat → M (List Token)}

/-! ### Operations that only read -/

/-- An operation that starts by only reading ends well exactly where the reading does and the rest does after it. -/
theorem Keeps.bind_eq_ok {m : M α} (hm : Keeps [] m) {f : α → M β} {b : β} :
    (m >>= f) s = .ok b u ↔ ∃ x, m s = .ok x s ∧ f x s = .ok b u := by
  constructor
  · intro h
    obtain ⟨x, w, hx, hf⟩ := M.bind_eq_ok h
    obtain rfl := hm.same_ok hx
    exact ⟨x, hx, hf⟩
  · rintro ⟨x, hx, hf⟩
    rwa [M.bind_ok hx]

theorem M.pure_eq_ok {x y : α} : (pure x : M α) s = .ok y u ↔ u = s ∧ y = x := by
  rw [M.pure_apply, EStateM.Result.ok.injEq, and_comm, eq_comm, eq_comm (a := x)]

theorem Keeps.bind_pure_eq_ok {m : M α} (hm : Keeps [] m) {f : α → β} {b : β} :
    (do return f (← m) : M β) s = .ok b u ↔ u = s ∧ ∃ x, m s = .ok x s ∧ b = f x := by
  simp only [hm.bind_eq_ok, M.pure_eq_ok, and_left_comm, exists_and_left]

theorem memWord_eq_ok {w : Word} : memWord a s = .ok w u ↔ u = s ∧ s.inRange a 2 ∧ w = s.wordAt a := by
  by_cases h : s.inRange a 2
  · rw [memWord_ok h, ← M.pure_apply, M.pure_eq_ok]
    simp only [h, true_and]
  · simp [memWord_fatal h, h]

/-! ### The codes at an address -/

theorem State.codesAt_iff : s.CodesAt a cs after ↔ s.inRange a 2 ∧
    if (s.wordAt a).getLsbD 15 = true then cs = codesOf (s.wordAt a) ∧ after = a + 2
    else ∃ rest, s.CodesAt (a + 2) rest after ∧ cs = codesOf (s.wordAt a) ++ rest := by
  constructor
  · intro h
    cases h with
    | last _ hr hbit => exact ⟨hr, by rw [if_pos hbit]; exact ⟨rfl, rfl⟩⟩
    | more _ rest _ hr hbit hrest => exact ⟨hr, by rw [hbit]; exact ⟨rest, hrest, rfl⟩⟩
  · rintro ⟨hr, h⟩
    split at h
    · next hbit =>
      obtain ⟨rfl, rfl⟩ := h
      exact .last a hr hbit
    · next hbit =>
      obtain ⟨rest, hrest, rfl⟩ := h
      exact .more a rest after hr (Bool.eq_false_iff.2 hbit) hrest

/-- Words enough to leave memory are all the words a text can have. -/
theorem zcharsFrom_eq_ok {words : Nat} (hwords : s.memSize < a + 2 * words) :
    zcharsFrom words a s = .ok (cs, after) u ↔ u = s ∧ s.CodesAt a cs after := by
  induction words generalizing a cs after u with
  | zero =>
    have hout : ¬ s.inRange a 2 := by rw [State.inRange]; omega
    rw [State.codesAt_iff]
    simp [zcharsFrom, hout]
  | succ words ih =>
    have hmore (rest : List Code) (last : Nat) := ih (a := a + 2) (cs := rest) (after := last) (u := s) (by omega)
    rw [State.codesAt_iff, zcharsFrom, (keeps_memWord a).bind_eq_ok]
    simp only [memWord_eq_ok, true_and, and_assoc, exists_and_left, exists_eq_left]
    rw [and_left_comm]
    refine and_congr_right fun _ => ?_
    split
    · rw [M.pure_eq_ok, Prod.mk.injEq]
    · rw [(keeps_zcharsFrom words (a + 2)).bind_pure_eq_ok]
      simp [Prod.exists, hmore, ← and_assoc]

theorem zchars_eq_ok : zchars a s = .ok (cs, after) u ↔ u = s ∧ s.CodesAt a cs after :=
  zcharsFrom_eq_ok (show s.memSize < a + 2 * (s.memSize + 1) by omega)

/-! ### One code at a time -/

theorem letter_upper (n : Code) : letter 0x41 n = .char (BitVec.ofNat 16 (0x3B + n.toNat)) := by
  rw [letter, Nat.sub_add_comm (by decide)]

theorem letter_lower (c : Code) : letter 0x61 c = .char (BitVec.ofNat 16 (0x5B + c.toNat)) := by
  rw [letter, Nat.sub_add_comm (by decide)]

/-- The ten bits of the escape, the first code the higher five (R256). -/
theorem escape_eq (hi lo : Code) : escape hi lo = BitVec.ofNat 16 (32 * hi.toNat + lo.toNat) := by
  apply BitVec.eq_of_toNat_eq
  rw [escape, BitVec.toNat_setWidth, BitVec.toNat_append, BitVec.toNat_ofNat, Nat.shiftLeft_eq, Nat.mul_comm,
    ← Nat.two_pow_add_eq_or_of_lt lo.isLt]

theorem zdecodeWith_nil : zdecodeWith expand [] = pure [] := zdecodeWith.eq_def expand []

theorem zdecodeWith_space :
    zdecodeWith expand (0#5 :: cs) = (do return .char 0x20#16 :: (← zdecodeWith expand cs)) :=
  zdecodeWith.eq_def expand (0#5 :: cs)

theorem zdecodeWith_abbreviation (h1 : 1 ≤ c.toNat) (h3 : c.toNat ≤ 3) :
    zdecodeWith expand (c :: n :: cs) = (do
      let sub ← expand (abbrevIndex c n)
      return sub ++ (← zdecodeWith expand cs)) := by
  have h0 : c ≠ 0#5 := by bv_omega
  exact (zdecodeWith.eq_def expand (c :: n :: cs)).trans ((if_neg h0).trans (if_pos h3))

theorem zdecodeWith_upper :
    zdecodeWith expand (4#5 :: n :: cs) =
      (do return .char (BitVec.ofNat 16 (0x3B + n.toNat)) :: (← zdecodeWith expand cs)) := by
  rw [← letter_upper]
  exact zdecodeWith.eq_def expand (4#5 :: n :: cs)

theorem zdecodeWith_padding : zdecodeWith expand [5#5] = pure [] := zdecodeWith.eq_def expand [5#5]

theorem zdecodeWith_terminator : zdecodeWith expand (5#5 :: 5#5 :: cs) = pure [] := zdecodeWith.eq_def expand _

theorem zdecodeWith_escape :
    zdecodeWith expand (5#5 :: 6#5 :: hi :: lo :: cs) =
      (do return .char (BitVec.ofNat 16 (32 * hi.toNat + lo.toNat)) :: (← zdecodeWith expand cs)) := by
  rw [← escape_eq]
  exact zdecodeWith.eq_def expand (5#5 :: 6#5 :: hi :: lo :: cs)

theorem zdecodeWith_newline :
    zdecodeWith expand (5#5 :: 7#5 :: cs) = (do return .newline :: (← zdecodeWith expand cs)) :=
  zdecodeWith.eq_def expand (5#5 :: 7#5 :: cs)

theorem zdecodeWith_punctuation (h : 8 ≤ n.toNat) :
    zdecodeWith expand (5#5 :: n :: cs) = (do return .char (punct n) :: (← zdecodeWith expand cs)) := by
  obtain ⟨h5, h6, h7⟩ : n ≠ 5#5 ∧ n ≠ 6#5 ∧ n ≠ 7#5 := by bv_omega
  exact (zdecodeWith.eq_def expand (5#5 :: n :: cs)).trans
    ((if_neg h5).trans ((if_neg h6).trans ((if_neg h7).trans (if_pos h))))

theorem zdecodeWith_lower (h : 6 ≤ c.toNat) :
    zdecodeWith expand (c :: cs) =
      (do return .char (BitVec.ofNat 16 (0x5B + c.toNat)) :: (← zdecodeWith expand cs)) := by
  obtain ⟨h0, h3, h4, h5⟩ : c ≠ 0#5 ∧ ¬ c.toNat ≤ 3 ∧ c ≠ 4#5 ∧ c ≠ 5#5 := by bv_omega
  rw [← letter_lower]
  exact (zdecodeWith.eq_def expand (c :: cs)).trans
    ((if_neg h0).trans ((if_neg h3).trans ((if_neg h4).trans (if_neg h5))))

/-! ### The relation of the code rules -/

/-- The codes of abbreviation `idx`, whose entry is a word address (R254). -/
def State.AbbrevCodes (s : State) (idx : Nat) (sub : List Code) : Prop :=
  s.inRange (s.cfg.abbrevTab.toNat + 2 * idx) 2 ∧
    ∃ after, s.CodesAt (2 * (s.wordAt (s.cfg.abbrevTab.toNat + 2 * idx)).toNat) sub after

/-- What abbreviation `idx` stands for where abbreviations nest so deep (R254). -/
def State.Expands (s : State) : Nat → Nat → List Token → Prop
  | 0, _, _ => False
  | d + 1, idx, text => ∃ sub, s.AbbrevCodes idx sub ∧ s.Decodes d sub text

theorem abbrevCodes_eq_ok : abbrevCodes idx s = .ok cs u ↔ u = s ∧ s.AbbrevCodes idx cs := by
  rw [abbrevCodes, M.bind_ok (gets_apply _ s), (keeps_memWord _).bind_eq_ok]
  simp only [memWord_eq_ok, true_and, and_assoc, exists_and_left, exists_eq_left, (keeps_zchars _).bind_pure_eq_ok]
  simp [zchars_eq_ok, State.AbbrevCodes, and_left_comm]

theorem State.Decodes.abbreviated {inner out : List Token} (h1 : 1 ≤ c.toNat) (h3 : c.toNat ≤ 3)
    (hinner : s.Expands d (abbrevIndex c n) inner) (hout : s.Decodes d cs out) :
    s.Decodes d (c :: n :: cs) (inner ++ out) := by
  cases d with
  | zero => exact hinner.elim
  | succ d =>
    obtain ⟨sub, ⟨hr, after, hcodes⟩, hsub⟩ := hinner
    exact .abbreviation d c n cs sub after inner out h1 h3 hr hcodes hsub hout

/-- Where the expander is sound, so is the decoder: each list that decodes is one of the relation's, and a malformed
one is fatal. -/
theorem decodes_of_zdecodeWith (hkeeps : ∀ idx, Keeps [] (expand idx))
    (hexpand : ∀ idx inner, expand idx s = .ok inner s → s.Expands d idx inner)
    (h : zdecodeWith expand cs s = .ok text s) : s.Decodes d cs text := by
  have hk := keeps_zdecodeWith hkeeps
  induction cs using zdecodeWith.induct generalizing text with
  | case1 =>
    obtain ⟨-, rfl⟩ := M.pure_eq_ok.1 (zdecodeWith_nil ▸ h)
    exact .empty d
  | case2 cs ih =>
    obtain ⟨-, out, hout, rfl⟩ := (hk cs).bind_pure_eq_ok.1 (zdecodeWith_space ▸ h)
    exact .space d cs out (ih hout)
  | case4 c h0 h3 n cs ih =>
    have h1 : 1 ≤ c.toNat := by bv_omega
    rw [zdecodeWith_abbreviation h1 h3, (hkeeps _).bind_eq_ok] at h
    obtain ⟨inner, hinner, h⟩ := h
    obtain ⟨-, out, hout, rfl⟩ := (hk cs).bind_pure_eq_ok.1 h
    exact .abbreviated h1 h3 (hexpand _ _ hinner) (ih hout)
  | case6 n cs _ _ ih =>
    obtain ⟨-, out, hout, rfl⟩ := (hk cs).bind_pure_eq_ok.1 (zdecodeWith_upper ▸ h)
    exact .upper d n cs out (ih hout)
  | case7 =>
    obtain ⟨-, rfl⟩ := M.pure_eq_ok.1 (zdecodeWith_padding ▸ h)
    exact .padding d
  | case8 cs =>
    obtain ⟨-, rfl⟩ := M.pure_eq_ok.1 (zdecodeWith_terminator ▸ h)
    exact .terminator d cs
  | case9 hi lo cs _ _ _ _ ih =>
    obtain ⟨-, out, hout, rfl⟩ := (hk cs).bind_pure_eq_ok.1 (zdecodeWith_escape ▸ h)
    exact .escape d hi lo cs out (ih hout)
  | case11 cs _ _ _ _ _ ih =>
    obtain ⟨-, out, hout, rfl⟩ := (hk cs).bind_pure_eq_ok.1 (zdecodeWith_newline ▸ h)
    exact .newline d cs out (ih hout)
  | case12 n cs _ _ _ h8 _ _ _ ih =>
    obtain ⟨-, out, hout, rfl⟩ := (hk cs).bind_pure_eq_ok.1 (zdecodeWith_punctuation h8 ▸ h)
    exact .punctuation d n cs out h8 (ih hout)
  | case14 c cs h0 h3 h4 h5 ih =>
    have h6 : 6 ≤ c.toNat := by bv_omega
    obtain ⟨-, out, hout, rfl⟩ := (hk cs).bind_pure_eq_ok.1 (zdecodeWith_lower h6 ▸ h)
    exact .lower d c cs out h6 (ih hout)
  | case3 | case5 | case10 | case13 =>
    rw [zdecodeWith.eq_def] at h
    simp [*] at h

/-- Where the expander answers each of the 96 abbreviations that stand for a text, the decoder answers each list that
does. -/
theorem zdecodeWith_of_decodes (h : s.Decodes d cs text)
    (hexpand : ∀ idx < 96, ∀ inner, s.Expands d idx inner → expand idx s = .ok inner s) :
    zdecodeWith expand cs s = .ok text s := by
  induction h with
  | empty => rw [zdecodeWith_nil]; rfl
  | padding => rw [zdecodeWith_padding]; rfl
  | terminator d cs => rw [zdecodeWith_terminator]; rfl
  | space d cs out _ ih => rw [zdecodeWith_space, M.bind_ok (ih hexpand)]; rfl
  | abbreviation d c n cs sub after inner out h1 h3 hr hcodes hsub _ _ ih =>
    have hidx : abbrevIndex c n < 96 := by rw [abbrevIndex]; omega
    rw [zdecodeWith_abbreviation h1 h3, M.bind_ok (hexpand _ hidx inner ⟨sub, ⟨hr, after, hcodes⟩, hsub⟩),
      M.bind_ok (ih hexpand)]
    rfl
  | upper d n cs out _ ih => rw [zdecodeWith_upper, M.bind_ok (ih hexpand)]; rfl
  | escape d hi lo cs out _ ih => rw [zdecodeWith_escape, M.bind_ok (ih hexpand)]; rfl
  | newline d cs out _ ih => rw [zdecodeWith_newline, M.bind_ok (ih hexpand)]; rfl
  | punctuation d n cs out h8 _ ih => rw [zdecodeWith_punctuation h8, M.bind_ok (ih hexpand)]; rfl
  | lower d c cs out h6 _ ih => rw [zdecodeWith_lower h6, M.bind_ok (ih hexpand)]; rfl

theorem zdecodeWith_eq_ok (hkeeps : ∀ idx, Keeps [] (expand idx))
    (hexpand : ∀ idx inner, expand idx s = .ok inner s ↔ s.Expands d idx inner) :
    zdecodeWith expand cs s = .ok text u ↔ u = s ∧ s.Decodes d cs text := by
  constructor
  · intro h
    obtain rfl := (keeps_zdecodeWith hkeeps cs).same_ok h
    exact ⟨rfl, decodes_of_zdecodeWith hkeeps (fun idx inner => (hexpand idx inner).1) h⟩
  · rintro ⟨rfl, h⟩
    exact zdecodeWith_of_decodes h fun idx _ inner => (hexpand idx inner).2

theorem not_tooDeep_eq_ok : tooDeep s ≠ .ok text u := by
  rw [tooDeep]
  split <;> nofun

theorem expandAbbrev_eq_ok : expandAbbrev d idx s = .ok text u ↔ u = s ∧ s.Expands d idx text := by
  induction d generalizing idx text u with
  | zero =>
    rw [expandAbbrev, (keeps_abbrevCodes idx).bind_eq_ok]
    simp [not_tooDeep_eq_ok, State.Expands]
  | succ d ih =>
    rw [expandAbbrev, (keeps_abbrevCodes idx).bind_eq_ok]
    have hin (idx : Nat) (inner : List Token) : expandAbbrev d idx s = .ok inner s ↔ s.Expands d idx inner := by
      rw [ih, eq_self, true_and]
    simp only [abbrevCodes_eq_ok, zdecodeWith_eq_ok (keeps_expandAbbrev d) hin, true_and, State.Expands,
      and_left_comm (b := u = s), exists_and_left]

theorem keeps_zdecode {K : List Kind} (cs : List Code) : Keeps K (zdecode cs) :=
  keeps_bind (keeps_gets _) fun _ => keeps_zdecodeWith (keeps_expandAbbrev _) cs

theorem zdecode_eq_ok : zdecode cs s = .ok text u ↔ u = s ∧ s.Decodes s.abbrevLevels cs text :=
  zdecodeWith_eq_ok (keeps_expandAbbrev s.abbrevLevels) fun _ _ => by rw [expandAbbrev_eq_ok, eq_self, true_and]

theorem decodeAt_eq_ok : decodeAt a s = .ok (text, after) u ↔ u = s ∧ s.TextAt a text after := by
  rw [decodeAt, (keeps_zchars a).bind_eq_ok]
  simp only [Prod.exists, (keeps_zdecode _).bind_pure_eq_ok, zchars_eq_ok, zdecode_eq_ok]
  simp [State.TextAt, and_left_comm]

/-- Settles O31, by induction on the nesting depth for the abbreviations and, at each depth, on the code list (what the
decoder answers is in the relation) and on the relation (what is in it the decoder answers). -/
theorem textDecodesByTheCodeRules : Obligations.TextDecodesByTheCodeRules := fun _ _ _ _ _ => decodeAt_eq_ok

end Sys2Proof.Machine
end

section
/-! How deep abbreviations can nest (R254, U19): each level can only add abbreviations that stand for a text, a level
that adds none is the last, and there are 96. -/

namespace Sys2Proof.Machine

variable {s : State} {d d' idx : Nat} {cs : List Code} {text : List Token}

/-! ### What stands for a text at two depths -/

/-- An abbreviation stands for at most one text. -/
theorem State.Expands.functional {t₁ t₂ : List Token} (h₁ : s.Expands d idx t₁) (h₂ : s.Expands d idx t₂) :
    t₁ = t₂ := by
  have hrun := (expandAbbrev_eq_ok.2 ⟨rfl, h₁⟩).symm.trans (expandAbbrev_eq_ok.2 ⟨rfl, h₂⟩)
  exact (EStateM.Result.ok.inj hrun).1

theorem State.Decodes.of_expands (h : s.Decodes d cs text)
    (hexpand : ∀ idx < 96, ∀ inner, s.Expands d idx inner → s.Expands d' idx inner) : s.Decodes d' cs text :=
  decodes_of_zdecodeWith (keeps_expandAbbrev d') (fun _ _ hin => (expandAbbrev_eq_ok.1 hin).2)
    (zdecodeWith_of_decodes h fun idx hidx inner hin => expandAbbrev_eq_ok.2 ⟨rfl, hexpand idx hidx inner hin⟩)

theorem State.Expands.succ (h : s.Expands d idx text) : s.Expands (d + 1) idx text := by
  induction d generalizing idx text with
  | zero => exact h.elim
  | succ d ih =>
    obtain ⟨sub, hsub, hdec⟩ := h
    exact ⟨sub, hsub, hdec.of_expands fun _ _ _ => ih⟩

theorem State.Expands.mono (hd : d ≤ d') (h : s.Expands d idx text) : s.Expands d' idx text :=
  Nat.le_induction h (fun _ _ => State.Expands.succ) d' hd

/-! ### The abbreviations that stand for a text -/

/-- The abbreviations that stand for some text where abbreviations nest so deep (R254). -/
def State.expandable (s : State) (d : Nat) : Set Nat := {idx | idx < 96 ∧ ∃ inner, s.Expands d idx inner}

theorem State.expandable_subset (s : State) (d : Nat) : s.expandable d ⊆ Set.Iio 96 := fun _ h => h.1

theorem State.expandable_finite (s : State) (d : Nat) : (s.expandable d).Finite :=
  (Set.finite_Iio 96).subset (s.expandable_subset d)

theorem State.expandable_mono (s : State) : Monotone s.expandable :=
  fun _ _ hd _ ⟨hidx, inner, h⟩ => ⟨hidx, inner, h.mono hd⟩

/-- A code list decodes at each depth where the same abbreviations stand for a text. -/
theorem State.Decodes.of_expandable_subset (h : s.Decodes d cs text)
    (hsub : s.expandable d ⊆ s.expandable d') : s.Decodes d' cs text := by
  refine h.of_expands fun idx hidx inner hin => ?_
  obtain ⟨-, inner', hin'⟩ := hsub ⟨hidx, inner, hin⟩
  rwa [(hin.mono (le_max_left d d')).functional (hin'.mono (le_max_right d d'))]

/-- Where one more level adds no abbreviation, the next adds none either. -/
theorem State.expandable_succ_eq (h : s.expandable d = s.expandable d') :
    s.expandable (d + 1) = s.expandable (d' + 1) := by
  have step {d d' : Nat} (h : s.expandable d ⊆ s.expandable d') : s.expandable (d + 1) ⊆ s.expandable (d' + 1) :=
    fun _ ⟨hidx, inner, sub, hsub, hdec⟩ => ⟨hidx, inner, sub, hsub, hdec.of_expandable_subset h⟩
  exact (step h.subset).antisymm (step h.superset)

/-- There are 96 abbreviations, so past depth 96 no level adds one. -/
theorem State.expandable_eq (s : State) (hd : 96 ≤ d) : s.expandable d = s.expandable 96 := by
  have hmono : Monotone fun d => (s.expandable d).ncard :=
    fun _ _ h => Set.ncard_le_ncard (s.expandable_mono h) (s.expandable_finite _)
  have hbound (d : Nat) : (s.expandable d).ncard ≤ 96 := by
    simpa using Set.ncard_le_ncard (s.expandable_subset d) (Set.finite_Iio 96)
  have heq {d d' : Nat} (hle : d ≤ d') (h : (s.expandable d).ncard = (s.expandable d').ncard) :
      s.expandable d = s.expandable d' :=
    Set.eq_of_subset_of_ncard_le (s.expandable_mono hle) h.ge (s.expandable_finite d')
  have hstable (d : Nat) (h : (s.expandable d).ncard = (s.expandable (d + 1)).ncard) :
      (s.expandable (d + 1)).ncard = (s.expandable (d + 2)).ncard := by
    rw [State.expandable_succ_eq (heq d.le_succ h)]
  exact (heq hd (Nat.stabilises_of_monotone hmono hbound hstable hd).symm).symm

/-- Settles O32: at depth 96 the same abbreviations stand for a text as at any greater depth. -/
theorem abbreviationNestingIsExact : Obligations.AbbreviationNestingIsExact := by
  intro s d cs text h
  refine h.of_expandable_subset ?_
  calc s.expandable d ⊆ s.expandable (max d 96) := s.expandable_mono (le_max_left d 96)
    _ = s.expandable 96 := s.expandable_eq (le_max_right d 96)

end Sys2Proof.Machine
end

section
/-! The codes of lower-case letters, spaces and digits (R253, R257, R258). -/

namespace Sys2Proof.Machine

theorem punct_digit : ∀ k : Fin 10, punct (BitVec.ofNat 5 (8 + k.val)) = BitVec.ofNat 16 (0x30 + k.val) := by decide

/-- Settles O33, by induction on the word: each code of it is one step of the relation. -/
theorem lettersSpacesDigitsRoundTrip : Obligations.LettersSpacesDigitsRoundTrip := by
  intro s d word hword
  induction word with
  | nil => exact .empty d
  | cons p word ih =>
    have hrest := ih fun q hq => hword q (List.mem_cons_of_mem p hq)
    rcases hword p List.mem_cons_self with ⟨k, rfl⟩ | rfl | ⟨k, rfl⟩
    · have hk : (BitVec.ofNat 5 (6 + k.val)).toNat = 6 + k.val := Nat.mod_eq_of_lt (by omega)
      have h := State.Decodes.lower d (BitVec.ofNat 5 (6 + k.val)) _ _ (by omega) hrest
      rwa [hk, ← Nat.add_assoc] at h
    · exact .space d _ _ hrest
    · have hk : 8 ≤ (BitVec.ofNat 5 (8 + k.val)).toNat := by rw [BitVec.toNat_ofNat, Nat.mod_eq_of_lt] <;> omega
      have h := State.Decodes.punctuation d _ _ _ hk hrest
      rwa [punct_digit] at h

end Sys2Proof.Machine
end

section
/-! The print instructions (R261 to R268): what each puts in its one request. -/

namespace Sys2Proof.Machine

variable {i : Instr} {s t u : State} {a after p : Nat} {text : List Token} {obj v : Word} {vs : List Word}

/-! ### Decimal numerals -/

/-- The digits of a positive number, given a bound on their count, are those of the shortest numeral (R267). -/
theorem digits_eq {count n : Nat} (hpos : 0 < n) (hlt : n < 10 ^ count) :
    digits count n = (Nat.digits 10 n).reverse.map fun d => Token.char (BitVec.ofNat 16 (0x30 + d)) := by
  induction count generalizing n with
  | zero => omega
  | succ count ih =>
    rw [digits, Nat.digits_def' (by decide) hpos, List.reverse_cons, List.map_append]
    congr 1
    split
    · next h => rw [h]; rfl
    · next h => exact ih (by omega) (by rw [Nat.div_lt_iff_lt_mul (by decide)]; exact hlt)

/-- A word has at most five digits, after a sign where it is negative (R267). -/
theorem decimal_eq (v : Word) : decimal (s16 v) = (if v.toInt < 0 then [Token.char 0x2D#16] else []) ++
    (if v = 0#16 then [Token.char 0x30#16]
     else (Nat.digits 10 v.toInt.natAbs).reverse.map fun d => Token.char (BitVec.ofNat 16 (0x30 + d))) := by
  by_cases h : v = 0#16
  · subst h
    rfl
  have hne : v.toInt ≠ 0 := fun hz => h (BitVec.eq_of_toInt_eq hz)
  have hlow := BitVec.le_toInt v
  have hhigh := BitVec.toInt_lt (x := v)
  rw [if_neg h, ← digits_eq (count := 5) (by omega) (by omega), decimal, s16]
  split <;> rfl

/-! ### Characters, numbers and new lines -/

/-- An instruction whose body is one request completes with it. -/
theorem exec_of_body_request {r : Request} (he : s.entered i = some (vs, t)) (hbody : bodyOf i vs = request r) :
    exec i s = .next (t.emit r) := by
  rw [exec_of_entered he, hbody]
  rfl

/-- Settles O35: each body is one request, and the numeral of `PRINT_NUM` is that of `Nat.digits`. -/
theorem charactersNumbersNewLines : Obligations.CharactersNumbersNewLines := by
  intro ops s t v more
  refine ⟨fun he => exec_of_body_request he rfl, fun he => exec_of_body_request he rfl, fun he => ?_⟩
  rw [← decimal_eq]
  exact exec_of_body_request he rfl

/-! ### Packed text -/

theorem printAt_ok (h : t.TextAt a text after) : printAt a t = .ok () (t.emit (.print text)) :=
  M.bind_ok (decodeAt_eq_ok.2 ⟨rfl, h⟩) _

theorem inlineText_ok (h : t.TextAt t.pc.toNat text after) :
    inlineText t = .ok text (t.setPc (BitVec.ofNat 32 after)) :=
  M.bind_ok (decodeAt_eq_ok.2 ⟨rfl, h⟩) _

/-- An instruction whose body prints the text at an address completes with one request for it. -/
theorem exec_of_body_printAt (he : s.entered i = some (vs, t)) (hbody : bodyOf i vs t = printAt a t)
    (h : t.TextAt a text after) : exec i s = .next (t.emit (.print text)) := by
  rw [exec_of_entered he, finish_congr hbody]
  exact finish_ok (printAt_ok h)

theorem propTable_ok (h0 : obj ≠ 0#16) (h : t.inRange (t.objAddr obj + t.cfg.geom.offProps) 2) :
    propTable obj t = .ok (t.wordAt (t.objAddr obj + t.cfg.geom.offProps)).toNat t := by
  rw [propTable, M.bind_ok (checkObject_ok h0 t), M.bind_ok (gets_apply _ t), memRead_ok h, State.wordAt_toNat]

/-- `PRINT_OBJ` looks at the length of the short name (R265). -/
theorem bodyOf_printObj {x : Operand} (h0 : v ≠ 0#16) (h : t.inRange (t.objAddr v + t.cfg.geom.offProps) 2)
    (hp : p = (t.wordAt (t.objAddr v + t.cfg.geom.offProps)).toNat) (hr : t.inRange p 1) :
    bodyOf (.printObj x) [v] t = (if t.mem.byte p = 0#8 then request (.print []) else printAt (p + 1)) t := by
  subst hp
  refine (M.bind_ok (propTable_ok h0 h) _).trans ((M.bind_ok (memRead_ok hr) _).trans ?_)
  rw [Memory.readBE_one]
  simp only [← BitVec.toNat_inj (y := 0#8), BitVec.toNat_zero]

/-- Settles O34: each body decodes its text, which O31 says is that of the relation, and makes its request. -/
theorem printsMakeOneRequest : Obligations.PrintsMakeOneRequest := by
  intro x s t u v text after
  refine ⟨fun he htext => ?print, fun he htext hret => ?printRet, fun he => exec_of_body_printAt he rfl,
    fun he => exec_of_body_printAt he rfl, fun p he h0 hr hp hr1 => ⟨fun hlen => ?empty, fun hlen htext => ?name⟩⟩
  case print =>
    rw [exec_of_entered he]
    exact finish_ok (M.bind_ok (inlineText_ok htext) _)
  case printRet =>
    rw [exec_of_entered he]
    exact finish_ok ((M.bind_ok (inlineText_ok htext) _).trans ((M.bind_ok (request_apply _ _) _).trans (ret_ok hret)))
  case empty =>
    rw [exec_of_entered he, finish_congr (bodyOf_printObj h0 hr hp hr1), if_pos hlen]
    rfl
  case name =>
    rw [exec_of_entered he, finish_congr (bodyOf_printObj h0 hr hp hr1), if_neg hlen]
    exact finish_ok (printAt_ok htext)

end Sys2Proof.Machine
end

section
/-! Calls, returns and the operand stack (R280 to R298), and the frame of the calls, of `SAVE` and of `RESTORE` (R281,
R328, R330): a call stores at most one 0 or puts a frame on the others, and `SAVE` and `RESTORE` make one request and
signal their success by a store or a branch. -/

namespace Sys2Proof.Machine

variable {i : Instr} {vs args : List Word} {s t u w : State} {routine v : Word} {n : Byte}

/-! ### Calls -/

/-- With its operands there, the body of a call instruction is the call operation on those it passes on. -/
theorem bodyOf_call (hi : callGroup i = true) (hlen : args.length + 1 = i.operands.length)
    (hmin : i.minOperands ≤ args.length + 1) :
    bodyOf i (routine :: args) = call routine (passedArgs i args) (wantsResult i) := by
  cases i with
  | call _ | callVs2 _ _ | callVn _ | callVn2 _ _ => rfl
  | call1s _ | call1n _ =>
    obtain rfl : args = [] := List.eq_nil_of_length_eq_zero (Nat.succ.inj hlen)
    rfl
  | call2s _ | call2n _ =>
    match args with
    | [] => exact absurd hmin (by decide : ¬ 2 ≤ 1)
    | _ :: _ => rfl
  | _ => cases hi

theorem minOperands_pos_of_callGroup (hi : callGroup i = true) : 0 < i.minOperands := by
  cases i with
  | call _ | call1s _ | call1n _ | call2s _ | call2n _ | callVs2 _ _ | callVn _ | callVn2 _ _ => exact Nat.succ_pos _
  | _ => cases hi

/-- Settles O36: each body is the call operation, which stores 0, does nothing or enters the routine. -/
theorem callsEnterTheRoutine : Obligations.CallsEnterTheRoutine := by
  intro i s t routine args hi he hmin
  rw [exec_of_entered he, bodyOf_call hi (State.entered_length he) hmin]
  refine ⟨fun h0 hw => ?nothing, fun u h0 hw hst => ?zero, fun h0 hc => finish_ok (call_ok h0 hc)⟩ <;> rw [h0, hw]
  case nothing => exact finish_ok (call_zero_noResult t _)
  case zero => exact finish_ok ((call_zero_result t _).trans (store_ok hst))

/-! ### Returns -/

theorem ret_bottom (hb : t.below = []) : ret v t = .error (.fatal .returnFromMain) t := by
  simp [ret, popFrame, hb]

/-- An instruction whose body comes to a return completes with it, or takes the fatal of the bottom frame. -/
theorem exec_of_body_ret (he : s.entered i = some (vs, t)) (hbody : bodyOf i vs t = ret v w) :
    (w.returned v = some u → exec i s = .next u) ∧
      (w.below = [] → exec i s = .next (takeFatal .returnFromMain w)) := by
  rw [exec_of_entered he]
  exact ⟨fun h => finish_ok (hbody.trans (ret_ok h)), fun h => finish_fatal (hbody.trans (ret_bottom h))⟩

/-- Settles O37: each body is a return, that of `RET_POPPED` after a pop. -/
theorem returnsResumeTheCaller : Obligations.ReturnsResumeTheCaller := fun _ _ _ _ _ _ =>
  ⟨fun he => exec_of_body_ret he rfl, fun he => exec_of_body_ret he rfl, fun he => exec_of_body_ret he rfl,
    fun he hst => exec_of_body_ret he (M.bind_ok (pop_ok hst) ret)⟩

/-! ### The operand stack -/

/-- Settles O38: each body is a push, a pop and what follows it, or nothing. -/
theorem stackInstructions : Obligations.StackInstructions := by
  intro ops s t u v w more rest
  refine ⟨fun he hl => ?push, fun he hst hput => ?pull, fun he hst => ?pop, fun he => ?nop⟩ <;>
    rw [exec_of_entered he]
  case push => exact finish_ok (push_ok hl)
  case pull => exact finish_ok ((M.bind_ok (pop_ok hst) _).trans (writeVarInPlace_ok hput))
  case pop => exact finish_ok (M.bind_ok (pop_ok hst) _)
  case nop => rfl

/-! ### What a call keeps -/

/-- How a call ends: with nothing changed (address 0 and no result wanted, or a fatal), with 0 stored, or in the
routine. -/
theorem endOf_call (routine : Word) (args : List Word) (want : Bool) (s : State) :
    endOf (call routine args want s) = s ∨
      (routine = 0#16 ∧ want = true ∧ endOf (call routine args want s) = endOf (store 0#16 s)) ∨
      endOf (call routine args want s) = s.called routine args want := by
  by_cases h0 : routine = 0#16
  · subst h0
    cases want with
    | true => exact .inr (.inl ⟨rfl, rfl, congrArg endOf (call_zero_result s args)⟩)
    | false => exact .inl (congrArg endOf (call_zero_noResult s args))
  · by_cases hc : s.callable routine
    · exact .inr (.inr (congrArg endOf (call_ok h0 hc)))
    · obtain ⟨c, h⟩ := call_fatal (args := args) (want := want) h0 hc
      exact .inl (congrArg endOf h)

/-- A frame was put on the others: memory is as it was, and so is the caller's frame but for its program counter and
popped words. -/
def State.FramePushed (s u : State) : Prop :=
  (∀ a, u.mem.byte a = s.mem.byte a) ∧
    ∃ caller, u.below = caller :: s.below ∧ caller.locals = s.top.locals ∧ caller.argc = s.top.argc ∧
      caller.storeResult = s.top.storeResult ∧ ∃ k, caller.stack = s.stack.drop k

theorem State.framePushed_pushFrame (h : s.FrameKept t) (f : Frame) : s.FramePushed (t.pushFrame f) :=
  ⟨h.mem, t.top, congrArg (t.top :: ·) h.below, h.locals, h.argc, h.storeResult, h.stack⟩

theorem State.quietlyKept_pushFrame (s : State) (f : Frame) : s.QuietlyKept (s.pushFrame f) :=
  ⟨⟨⟨rfl, rfl, rfl, rfl⟩, rfl, rfl, rfl, rfl, rfl⟩, rfl⟩

/-- The variable that the byte after the operands names, where an instruction has its store byte (R90, R104). -/
def State.resultVariable (s : State) (i : Instr) : Byte :=
  s.mem.byte (s.advance (i.headBytes + (encodeOperands i.operands).length)).pc.toNat

/-- The byte at the program counter when the body starts is the store byte. -/
theorem State.resultVariable_eq (he : s.entered i = some (vs, t)) : s.resultVariable i = t.mem.byte t.pc.toNat := by
  obtain ⟨j, rfl⟩ := State.entered_state he
  rfl

/-- What the frame of the calls says of one instruction. -/
structure State.CallKeeps (i : Instr) (s u : State) : Prop where
  quiet : s.QuietlyKept u
  kept : s.FrameKept u ∨
    (wantsResult i = true ∧ (∃ args t, s.entered i = some (0#16 :: args, t)) ∧
      s.AllButVariable (s.resultVariable i) u) ∨
    s.FramePushed u

theorem State.CallKeeps.takeFatal (h : s.CallKeeps i u) (c : Cause) : s.CallKeeps i (takeFatal c u) :=
  ⟨h.quiet.takeFatal c,
    h.kept.imp (·.takeFatal c) (.imp_left fun ⟨hw, he, hall⟩ => ⟨hw, he, hall.takeFatal c⟩)⟩

theorem bodyOf_callKeeps (hi : callGroup i = true) (he : s.entered i = some (vs, t)) :
    s.CallKeeps i (endOf (bodyOf i vs t)) := by
  obtain ⟨hframe, hquiet⟩ := State.entered_kept he
  have hlen := State.entered_length he
  rcases Nat.lt_or_ge vs.length i.minOperands with hlt | hmin
  · obtain ⟨o, -, hbody⟩ := bodyOf_missing hlen hlt
    rw [hbody]
    exact ⟨hquiet, .inl hframe⟩
  · obtain ⟨routine, args, rfl⟩ := List.exists_cons_of_length_pos ((minOperands_pos_of_callGroup hi).trans_le hmin)
    rw [bodyOf_call hi hlen hmin]
    rcases endOf_call routine (passedArgs i args) (wantsResult i) t with h | ⟨rfl, hwant, h⟩ | h <;> rw [h]
    · exact ⟨hquiet, .inl hframe⟩
    · refine ⟨hquiet.trans (Keeps.quietlyKept (keeps_store (by decide) _) t),
        .inr (.inl ⟨hwant, ⟨args, t, he⟩, ?_⟩)⟩
      rw [State.resultVariable_eq he]
      exact hframe.trans_allButVariable hquiet.specials.fixed.cfg (store_allButVariable _ t)
    · exact ⟨hquiet.trans (t.quietlyKept_pushFrame _), .inr (.inr (State.framePushed_pushFrame hframe _))⟩

theorem exec_callKeeps (hi : callGroup i = true) (hu : exec i s = .next u) : s.CallKeeps i u :=
  exec_end (P := s.CallKeeps i) (fun _ c h => h.takeFatal c)
    (fun k j => ⟨s.quietlyKept_advance_setStack k _, .inl (s.frameKept_advance_setStack k j)⟩)
    (fun _ _ he => bodyOf_callKeeps hi he) hu

/-! ### The request of `SAVE` and `RESTORE`, and their signal -/

theorem State.FixedKept.trans (h : s.FixedKept t) (h' : t.FixedKept u) : s.FixedKept u :=
  ⟨h'.memSize.trans h.memSize, h'.story.trans h.story, h'.cfg.trans h.cfg, h'.params.trans h.params⟩

theorem State.FixedKept.takeFatal (h : s.FixedKept u) (c : Cause) : s.FixedKept (takeFatal c u) :=
  ⟨h.memSize, h.story, h.cfg, h.params⟩

/-- The state once a reply was taken and the request made that carries it. -/
def State.replied (s : State) (inbox : Inbox) (draws : Nat) (r : Request) : State :=
  State.emit { s with inbox := inbox, draws := draws } r

theorem State.frameKept_replied (s : State) (inbox : Inbox) (draws : Nat) (r : Request) :
    s.FrameKept (s.replied inbox draws r) := ⟨fun _ => rfl, rfl, rfl, rfl, rfl, 0, rfl⟩

theorem checkDynamic_eq (s : State) : checkDynamic s = checkRange 0 s.cfg.staticBase.toNat s := rfl

theorem signalSuccess_of_late (h : s.late = true) (ok : Bool) :
    signalSuccess ok s = store (if ok then 1#16 else 0#16) s := by
  simp [signalSuccess, h]

theorem signalSuccess_of_not_late (h : s.late = false) (ok : Bool) : signalSuccess ok s = branch ok s := by
  simp [signalSuccess, h]

theorem signalSuccess_quietlyKept (ok : Bool) (s : State) : s.QuietlyKept (endOf (signalSuccess ok s)) :=
  Keeps.quietlyKept (keeps_signalSuccess (by decide) ok) s

/-- A signal keeps what its store keeps in a late version, and what its branch keeps in an early one. -/
structure State.SignalKeeps (n : Byte) (s u : State) : Prop where
  stored : s.late = true → s.AllButVariable n u
  branched : s.late = false → s.FrameKept u ∨ s.ReturnKeeps u

theorem State.FrameKept.signalKeeps (h : s.FrameKept u) (n : Byte) : s.SignalKeeps n u :=
  ⟨fun _ => h.allButVariable n, fun _ => .inl h⟩

theorem State.SignalKeeps.takeFatal (h : s.SignalKeeps n u) (c : Cause) : s.SignalKeeps n (takeFatal c u) :=
  ⟨fun hl => (h.stored hl).takeFatal c, fun hl => (h.branched hl).imp (·.takeFatal c) (·.takeFatal c)⟩

theorem State.SignalKeeps.after (hframe : s.FrameKept t) (hcfg : t.cfg = s.cfg) (h : t.SignalKeeps n u) :
    s.SignalKeeps n u := by
  obtain ⟨hstored, hbranched⟩ := h
  rw [State.late, hcfg] at hstored hbranched
  exact ⟨fun hl => hframe.trans_allButVariable hcfg (hstored hl),
    fun hl => (hbranched hl).imp hframe.trans (hframe.trans_returnKeeps hcfg)⟩

theorem signalSuccess_signalKeeps (ok : Bool) (s : State) :
    s.SignalKeeps (s.mem.byte s.pc.toNat) (endOf (signalSuccess ok s)) where
  stored hl := by
    rw [signalSuccess_of_late hl]
    exact store_allButVariable _ s
  branched hl := by
    rw [signalSuccess_of_not_late hl]
    exact branch_keeps ok s

/-! ### What `SAVE` keeps -/

/-- How `SAVE` ends: before it takes its reply, or with the signal of the reply it has made its request with. -/
theorem endOf_saveBody (s : State) : endOf (saveBody s) = s ∨ ∃ ok inbox draws,
    endOf (saveBody s) = endOf (signalSuccess ok (s.replied inbox draws (.save s.snapshot ok))) := by
  by_cases hr : s.inRange 0 s.cfg.staticBase.toNat
  · obtain ⟨ok, inbox, draws, htake⟩ : ∃ ok inbox draws,
        takeSaveReply s = .ok ok { s with inbox := inbox, draws := draws } := by
      obtain ⟨ok, _, htake, ⟨rest, -, rfl⟩ | ⟨-, rfl⟩⟩ := takeSaveReply_ok s <;> exact ⟨ok, _, _, htake⟩
    refine .inr ⟨ok, inbox, draws, congrArg endOf ?_⟩
    rw [saveBody, M.bind_ok ((checkDynamic_eq s).trans (checkRange_ok hr)), M.bind_ok (gets_apply _ s),
      M.bind_ok htake, M.bind_ok (request_apply _ _)]
    rfl
  · rw [saveBody, M.bind_error ((checkDynamic_eq s).trans (checkRange_fatal hr))]
    exact .inl rfl

/-- What the frame of `SAVE` says, `n` the variable of its result. -/
structure State.SaveKeeps (n : Byte) (s u : State) : Prop where
  fixed : s.FixedKept u
  readText : u.readText = s.readText
  readParse : u.readParse = s.readParse
  rng : u.rng = s.rng
  trace : u.trace = s.trace ∨ ∃ snap ok, u.trace = s.trace ++ [.save snap ok]
  signal : s.SignalKeeps n u

theorem State.SaveKeeps.takeFatal (h : s.SaveKeeps n u) (c : Cause) : s.SaveKeeps n (takeFatal c u) :=
  ⟨h.fixed.takeFatal c, h.readText, h.readParse, h.rng, h.trace, h.signal.takeFatal c⟩

/-- Where no request is made, `SAVE` has kept more than its frame asks. -/
theorem State.QuietlyKept.saveKeeps (h : s.QuietlyKept u) (hframe : s.FrameKept u) (n : Byte) : s.SaveKeeps n u :=
  ⟨h.specials.fixed, h.specials.readText, h.specials.readParse, h.specials.rng, .inl h.trace, hframe.signalKeeps n⟩

/-- Before the body, words may be popped and the program counter moved. -/
theorem State.SaveKeeps.after (hframe : s.FrameKept t) (hquiet : s.QuietlyKept t) (h : t.SaveKeeps n u) :
    s.SaveKeeps n u where
  fixed := hquiet.specials.fixed.trans h.fixed
  readText := h.readText.trans hquiet.specials.readText
  readParse := h.readParse.trans hquiet.specials.readParse
  rng := h.rng.trans hquiet.specials.rng
  trace := hquiet.trace ▸ h.trace
  signal := .after hframe hquiet.specials.fixed.cfg h.signal

theorem saveBody_saveKeeps (s : State) : s.SaveKeeps (s.mem.byte s.pc.toNat) (endOf (saveBody s)) := by
  rcases endOf_saveBody s with h | ⟨ok, inbox, draws, h⟩ <;> rw [h]
  · exact (State.QuietlyKept.refl s).saveKeeps (.refl s) _
  · obtain ⟨⟨⟨hsize, hstory, hcfg, hparams⟩, htext, hparse, hrng, -, -⟩, htrace⟩ :=
      signalSuccess_quietlyKept ok (s.replied inbox draws (.save s.snapshot ok))
    exact ⟨⟨hsize, hstory, hcfg, hparams⟩, htext, hparse, hrng, .inr ⟨_, _, htrace⟩,
      .after (s.frameKept_replied inbox draws _) rfl (signalSuccess_signalKeeps ok (s.replied inbox draws _))⟩

theorem exec_save_saveKeeps {form : SaveForm} (hu : exec (.save form) s = .next u) :
    s.SaveKeeps (s.resultVariable (.save form)) u :=
  exec_end (P := s.SaveKeeps (s.resultVariable (.save form))) (fun _ c h => h.takeFatal c)
    (fun k j => (s.quietlyKept_advance_setStack k _).saveKeeps (s.frameKept_advance_setStack k j) _)
    (fun _ t he => by
      obtain ⟨hframe, hquiet⟩ := State.entered_kept he
      rw [State.resultVariable_eq he]
      exact .after hframe hquiet (saveBody_saveKeeps t)) hu

/-! ### What `RESTORE` keeps -/

/-- The bytes at or above `STATIC_BASE` but for the globals are as they were. -/
def State.StaticKept (s u : State) : Prop :=
  ∀ a, s.cfg.staticBase.toNat ≤ a → ¬ (s.cfg.globals.toNat ≤ a ∧ a < s.cfg.globals.toNat + 480) →
    u.mem.byte a = s.mem.byte a

theorem State.StaticKept.trans (h : s.StaticKept t) (hcfg : t.cfg = s.cfg) (h' : t.StaticKept u) :
    s.StaticKept u := by
  intro a hstatic hglobals
  rw [State.StaticKept, hcfg] at h'
  exact (h' a hstatic hglobals).trans (h a hstatic hglobals)

theorem State.FrameKept.staticKept (h : s.FrameKept u) : s.StaticKept u := fun a _ _ => h.mem a

/-- There are 240 globals, 16 to 255 (R28). -/
theorem State.AllButVariable.staticKept (h : s.AllButVariable n u) : s.StaticKept u := by
  refine fun a _ hglobals => h.mem a fun ⟨hn, hlo, hhi⟩ => hglobals ?_
  have hlt := n.isLt
  rw [State.globalAddr] at hlo hhi
  omega

theorem State.ReturnKeeps.staticKept (h : s.ReturnKeeps u) : s.StaticKept u := by
  obtain ⟨caller, rest, -, -, hkept⟩ := h
  split at hkept
  · exact hkept.staticKept
  · exact fun a _ _ => hkept.1 a

theorem State.SignalKeeps.staticKept (h : s.SignalKeeps n u) : s.StaticKept u := by
  cases hl : s.late with
  | true => exact (h.stored hl).staticKept
  | false => exact (h.branched hl).elim (·.staticKept) (·.staticKept)

/-- Without a snapshot the machine accepts, `RESTORE` signals failure. -/
theorem restoreBody_refused {reply : Option Snapshot} (htake : takeRestoreReply s = .ok reply t)
    (hno : ∀ r ∈ reply, ¬ (t.emit (.restore reply)).accepts r = true) :
    restoreBody s = signalSuccess false (t.emit (.restore reply)) := by
  cases reply with
  | none => simp [restoreBody, htake]
  | some r => simp [restoreBody, htake, hno r rfl]

/-- A snapshot the machine accepts is put in place, and success is signalled at the program counter it holds. -/
theorem restoreBody_accepted {r : Snapshot} (htake : takeRestoreReply s = .ok (some r) t)
    (ha : (t.emit (.restore (some r))).accepts r = true) (hr : t.inRange 0 t.cfg.staticBase.toNat) :
    restoreBody s = signalSuccess true ((t.emit (.restore (some r))).restoreFrom r) := by
  simp [restoreBody, htake, ha, checkDynamic_eq, checkRange_ok (s := t.emit (.restore (some r))) hr]

theorem restoreBody_fatal {r : Snapshot} (htake : takeRestoreReply s = .ok (some r) t)
    (ha : (t.emit (.restore (some r))).accepts r = true) (hr : ¬ t.inRange 0 t.cfg.staticBase.toNat) :
    restoreBody s = .error (.fatal (.memRange 0)) (t.emit (.restore (some r))) := by
  simp [restoreBody, htake, ha, checkDynamic_eq, checkRange_fatal (s := t.emit (.restore (some r))) hr]

/-- How `RESTORE` ends once it has made its request: with the signal of failure, with a fatal before dynamic memory is
replaced, or with the signal of success in the restored state (R330). -/
theorem endOf_restoreBody (s : State) : ∃ reply inbox draws, ∃ w, w = s.replied inbox draws (.restore reply) ∧
    (endOf (restoreBody s) = endOf (signalSuccess false w) ∨ endOf (restoreBody s) = w ∨
      ∃ r, w.accepts r = true ∧ endOf (restoreBody s) = endOf (signalSuccess true (w.restoreFrom r))) := by
  obtain ⟨reply, inbox, draws, htake⟩ : ∃ reply inbox draws,
      takeRestoreReply s = .ok reply { s with inbox := inbox, draws := draws } := by
    obtain ⟨reply, _, htake, ⟨rest, -, rfl⟩ | ⟨-, rfl⟩⟩ := takeRestoreReply_ok s <;> exact ⟨reply, _, _, htake⟩
  refine ⟨reply, inbox, draws, _, rfl, ?_⟩
  by_cases hno : ∀ r ∈ reply, ¬ (s.replied inbox draws (.restore reply)).accepts r = true
  · exact .inl (congrArg endOf (restoreBody_refused htake hno))
  · push Not at hno
    obtain ⟨r, rfl, ha⟩ := hno
    by_cases hr : s.inRange 0 s.cfg.staticBase.toNat
    · exact .inr (.inr ⟨r, ha, congrArg endOf (restoreBody_accepted htake ha hr)⟩)
    · exact .inr (.inl (congrArg endOf (restoreBody_fatal htake ha hr)))

/-- What the frame of `RESTORE` says. -/
structure State.RestoreKeeps (s u : State) : Prop where
  fixed : s.FixedKept u
  rng : u.rng = s.rng
  trace : u.trace = s.trace ∨ ∃ reply, u.trace = s.trace ++ [.restore reply]
  static : s.StaticKept u

theorem State.RestoreKeeps.takeFatal (h : s.RestoreKeeps u) (c : Cause) : s.RestoreKeeps (takeFatal c u) :=
  ⟨h.fixed.takeFatal c, h.rng, h.trace, h.static⟩

/-- Where no request is made, `RESTORE` has kept more than its frame asks. -/
theorem State.QuietlyKept.restoreKeeps (h : s.QuietlyKept u) (hframe : s.FrameKept u) : s.RestoreKeeps u :=
  ⟨h.specials.fixed, h.specials.rng, .inl h.trace, hframe.staticKept⟩

/-- Before the body, words may be popped and the program counter moved. -/
theorem State.RestoreKeeps.after (hframe : s.FrameKept t) (hquiet : s.QuietlyKept t) (h : t.RestoreKeeps u) :
    s.RestoreKeeps u where
  fixed := hquiet.specials.fixed.trans h.fixed
  rng := h.rng.trans hquiet.specials.rng
  trace := hquiet.trace ▸ h.trace
  static := hframe.staticKept.trans hquiet.specials.fixed.cfg h.static

/-- A snapshot put in place after the request: an accepted one is as long as dynamic memory (R327). -/
theorem State.RestoreKeeps.restored {r : Snapshot} (h : s.RestoreKeeps t) (ha : t.accepts r = true) :
    s.RestoreKeeps (t.restoreFrom r) := by
  obtain ⟨hlen, -⟩ := State.accepts_iff.1 ha
  obtain ⟨top, below, -, heq⟩ := State.restoreFrom_eq ha
  rw [heq]
  refine ⟨h.fixed.trans ⟨rfl, rfl, rfl, rfl⟩, h.rng, h.trace, h.static.trans h.fixed.cfg fun a hstatic _ =>
    Memory.byte_setBytes_other _ _ _ (.inr ?_)⟩
  rwa [hlen, Nat.zero_add]

/-- The signal writes no memory but a global, and leaves the special registers and the requests alone. -/
theorem State.RestoreKeeps.signalled (h : s.RestoreKeeps t) (ok : Bool) :
    s.RestoreKeeps (endOf (signalSuccess ok t)) := by
  obtain ⟨⟨hfixed, -, -, hrng, -, -⟩, htrace⟩ := signalSuccess_quietlyKept ok t
  exact ⟨h.fixed.trans hfixed, hrng.trans h.rng, htrace ▸ h.trace,
    h.static.trans h.fixed.cfg (signalSuccess_signalKeeps ok t).staticKept⟩

theorem State.restoreKeeps_replied (s : State) (inbox : Inbox) (draws : Nat) (reply : Option Snapshot) :
    s.RestoreKeeps (s.replied inbox draws (.restore reply)) :=
  ⟨⟨rfl, rfl, rfl, rfl⟩, rfl, .inr ⟨reply, rfl⟩, fun _ _ _ => rfl⟩

theorem restoreBody_restoreKeeps (s : State) : s.RestoreKeeps (endOf (restoreBody s)) := by
  obtain ⟨reply, inbox, draws, w, hw, hend⟩ := endOf_restoreBody s
  have hkept : s.RestoreKeeps w := hw ▸ s.restoreKeeps_replied inbox draws reply
  rcases hend with h | h | ⟨r, ha, h⟩ <;> rw [h]
  · exact hkept.signalled false
  · exact hkept
  · exact (hkept.restored ha).signalled true

theorem exec_restore_restoreKeeps {form : SaveForm} (hu : exec (.restore form) s = .next u) : s.RestoreKeeps u :=
  exec_end (P := s.RestoreKeeps) (fun _ c h => h.takeFatal c)
    (fun k j => (s.quietlyKept_advance_setStack k _).restoreKeeps (s.frameKept_advance_setStack k j))
    (fun _ t he => by
      obtain ⟨hframe, hquiet⟩ := State.entered_kept he
      exact .after hframe hquiet (restoreBody_restoreKeeps t)) hu

/-- Settles O54: a call stores one 0 or enters its routine, `SAVE` makes its request and signals, and `RESTORE` replaces
dynamic memory between the two; a signal writes no memory but a global. -/
theorem callsSaveRestoreKeepTheRest : Obligations.CallsSaveRestoreKeepTheRest := by
  intro i s u hu
  refine ⟨fun hi => ?call, fun form hi => ?save, fun form hi => ?restore⟩
  case call =>
    obtain ⟨⟨hspecials, htrace⟩, hkept⟩ := exec_callKeeps hi hu
    exact ⟨hspecials, htrace, hkept⟩
  case save =>
    subst hi
    obtain ⟨hfixed, htext, hparse, hrng, htrace, hstored, hbranched⟩ := exec_save_saveKeeps hu
    exact ⟨hfixed, htext, hparse, hrng, htrace, hstored, hbranched⟩
  case restore =>
    subst hi
    obtain ⟨hfixed, hrng, htrace, hstatic⟩ := exec_restore_restoreKeeps hu
    exact ⟨hfixed, hrng, htrace, hstatic⟩

end Sys2Proof.Machine
end

section
/-! The host port's instructions (R312, R314, R316, R318 to R335) and the written form of memories (R20): requests with
operands or replies, results drawn or replied, the snapshot handed over, taken back or put back where it was taken, and
the story loaded again. -/

namespace Sys2Proof.Machine

variable {i : Instr} {vs more : List Word} {s t t' u w : State} {top : Frame} {below : List Frame} {r : Snapshot}
  {ok : Bool} {range : Word}

/-! ### The written form of a memory -/

/-- Settles O8: a canonical list is found entry by entry from its bytes, and each byte written keeps the order and lists
no 0. -/
theorem canonicalMemoriesAreDeterminedByTheirBytes : Obligations.CanonicalMemoriesAreDeterminedByTheirBytes :=
  ⟨fun _ _ hwf hwf' hbytes => Memory.wf_ext hwf hwf' hbytes, fun _ a n v hwf => Memory.wf_writeBE hwf a n v⟩

/-- A canonical memory with other bytes from address 0 on is the one that writing them gives. -/
theorem Memory.eq_setBytes_zero {m m' : Memory} {bs : List Byte} (hm : m.wf) (hm' : m'.wf)
    (h : ∀ a, m'.byte a = if a < bs.length then bs.getD a 0#8 else m.byte a) : m' = m.setBytes 0 bs := by
  refine Memory.wf_ext hm' (Memory.wf_setBytes hm 0 bs) fun a => ?_
  rw [h]
  split
  · next ha =>
    have hinside := Memory.byte_setBytes_inside m 0 bs ha
    rw [Nat.zero_add] at hinside
    rw [hinside, List.getD_eq_getElem _ _ ha]
  · exact (Memory.byte_setBytes_other m 0 bs (.inr (by omega))).symm

/-- Writing back the bytes a canonical memory has gives the same memory. -/
theorem Memory.setBytes_bytes {m : Memory} (h : m.wf) (a n : Nat) : m.setBytes a (m.bytes a n) = m :=
  Memory.wf_ext (Memory.wf_setBytes h a _) h (Memory.byte_setBytes_bytes m a n)

/-! ### Replies and draws -/

/-- However a reply is come by, the queues and the count of draws are all that changes (R312). -/
theorem State.eq_of_reply {ρ : Type} {queued : ρ → Prop} {empty : Prop} {left : ρ → Inbox}
    (h : (∃ rest, queued rest ∧ t' = { t with inbox := left rest }) ∨ empty ∧ t' = { t with draws := t.draws + 1 }) :
    ∃ inbox draws, t' = { t with inbox := inbox, draws := draws } := by
  rcases h with ⟨rest, -, rfl⟩ | ⟨-, rfl⟩
  · exact ⟨left rest, t.draws, rfl⟩
  · exact ⟨t.inbox, t.draws + 1, rfl⟩

/-- A draw from 1 to a positive range is a positive word of at most that range (R335). -/
theorem one_add_mod_bounds (h : 0 < range.toInt) (k : Nat) :
    1 ≤ (BitVec.ofNat 16 (1 + k % range.toNat)).toInt ∧
      (BitVec.ofNat 16 (1 + k % range.toNat)).toInt ≤ range.toInt := by
  have hsmall : 2 * range.toNat < 2 ^ 16 := by
    have hlt := range.isLt
    rw [BitVec.toInt_eq_toNat_cond] at h
    split at h <;> omega
  have hrange : range.toInt = range.toNat := BitVec.toInt_eq_toNat_of_lt hsmall
  have hmod : k % range.toNat < range.toNat := Nat.mod_lt _ (by omega)
  have hdraw : (BitVec.ofNat 16 (1 + k % range.toNat)).toNat = 1 + k % range.toNat :=
    Nat.mod_eq_of_lt (by omega)
  rw [BitVec.toInt_eq_toNat_of_lt (by omega), hdraw]
  omega

theorem bodyOf_random_of_pos {ops : List Operand} (h : 0 < range.toInt) :
    bodyOf (.random ops) (range :: more) = (do store (← drawRandom range.toNat)) := if_pos h

theorem bodyOf_random_of_nonpos {ops : List Operand} (h : range.toInt ≤ 0) :
    bodyOf (.random ops) (range :: more) = (do update (·.reseed (-(s16 range))); store 0#16) :=
  if_neg (Int.not_lt.2 h)

/-- Settles O40: a reply or a draw is taken, and the word it gives is stored. -/
theorem drawnResultsAreStored : Obligations.DrawnResultsAreStored := by
  intro ops s t vs more range
  refine ⟨fun he => ?reply, fun he hpos => ?draw, fun he hnonpos => ?reseed⟩ <;> rw [exec_of_entered he]
  case reply =>
    obtain ⟨k, t', htake, hreply⟩ := takeKey_ok t
    exact ⟨k, t', hreply, fun u hst =>
      finish_ok ((M.bind_ok htake _).trans ((M.bind_ok (request_apply _ _) _).trans (store_ok hst)))⟩
  case draw =>
    obtain ⟨hlow, hhigh⟩ := one_add_mod_bounds hpos (Config.randomDraw t.rng t.draws)
    rw [bodyOf_random_of_pos hpos]
    exact ⟨_, _, hlow, hhigh, fun u hst => finish_ok ((M.bind_ok rfl _).trans (store_ok hst))⟩
  case reseed =>
    rw [bodyOf_random_of_nonpos hnonpos]
    exact ⟨_, fun u hst => finish_ok ((M.bind_ok (update_apply _ _) _).trans (store_ok hst))⟩

/-! ### `RESTORE` and `SAVE` -/

/-- An instruction that comes to the signal of its success completes with that branch or that store (R328, R330). -/
theorem exec_of_body_signal (he : s.entered i = some (vs, t)) (hbody : bodyOf i vs t = signalSuccess ok w) :
    (w.late = false → w.branched ok = some u → exec i s = .next u) ∧
      (w.late = true → w.stored (if ok then 1#16 else 0#16) = some u → exec i s = .next u) := by
  rw [exec_of_entered he]
  exact ⟨fun hl hb => finish_ok (hbody.trans ((signalSuccess_of_not_late hl ok).trans (branch_ok hb))),
    fun hl hst => finish_ok (hbody.trans ((signalSuccess_of_late hl ok).trans (store_ok hst)))⟩

/-- A snapshot with a top frame put in place (R330). -/
theorem State.restoreFrom_of_frames (hf : r.frames.reverse = top :: below) : s.restoreFrom r =
    { s with mem := s.mem.setBytes 0 r.dyn, top := top, below := below,
             readParse := r.readParse, readText := r.readText } := by
  simp [State.restoreFrom, State.setFrames, hf]

/-- Settles O44: without an acceptable snapshot the body comes to the signal of failure, and with one to that of success
in the restored state. -/
theorem restoreReplacesOrReports : Obligations.RestoreReplacesOrReports := by
  intro form s t vs he
  obtain ⟨reply, t', htake, hreply⟩ := takeRestoreReply_ok t
  refine ⟨reply, t', hreply, ?_⟩
  obtain ⟨inbox, draws, rfl⟩ := State.eq_of_reply hreply
  rintro _ u rfl
  refine ⟨fun hno => ?failure, fun r top below m hr hdyn hrange hframes hdepth hall hwf hm hbytes => ?success⟩
  case failure =>
    exact exec_of_body_signal he (restoreBody_refused htake fun r hr => ne_true_of_eq_false (hno r hr))
  case success =>
    subst hr
    have hne : r.frames ≠ [] := fun hnil => by simp [hnil] at hframes
    have hbody := restoreBody_accepted htake (State.accepts_iff.2 ⟨hdyn, hne, hdepth, hall⟩) hrange
    rw [State.restoreFrom_of_frames hframes] at hbody
    obtain rfl := Memory.eq_setBytes_zero hwf hm hbytes
    exact exec_of_body_signal he hbody

/-- The snapshot is taken before the reply, and the request carries it (R329). -/
theorem saveBody_ok (hr : t.inRange 0 t.cfg.staticBase.toNat) (htake : takeSaveReply t = .ok ok t') :
    saveBody t = signalSuccess ok (t'.emit (.save t.snapshot ok)) := by
  rw [saveBody, M.bind_ok ((checkDynamic_eq t).trans (checkRange_ok hr)), M.bind_ok (gets_apply _ t),
    M.bind_ok htake, M.bind_ok (request_apply _ _)]

/-- Settles O43: the body hands the snapshot over and comes to the signal of the reply. -/
theorem saveHandsOverTheSnapshot : Obligations.SaveHandsOverTheSnapshot := by
  intro form s t vs he hr
  obtain ⟨ok, t', htake, hreply⟩ := takeSaveReply_ok t
  refine ⟨ok, t', hreply, ?_⟩
  obtain ⟨inbox, draws, rfl⟩ := State.eq_of_reply hreply
  rintro _ _ u rfl rfl
  exact exec_of_body_signal he (saveBody_ok hr htake)

/-- Settles O45: the frames of the snapshot are those of the state, and its bytes are those of the memory, whose written
form they determine. -/
theorem restoringItsOwnSnapshotIsTheIdentity : Obligations.RestoringItsOwnSnapshotIsTheIdentity := by
  intro s hwf
  have hframes : s.snapshot.frames.reverse = s.top :: s.below := by simp [State.snapshot, State.frames]
  rw [State.restoreFrom_of_frames hframes, State.snapshot, Memory.setBytes_bytes hwf]

/-! ### Requests without a reply -/

/-- Settles O39: each body is one request, or the fatal of a sound number that has no request. -/
theorem screenRequestsPassTheirOperands : Obligations.ScreenRequestsPassTheirOperands := by
  intro args ops s t v w x more
  refine ⟨fun he => exec_of_body_request he rfl, fun he => exec_of_body_request he rfl,
    fun he => exec_of_body_request he rfl, fun he => exec_of_body_request he rfl,
    fun he => exec_of_body_request he rfl, fun he => exec_of_body_request he rfl,
    fun he => exec_of_body_request he rfl, fun he => exec_of_body_request he rfl,
    fun he => exec_of_body_request he rfl, fun he hsound => exec_of_body_request he (if_pos hsound),
    fun he h1 h2 => ?fatal⟩
  case fatal =>
    have hbody : bodyOf (.soundEffect ops) (v :: more) = raise (.invalidSoundEffect v) :=
      if_neg (not_or.2 ⟨h1, h2⟩)
    rw [exec_of_entered he, hbody]
    exact finish_fatal (raise_apply _ t)

/-- Settles O41: the addresses are recorded, the maximum is read, and the request is made before `RUN` changes. -/
theorem readSuspends : Obligations.ReadSuspends := by
  intro ops s t text parse more he hr
  have hmax : memByte text.toNat { t with readText := text, readParse := parse } =
      .ok (t.mem.byte text.toNat) { t with readText := text, readParse := parse } := memByte_ok hr
  rw [exec_of_entered he]
  exact finish_ok ((M.bind_ok (update_apply _ _) _).trans ((M.bind_ok hmax _).trans
    ((M.bind_ok (request_apply _ _) _).trans (update_apply _ _))))

/-- With a whole header the registers are latched from the story put back in memory (R333, R381, R382). -/
theorem bodyOf_restart (h : 64 ≤ t.memSize) : bodyOf .restart vs t = .ok ()
    { t with mem := t.story, cfg := latchedFrom t.story, top := initialFrame (latchedFrom t.story).pc0, below := [],
             readText := 0#16, readParse := 0#16 } := by
  have hheader : State.inRange { t with mem := t.story } 0 26 := by
    show 0 + 26 ≤ t.memSize
    omega
  exact (M.bind_ok (update_apply _ _) _).trans ((M.bind_ok (relatch_ok hheader) _).trans (update_apply _ _))

/-- Settles O46: `QUIT` makes its request and halts; `RESTART` writes every field but those it is said to keep. -/
theorem quitHaltsAndRestartReloads : Obligations.QuitHaltsAndRestartReloads := by
  intro s t
  refine ⟨fun he => ?quit, fun he hsize => ?restart⟩ <;> rw [exec_of_entered he]
  case quit => exact finish_ok ((M.bind_ok (request_apply _ _) _).trans (update_apply _ _))
  case restart =>
    obtain ⟨j, rfl⟩ := State.entered_state he
    exact finish_ok (bodyOf_restart hsize)

end Sys2Proof.Machine
end

section
/-! The completion of the input (R315, R334): the line is written into the text buffer, and what follows writes no byte
but those of the parse buffer and, in a late version, of one global. -/

namespace Sys2Proof.Machine

variable {s u : State} {a n p x : Nat} {v : Word} {bs line text : List Byte} {toks : List LineToken}

/-! ### The line written -/

theorem memRead_eq_ok : memRead a n s = .ok x u ↔ u = s ∧ s.inRange a n ∧ x = s.mem.readBE a n := by
  by_cases h : s.inRange a n
  · rw [memRead_ok h, ← M.pure_apply, M.pure_eq_ok]
    simp only [h, true_and]
  · simp [memRead_fatal h, h]

theorem memWrite_eq_ok (h : memWrite a n x s = .ok () u) : u = s.writeMem a n x := by
  by_cases hr : s.inRange a n
  · rw [memWrite_ok hr] at h
    cases h
    rfl
  · rw [memWrite_fatal hr] at h
    cases h

theorem State.writeMem_one (s : State) (a x : Nat) :
    s.writeMem a 1 x = { s with mem := s.mem.setByte a (BitVec.ofNat 8 x) } := rfl

theorem writeBytes_eq_ok (h : writeBytes a bs s = .ok () u) : u = { s with mem := s.mem.setBytes a bs } := by
  induction bs generalizing a s with
  | nil =>
    cases h
    rfl
  | cons b bs ih =>
    obtain ⟨⟨⟩, w, hb, hbs⟩ := M.bind_eq_ok h
    rw [memWrite_eq_ok hb, State.writeMem_one, BitVec.ofNat_toNat, BitVec.setWidth_eq] at hbs
    exact ih hbs

/-- The line as it is put into the text buffer: lower case, cut to the maximum that stands there (R315). -/
def State.typedText (s : State) (line : List Byte) : List Byte :=
  (line.map lowerCase).take (s.mem.byte s.readText.toNat).toNat

/-- The state with a text in its text buffer, in the convention of its version (R334). -/
def State.withText (s : State) (text : List Byte) : State :=
  { s with mem :=
      if s.late then s.mem.setBytes (s.readText.toNat + 1) (BitVec.ofNat 8 text.length :: text)
      else s.mem.setBytes (s.readText.toNat + 1) (text ++ [0#8]) }

theorem writeLine_eq_ok (h : writeLine s.readText.toNat text s = .ok () u) : u = s.withText text := by
  obtain ⟨late, w, hlate, h⟩ := M.bind_eq_ok h
  cases hlate
  unfold State.withText
  split at h
  · next hl =>
    obtain ⟨⟨⟩, w, hlen, htext⟩ := M.bind_eq_ok h
    rw [memWrite_eq_ok hlen, State.writeMem_one] at htext
    rw [if_pos hl, writeBytes_eq_ok htext, Memory.setBytes]
  · next hl =>
    rw [if_neg hl]
    exact writeBytes_eq_ok h

/-! ### What follows the line -/

/-- The completion of the input once the line is written: the parse buffer, the result, the run state (R315). -/
def parseAndResume (p : Nat) (text : List Byte) : M Unit := do
  let m := min (tokensOf text).length (← memRead p 1)
  memWrite (p + 1) 1 m
  writeTokens (p + 2) ((tokensOf text).take m)
  if (← gets (·.late)) then store 13#16
  update (·.setRun .running)

/-- Where the input is completed, the line was written and the rest has run from there. -/
theorem completeInput_eq_ok (h : completeInput line s = .ok () u) :
    parseAndResume s.readParse.toNat (s.typedText line) (s.withText (s.typedText line)) = .ok () u := by
  rw [completeInput, M.bind_ok (gets_apply _ s), M.bind_ok (gets_apply _ s)] at h
  obtain ⟨max, hmax, h⟩ := (keeps_memRead _ _).bind_eq_ok.1 h
  obtain ⟨-, -, rfl⟩ := memRead_eq_ok.1 hmax
  rw [Memory.readBE_one] at h
  obtain ⟨⟨⟩, w, hline, h⟩ := M.bind_eq_ok h
  rw [writeLine_eq_ok hline] at h
  exact h

/-- Each token takes four bytes of the parse buffer (R315). -/
theorem writeTokens_leavesByte (h : a < p ∨ p + 4 * toks.length ≤ a) : LeavesByte a (writeTokens p toks) s := by
  induction toks generalizing p s with
  | nil => rfl
  | cons tok toks ih =>
    rw [List.length_cons] at h
    refine leavesByte_bind (keeps_dictLookup _) fun entry _ => leavesByte_seq (memWrite_leavesByte (by omega)) fun _ =>
      leavesByte_seq (memWrite_leavesByte (by omega)) fun _ => leavesByte_gets
        (leavesByte_seq (memWrite_leavesByte (by omega)) fun _ => ih (by omega))

/-- There are 240 globals, 16 to 255 (R28). -/
theorem State.globalBytes_bounds {n : Byte} (h : s.globalBytes n a) :
    s.cfg.globals.toNat ≤ a ∧ a < s.cfg.globals.toNat + 480 := by
  obtain ⟨hn, hlow, hhigh⟩ := h
  have hlt := n.isLt
  rw [State.globalAddr] at hlow hhigh
  omega

theorem store_leavesByte (h : ¬ (s.cfg.globals.toNat ≤ a ∧ a < s.cfg.globals.toNat + 480)) :
    LeavesByte a (store v) s :=
  (store_allButVariable v s).mem a fun hbytes => h (State.globalBytes_bounds hbytes)

/-- The parse buffer has one byte for the count of its tokens and at most 255 tokens; the result is a global or no byte
of memory. -/
theorem parseAndResume_leavesByte (hparse : ¬ (p + 1 ≤ a ∧ a < p + 2 + 4 * 255))
    (hglobals : ¬ (s.late = true ∧ s.cfg.globals.toNat ≤ a ∧ a < s.cfg.globals.toNat + 480)) :
    LeavesByte a (parseAndResume p text) s := by
  refine leavesByte_bind (keeps_memRead _ _) fun n hn => ?_
  obtain ⟨-, -, rfl⟩ := memRead_eq_ok.1 hn
  have hcount := s.mem.readBE_lt p 1
  generalize hm : min (tokensOf text).length (s.mem.readBE p 1) = m
  have htoks : ((tokensOf text).take m).length ≤ m := List.length_take_le _ _
  have hcfg : (endOf (writeTokens (p + 2) ((tokensOf text).take m) (endOf (memWrite (p + 1) 1 m s)))).cfg = s.cfg :=
    ((Keeps.quietlyKept (keeps_memWrite (by decide) _ _ _) s).trans
      (Keeps.quietlyKept (keeps_writeTokens (by decide) _ _) _)).specials.fixed.cfg
  refine leavesByte_seq (memWrite_leavesByte (by omega)) fun _ =>
    leavesByte_seq (writeTokens_leavesByte (by omega)) fun _ => leavesByte_gets ?_
  rw [State.late, ← hcfg] at hglobals
  split
  · next hl => exact leavesByte_seq (store_leavesByte fun hin => hglobals ⟨hl, hin⟩) fun _ => rfl
  · rfl

/-- Settles O42: a completion without a fatal has written the line, and what follows leaves the byte. -/
theorem inputDoneCompletesTheRead : Obligations.InputDoneCompletesTheRead := by
  refine fun line s => ⟨fun hrun => if_neg hrun, fun u text a hrun hu hfatal htext hparse hglobals => ?completed⟩
  case completed =>
    obtain rfl : text = s.typedText line := htext
    have hrunning : u.run = .running := (inputDone_run hu).resolve_right fun ⟨c, hc⟩ => hfatal c hc
    rw [inputDone_waiting hrun] at hu
    have hrest := completeInput_eq_ok (finish_running hu hrunning)
    have hleft : LeavesByte a (parseAndResume s.readParse.toNat (s.typedText line)) (s.withText (s.typedText line)) :=
      parseAndResume_leavesByte hparse hglobals
    rw [LeavesByte, hrest] at hleft
    exact ⟨hrunning, hleft⟩

end Sys2Proof.Machine
end
